-- ==== Sys2Proof/Word.lean ====
section
/-! DEFINITION. The word types of the block (spec 00_scope R15): unsigned integers of fixed width. -/

namespace Sys2Proof

/-- `u8`. -/
abbrev Byte := BitVec 8
/-- `u16`. -/
abbrev U16 := BitVec 16
/-- `u24`, the width of the wire's exposure and dark time (R84). -/
abbrev U24 := BitVec 24
/-- `u32`. -/
abbrev U32 := BitVec 32
/-- `u64`, the width of the clock (R21, R248). -/
abbrev U64 := BitVec 64

/-- One 64-byte transfer, as its bytes in offset order (R53, R59). The length is kept by the operations that make
frames; `State.ShapeInv` says so. -/
abbrev Frame := List Byte

/-- A raster: its pixels in increasing pixel index `p = y*W + x` (R54). -/
abbrev Raster := List Byte

end Sys2Proof
end

