-- ==== Sys2Proof/Machine/Bytes.lean ====
section
/-! DEFINITION. Byte strings: little-endian fields (R15, R55, R56), padding to a fixed size, cutting into pieces,
division rounded up. -/

namespace Sys2Proof

/-- `le16(v)` (R15): least significant byte first. -/
def le16 (v : U16) : List Byte := [v.extractLsb' 0 8, v.extractLsb' 8 8]

/-- `le24(v)` (R15). -/
def le24 (v : U24) : List Byte := [v.extractLsb' 0 8, v.extractLsb' 8 8, v.extractLsb' 16 8]

/-- `le32(v)` (R15). -/
def le32 (v : U32) : List Byte :=
  [v.extractLsb' 0 8, v.extractLsb' 8 8, v.extractLsb' 16 8, v.extractLsb' 24 8]

/-- The 16-bit value of two bytes, the first the least significant. -/
def of16 (a b : Byte) : U16 := b ++ a

/-- The 24-bit value of three bytes, the first the least significant. -/
def of24 (a b c : Byte) : U24 := c ++ (b ++ a)

/-- The 32-bit value of four bytes, the first the least significant. -/
def of32 (a b c d : Byte) : U32 := d ++ (c ++ (b ++ a))

/-- `zeros(n)` (R15). -/
def zeros (n : Nat) : List Byte := List.replicate n 0

/-- `b` cut or zero-padded to exactly `n` bytes (R75, R76: "the last frame is zero-padded to 64"). -/
def fitTo (n : Nat) (b : List Byte) : List Byte := (b ++ zeros n).take n

/-- `ceil(a/b)` (R15). -/
def ceilDiv (a b : Nat) : Nat := (a + b - 1) / b

/-- `satsub(a, b)` (R15); Nat subtraction is it. -/
def satsub (a b : Nat) : Nat := a - b

/-- `l` cut into pieces of `n` elements, the last one possibly shorter; `fuel` bounds the number of pieces. -/
def piecesOf {α : Type} (n : Nat) : Nat → List α → List (List α)
  | 0, _ => []
  | _ + 1, [] => []
  | fuel + 1, x :: xs => (x :: xs).take n :: piecesOf n fuel ((x :: xs).drop n)

/-- `l` cut into pieces of `n` elements (`n ≥ 1`), in order, no piece empty (R105, R149). -/
def pieces {α : Type} (n : Nat) (l : List α) : List (List α) := piecesOf n l.length l

/-- A clock value moved forward by `n` milliseconds. The count does not wrap (R248): it stops at the top of u64. -/
def clockAdd (t : U64) (n : Nat) : U64 := BitVec.ofNat 64 (min (t.toNat + n) (2 ^ 64 - 1))

/-- The later of two clock values. -/
def clockMax (a b : U64) : U64 := if a.toNat ≤ b.toNat then b else a

end Sys2Proof
end

