-- ==== Sys2Proof/Config.lean ====
section
/-! DEFINITION. The configuration record `CFG` (R7 to R14), the answers the external agents may give (R16, R229), and
the free values: opaque constants that no proof can see into. -/

namespace Sys2Proof

/-- An opcode pair `(cmd1, cmd2)` (R12). -/
structure Opc where
  cmd1 : Byte
  cmd2 : Byte
deriving DecidableEq, Repr, Inhabited

/-- `CMD_BYTE_ORDER` (R8, R78): which command byte of the header comes first. -/
inductive ByteOrder
  | swap
  | arg
deriving DecidableEq, Repr

/-- `MENU[ch]` (R11): the wavelengths in nm that each channel may load. -/
structure Menu where
  a : List U16
  b : List U16
  c : List U16
  d : List U16
deriving DecidableEq, Repr, Inhabited

/-- The OPEN keywords `ILL_KW_*` of the illumination messages (R99). -/
structure IllKw where
  version : List Byte
  wavelengths : List Byte
  load : List Byte
  set : List Byte
  off : List Byte
  allOff : List Byte
  panel : List Byte
deriving DecidableEq, Repr, Inhabited

/-- A codec pair `(enc, dec)` (R14) that is admitted: `enc b S` and `dec b S N` are functions (R126), the round trip of
R127 holds, and an answer of `dec` has the `N*S` bytes it is asked for (DESIGN CHOICE, notes/assumptions/7.md: R123 unpacks
no other). -/
structure CodecPair where
  enc : List Byte → Nat → List Byte
  dec : List Byte → Nat → Nat → Option (List Byte)
  roundTrip : ∀ (b : List Byte) (symSize count : Nat), symSize = 1 ∨ symSize = 3 → b.length = count * symSize →
    dec (enc b symSize) symSize count = some b
  decLength : ∀ (b o : List Byte) (symSize count : Nat), dec b symSize count = some o → o.length = count * symSize

/-- Which codec pair the block uses (R14): the reference instance `RLE-S` (R96), or a vendor's own pair, of which
nothing is known but that it is admitted (R127). -/
inductive CodecSel
  | rleS
  | vendor
deriving DecidableEq, Repr

/-- The OPEN parameters (R7, R11, R12): no source gives them a value; a model takes them as an argument. -/
structure OpenParams where
  /-- `W`, raster width. -/
  w : Nat
  /-- `H`, raster height. -/
  h : Nat
  expMax : Nat
  expRec : Nat
  menu : Menu
  illPresent : Bool
  opcMode : Opc
  opcPlayctl : Opc
  opcLut : Opc
  opcDefpat : Opc
  opcImgsize : Opc
  opcImgdata : Opc
  opcErrq : Opc
  opcInsrc : Opc
  opcTrigmode : Opc
  valModePotf : Byte
  valStop : Byte
  valPause : Byte
  valPlay : Byte
  valSrcStream : Byte
  valTrigInt : Byte
  illKw : IllKw
deriving DecidableEq, Repr, Inhabited

/-- `LMAX` (R8): the longest payload. -/
def lMax : Nat := 65533
/-- `BATCH` (R7): 1-bit patterns per block. -/
def batch : Nat := 24
/-- `P1` (R8): payload bytes in the first frame. -/
def p1Bytes : Nat := 58
/-- `FRAME` (R8). -/
def frameBytes : Nat := 64
/-- `REPEAT_INF` (R9). -/
def repeatInf : U32 := 0xFFFFFFFF

/-- The whole record `CFG`; a field with a default has the value R7 to R11 give it. -/
structure Params extends OpenParams where
  ceil1 : Nat := 400
  ceil8 : Nat := 25
  expMin1 : Nat := 105
  expMin8 : Nat := 4046
  dirW : Byte := 0x40
  dirR : Byte := 0xC0
  cmdByteOrder : ByteOrder := .swap
  errOff : Nat := 6
  seqCtrl : Byte := 0x00
  seqImg : Byte := 0x11
  seqErrq : Byte := 0x22
  colorMask : BitVec 3 := 0b111
  optBit0 : BitVec 1 := 1
  lutTail : List Byte := [0x01]
  bitpos8 : BitVec 5 := 0
  chunk : Nat := 504
  progPct : Nat := 10
  progPkts : Nat := 50
  codec : CodecSel := .rleS
  tCtrlMs : Nat := 1000
  tBulkMs : Nat := 30000
  settleModeMs : Nat := 50
  settleStopMs : Nat := 150
  illSettleMs : Nat := 650
  illTimeoutMs : Nat := 1000
  tickMs : Nat := 100
  pollMs : Nat := 100
  statusDepth : Nat := 64
deriving DecidableEq, Repr

/-- The constraints of R13, in its order. -/
def Params.r13 (p : Params) : Bool :=
  decide (1 ≤ p.ceil1 ∧ p.ceil1 ≤ 0xFFFF ∧ ceilDiv p.ceil1 24 ≤ 2048 ∧ 1 ≤ p.ceil8 ∧ p.ceil8 ≤ 2048
    ∧ p.expMin1 ≤ p.expMin8 ∧ p.expMin8 ≤ p.expRec ∧ p.expRec ≤ p.expMax ∧ p.expMax ≤ 0xFFFFFF
    ∧ 1 ≤ p.chunk ∧ p.chunk ≤ lMax - 2 ∧ 1 ≤ p.statusDepth)

/-- The play-control values are pairwise distinct (R12). -/
def Params.r12 (p : Params) : Bool :=
  decide (p.valStop ≠ p.valPause ∧ p.valStop ≠ p.valPlay ∧ p.valPause ≠ p.valPlay)

/-- What the rules use without saying it of `CFG` (DEDUCED, notes/assumptions/6.md): `ERR_OFF` lies in a reply
(R61), the progress steps divide (R151), the LUT payload fits a command (R107), an exposure is positive (R195). -/
def Params.used (p : Params) : Bool :=
  decide (p.errOff < 64 ∧ 1 ≤ p.progPct ∧ 1 ≤ p.progPkts ∧ 6 + p.lutTail.length ≤ lMax ∧ 1 ≤ p.expMin1)

/-- A configuration the model takes (R13: "the model refuses a configuration that breaks one"). -/
def Params.wf (p : Params) : Bool := p.r13 && p.r12 && p.used

/-- A well-formed configuration: an ill-formed one cannot be built. -/
structure Cfg extends Params where
  ok : toParams.wf = true
deriving DecidableEq, Repr

/-- `W*H`, the pixels of a raster. -/
def Params.pixels (p : Params) : Nat := p.w * p.h

/-- `CEIL(bd)` (R144). -/
def Params.ceil (p : Params) (bd : Byte) : Nat := if bd = 8 then p.ceil8 else p.ceil1

/-- `EXPMIN(bd)` (R137). -/
def Params.expMin (p : Params) (bd : Byte) : Nat := if bd = 8 then p.expMin8 else p.expMin1

/-- A configuration from a record, refused when ill formed (R13). -/
def Cfg.of? (p : Params) : Option Cfg := if h : p.wf = true then some { p with ok := h } else none

/-! ## Answers of the external agents (R16, R229) -/

/-- Answer of `ProjProbe()`. -/
inductive ProbeAns
  | found
  | none
deriving DecidableEq, Repr, Inhabited

/-- Answer of `UsbOut(frame)`. -/
inductive OutAns
  | ok
  | ioError
deriving DecidableEq, Repr, Inhabited

/-- Answer of `UsbIn(timeout)`. -/
inductive InAns
  | reply (b : List Byte)
  | timeout
  | ioError
deriving DecidableEq, Repr, Inhabited

/-- Answer of `IllSend(msg)`. -/
inductive IllAns
  | ok (line : List Byte)
  | timeout
  | ioError
deriving DecidableEq, Repr, Inhabited

/-! ## Free values

Each is an opaque constant with no body: a statement about a state that draws one holds whatever it is. The `Nat`
argument is the number of free draws made so far (`ports.draws`), except where the docstring says otherwise. -/

/-- The answer of `ProjProbe` when none is queued (R158). -/
opaque Config.freeProbe : Nat → ProbeAns
/-- The answer of `UsbOut` when none is queued (R229). -/
opaque Config.freeUsbOut : Nat → OutAns
/-- The answer of `UsbIn` when none is queued (R229). -/
opaque Config.freeUsbIn : Nat → InAns
/-- The answer of `IllSend` when none is queued (R229). -/
opaque Config.freeIll : Nat → IllAns
/-- The reading of CLK when none is queued (R248). -/
opaque Config.freeClk : Nat → U64
/-- The sample of TRG when none is queued (R229). -/
opaque Config.freeTrg : Nat → Bool × U32
/-- Whether the WORKER moves next when no turn is queued (R64: every order is admitted). -/
opaque Config.freeWorkerTurn : Nat → Bool
/-- The block index of a pattern whose index does not fit 11 bits (R141 states none); the argument is the index. -/
opaque Config.freeBlk : Nat → BitVec 11
/-- The 32-bit register value of a count that does not fit it; the argument is the count. -/
opaque Config.freeU32 : Nat → U32
/-- The 16-bit field value of a count that does not fit it; the argument is the count. -/
opaque Config.freeU16 : Nat → U16
/-- The percent of a packet count where `PKT_TOTAL` is 0 (R151 states none); the argument is the packet count. -/
opaque Config.freePct : U32 → Nat
/-- The vendor's codec (R14): any admitted pair; none stands for `RLE-S`. -/
opaque Config.vendorCodec : Option CodecPair
/-- How a wavelength is written in an illumination line (R99 gives no format). -/
opaque Config.nmText : U16 → List Byte
/-- How the front panel's enable bit is written in an illumination line (R99 gives no format). -/
opaque Config.panelText : Bool → List Byte
/-- The OPEN parameters of the machine that is reset. -/
opaque Config.openRaw : OpenParams

/-- A count as a `u32` register holds it: itself where it fits, a free value where it does not. -/
def Config.u32Of (n : Nat) : U32 := if n < 2 ^ 32 then BitVec.ofNat 32 n else Config.freeU32 n

/-- A count as a 16-bit field holds it. -/
def Config.u16Of (n : Nat) : U16 := if n < 2 ^ 16 then BitVec.ofNat 16 n else Config.freeU16 n

/-- The configuration at reset with the OPEN parameters `o`: every other field at the spec's value. -/
def Params.ofOpen (o : OpenParams) : Params := { toOpenParams := o }

/-- `o` where it makes a well-formed configuration, else `o` with its bounds and play values moved so that it does:
the OPEN parameters range over every choice R12 and R13 admit and over no other. -/
def OpenParams.admitted (o : OpenParams) : OpenParams :=
  if (Params.ofOpen o).wf then o
  else { o with expMax := 0xFFFFFF, expRec := 0xFFFFFF, valStop := 0, valPause := 1, valPlay := 2 }

theorem OpenParams.admitted_wf (o : OpenParams) : (Params.ofOpen o.admitted).wf = true := by
  unfold OpenParams.admitted
  split
  · assumption
  · simp [Params.ofOpen, Params.wf, Params.r13, Params.r12, Params.used, ceilDiv, lMax]

/-- The configuration of the machine that is reset: OPEN parameters arbitrary, the others at the spec's value. -/
def Config.cfg : Cfg :=
  { toParams := Params.ofOpen Config.openRaw.admitted, ok := OpenParams.admitted_wf _ }

end Sys2Proof
end

