-- ==== Sys2Proof/Syntax.lean ====
section
/-! DEFINITION. The operations of the block: operand types (R31, R44, R72) and one constructor per row of the
opcode table (R70, R74, R93). -/

namespace Sys2Proof

/-- The command class of `FSEND` (R70): which reply timeout applies (R109). -/
inductive Cls
  | control
  | bulk
deriving DecidableEq, Repr

/-- An illumination channel (R18). -/
inductive Chan
  | a
  | b
  | c
  | d
deriving DecidableEq, Repr

/-- A projection mode (R32, R44), a u2. -/
inductive PMode
  | continuous
  | cyclic
  | pulsed
  | ext
deriving DecidableEq, Repr

/-- The Pulsed discipline (R44), a u1. -/
inductive Disc
  | preciseTotal
  | precisePulse
deriving DecidableEq, Repr

/-- A repeat specification (R32). -/
inductive Repeat
  | finite (n : U32)
  | inf
deriving DecidableEq, Repr

/-- One channel activation (R44). -/
structure Activation where
  ch : Chan
  nm : U16
  pct : Byte
deriving DecidableEq, Repr

/-- A pattern record as the host gives it (R31 without `blk` and `bitpos`, which R72 ignores on input). -/
structure PatIn where
  raster : Raster
  expUs : U32
  darkUs : U32
  trigIn : Bool
  trigOut : U32
  bd : Byte
deriving DecidableEq, Repr

/-- A plan record (R44 without `cycles`, which `PSTART` fills: R72). -/
structure PlanRec where
  mode : PMode
  disc : Disc
  durMs : List U32
  autoStopMs : U32
  sel : Option U16
  blankFirst : Bool
  confirm : Bool
  illum : List (List Activation)
deriving DecidableEq, Repr

/-- The three play-control values of the wire command (R83). -/
inductive PlayVal
  | stop
  | pause
  | play
deriving DecidableEq, Repr

/-- One constructor per row of spec/opcode_table.json. -/
inductive Instr
  -- framer
  | fbuild (dir seq cmd1 cmd2 : Byte) (payload : List Byte)
  | fsend (cls : Cls)
  | fcheck
  -- codec
  | enc1 (rasters : List Raster)
  | enc8 (raster : Raster)
  | dec1 (block : List Byte)
  | dec8 (block : List Byte)
  -- upload sequencer
  | sdefine (pats : List PatIn) (rep : Repeat) (mode : PMode) (confirm : Bool)
  | padd (at_ : U16) (pat : PatIn)
  | premove (at_ : U16)
  | pmove (src dst : U16)
  | pset (at_ : U16) (pat : PatIn)
  | defpat (index : U16) (expUs : U32) (bd color : Byte) (trigIn : Bool) (darkUs trigOut : U32) (blk : U16) (bitpos : Byte)
  | cfglut (count : U16) (rep : U32)
  | imgblk (idx : U16) (block : List Byte)
  | supload (confirm : Bool)
  | srepeat (rep : Repeat)
  -- session
  | connect
  | disconnect
  | setmode (m : Byte)
  | start
  | stop
  | pause
  | illconnect
  | regread (n : Byte)
  -- synchronizer
  | pstart (plan : PlanRec)
  | pstop
  | stread
  -- wire commands (R82 to R92); `bd1` is the wire's "bit depth minus one" (R85)
  | wMode (m : Byte)
  | wPlayctl (v : PlayVal)
  | wDefpat (index : U16) (expUs : U24) (bd1 color : BitVec 3) (trigIn : Bool) (darkUs : U24) (trigOut : Byte)
      (blk : BitVec 11) (bitpos : BitVec 5)
  | wLut (count : U16) (rep : U32)
  | wImgsize (idx : U16) (size : U32)
  | wImgdata (data : List Byte)
  | wErrq
  | wInsrc
  | wTrigmode
  -- pseudo-operations (R74)
  | xfer (dir seq cmd1 cmd2 : Byte) (payload : List Byte) (cls : Cls)
  | errquery
  | potf
  | load (pats : List PatIn) (rep : Repeat) (mode : PMode) (confirm : Bool)
deriving DecidableEq, Repr

/-- Which of the three kinds of row a constructor stands for: a host operation with an op byte (R70), a wire command
(R93), a pseudo-operation without words of its own (R74). -/
inductive Kind
  | hostOp
  | wire
  | pseudo
deriving DecidableEq, Repr

/-- The kind of each row. -/
def Instr.kind : Instr → Kind
  | .fbuild _ _ _ _ _ => .hostOp
  | .fsend _ => .hostOp
  | .fcheck => .hostOp
  | .enc1 _ => .hostOp
  | .enc8 _ => .hostOp
  | .dec1 _ => .hostOp
  | .dec8 _ => .hostOp
  | .sdefine _ _ _ _ => .hostOp
  | .padd _ _ => .hostOp
  | .premove _ => .hostOp
  | .pmove _ _ => .hostOp
  | .pset _ _ => .hostOp
  | .defpat _ _ _ _ _ _ _ _ _ => .hostOp
  | .cfglut _ _ => .hostOp
  | .imgblk _ _ => .hostOp
  | .supload _ => .hostOp
  | .srepeat _ => .hostOp
  | .connect => .hostOp
  | .disconnect => .hostOp
  | .setmode _ => .hostOp
  | .start => .hostOp
  | .stop => .hostOp
  | .pause => .hostOp
  | .illconnect => .hostOp
  | .regread _ => .hostOp
  | .pstart _ => .hostOp
  | .pstop => .hostOp
  | .stread => .hostOp
  | .wMode _ => .wire
  | .wPlayctl _ => .wire
  | .wDefpat _ _ _ _ _ _ _ _ _ => .wire
  | .wLut _ _ => .wire
  | .wImgsize _ _ => .wire
  | .wImgdata _ => .wire
  | .wErrq => .wire
  | .wInsrc => .wire
  | .wTrigmode => .wire
  | .xfer _ _ _ _ _ _ => .pseudo
  | .errquery => .pseudo
  | .potf => .pseudo
  | .load _ _ _ _ => .pseudo

end Sys2Proof
end

