-- ==== Sys2Proof/WellFormed.lean ====
section
/-! DEFINITION. Which terms of `Instr` are instructions (R72, R89). The operand types carry every width; the one
range a type does not carry is the length of an image data chunk. -/

namespace Sys2Proof

/-- R89: `1 <= n <= CHUNK`. -/
def Cfg.chunkOk (c : Cfg) (data : List Byte) : Bool := decide (1 ≤ data.length ∧ data.length ≤ c.chunk)

/-- The well-formed instructions under a configuration. -/
def Instr.wellFormed (c : Cfg) : Instr → Bool
  | .fbuild _ _ _ _ _ => true
  | .fsend _ => true
  | .fcheck => true
  | .enc1 _ => true
  | .enc8 _ => true
  | .dec1 _ => true
  | .dec8 _ => true
  | .sdefine _ _ _ _ => true
  | .padd _ _ => true
  | .premove _ => true
  | .pmove _ _ => true
  | .pset _ _ => true
  | .defpat _ _ _ _ _ _ _ _ _ => true
  | .cfglut _ _ => true
  | .imgblk _ _ => true
  | .supload _ => true
  | .srepeat _ => true
  | .connect => true
  | .disconnect => true
  | .setmode _ => true
  | .start => true
  | .stop => true
  | .pause => true
  | .illconnect => true
  | .regread _ => true
  | .pstart _ => true
  | .pstop => true
  | .stread => true
  | .wMode _ => true
  | .wPlayctl _ => true
  | .wDefpat _ _ _ _ _ _ _ _ _ => true
  | .wLut _ _ => true
  | .wImgsize _ _ => true
  | .wImgdata data => c.chunkOk data
  | .wErrq => true
  | .wInsrc => true
  | .wTrigmode => true
  | .xfer _ _ _ _ _ _ => true
  | .errquery => true
  | .potf => true
  | .load _ _ _ _ => true

/-- The nine opcode pairs of R12. -/
def Params.opcodes (p : Params) : List Opc :=
  [p.opcMode, p.opcPlayctl, p.opcDefpat, p.opcLut, p.opcImgsize, p.opcImgdata, p.opcErrq, p.opcInsrc, p.opcTrigmode]

/-- The nine opcode pairs are pairwise distinct. The spec does not say so (91_not_in_source N11, N12); a receiver can
tell the commands apart only where it holds. -/
def Params.opcodesDistinct (p : Params) : Prop := p.opcodes.Nodup

end Sys2Proof
end

