-- ==== Sys2Proof/Machine/Wire.lean ====
section
/-! DEFINITION. What goes out on the ports: frames (R75 to R80, R105), the nine projector commands and their payloads
(R82 to R93), the illumination messages (R99). -/

namespace Sys2Proof

/-! ## Frames -/

/-- The command bytes of the header in wire order (R78). -/
def cmdBytes (o : ByteOrder) (cmd1 cmd2 : Byte) : List Byte :=
  match o with
  | .swap => [cmd2, cmd1]
  | .arg => [cmd1, cmd2]

/-- The header of a first frame (R75): direction, sequence id, `le16(L + 2)`, command bytes. -/
def frameHeader (o : ByteOrder) (dir seq cmd1 cmd2 : Byte) (len : Nat) : List Byte :=
  [dir, seq] ++ le16 (BitVec.ofNat 16 (len + 2)) ++ cmdBytes o cmd1 cmd2

/-- `BuildFrames` (R105): the first frame carries up to 58 payload bytes, each later one up to 64, the last one is
zero-padded. -/
def buildFrames (o : ByteOrder) (dir seq cmd1 cmd2 : Byte) (p : List Byte) : List Frame :=
  fitTo frameBytes (frameHeader o dir seq cmd1 cmd2 p.length ++ p.take p1Bytes)
    :: (pieces frameBytes (p.drop p1Bytes)).map (fitTo frameBytes)

/-- `F(L)` (R80): the number of frames of a command with a payload of `len` bytes. -/
def frameCount (len : Nat) : Nat := if len ≤ p1Bytes then 1 else 1 + ceilDiv (len - p1Bytes) frameBytes

/-! ## Projector commands -/

/-- One projector command as `CMD` takes it (R112). -/
structure Cmd where
  dir : Byte
  seq : Byte
  opc : Opc
  payload : List Byte
  cls : Cls
deriving DecidableEq, Repr

/-- The frames of a command (R112). -/
def Cmd.frames (c : Cfg) (k : Cmd) : List Frame :=
  buildFrames c.cmdByteOrder k.dir k.seq k.opc.cmd1 k.opc.cmd2 k.payload

/-- A control command that writes to the projector (R93). -/
def ctrlCmd (c : Cfg) (o : Opc) (payload : List Byte) : Cmd := ⟨c.dirW, c.seqCtrl, o, payload, .control⟩

/-- The byte of a play-control value (R83). -/
def PlayVal.byte (c : Cfg) : PlayVal → Byte
  | .stop => c.valStop
  | .pause => c.valPause
  | .play => c.valPlay

/-- Mode-set (R82). -/
def modeCmd (c : Cfg) (m : Byte) : Cmd := ctrlCmd c c.opcMode [m]

/-- Play control (R83). -/
def playCmd (c : Cfg) (v : PlayVal) : Cmd := ctrlCmd c c.opcPlayctl [v.byte c]

/-- One bit as a one-bit vector. -/
def bit (b : Bool) : BitVec 1 := if b then 1 else 0

/-- The options byte of pattern define (R85): trigger-in, colour mask, bit depth minus one, spare bit. -/
def optionsByte (trigIn : Bool) (color bd1 : BitVec 3) (spare : BitVec 1) : Byte := bit trigIn ++ (color ++ (bd1 ++ spare))

/-- `W16` of pattern define (R86): bit position in bits 15:11, block index in bits 10:0. -/
def blockWord (blk : BitVec 11) (bitpos : BitVec 5) : U16 := bitpos ++ blk

/-- `DefPatPayload` (R138): the 12 bytes of R84; `bd1` is `bd - 1`. -/
def defPatPayload (c : Cfg) (index : U16) (expUs : U24) (bd1 color : BitVec 3) (trigIn : Bool) (darkUs : U24) (trigOut : Byte)
    (blk : BitVec 11) (bitpos : BitVec 5) : List Byte :=
  le16 index ++ le24 expUs ++ [optionsByte trigIn color bd1 c.optBit0] ++ le24 darkUs ++ [trigOut]
    ++ le16 (blockWord blk bitpos)

/-- Pattern define (R84). -/
def defPatCmd (c : Cfg) (index : U16) (expUs : U24) (bd1 color : BitVec 3) (trigIn : Bool) (darkUs : U24) (trigOut : Byte)
    (blk : BitVec 11) (bitpos : BitVec 5) : Cmd :=
  ctrlCmd c c.opcDefpat (defPatPayload c index expUs bd1 color trigIn darkUs trigOut blk bitpos)

/-- LUT configure (R87). -/
def lutCmd (c : Cfg) (count : U16) (rep : U32) : Cmd := ctrlCmd c c.opcLut (le16 count ++ le32 rep ++ c.lutTail)

/-- Image size announce (R88). -/
def sizeCmd (c : Cfg) (idx : U16) (size : U32) : Cmd :=
  ⟨c.dirW, c.seqImg, c.opcImgsize, le16 idx ++ le32 size, .control⟩

/-- Image data chunk (R89), the one command with the bulk timeout (R93). -/
def dataCmd (c : Cfg) (data : List Byte) : Cmd :=
  ⟨c.dirW, c.seqImg, c.opcImgdata, le16 (BitVec.ofNat 16 data.length) ++ data, .bulk⟩

/-- Error-status query (R90). -/
def errqCmd (c : Cfg) : Cmd := ⟨c.dirR, c.seqErrq, c.opcErrq, [], .control⟩

/-- Input source (R91). -/
def inSrcCmd (c : Cfg) : Cmd := ctrlCmd c c.opcInsrc [c.valSrcStream]

/-- Trigger mode (R92). -/
def trigModeCmd (c : Cfg) : Cmd := ctrlCmd c c.opcTrigmode [c.valTrigInt]

/-- The command a wire-command row stands for (R93); none for a row that is no wire command. -/
def Instr.wireCmd (c : Cfg) : Instr → Option Cmd
  | .wMode m => some (modeCmd c m)
  | .wPlayctl v => some (playCmd c v)
  | .wDefpat index expUs bd1 color trigIn darkUs trigOut blk bitpos =>
    some (defPatCmd c index expUs bd1 color trigIn darkUs trigOut blk bitpos)
  | .wLut count rep => some (lutCmd c count rep)
  | .wImgsize idx size => some (sizeCmd c idx size)
  | .wImgdata data => some (dataCmd c data)
  | .wErrq => some (errqCmd c)
  | .wInsrc => some (inSrcCmd c)
  | .wTrigmode => some (trigModeCmd c)
  | _ => none

/-! ## Illumination messages -/

/-- The abstract messages of `ILL_TX` (R99). -/
inductive IllMsg
  | version
  | wavelengths
  | load (nm : U16)
  | set (ch : Chan) (pct : Byte)
  | off (ch : Chan)
  | allOff
  | panel (en : Bool)
deriving DecidableEq, Repr

/-- The channel as its ASCII letter (R99). -/
def Chan.letter : Chan → Byte
  | .a => 0x41
  | .b => 0x42
  | .c => 0x43
  | .d => 0x44

/-- A decimal digit in ASCII. -/
def digit (n : Nat) : Byte := BitVec.ofNat 8 (0x30 + n % 10)

/-- A percent as exactly three decimal digits with leading zeros (R99). -/
def pctDigits (p : Byte) : List Byte := [digit (p.toNat / 100), digit (p.toNat / 10), digit p.toNat]

/-- The ASCII line of a message (R99): the OPEN keyword, the message's operands in the order of the table of R99,
carriage return. How a wavelength and the panel bit are written is a free value. -/
def IllMsg.line (kw : IllKw) : IllMsg → List Byte
  | .version => kw.version ++ [0x0D]
  | .wavelengths => kw.wavelengths ++ [0x0D]
  | .load nm => kw.load ++ Config.nmText nm ++ [0x0D]
  | .set ch pct => kw.set ++ [ch.letter] ++ pctDigits pct ++ [0x0D]
  | .off ch => kw.off ++ [ch.letter] ++ [0x0D]
  | .allOff => kw.allOff ++ [0x0D]
  | .panel en => kw.panel ++ Config.panelText en ++ [0x0D]

end Sys2Proof
end

