-- ==== Sys2Proof/Decode.lean ====
section
/-! DEFINITION. Decoding and encoding: host operations as an op byte and an operand record on `HOP` (R69, R70, R71,
R72; the record's byte layout is the model's, DESIGN CHOICE, notes/assumptions/1.md), wire commands as the frames of R75
and R76. The decoders come first, the encoders after them. -/

namespace Sys2Proof

/-! ## Reading operands -/

/-- Reads one value off the front of a byte string; none where the bytes are no value of the type. -/
abbrev Dec (α : Type) := List Byte → Option (α × List Byte)

def dByte : Dec Byte
  | b :: bs => some (b, bs)
  | [] => none

/-- A u16, least significant byte first. -/
def dU16 : Dec U16
  | a :: b :: bs => some (of16 a b, bs)
  | _ => none

/-- A u32, least significant byte first. -/
def dU32 : Dec U32
  | a :: b :: c :: d :: bs => some (of32 a b c d, bs)
  | _ => none

/-- A u1: one byte, 0 or 1. -/
def dBit : Dec Bool
  | b :: bs => if b = 0 then some (false, bs) else if b = 1 then some (true, bs) else none
  | [] => none

def dCls : Dec Cls
  | b :: bs => if b = 0 then some (.control, bs) else if b = 1 then some (.bulk, bs) else none
  | [] => none

def dMode : Dec PMode
  | b :: bs =>
    if b = 0 then some (.continuous, bs) else if b = 1 then some (.cyclic, bs)
    else if b = 2 then some (.pulsed, bs) else if b = 3 then some (.ext, bs) else none
  | [] => none

def dDisc : Dec Disc
  | b :: bs => if b = 0 then some (.preciseTotal, bs) else if b = 1 then some (.precisePulse, bs) else none
  | [] => none

def dChan : Dec Chan
  | b :: bs =>
    if b = 0 then some (.a, bs) else if b = 1 then some (.b, bs)
    else if b = 2 then some (.c, bs) else if b = 3 then some (.d, bs) else none
  | [] => none

/-- `Finite(n)`: 0 and the u32; `Inf`: 1. -/
def dRepeat : Dec Repeat
  | b :: bs =>
    if b = 0 then do let (n, r) ← dU32 bs; some (.finite n, r)
    else if b = 1 then some (.inf, bs) else none
  | [] => none

/-- `NONE`: 0; a u16: 1 and the value. -/
def dSel : Dec (Option U16)
  | b :: bs =>
    if b = 0 then some (none, bs)
    else if b = 1 then do let (n, r) ← dU16 bs; some (some n, r) else none
  | [] => none

/-- A list: 1 before each element, 0 at the end; `fuel` bounds the number of elements. -/
def dListN {α : Type} (d : Dec α) : Nat → Dec (List α)
  | 0, _ => none
  | _ + 1, [] => none
  | fuel + 1, b :: bs =>
    if b = 0 then some ([], bs)
    else if b = 1 then do
      let (x, r) ← d bs
      let (xs, r') ← dListN d fuel r
      some (x :: xs, r')
    else none

/-- A list of any length. -/
def dList {α : Type} (d : Dec α) : Dec (List α) := fun bs => dListN d bs.length bs

def dBytes : Dec (List Byte) := dList dByte

def dPat : Dec PatIn := fun bs => do
  let (raster, bs) ← dBytes bs
  let (expUs, bs) ← dU32 bs
  let (darkUs, bs) ← dU32 bs
  let (trigIn, bs) ← dBit bs
  let (trigOut, bs) ← dU32 bs
  let (bd, bs) ← dByte bs
  some (⟨raster, expUs, darkUs, trigIn, trigOut, bd⟩, bs)

def dActivation : Dec Activation := fun bs => do
  let (ch, bs) ← dChan bs
  let (nm, bs) ← dU16 bs
  let (pct, bs) ← dByte bs
  some (⟨ch, nm, pct⟩, bs)

def dPlan : Dec PlanRec := fun bs => do
  let (mode, bs) ← dMode bs
  let (disc, bs) ← dDisc bs
  let (durMs, bs) ← dList dU32 bs
  let (autoStopMs, bs) ← dU32 bs
  let (sel, bs) ← dSel bs
  let (blankFirst, bs) ← dBit bs
  let (confirm, bs) ← dBit bs
  let (illum, bs) ← dList (dList dActivation) bs
  some (⟨mode, disc, durMs, autoStopMs, sel, blankFirst, confirm, illum⟩, bs)

/-! ## Host operations -/

/-- Why the bytes on `HOP` are no operation of R70. -/
inductive DecodeError
  /-- Nothing is pending. -/
  | empty
  /-- A reserved op byte (R71); `rest` is what follows it. -/
  | reservedOp (op : Byte) (rest : List Byte)
  /-- A record outside its operand types (R72: "is not an operation"). -/
  | notAnOperation (op : Byte)
deriving DecidableEq, Repr

/-- The record after a defined op byte (R70); `none` outside the operand types, `some none` for a reserved op. -/
def decodeRecord (op : Nat) (bs : List Byte) : Option (Option (Instr × List Byte)) :=
  match op with
  | 0x01 => some do
    let (dir, bs) ← dByte bs
    let (seq, bs) ← dByte bs
    let (cmd1, bs) ← dByte bs
    let (cmd2, bs) ← dByte bs
    let (payload, bs) ← dBytes bs
    some (.fbuild dir seq cmd1 cmd2 payload, bs)
  | 0x02 => some do let (cls, bs) ← dCls bs; some (.fsend cls, bs)
  | 0x03 => some (some (.fcheck, bs))
  | 0x10 => some do let (rs, bs) ← dList dBytes bs; some (.enc1 rs, bs)
  | 0x11 => some do let (r, bs) ← dBytes bs; some (.enc8 r, bs)
  | 0x12 => some do let (b, bs) ← dBytes bs; some (.dec1 b, bs)
  | 0x13 => some do let (b, bs) ← dBytes bs; some (.dec8 b, bs)
  | 0x20 => some do
    let (pats, bs) ← dList dPat bs
    let (rep, bs) ← dRepeat bs
    let (mode, bs) ← dMode bs
    let (confirm, bs) ← dBit bs
    some (.sdefine pats rep mode confirm, bs)
  | 0x21 => some do
    let (at_, bs) ← dU16 bs
    let (pat, bs) ← dPat bs
    some (.padd at_ pat, bs)
  | 0x22 => some do let (at_, bs) ← dU16 bs; some (.premove at_, bs)
  | 0x23 => some do
    let (src, bs) ← dU16 bs
    let (dst, bs) ← dU16 bs
    some (.pmove src dst, bs)
  | 0x24 => some do
    let (at_, bs) ← dU16 bs
    let (pat, bs) ← dPat bs
    some (.pset at_ pat, bs)
  | 0x25 => some do
    let (index, bs) ← dU16 bs
    let (expUs, bs) ← dU32 bs
    let (bd, bs) ← dByte bs
    let (color, bs) ← dByte bs
    let (trigIn, bs) ← dBit bs
    let (darkUs, bs) ← dU32 bs
    let (trigOut, bs) ← dU32 bs
    let (blk, bs) ← dU16 bs
    let (bitpos, bs) ← dByte bs
    some (.defpat index expUs bd color trigIn darkUs trigOut blk bitpos, bs)
  | 0x26 => some do
    let (count, bs) ← dU16 bs
    let (rep, bs) ← dU32 bs
    some (.cfglut count rep, bs)
  | 0x27 => some do
    let (idx, bs) ← dU16 bs
    let (block, bs) ← dBytes bs
    some (.imgblk idx block, bs)
  | 0x28 => some do let (confirm, bs) ← dBit bs; some (.supload confirm, bs)
  | 0x29 => some do let (rep, bs) ← dRepeat bs; some (.srepeat rep, bs)
  | 0x30 => some (some (.connect, bs))
  | 0x31 => some (some (.disconnect, bs))
  | 0x32 => some do let (m, bs) ← dByte bs; some (.setmode m, bs)
  | 0x33 => some (some (.start, bs))
  | 0x34 => some (some (.stop, bs))
  | 0x35 => some (some (.pause, bs))
  | 0x36 => some (some (.illconnect, bs))
  | 0x37 => some do let (n, bs) ← dByte bs; some (.regread n, bs)
  | 0x40 => some do let (plan, bs) ← dPlan bs; some (.pstart plan, bs)
  | 0x41 => some (some (.pstop, bs))
  | 0x42 => some (some (.stread, bs))
  | _ => none

/-- The next host operation of a byte string and what follows it, or why there is none. Total on any bytes. -/
def decode : List Byte → Except DecodeError (Instr × List Byte)
  | [] => .error .empty
  | op :: bs =>
    match decodeRecord op.toNat bs with
    | none => .error (.reservedOp op bs)
    | some none => .error (.notAnOperation op)
    | some (some r) => .ok r

/-! ## Wire commands -/

/-- The wire command of a header and payload, as a projector with configuration `c` reads it (R82 to R92); none where
no command of R93 has that header or its payload has another shape. -/
def decodeCmd (c : Cfg) (dir seq : Byte) (opc : Opc) (p : List Byte) : Option Instr :=
  if dir = c.dirW ∧ seq = c.seqCtrl ∧ opc = c.opcMode then
    match p with
    | [m] => some (.wMode m)
    | _ => none
  else if dir = c.dirW ∧ seq = c.seqCtrl ∧ opc = c.opcPlayctl then
    match p with
    | [v] =>
      if v = c.valStop then some (.wPlayctl .stop) else if v = c.valPause then some (.wPlayctl .pause)
      else if v = c.valPlay then some (.wPlayctl .play) else none
    | _ => none
  else if dir = c.dirW ∧ seq = c.seqCtrl ∧ opc = c.opcDefpat then
    match p with
    | [i0, i1, e0, e1, e2, o, d0, d1, d2, t, w0, w1] =>
      if o.extractLsb' 0 1 = c.optBit0 then
        some (.wDefpat (of16 i0 i1) (of24 e0 e1 e2) (o.extractLsb' 1 3) (o.extractLsb' 4 3) (o.getLsbD 7) (of24 d0 d1 d2) t
          ((of16 w0 w1).extractLsb' 0 11) ((of16 w0 w1).extractLsb' 11 5))
      else none
    | _ => none
  else if dir = c.dirW ∧ seq = c.seqCtrl ∧ opc = c.opcLut then
    match p with
    | c0 :: c1 :: r0 :: r1 :: r2 :: r3 :: tail =>
      if tail = c.lutTail then some (.wLut (of16 c0 c1) (of32 r0 r1 r2 r3)) else none
    | _ => none
  else if dir = c.dirW ∧ seq = c.seqImg ∧ opc = c.opcImgsize then
    match p with
    | [i0, i1, s0, s1, s2, s3] => some (.wImgsize (of16 i0 i1) (of32 s0 s1 s2 s3))
    | _ => none
  else if dir = c.dirW ∧ seq = c.seqImg ∧ opc = c.opcImgdata then
    match p with
    | n0 :: n1 :: data =>
      if (of16 n0 n1).toNat = data.length ∧ c.chunkOk data = true then some (.wImgdata data) else none
    | _ => none
  else if dir = c.dirR ∧ seq = c.seqErrq ∧ opc = c.opcErrq then
    match p with
    | [] => some .wErrq
    | _ => none
  else if dir = c.dirW ∧ seq = c.seqCtrl ∧ opc = c.opcInsrc then
    if p = [c.valSrcStream] then some .wInsrc else none
  else if dir = c.dirW ∧ seq = c.seqCtrl ∧ opc = c.opcTrigmode then
    if p = [c.valTrigInt] then some .wTrigmode else none
  else none

/-- The opcode pair of the header bytes 4 and 5 (R78). -/
def headerOpc (o : ByteOrder) (b4 b5 : Byte) : Opc :=
  match o with
  | .swap => ⟨b5, b4⟩
  | .arg => ⟨b4, b5⟩

/-- The next wire command of a stream of frames (R80: the length is told by the first frame alone); the padding must be
zero (R102). -/
def decodeWire (c : Cfg) : List Byte → Option (Instr × List Byte)
  | dir :: seq :: l0 :: l1 :: b4 :: b5 :: bs =>
    let lf := (of16 l0 l1).toNat
    let len := lf - 2
    let body := frameBytes * frameCount len - 6
    if lf < 2 ∨ bs.length < body then none
    else if ((bs.take body).drop len).all (· == 0) then
      (decodeCmd c dir seq (headerOpc c.cmdByteOrder b4 b5) (bs.take len)).map (·, bs.drop body)
    else none
  | _ => none

/-! ## Encoders -/

def eBit (b : Bool) : List Byte := [if b then 1 else 0]

def eCls : Cls → List Byte
  | .control => [0]
  | .bulk => [1]

def eMode : PMode → List Byte
  | .continuous => [0]
  | .cyclic => [1]
  | .pulsed => [2]
  | .ext => [3]

def eDisc : Disc → List Byte
  | .preciseTotal => [0]
  | .precisePulse => [1]

def eChan : Chan → List Byte
  | .a => [0]
  | .b => [1]
  | .c => [2]
  | .d => [3]

def eRepeat : Repeat → List Byte
  | .finite n => 0 :: le32 n
  | .inf => [1]

def eSel : Option U16 → List Byte
  | none => [0]
  | some n => 1 :: le16 n

def eList {α : Type} (e : α → List Byte) : List α → List Byte
  | [] => [0]
  | x :: xs => 1 :: (e x ++ eList e xs)

def eBytes : List Byte → List Byte := eList (fun b => [b])

def ePat (p : PatIn) : List Byte :=
  eBytes p.raster ++ (le32 p.expUs ++ (le32 p.darkUs ++ (eBit p.trigIn ++ (le32 p.trigOut ++ [p.bd]))))

def eActivation (a : Activation) : List Byte := eChan a.ch ++ (le16 a.nm ++ [a.pct])

def ePlan (p : PlanRec) : List Byte :=
  eMode p.mode ++ (eDisc p.disc ++ (eList le32 p.durMs ++ (le32 p.autoStopMs ++ (eSel p.sel ++ (eBit p.blankFirst
    ++ (eBit p.confirm ++ eList (eList eActivation) p.illum))))))

/-- The frames of a wire command, one after the other. -/
def Cmd.stream (c : Cfg) (k : Cmd) : List Byte := (k.frames c).flatten

/-- The bytes of a host operation that defines a Sequence. -/
def eSdefine (pats : List PatIn) (rep : Repeat) (mode : PMode) (confirm : Bool) : List Byte :=
  0x20 :: (eList ePat pats ++ (eRepeat rep ++ (eMode mode ++ eBit confirm)))

/-- The bytes of a host operation that builds frames. -/
def eFbuild (dir seq cmd1 cmd2 : Byte) (payload : List Byte) : List Byte :=
  0x01 :: dir :: seq :: cmd1 :: cmd2 :: eBytes payload

/-- The words of an instruction: op byte and record of a host operation (R70), the frames of a wire command (R75,
R76), and for a pseudo-operation the words of its expansion (R74). -/
def encode (c : Cfg) : Instr → List Byte
  | .fbuild dir seq cmd1 cmd2 payload => eFbuild dir seq cmd1 cmd2 payload
  | .fsend cls => 0x02 :: eCls cls
  | .fcheck => [0x03]
  | .enc1 rasters => 0x10 :: eList eBytes rasters
  | .enc8 raster => 0x11 :: eBytes raster
  | .dec1 block => 0x12 :: eBytes block
  | .dec8 block => 0x13 :: eBytes block
  | .sdefine pats rep mode confirm => eSdefine pats rep mode confirm
  | .padd at_ pat => 0x21 :: (le16 at_ ++ ePat pat)
  | .premove at_ => 0x22 :: le16 at_
  | .pmove src dst => 0x23 :: (le16 src ++ le16 dst)
  | .pset at_ pat => 0x24 :: (le16 at_ ++ ePat pat)
  | .defpat index expUs bd color trigIn darkUs trigOut blk bitpos =>
    0x25 :: (le16 index ++ (le32 expUs ++ (bd :: color :: (eBit trigIn ++ (le32 darkUs ++ (le32 trigOut
      ++ (le16 blk ++ [bitpos])))))))
  | .cfglut count rep => 0x26 :: (le16 count ++ le32 rep)
  | .imgblk idx block => 0x27 :: (le16 idx ++ eBytes block)
  | .supload confirm => 0x28 :: eBit confirm
  | .srepeat rep => 0x29 :: eRepeat rep
  | .connect => [0x30]
  | .disconnect => [0x31]
  | .setmode m => [0x32, m]
  | .start => [0x33]
  | .stop => [0x34]
  | .pause => [0x35]
  | .illconnect => [0x36]
  | .regread n => [0x37, n]
  | .pstart plan => 0x40 :: ePlan plan
  | .pstop => [0x41]
  | .stread => [0x42]
  | .wMode m => (modeCmd c m).stream c
  | .wPlayctl v => (playCmd c v).stream c
  | .wDefpat index expUs bd1 color trigIn darkUs trigOut blk bitpos =>
    (defPatCmd c index expUs bd1 color trigIn darkUs trigOut blk bitpos).stream c
  | .wLut count rep => (lutCmd c count rep).stream c
  | .wImgsize idx size => (sizeCmd c idx size).stream c
  | .wImgdata data => (dataCmd c data).stream c
  | .wErrq => (errqCmd c).stream c
  | .wInsrc => (inSrcCmd c).stream c
  | .wTrigmode => (trigModeCmd c).stream c
  | .xfer dir seq cmd1 cmd2 payload cls => eFbuild dir seq cmd1 cmd2 payload ++ 0x02 :: eCls cls
  | .errquery => eFbuild c.dirR c.seqErrq c.opcErrq.cmd1 c.opcErrq.cmd2 [] ++ [0x02, 0, 0x03]
  | .potf => [0x32, c.valModePotf]
  | .load pats rep mode confirm => eSdefine pats rep mode confirm ++ 0x28 :: eBit confirm

/-! ## The opcode table's words -/

/-- The bytes of the word `w` of `nbits` bits, bit 0 the least significant bit of the first byte. -/
def wordBytes (nbits w : Nat) : List Byte :=
  (List.range ((nbits + 7) / 8)).map fun i => BitVec.ofNat 8 (w / 2 ^ (8 * i))

/-- Zero bytes enough for the operands of every operation whose operands are all zero (the longest, `DEFPAT`, has 20). -/
def operandPad : Nat := 24

/-- The operation of a table word laid out on `HOP`, every bit above it 0. -/
def fetchBytes (nbits w : Nat) : List Byte := wordBytes nbits w ++ zeros operandPad

/-- The instruction the decoder reads from the table word `w` of `nbits` bits. -/
def decodeTableWord (nbits w : Nat) : Option Instr :=
  match decode (fetchBytes nbits w) with
  | .ok (i, _) => some i
  | .error _ => none

end Sys2Proof
end

