-- ==== Sys2Proof/Machine/State.lean ====
section
/-! DEFINITION. The state of the block (10_state R20 to R52), grouped by unit, and its value after block reset. -/

namespace Sys2Proof.Machine

/-! ## Result codes (R100) -/

/-- The result codes of R100, in its order. -/
inductive Res
  | ok
  | cfgEmpty
  | cfgMixed
  | cfgCount
  | cfgRaster
  | cfgExpLow
  | cfgExpHigh
  | cfgConfirm
  | cfgRange
  | cfgIllum
  | cfgPlan
  | warnDevErr
  | warnTimeout
  | warnIo
  | warnNoReply
  | faultIo
  | errNotConnected
  | errNoDevice
  | errBusy
  | errState
  | errUndefined
  | errLen
  | errDecode
  | errIllegalOp
  | errNoSeq
  | cancelled
deriving DecidableEq, Repr

/-- The code's number (R100). -/
def Res.byte : Res → Byte
  | .ok => 0x00
  | .cfgEmpty => 0x01
  | .cfgMixed => 0x02
  | .cfgCount => 0x03
  | .cfgRaster => 0x04
  | .cfgExpLow => 0x05
  | .cfgExpHigh => 0x06
  | .cfgConfirm => 0x07
  | .cfgRange => 0x08
  | .cfgIllum => 0x09
  | .cfgPlan => 0x0A
  | .warnDevErr => 0x10
  | .warnTimeout => 0x11
  | .warnIo => 0x12
  | .warnNoReply => 0x13
  | .faultIo => 0x20
  | .errNotConnected => 0x21
  | .errNoDevice => 0x22
  | .errBusy => 0x30
  | .errState => 0x31
  | .errUndefined => 0x32
  | .errLen => 0x33
  | .errDecode => 0x34
  | .errIllegalOp => 0x35
  | .errNoSeq => 0x36
  | .cancelled => 0x40

/-! ## Types of the registers -/

/-- `SM` (R38): values 0 to 4 of a u3; 5 to 7 never occur. -/
inductive SessState
  | idle
  | modeSet
  | playing
  | paused
  | stopped
deriving DecidableEq, Repr

/-- `SYN_PHASE` (R45): values 0 to 10 of a u4; 11 to 15 never occur. -/
inductive Phase
  | idle
  | s1
  | s2
  | s3
  | s4
  | s5
  | s6
  | poll
  | cleanup
  | run
  | setup
deriving DecidableEq, Repr

/-- A pattern record of `SEQ_PATS` (R31): the host's fields and the two the upload assigns. -/
structure Pattern extends PatIn where
  blk : BitVec 11
  bitpos : BitVec 5
deriving DecidableEq, Repr

/-- A compressed block (R35); its `size` is the length of its bytes. -/
structure Block where
  idx : BitVec 11
  bytes : List Byte
deriving DecidableEq, Repr

/-- A status event (R49). -/
inductive Event
  | progress (pct : Byte) (done total : U32)
  | warning (code : Byte)
  | step (cycle : U32) (index : U16)
  | display (index : U16)
  | cyclic (elapsedMs : U64) (expectedCycles : U32)
  | planDone
  | planFail (code : Byte)
  | planCancelled
deriving DecidableEq, Repr

/-- One bit per channel (R42). -/
structure ChanBits where
  a : Bool
  b : Bool
  c : Bool
  d : Bool
deriving DecidableEq, Repr

/-- The result record of a host operation on `HRES` (R21). -/
inductive HRec
  | none
  | frames (fs : List Frame)
  | reply (b : Frame)
  | errByte (e : Byte)
  | block (bytes : List Byte) (size : U32)
  | rasters (rs : List Raster)
  | handle (gen : U32)
  | info (line : List Byte)
  | word (w : U32)
  | event (e : Option Event) (ovf : Bool)
deriving DecidableEq, Repr

/-- What `HRES` carries (R21): the result code and the result record. -/
structure HRes where
  code : Byte
  record : HRec
deriving DecidableEq, Repr

/-! ## Registers by unit -/

/-- Host interface (R24, R25). -/
structure HostRegs where
  lastResult : Byte
  ubf : Bool
deriving DecidableEq, Repr

/-- Framer (R26 to R28); `FCOUNT` is the length of `frameBuf`. -/
structure FrmRegs where
  frameBuf : List Frame
  rplBuf : Frame
  rplv : Bool
  inflight : Bool
deriving DecidableEq, Repr

/-- Codec (R29, R30); `BLKSIZE` is the length of `blkBuf`. -/
structure CodRegs where
  blkBuf : List Byte
  rastOut : List Raster
deriving DecidableEq, Repr

/-- Upload sequencer (R32 to R36). -/
structure UplRegs where
  seqValid : Bool
  seqPats : List Pattern
  seqRepeat : Repeat
  seqMode : PMode
  seqGen : U32
  isup : Bool
  blocks : List Block
  pktTotal : U32
  pktDone : U32
  pktPct : Byte
deriving DecidableEq, Repr

/-- Device session and illumination session (R37 to R42). -/
structure SesRegs where
  sessValid : Bool
  sm : SessState
  mode : Byte
  modeKnown : Bool
  lastErr : Byte
  illValid : Bool
  illOn : ChanBits
deriving DecidableEq, Repr

/-- Synchronizer (R43 to R48); `PLAN.cycles` is `cycles`. -/
structure SynRegs where
  planActive : Bool
  cancel : Bool
  plan : PlanRec
  cycles : Repeat
  phase : Phase
  cycle : U32
  index : U16
  tPlan : U64
  tStep : U64
  extActive : Bool
  extPrevOnoff : Bool
  extPrevCnt : U32
  extBlank : Bool
  lastFault : Byte
deriving DecidableEq, Repr

/-- Status FIFO (R49). -/
structure StsRegs where
  fifo : List Event
  ovf : Bool
deriving DecidableEq, Repr

/-! ## Procedures as data

The internal procedures of R109 to R205 are straight lists of the actions below, so that the WORKER can stop between any
two port transactions (R64) and a host operation can run the same list to its end. -/

/-- The context of R113: what a failed command means. -/
inductive Ctx
  | warn
  | fault
  /-- The fault context of a Stop command: the settle wait of `d` ms still follows it when it fails, and then `FAULT_IO` is
  raised (R167, R243, 90_conflicts C3; DEDUCED, notes/assumptions/31.md). -/
  | stop (d : Nat)
deriving DecidableEq, Repr

/-- How a plan ends (R203): normally, by a device fault, by cancellation. -/
inductive PlanEnd
  | done
  | fault
  | cancelled
deriving DecidableEq, Repr

/-- One action of an internal procedure. -/
inductive PAct
  /-- `CMD` and, when it fails, R113 in the context. -/
  | cmd (c : Cmd)
  /-- The Stop command of `StopProc` (R167) and, when it fails, R113 in the context: in the fault context after the settle
  wait (notes/assumptions/31.md). -/
  | stopPlay
  /-- `Check()` (R111). -/
  | check
  /-- `Settle(d)` (R170). -/
  | settle (d : Nat)
  /-- `if SM <> Idle: SM <- Stopped` (R167). -/
  | stopped
  /-- `SM <- ModeSet; MODE <- m; MODE_KNOWN <- 1` (R162). -/
  | modeSet (m : Byte)
  /-- `SM <- Playing` (R169). -/
  | playing
  /-- `ISUP <- b`. -/
  | isup (b : Bool)
  /-- `BLOCKS <- bs` (R153). -/
  | blocks (bs : List Block)
  /-- `PKT_TOTAL <- total; PKT_DONE <- 0; PKT_PCT <- 0`. -/
  | pktInit (total : U32)
  /-- `Progress()` (R151). -/
  | progress
  /-- `SYN_PHASE <- p`. -/
  | phase (p : Phase)
  /-- `IllMsg(msg)` (R183). -/
  | ill (m : IllMsg)
  /-- `ILL_ON[A..D] <- 0`. -/
  | illDark
  /-- `ILL_ON[ch] <- 1`. -/
  | illLit (ch : Chan)
  /-- `Push(e)` (R209). -/
  | push (e : Event)
deriving DecidableEq, Repr

/-- One action of the WORKER (R181 to R205): an action of a procedure, a part of `Send`, or a control point of a worker
procedure with its local variables. -/
inductive WAct
  /-- An action of a procedure in a context. -/
  | act (ctx : Ctx) (a : PAct)
  /-- `UsbOut(FRAMEBUF[k])` inside `Send` (R109). -/
  | out (ctx : Ctx) (cls : Cls) (k : Nat)
  /-- `UsbIn` at the end of `Send` (R109). -/
  | inp (ctx : Ctx) (cls : Cls)
  /-- `Setup()` (R182). -/
  | setup
  /-- The case split on `PLAN.mode` (R181). -/
  | runMode
  /-- `SYN_CYCLE <- c; SYN_INDEX <- i`. -/
  | pos (c : U32) (i : U16)
  /-- `T_PLAN <- Now()` (R197). -/
  | nowPlan
  /-- `T_STEP <- Now()`, and `T_PLAN <- T_STEP` when `plan`. -/
  | nowStep (plan : Bool)
  /-- `ShowStep(k)` (R184). -/
  | showStep (k : Nat)
  /-- `ShowBlank()` (R202). -/
  | showBlank
  /-- `CheckCancel()` (R179). -/
  | checkCancel
  /-- The head of `Wait(d)` (R205); none is infinity. -/
  | waitStart (d : Option Nat)
  /-- A tick of `Wait(d)` that began at `t0`. -/
  | waitTick (t0 : U64) (d : Option Nat)
  /-- `Wait(satsub(d, Now() - T_STEP))` (R187). -/
  | waitRest (d : Nat)
  /-- The outer loop of `RunPulsed` at cycle `c` (R186). -/
  | pulsedCycle (c : U32) (first : Bool)
  /-- The inner loop of `RunPulsed` at pattern `k` of cycle `c`. -/
  | pulsedPat (c : U32) (k : Nat) (first : Bool)
  /-- Step (vi) of pattern `k`. -/
  | pulsedWait (k : Nat)
  /-- `if ISUP = 0: UploadSeq(fault)` (R192, R194). -/
  | cyclicUpload
  /-- `IllActivate(Union(PLAN.illum))` (R192). -/
  | cyclicLight
  /-- `el <- Now() - T_STEP` and what follows in `CyclicTrack` (R195). -/
  | cyclicPoll (last : Nat)
  /-- The first `SampleTrg` of `RunExt` (R197). -/
  | extFirst
  /-- A later `SampleTrg` of `RunExt`. -/
  | extNext
  /-- `ExtPoll(on, cnt)` (R198). -/
  | extPoll (on : Bool) (cnt : U32)
  /-- The last two lines of `ExtPoll`. -/
  | extPrev (on : Bool) (cnt : U32)
  /-- `EXT_ACTIVE <- b`. -/
  | extActive (b : Bool)
  /-- `EXT_BLANK <- b`. -/
  | extBlank (b : Bool)
  /-- `EndPlan(code)` (R203). -/
  | endPlan (e : PlanEnd)
  /-- `EndPlan` after its cleanup. -/
  | finishPlan (e : PlanEnd)
deriving DecidableEq, Repr

/-! ## Ports (the model's own form of R21) -/

/-- Whose turn it is (R64, R237). -/
inductive Turn
  /-- HOST issues its next operation. -/
  | host
  /-- The WORKER takes one step. -/
  | worker
  /-- Block reset between two steps (R237). -/
  | reset
  /-- HOST issues its next operation and block reset lands after `n` of the operation's port transactions. -/
  | resetIn (n : Nat)
deriving DecidableEq, Repr

/-- One port transaction as the outside sees it. -/
inductive PortEvent
  /-- `ProjProbe()` and its answer. -/
  | probe (a : ProbeAns)
  /-- `UsbOut(f)` and its answer. -/
  | usbOut (f : Frame) (a : OutAns)
  /-- `UsbIn(timeout)` and its answer. -/
  | usbIn (timeoutMs : Nat) (a : InAns)
  /-- `IllSend(m)`, the line on the wire, the timeout and the answer. -/
  | ill (m : IllMsg) (line : List Byte) (timeoutMs : Nat) (a : IllAns)
  /-- `Now()` and its answer. -/
  | clk (t : U64)
  /-- `SampleTrg()` and its answer. -/
  | trg (on : Bool) (cnt : U32)
  /-- The end of `Settle(d)` at clock `t`. -/
  | settled (d : Nat) (t : U64)
  /-- A sleep of a `Wait` tick; no transaction. -/
  | sleep (ms : Nat)
deriving DecidableEq, Repr

/-- The ports (R21): what HOST has put on `HOP`, what `HRES` carries, the answers the agents will give, whose turns come
next, the last clock reading, the number of free draws, and the port transactions so far, the latest first. -/
structure Ports where
  hop : List Byte
  hres : Option HRes
  probeAns : List ProbeAns
  usbOutAns : List OutAns
  usbInAns : List InAns
  illAns : List IllAns
  clkAns : List U64
  trgAns : List (Bool × U32)
  turns : List Turn
  clk : U64
  draws : Nat
  trace : List PortEvent
deriving DecidableEq, Repr

/-! ## The state -/

/-- The whole state: configuration, registers by unit, the WORKER's remaining work, the ports. -/
structure State where
  cfg : Cfg
  host : HostRegs
  frm : FrmRegs
  cod : CodRegs
  upl : UplRegs
  ses : SesRegs
  syn : SynRegs
  sts : StsRegs
  work : List WAct
  ports : Ports
deriving DecidableEq, Repr

/-- Why the WORKER stops dead. Each is a position no run reaches: `PSTART` validates what the worker reads (R177) and
nothing changes it while the plan runs (R67). All are safe: the model stops where it would otherwise have to invent. -/
inductive Fault
  /-- The worker asks for a pattern, duration or assignment the Sequence or plan does not have. Raised by the worker
  only; safe. -/
  | noSuchPattern
  /-- `CyclicTrack` with a zero period (R195: "`period >= EXPMIN1 > 0`"). Raised by the worker only; safe. -/
  | zeroPeriod
  /-- A Cyclic plan whose union of assignments fails (R177 step 5 refuses it at `PSTART`). Raised by the worker only;
  safe. -/
  | channelConflict
deriving DecidableEq, Repr

/-- Why a step gives no meaning. -/
inductive Refusal
  /-- An instruction without a meaning in the model; raised by `exec`'s arms only; safe. No arm raises it. -/
  | notModelled (mnemonic : String)
  /-- The bytes on `HOP` are a defined op byte with a record outside its operand types (R72: "is not an operation (the
  model's decoder refuses it at the boundary)"). Raised by a turn of HOST; safe. -/
  | notAnOperation (op : Byte)
  /-- An image data chunk whose length is outside `1 <= n <= CHUNK` (R89) is no wire command. Raised by `W_IMGDATA`;
  safe. -/
  | notAWireCommand
deriving DecidableEq, Repr

/-! ## Reset (R52, R237) -/

/-- The plan register at reset (R44). -/
def PlanRec.reset : PlanRec :=
  { mode := .continuous, disc := .preciseTotal, durMs := [], autoStopMs := 0, sel := none, blankFirst := false,
    confirm := false, illum := [] }

def HostRegs.reset : HostRegs := { lastResult := 0x00, ubf := false }

def FrmRegs.reset : FrmRegs := { frameBuf := [], rplBuf := zeros 64, rplv := false, inflight := false }

def CodRegs.reset : CodRegs := { blkBuf := [], rastOut := [] }

def UplRegs.reset : UplRegs :=
  { seqValid := false, seqPats := [], seqRepeat := .finite 1, seqMode := .continuous, seqGen := 0, isup := false,
    blocks := [], pktTotal := 0, pktDone := 0, pktPct := 0 }

def SesRegs.reset : SesRegs :=
  { sessValid := false, sm := .idle, mode := 0x00, modeKnown := false, lastErr := 0x00, illValid := false,
    illOn := ⟨false, false, false, false⟩ }

def SynRegs.reset : SynRegs :=
  { planActive := false, cancel := false, plan := PlanRec.reset, cycles := .finite 1, phase := .idle, cycle := 0,
    index := 0, tPlan := 0, tStep := 0, extActive := false, extPrevOnoff := false, extPrevCnt := 0, extBlank := false,
    lastFault := 0x00 }

def StsRegs.reset : StsRegs := { fifo := [], ovf := false }

/-- The ports before anything happened (the model's own; DESIGN CHOICE, notes/assumptions/4.md). -/
def Ports.reset : Ports :=
  { hop := [], hres := none, probeAns := [], usbOutAns := [], usbInAns := [], illAns := [], clkAns := [], trgAns := [],
    turns := [], clk := 0, draws := 0, trace := [] }

/-- Every register at its reset value (R52) under a configuration and with given ports, neither of which reset touches
(R238, R239). -/
def State.resetWith (c : Cfg) (p : Ports) : State :=
  { cfg := c, host := HostRegs.reset, frm := FrmRegs.reset, cod := CodRegs.reset, upl := UplRegs.reset,
    ses := SesRegs.reset, syn := SynRegs.reset, sts := StsRegs.reset, work := [], ports := p }

/-- The block right after reset, before anything was put on its ports. -/
def State.reset : State := State.resetWith Config.cfg Ports.reset

/-! ## Replacing one group of registers -/

def State.setHost (s : State) (x : HostRegs) : State := { s with host := x }
def State.setFrm (s : State) (x : FrmRegs) : State := { s with frm := x }
def State.setCod (s : State) (x : CodRegs) : State := { s with cod := x }
def State.setUpl (s : State) (x : UplRegs) : State := { s with upl := x }
def State.setSes (s : State) (x : SesRegs) : State := { s with ses := x }
def State.setSyn (s : State) (x : SynRegs) : State := { s with syn := x }
def State.setSts (s : State) (x : StsRegs) : State := { s with sts := x }
def State.setWork (s : State) (x : List WAct) : State := { s with work := x }
def State.setPorts (s : State) (x : Ports) : State := { s with ports := x }

end Sys2Proof.Machine
end

