-- ==== Sys2Proof/Machine/Ops.lean ====
section
/-! DEFINITION. The shared operations: port transactions (R16, R21), the status FIFO (R209), the end of a host operation
(R215), `Send` and `CMD` (R109, R112), `Check` (R111), `Settle` (R170), running a procedure (R113, R115), the end of a
plan as trap entry and return (R203, R204, R223, R224), block reset (R237). -/

namespace Sys2Proof.Machine

/-! ## Derived views of the registers -/

/-- `FCOUNT` (R26). -/
def State.fcount (s : State) : U16 := Config.u16Of s.frm.frameBuf.length

/-- `BLKSIZE` (R29). -/
def State.blkSize (s : State) : U32 := Config.u32Of s.cod.blkBuf.length

/-- `size` of a compressed block (R35). -/
def Block.size (b : Block) : U32 := Config.u32Of b.bytes.length

/-- `PB`, the playback state (R39). -/
inductive Playback
  | stopped
  | playing
  | paused
deriving DecidableEq, Repr

/-- `PB` from `SM` (R39). -/
def State.playback (s : State) : Playback :=
  match s.ses.sm with
  | .idle => .stopped
  | .modeSet => .stopped
  | .stopped => .stopped
  | .playing => .playing
  | .paused => .paused

/-! ## Port transactions -/

/-- A queue of answers and the free-draw count after one draw from them. -/
def popAns {α : Type} (q : List α) (n : Nat) : List α × Nat :=
  match q with
  | [] => ([], n + 1)
  | _ :: q => (q, n)

/-- What one transaction takes from the queues of answers, and the clock after it. -/
def PortEvent.consume (p : Ports) : PortEvent → Ports
  | .probe _ => { p with probeAns := (popAns p.probeAns p.draws).1, draws := (popAns p.probeAns p.draws).2 }
  | .usbOut _ _ => { p with usbOutAns := (popAns p.usbOutAns p.draws).1, draws := (popAns p.usbOutAns p.draws).2 }
  | .usbIn _ _ => { p with usbInAns := (popAns p.usbInAns p.draws).1, draws := (popAns p.usbInAns p.draws).2 }
  | .ill _ _ _ _ => { p with illAns := (popAns p.illAns p.draws).1, draws := (popAns p.illAns p.draws).2 }
  | .clk t => { p with clkAns := (popAns p.clkAns p.draws).1, draws := (popAns p.clkAns p.draws).2, clk := t }
  | .trg _ _ => { p with trgAns := (popAns p.trgAns p.draws).1, draws := (popAns p.trgAns p.draws).2 }
  | .settled _ t => { p with clkAns := (popAns p.clkAns p.draws).1, draws := (popAns p.clkAns p.draws).2, clk := t }
  | .sleep ms => { p with clk := clockAdd p.clk ms }

/-- A transaction happens: its answer is taken and it joins the trace. -/
def Ports.log (p : Ports) (e : PortEvent) : Ports := { e.consume p with trace := e :: p.trace }

/-- A transaction happens. -/
def State.log (s : State) (e : PortEvent) : State := s.setPorts (s.ports.log e)

/-- The answer a draw gives: the head of the queue, or the free value. -/
def drawAns {α : Type} (q : List α) (free : Nat → α) (n : Nat) : α :=
  match q with
  | [] => free n
  | a :: _ => a

/-- `ProjProbe()` (R158). -/
def projProbe (s : State) : ProbeAns × State :=
  let a := drawAns s.ports.probeAns Config.freeProbe s.ports.draws
  (a, s.log (.probe a))

/-- `UsbOut(f)` (R16, R59). -/
def usbOut (f : Frame) (s : State) : OutAns × State :=
  let a := drawAns s.ports.usbOutAns Config.freeUsbOut s.ports.draws
  (a, s.log (.usbOut f a))

/-- A reply moves exactly 64 bytes (R59). -/
def fitReply : InAns → InAns
  | .reply b => .reply (fitTo frameBytes b)
  | .timeout => .timeout
  | .ioError => .ioError

/-- The reply timeout of a command class (R109). -/
def replyTimeout (c : Cfg) : Cls → Nat
  | .control => c.tCtrlMs
  | .bulk => c.tBulkMs

/-- `UsbIn(timeout)` (R16, R109). -/
def usbIn (cls : Cls) (s : State) : InAns × State :=
  let a := fitReply (drawAns s.ports.usbInAns Config.freeUsbIn s.ports.draws)
  (a, s.log (.usbIn (replyTimeout s.cfg cls) a))

/-- `IllSend(m)` (R16): with no controller attached every message times out (R173, R229). -/
def illSend (m : IllMsg) (s : State) : IllAns × State :=
  let a := if s.cfg.illPresent then drawAns s.ports.illAns Config.freeIll s.ports.draws else .timeout
  (a, s.log (.ill m (m.line s.cfg.illKw) s.cfg.illTimeoutMs a))

/-- The next reading of CLK: never less than the last one (R248). -/
def State.nextClk (s : State) : U64 := clockMax s.ports.clk (drawAns s.ports.clkAns Config.freeClk s.ports.draws)

/-- `Now()` (R16). -/
def now (s : State) : U64 × State := (s.nextClk, s.log (.clk s.nextClk))

/-- `SampleTrg()` (R16). -/
def sampleTrg (s : State) : (Bool × U32) × State :=
  let a := drawAns s.ports.trgAns Config.freeTrg s.ports.draws
  (a, s.log (.trg a.1 a.2))

/-- `Settle(d)` (R170) in one step: a reading `t0`, then the first reading the loop stops at, at least `t0 + d`. -/
def settleFor (d : Nat) (s : State) : State :=
  let (t0, s) := now s
  s.log (.settled d (clockMax (clockAdd t0 d) s.nextClk))

/-! ## Status FIFO and the end of a host operation -/

/-- `Push(e)` (R209). -/
def State.push (s : State) (e : Event) : State :=
  if s.sts.fifo.length < s.cfg.statusDepth then s.setSts { s.sts with fifo := s.sts.fifo ++ [e] }
  else s.setSts { s.sts with ovf := true }

/-- `raise E` and `result E` of a host operation (R215, R24): the code goes to `LAST_RESULT` and with the record to
`HRES`; nothing is rolled back. -/
def State.finish (s : State) (r : Res) (rec : HRec) : State :=
  (s.setHost { s.host with lastResult := r.byte }).setPorts { s.ports with hres := some ⟨r.byte, rec⟩ }

/-- A refusal or failure: the code without a record. -/
def State.raise (s : State) (r : Res) : State := s.finish r .none

/-- `UBF <- 1; raise ERR_UNDEFINED` (R131). -/
def State.raiseUndefined (s : State) : State := (s.setHost { s.host with ubf := true }).raise .errUndefined

/-! ## Send, CMD, Check -/

/-- How a command ends (R109). -/
inductive CmdOut
  | ok
  | timeout
  | ioError
deriving DecidableEq, Repr

/-- `INFLIGHT <- 0; RPLV <- 0` of a failed transfer (R109). -/
def State.dropReply (s : State) : State := s.setFrm { s.frm with inflight := false, rplv := false }

/-- `FRAMEBUF <- fs; INFLIGHT <- 1` (R109, R112). -/
def State.loadFrames (s : State) (fs : List Frame) : State :=
  s.setFrm { s.frm with frameBuf := fs, inflight := true }

/-- The `UsbIn` of `Send` and what follows it (R109). -/
def recvReply (cls : Cls) (s : State) : CmdOut × State :=
  match usbIn cls s with
  | (.reply b, s) => (.ok, s.setFrm { s.frm with inflight := false, rplBuf := b, rplv := true })
  | (.timeout, s) => (.timeout, s.dropReply)
  | (.ioError, s) => (.ioError, s.dropReply)

/-- The frames of `Send` and its reply (R109): a failed frame ends it, no later frame goes out, no reply is read. -/
def sendFrames (cls : Cls) : List Frame → State → CmdOut × State
  | [], s => recvReply cls s
  | f :: fs, s =>
    match usbOut f s with
    | (.ok, s) => sendFrames cls fs s
    | (.ioError, s) => (.ioError, s.dropReply)

/-- `Send(cls)` (R109): the frames of `FRAMEBUF`, then one reply. -/
def send (cls : Cls) (s : State) : CmdOut × State :=
  sendFrames cls s.frm.frameBuf (s.loadFrames s.frm.frameBuf)

/-- `CMD` (R112). -/
def doCmd (c : Cmd) (s : State) : CmdOut × State := send c.cls (s.setFrm { s.frm with frameBuf := c.frames s.cfg })

/-- How an action ends: normally; with a warning already pushed; with `FAULT_IO` raised. -/
inductive Ran
  | ok (s : State)
  | warned (w : Res) (s : State)
  | faulted (s : State)

/-- R113: what a failed transfer means in a context. -/
def onFailure (ctx : Ctx) (timedOut : Bool) (s : State) : Ran :=
  match ctx with
  | .fault => .faulted s
  | .stop _ => .faulted s
  | .warn =>
    if timedOut then .warned .warnTimeout (s.push (.warning Res.warnTimeout.byte))
    else .warned .warnIo (s.push (.warning Res.warnIo.byte))

/-- A finished command in a context (R113). -/
def cmdEnd (ctx : Ctx) : CmdOut × State → Ran
  | (.ok, s) => .ok s
  | (.timeout, s) => onFailure ctx true s
  | (.ioError, s) => onFailure ctx false s

/-- The error byte of the last reply (R81). -/
def State.errByte (s : State) : Byte := s.frm.rplBuf.getD s.cfg.errOff 0

/-- `Check()` (R111). -/
def checkReply (s : State) : Ran :=
  if s.frm.rplv = false then .warned .warnNoReply (s.push (.warning Res.warnNoReply.byte))
  else
    let t := s.setSes { s.ses with lastErr := s.errByte }
    if s.errByte = 0 then .ok t else .warned .warnDevErr (t.push (.warning Res.warnDevErr.byte))

/-- `IllMsg(msg, ctx)` (R183). -/
def illMsg (ctx : Ctx) (m : IllMsg) (s : State) : Ran :=
  match illSend m s with
  | (.ok _, s) => .ok s
  | (.timeout, s) => onFailure ctx true s
  | (.ioError, s) => onFailure ctx false s

/-! ## Running a procedure -/

/-- One channel's bit set. -/
def ChanBits.light (x : ChanBits) : Chan → ChanBits
  | .a => { x with a := true }
  | .b => { x with b := true }
  | .c => { x with c := true }
  | .d => { x with d := true }

/-- `(100 * PKT_DONE) div PKT_TOTAL` (R151); a free value where the total is 0. -/
def packetPct (done total : U32) : Nat := if total = 0 then Config.freePct done else 100 * done.toNat / total.toNat

/-- `Progress()` (R151). A packet count past 32 bits, for which R36 and R151 state no value, is a free value
(notes/assumptions/14.md). -/
def reportProgress (s : State) : State :=
  let done := Config.u32Of (s.upl.pktDone.toNat + 1)
  let pct := packetPct done s.upl.pktTotal
  let s := s.setUpl { s.upl with pktDone := done }
  if done.toNat % s.cfg.progPkts = 0 ∨ pct / s.cfg.progPct > s.upl.pktPct.toNat / s.cfg.progPct ∨ done = s.upl.pktTotal then
    (s.setUpl { s.upl with pktPct := BitVec.ofNat 8 pct }).push (.progress (BitVec.ofNat 8 pct) done s.upl.pktTotal)
  else s

/-- The context of the Stop command of `StopProc` (R167) in a context. -/
def Ctx.ofStop (d : Nat) : Ctx → Ctx
  | .warn => .warn
  | .fault => .stop d
  | .stop _ => .stop d

/-- The settle wait that still follows a failed Stop before `FAULT_IO` is raised (R167, R243). -/
def Ran.waitStop (d : Nat) : Ran → Ran
  | .ok s => .ok s
  | .warned w s => .warned w s
  | .faulted s => .faulted (settleFor d s)

/-- One action of a procedure, whole. -/
def PAct.run (ctx : Ctx) (a : PAct) (s : State) : Ran :=
  match a with
  | .cmd c => cmdEnd ctx (doCmd c s)
  | .stopPlay => (cmdEnd ctx (doCmd (playCmd s.cfg .stop) s)).waitStop s.cfg.settleStopMs
  | .check => checkReply s
  | .settle d => .ok (settleFor d s)
  | .stopped => .ok (if s.ses.sm = .idle then s else s.setSes { s.ses with sm := .stopped })
  | .modeSet m => .ok (s.setSes { s.ses with sm := .modeSet, mode := m, modeKnown := true })
  | .playing => .ok (s.setSes { s.ses with sm := .playing })
  | .isup b => .ok (s.setUpl { s.upl with isup := b })
  | .blocks bs => .ok (s.setUpl { s.upl with blocks := bs })
  | .pktInit total => .ok (s.setUpl { s.upl with pktTotal := total, pktDone := 0, pktPct := 0 })
  | .progress => .ok (reportProgress s)
  | .phase p => .ok (s.setSyn { s.syn with phase := p })
  | .ill m => illMsg ctx m s
  | .illDark => .ok (s.setSes { s.ses with illOn := ⟨false, false, false, false⟩ })
  | .illLit ch => .ok (s.setSes { s.ses with illOn := s.ses.illOn.light ch })
  | .push e => .ok (s.push e)

/-- A procedure run by a host operation: the state, the first warning met (R115), whether `FAULT_IO` was raised. -/
structure Run where
  st : State
  warn : Option Res
  fault : Bool

/-- The run after one more action. -/
def Run.after (r : Run) : Ran → Run
  | .ok s => { r with st := s }
  | .warned w s => { r with st := s, warn := r.warn.orElse fun _ => some w }
  | .faulted s => { r with st := s, fault := true }

/-- The actions of a procedure in order, up to the first that raises. -/
def runActs (ctx : Ctx) : List PAct → Run → Run
  | [], r => r
  | a :: as, r => if r.fault then r else runActs ctx as (r.after (a.run ctx r.st))

/-- A procedure from a state. -/
def runProc (ctx : Ctx) (as : List PAct) (s : State) : Run := runActs ctx as { st := s, warn := none, fault := false }

/-- "result OK or the first warning", or the raised `FAULT_IO` (R115). -/
def Run.code (r : Run) : Res := if r.fault then .faultIo else r.warn.getD .ok

/-- The end of a host operation that ran a procedure. -/
def Run.conclude (r : Run) : State := r.st.raise r.code

/-! ## Taking the worker's trap, and returning to idle (R203, R204, R223, R224) -/

/-- The code of a plan's end (R203): `LAST_FAULT` and the event carry it. -/
def PlanEnd.byte : PlanEnd → Byte
  | .done => Res.ok.byte
  | .fault => Res.faultIo.byte
  | .cancelled => Res.cancelled.byte

/-- The final event of a plan (R203). -/
def PlanEnd.event : PlanEnd → Event
  | .done => .planDone
  | .fault => .planFail Res.faultIo.byte
  | .cancelled => .planCancelled

/-- The entry: the interrupted step is abandoned and `EndPlan(code)` is all that is left to do. -/
def State.trap (s : State) (e : PlanEnd) : State := s.setWork [.endPlan e]

/-- The return to idle: `EndPlan` after its cleanup; `PLAN_ACTIVE <- 0` with the last writes of the plan. -/
def State.returnIdle (s : State) (e : PlanEnd) : State :=
  let s := (s.setSyn { s.syn with lastFault := e.byte }).push e.event
  (s.setSyn { s.syn with phase := .idle, extActive := false, extBlank := false, planActive := false }).setWork []

/-! ## Block reset -/

/-- Block reset (R237, R238, R239): every register at its reset value, the worker stopped, nothing sent; the
configuration, the devices and what HOST has yet to issue are not touched. -/
def State.blockReset (s : State) : State := State.resetWith s.cfg { s.ports with hres := none }

end Sys2Proof.Machine
end

