-- ==== Sys2Proof/Machine/Operands.lean ====
section
/-! DEFINITION. Checks of operands before any device I/O (R144, R145, R147, R155, R177), the block-index and
bit-position assignment (R141), the union of assignments (R183). A check answers the code it raises, or none. -/

namespace Sys2Proof.Machine

/-- A bit depth the block has (R31). -/
def bdOk (bd : Byte) : Bool := bd = 1 ∨ bd = 8

/-- `RecordOK(pat)` (R144). -/
def recordOk (c : Cfg) (p : PatIn) : Option Res :=
  if bdOk p.bd = false then some .cfgRange
  else if p.raster.length ≠ c.pixels then some .cfgRaster
  else if p.bd = 1 ∧ p.raster.any (fun x => decide (x ≠ 0 ∧ x ≠ 1)) = true then some .cfgRaster
  else none

/-- Step 5 of `Validate` for one pattern (R144). -/
def patternOk (c : Cfg) (p : PatIn) : Option Res :=
  match recordOk c p with
  | some r => some r
  | none =>
    if p.expUs.toNat < c.expMin p.bd then some .cfgExpLow
    else if p.expUs.toNat > c.expMax then some .cfgExpHigh
    else if p.darkUs.toNat > 0xFFFFFF ∨ p.trigOut.toNat > 0xFF then some .cfgRange
    else none

/-- Step 6 of `Validate`: a cycle count of 0, or a repeat count that reaches the sentinel (R144, R147). -/
def repeatBad (rep : Repeat) (count : Nat) : Bool :=
  match rep with
  | .inf => false
  | .finite n => n = 0 ∨ n.toNat * count ≥ 0xFFFFFFFF

/-- `Validate(pats, repeat, confirm)` (R144). -/
def validate (c : Cfg) (pats : List PatIn) (rep : Repeat) (confirm : Bool) : Option Res :=
  match pats with
  | [] => some .cfgEmpty
  | p0 :: _ =>
    if pats.any (fun p => !bdOk p.bd) then some .cfgRange
    else if pats.any (fun p => decide (p.bd ≠ p0.bd)) then some .cfgMixed
    else if pats.length > c.ceil p0.bd then some .cfgCount
    else
      match pats.findSome? (patternOk c) with
      | some r => some r
      | none =>
        if repeatBad rep pats.length then some .cfgRange
        else if confirm = false ∧ pats.any (fun p => decide (p.expUs.toNat > c.expRec)) = true then some .cfgConfirm
        else none

/-- The host's fields of the Sequence's patterns. -/
def State.patsIn (s : State) : List PatIn := s.upl.seqPats.map Pattern.toPatIn

/-- A pattern record before its assignment. -/
def freshPattern (p : PatIn) : Pattern := { toPatIn := p, blk := 0, bitpos := 0 }

/-- A block index in its 11-bit field; the spec states no value for one that does not fit. -/
def blkOf (n : Nat) : BitVec 11 := if n < 2048 then BitVec.ofNat 11 n else Config.freeBlk n

/-- The assignment of pattern `i` in a list whose first bit depth is `bd` (R141). -/
def assignOne (c : Cfg) (bd : Byte) (i : Nat) (p : Pattern) : Pattern :=
  if bd = 8 then { p with blk := blkOf i, bitpos := c.bitpos8 }
  else { p with blk := blkOf (i / batch), bitpos := BitVec.ofNat 5 (i % batch) }

/-- `Assign(pats)` (R141). -/
def assign (c : Cfg) (pats : List Pattern) : List Pattern :=
  match pats with
  | [] => []
  | p0 :: _ => pats.mapIdx (assignOne c p0.bd)

/-- `UplReady()` (R145). -/
def uplReady (s : State) : Option Res :=
  if s.ses.sessValid = false then some .errNotConnected
  else if s.ses.modeKnown = true ∧ s.ses.mode = s.cfg.valModePotf ∧ (s.ses.sm = .modeSet ∨ s.ses.sm = .stopped) then none
  else some .errState

/-- `RepeatCount(repeat, P)` (R147). -/
def repeatCount (rep : Repeat) (count : Nat) : U32 :=
  match rep with
  | .inf => repeatInf
  | .finite n => BitVec.ofNat 32 (n.toNat * count)

/-- `MENU[ch]` (R11). -/
def menuOf (c : Cfg) : Chan → List U16
  | .a => c.menu.a
  | .b => c.menu.b
  | .c => c.menu.c
  | .d => c.menu.d

/-- Two activations of a list name one channel and differ (R183: `Union` fails). -/
def unionFails (acts : List Activation) : Bool :=
  acts.any fun x => acts.any fun y => decide (x.ch = y.ch ∧ x ≠ y)

/-- `Union(illum)` (R183): duplicates removed, sorted by channel; none when it fails. -/
def union (illum : List (List Activation)) : Option (List Activation) :=
  if unionFails illum.flatten then none
  else some ([Chan.a, Chan.b, Chan.c, Chan.d].filterMap fun ch => illum.flatten.find? fun x => x.ch = ch)

/-- Step 4 of `PlanValidate` for one pattern's activations (R177): none is refused, or the list is. -/
def actsBad (c : Cfg) (acts : List Activation) : Bool :=
  acts.any (fun x => decide (acts.length > 4 ∨ x.pct.toNat > 100 ∨ x.nm ∉ menuOf c x.ch))
    || decide (¬ (acts.map Activation.ch).Nodup)

/-- Step 3 of `PlanValidate` (R177): the plan's lists and its selection fit a Sequence of `count` patterns. -/
def planShapeBad (plan : PlanRec) (count : Nat) : Bool :=
  (plan.mode = .continuous ∧ plan.sel.any (fun k => decide (k.toNat ≥ count)) = true)
    ∨ (plan.mode = .pulsed ∧ plan.durMs.length ≠ count)
    ∨ plan.illum.length ≠ count

/-- `PlanValidate(plan)` (R177). -/
def planValidate (s : State) (plan : PlanRec) : Option Res :=
  match validate s.cfg s.patsIn s.upl.seqRepeat plan.confirm with
  | some r => some r
  | none =>
    if plan.mode = .continuous ∧ plan.sel = none then some .cfgEmpty
    else if planShapeBad plan s.upl.seqPats.length then some .cfgPlan
    else if plan.illum.any (actsBad s.cfg) then some .cfgIllum
    else if plan.mode = .cyclic ∧ union plan.illum = none then some .cfgIllum
    else none

/-- `NeedsIllum(plan)` (R176). -/
def needsIllum (plan : PlanRec) : Bool :=
  match plan.mode with
  | .continuous => plan.sel.any fun k => !(plan.illum.getD k.toNat []).isEmpty
  | .cyclic => plan.illum.any fun acts => !acts.isEmpty
  | .pulsed => plan.illum.any fun acts => !acts.isEmpty
  | .ext => plan.illum.any fun acts => !acts.isEmpty

end Sys2Proof.Machine
end

