-- ==== Sys2Proof/Machine/Flags.lean ====
section
/-! DEFINITION. The codes of the state registers and the ten status words (R38, R45, R50). -/

namespace Sys2Proof.Machine

/-- The u3 code of `SM` (R38). -/
def SessState.code : SessState → BitVec 3
  | .idle => 0
  | .modeSet => 1
  | .playing => 2
  | .paused => 3
  | .stopped => 4

/-- The u4 code of `SYN_PHASE` (R45). -/
def Phase.code : Phase → BitVec 4
  | .idle => 0
  | .s1 => 1
  | .s2 => 2
  | .s3 => 3
  | .s4 => 4
  | .s5 => 5
  | .s6 => 6
  | .poll => 7
  | .cleanup => 8
  | .run => 9
  | .setup => 10

/-- The u2 code of a projection mode (R32). -/
def modeCode : PMode → BitVec 2
  | .continuous => 0
  | .cyclic => 1
  | .pulsed => 2
  | .ext => 3

/-- The u1 code of a discipline (R44). -/
def discCode : Disc → BitVec 1
  | .preciseTotal => 0
  | .precisePulse => 1

/-- The kind code of a status event (R49). -/
def Event.code : Event → Byte
  | .progress _ _ _ => 1
  | .warning _ => 2
  | .step _ _ => 3
  | .display _ => 4
  | .cyclic _ _ => 5
  | .planDone => 6
  | .planFail _ => 7
  | .planCancelled => 8

/-- A field `v` with its bit 0 at bit `lo` of a status word. -/
def field {n : Nat} (v : BitVec n) (lo : Nat) : U32 := v.setWidth 32 <<< lo

/-- `SEQ_BD = 8` (R32): of the first pattern; false without one. -/
def State.seqBd8 (s : State) : Bool :=
  match s.upl.seqPats with
  | [] => false
  | p :: _ => p.bd = 8

/-- Word 0, `SESSION`. -/
def sessionWord (s : State) : U32 :=
  field (bit s.ses.sessValid) 0 ||| field (bit s.ses.illValid) 1 ||| field s.ses.sm.code 2
    ||| field (bit s.ses.modeKnown) 5 ||| field s.ses.mode 8 ||| field s.ses.lastErr 16
    ||| field (bit s.ses.illOn.a) 24 ||| field (bit s.ses.illOn.b) 25
    ||| field (bit s.ses.illOn.c) 26 ||| field (bit s.ses.illOn.d) 27

/-- Word 1, `SEQSTAT`. -/
def seqStatWord (s : State) : U32 :=
  field (bit s.upl.seqValid) 0 ||| field (bit s.upl.isup) 1 ||| field (bit s.seqBd8) 2
    ||| field (modeCode s.upl.seqMode) 3 ||| field (bit (s.upl.seqRepeat = .inf)) 5
    ||| field (Config.u16Of s.upl.seqPats.length) 16

/-- Word 3, `SEQREP`. -/
def seqRepWord (s : State) : U32 :=
  match s.upl.seqRepeat with
  | .finite n => n
  | .inf => 0

/-- Word 4, `SYNSTAT`. -/
def synStatWord (s : State) : U32 :=
  field (bit s.syn.planActive) 0 ||| field (bit s.syn.cancel) 1 ||| field (modeCode s.syn.plan.mode) 2
    ||| field (discCode s.syn.plan.disc) 4 ||| field (bit s.syn.extActive) 5 ||| field s.syn.phase.code 6
    ||| field (bit s.syn.extBlank) 10 ||| field s.syn.lastFault 16

/-- Word 7, `HOSTSTAT`. -/
def hostStatWord (s : State) : U32 :=
  field s.host.lastResult 0 ||| field s.upl.pktPct 8 ||| field (bit s.frm.rplv) 16 ||| field (bit s.sts.ovf) 17
    ||| field (bit s.host.ubf) 18 ||| field (bit s.frm.inflight) 19

/-- Word 8, `COUNTS`. -/
def countsWord (s : State) : U32 := field s.fcount 0 ||| field (Config.u16Of s.sts.fifo.length) 16

/-- Status word `n` (R50); none for a reserved word. -/
def statusWord (s : State) (n : Nat) : Option U32 :=
  match n with
  | 0 => some (sessionWord s)
  | 1 => some (seqStatWord s)
  | 2 => some s.upl.seqGen
  | 3 => some (seqRepWord s)
  | 4 => some (synStatWord s)
  | 5 => some s.syn.cycle
  | 6 => some (field s.syn.index 0)
  | 7 => some (hostStatWord s)
  | 8 => some (countsWord s)
  | 9 => some s.blkSize
  | _ => none

end Sys2Proof.Machine
end

