-- ==== Sys2Proof/Machine/Session.lean ====
section
/-! DEFINITION. Device session and illumination session: `CONNECT`, `DISCONNECT`, `SETMODE`, `START`, `STOP`, `PAUSE`,
`ILLCONNECT`, `REGREAD` (43_session R157 to R175). -/

namespace Sys2Proof.Machine

/-! ## Procedures -/

/-- `StopProc` (R167): the settle wait follows the Stop whether or not it succeeded. -/
def stopProc (c : Cfg) : List PAct := [.stopPlay, .settle c.settleStopMs, .stopped]

/-- `ModeProc(m)` (R162): Stop, mode-set, Stop, each with its settle. -/
def modeProc (c : Cfg) (m : Byte) : List PAct :=
  [.isup false] ++ stopProc c ++ [.cmd (modeCmd c m), .settle c.settleModeMs] ++ stopProc c ++ [.modeSet m]

/-- `ERRQ` (R114). -/
def errqProc (c : Cfg) : List PAct := [.cmd (errqCmd c), .check]

/-- `StartProc` (R169): input source, trigger mode, Play, each followed by `ERRQ`. -/
def startProc (c : Cfg) : List PAct :=
  [.cmd (inSrcCmd c)] ++ errqProc c ++ [.cmd (trigModeCmd c)] ++ errqProc c ++ [.cmd (playCmd c .play)] ++ errqProc c
    ++ [.playing]

/-! ## Session lifetime -/

/-- What `CONNECT` forgets before it probes (R157). -/
def State.forgetSession (s : State) : State :=
  ((s.setUpl { s.upl with isup := false }).setSes
    { s.ses with sm := .idle, mode := 0x00, modeKnown := false, lastErr := 0x00 }).setFrm { s.frm with rplv := false }

/-- `CONNECT` after its probe (R157). -/
def connectEnd : ProbeAns × State → State
  | (.found, s) => (s.setSes { s.ses with sessValid := true }).raise .ok
  | (.none, s) => (s.setSes { s.ses with sessValid := false }).raise .errNoDevice

/-- `CONNECT` (R157). -/
def opConnect (s : State) : State :=
  if s.syn.planActive then s.raise .errBusy else connectEnd (projProbe s.forgetSession)

/-- `DISCONNECT` (R159). -/
def opDisconnect (s : State) : State :=
  if s.syn.planActive then s.raise .errBusy
  else
    (((s.setSes { s.ses with sessValid := false, sm := .idle, modeKnown := false }).setUpl
      { s.upl with isup := false }).setFrm { s.frm with rplv := false }).raise .ok

/-! ## Mode and playback -/

/-- The common preconditions of R160. -/
def sessionReady (s : State) : Option Res :=
  if s.syn.planActive then some .errBusy else if s.ses.sessValid = false then some .errNotConnected else none

/-- `SETMODE` (R161). -/
def opSetmode (m : Byte) (s : State) : State :=
  match sessionReady s with
  | some r => s.raise r
  | none => (runProc .warn (modeProc s.cfg m) s).conclude

/-- `START` (R163, R164). -/
def opStart (s : State) : State :=
  match sessionReady s with
  | some r => s.raise r
  | none =>
    if s.ses.sm = .modeSet ∨ s.ses.sm = .stopped ∨ s.ses.sm = .paused then (runProc .warn (startProc s.cfg) s).conclude
    else s.raise .errState

/-- `STOP` (R166). -/
def opStop (s : State) : State :=
  match sessionReady s with
  | some r => s.raise r
  | none => (runProc .warn (stopProc s.cfg) s).conclude

/-- What `PAUSE` does at the end of its procedure: `SM <- Paused` (R168). -/
def State.setPaused (s : State) : State := s.setSes { s.ses with sm := .paused }

/-- `PAUSE` (R168). -/
def opPause (s : State) : State :=
  match sessionReady s with
  | some r => s.raise r
  | none =>
    if s.ses.sm = .playing then
      let r := runProc .warn [.cmd (playCmd s.cfg .pause)] s
      r.st.setPaused.raise r.code
    else s.raise .errState

/-! ## Illumination session and status read -/

/-- The wavelength query of `ILLCONNECT` and its end, with the version line as info (R173). -/
def illWavelengths (info : List Byte) (s : State) : State :=
  match illMsg .warn .wavelengths s with
  | .ok s => s.finish .ok (.info info)
  | .warned w s => s.finish w (.info info)
  | .faulted s => s.raise .faultIo

/-- `ILLCONNECT` (R173). -/
def opIllconnect (s : State) : State :=
  if s.syn.planActive then s.raise .errBusy
  else
    match illSend .version (s.setSes { s.ses with illOn := ⟨false, false, false, false⟩ }) with
    | (.ok line, s) => illWavelengths line (s.setSes { s.ses with illValid := true })
    | (.timeout, s) => (s.setSes { s.ses with illValid := false }).raise .errNoDevice
    | (.ioError, s) => (s.setSes { s.ses with illValid := false }).raise .errNoDevice

/-- `REGREAD` (R174). -/
def opRegread (n : Byte) (s : State) : State :=
  match statusWord s n.toNat with
  | none => s.raise .cfgRange
  | some w => s.finish .ok (.word w)

/-! ## The meanings -/

def execConnect (s : State) : Host.Outcome State Fault Refusal := .next (opConnect s)

def execDisconnect (s : State) : Host.Outcome State Fault Refusal := .next (opDisconnect s)

def execSetmode (m : Byte) (s : State) : Host.Outcome State Fault Refusal := .next (opSetmode m s)

def execStart (s : State) : Host.Outcome State Fault Refusal := .next (opStart s)

def execStop (s : State) : Host.Outcome State Fault Refusal := .next (opStop s)

def execPause (s : State) : Host.Outcome State Fault Refusal := .next (opPause s)

def execIllconnect (s : State) : Host.Outcome State Fault Refusal := .next (opIllconnect s)

def execRegread (n : Byte) (s : State) : Host.Outcome State Fault Refusal := .next (opRegread n s)

end Sys2Proof.Machine
end

