-- ==== Sys2Proof/Machine/Rle.lean ====
section
/-! DEFINITION. The codec functions: `RLE-S` (R96 to R98), bit-plane packing (R94, R95), `Encode1`, `Encode8`,
`Unpack1` (R119, R121, R123). -/

namespace Sys2Proof.Machine

/-- How many of the leading symbols equal `x`, at most `budget`. -/
def runLen (x : List Byte) : Nat → List (List Byte) → Nat
  | 0, _ => 0
  | _ + 1, [] => 0
  | budget + 1, y :: ys => if y = x then 1 + runLen x budget ys else 0

/-- The length of the literal branch (R97): leading symbols `j` with `run(j) < 2`, at most `budget`. -/
def litLen : Nat → List (List Byte) → Nat
  | 0, _ => 0
  | _ + 1, [] => 0
  | budget + 1, x :: xs => if xs.head? = some x then 0 else 1 + litLen budget xs

/-- `enc` (R97) on a list of symbols; `fuel` bounds the number of records. -/
def rleEncSyms : Nat → List (List Byte) → List Byte
  | 0, _ => [0x00]
  | _ + 1, [] => [0x00]
  | fuel + 1, x :: xs =>
    let r := 1 + runLen x 128 xs
    if 2 ≤ r then BitVec.ofNat 8 (0x7E + r) :: (x ++ rleEncSyms fuel ((x :: xs).drop r))
    else
      let j := litLen 127 (x :: xs)
      BitVec.ofNat 8 j :: (((x :: xs).take j).flatten ++ rleEncSyms fuel ((x :: xs).drop j))

/-- `enc(sym, S)` of `RLE-S` (R97), the symbols given as their bytes. -/
def rleEnc (b : List Byte) (symSize : Nat) : List Byte :=
  let syms := pieces symSize b
  rleEncSyms syms.length syms

/-- `k` copies of a symbol. -/
def copies (k : Nat) (x : List Byte) : List Byte := (List.replicate k x).flatten

/-- The loop of `dec` (R98): the bytes left, the output so far; none where the rule raises `ERR_DECODE`. -/
def rleDecGo (symSize total : Nat) : Nat → List Byte → List Byte → Option (List Byte)
  | 0, _, _ => none
  | _ + 1, [], _ => none
  | fuel + 1, c :: bs, out =>
    if c = 0x00 then
      if bs = [] ∧ out.length = total then some out else none
    else if c.toNat ≤ 0x7F then
      if bs.length < c.toNat * symSize then none
      else
        let out := out ++ bs.take (c.toNat * symSize)
        if out.length > total then none else rleDecGo symSize total fuel (bs.drop (c.toNat * symSize)) out
    else
      if bs.length < symSize then none
      else
        let out := out ++ copies (c.toNat - 0x7E) (bs.take symSize)
        if out.length > total then none else rleDecGo symSize total fuel (bs.drop symSize) out

/-- `dec(b, S, N)` of `RLE-S` (R98). -/
def rleDec (b : List Byte) (symSize count : Nat) : Option (List Byte) :=
  rleDecGo symSize (count * symSize) b.length b []

/-- `CODEC.enc` (R14). -/
def codecEnc (c : Cfg) (b : List Byte) (symSize : Nat) : List Byte :=
  match c.codec with
  | .rleS => rleEnc b symSize
  | .vendor =>
    match Config.vendorCodec with
    | none => rleEnc b symSize
    | some v => v.enc b symSize

/-- `CODEC.dec` (R14). -/
def codecDec (c : Cfg) (b : List Byte) (symSize count : Nat) : Option (List Byte) :=
  match c.codec with
  | .rleS => rleDec b symSize count
  | .vendor =>
    match Config.vendorCodec with
    | none => rleDec b symSize count
    | some v => v.dec b symSize count

/-- The pixel word of R95 from the pixels of rasters 0, 1, … at one index: raster `j` is bit `j`. -/
def pixelWord : List Byte → U24
  | [] => 0
  | v :: vs => v.setWidth 24 + pixelWord vs <<< 1

/-- The symbols of a 1-bit batch (R94, R95, R119). -/
def batchSymbols (count : Nat) (rs : List Raster) : List Byte :=
  ((List.range count).map fun p => le24 (pixelWord (rs.map fun r => r.getD p 0))).flatten

/-- `Encode1` (R119). -/
def encode1 (c : Cfg) (rs : List Raster) : List Byte := codecEnc c (batchSymbols c.pixels rs) 3

/-- `Encode8` (R121). -/
def encode8 (c : Cfg) (r : Raster) : List Byte := codecEnc c r 1

/-- The pixel word of a 3-byte symbol (R123). -/
def symbolWord (sym : List Byte) : U24 := of24 (sym.getD 0 0) (sym.getD 1 0) (sym.getD 2 0)

/-- `Unpack1` (R123): raster `j` has bit `j` of every pixel word. R123 defines it for `3*W*H` bytes, and `codecDec` gives
no other length: what a vendor's `dec` of another length would do is left out by the model's choice
(notes/assumptions/7.md). -/
def unpack1 (b : List Byte) : List Raster :=
  (List.range 24).map fun j => (pieces 3 b).map fun sym => if (symbolWord sym).getLsbD j then 1 else 0

end Sys2Proof.Machine
end

