-- ==== Sys2Proof/Machine/Codec.lean ====
section
/-! DEFINITION. Pattern codec: `ENC1`, `ENC8`, `DEC1`, `DEC8` (41_codec R118 to R125). No port, no session; they run
while a plan runs (R208). -/

namespace Sys2Proof.Machine

/-- A binary raster of the right size (R118). -/
def binaryRaster (c : Cfg) (r : Raster) : Bool :=
  decide (r.length = c.pixels) && r.all fun x => decide (x = 0 ∨ x = 1)

/-- The end of an encode operation: `BLKBUF`, `BLKSIZE` and the pair as the record. -/
def State.putBlock (s : State) (b : List Byte) : State :=
  (s.setCod { s.cod with blkBuf := b }).finish .ok (.block b (Config.u32Of b.length))

/-- The end of a decode operation: `RASTOUT` as the record. -/
def State.putRasters (s : State) (rs : List Raster) : State :=
  (s.setCod { s.cod with rastOut := rs }).finish .ok (.rasters rs)

/-- `ENC1` (R118). -/
def opEnc1 (rasters : List Raster) (s : State) : State :=
  if rasters.length < 1 ∨ rasters.length > batch ∨ rasters.all (binaryRaster s.cfg) = false then s.raise .cfgRaster
  else s.putBlock (encode1 s.cfg rasters)

/-- `ENC8` (R120). -/
def opEnc8 (raster : Raster) (s : State) : State :=
  if raster.length ≠ s.cfg.pixels then s.raise .cfgRaster else s.putBlock (encode8 s.cfg raster)

/-- `DEC1` (R122). -/
def opDec1 (block : List Byte) (s : State) : State :=
  match codecDec s.cfg block 3 s.cfg.pixels with
  | none => s.raise .errDecode
  | some b => s.putRasters (unpack1 b)

/-- `DEC8` (R124). -/
def opDec8 (block : List Byte) (s : State) : State :=
  match codecDec s.cfg block 1 s.cfg.pixels with
  | none => s.raise .errDecode
  | some b => s.putRasters [b]

def execEnc1 (rasters : List Raster) (s : State) : Host.Outcome State Fault Refusal := .next (opEnc1 rasters s)

def execEnc8 (raster : Raster) (s : State) : Host.Outcome State Fault Refusal := .next (opEnc8 raster s)

def execDec1 (block : List Byte) (s : State) : Host.Outcome State Fault Refusal := .next (opDec1 block s)

def execDec8 (block : List Byte) (s : State) : Host.Outcome State Fault Refusal := .next (opDec8 block s)

end Sys2Proof.Machine
end

