-- ==== Sys2Proof/Machine/Framer.lean ====
section
/-! DEFINITION. Command framer: `FBUILD`, `FSEND`, `FCHECK` (40_framer R104 to R116). -/

namespace Sys2Proof.Machine

/-- `FBUILD` (R104). -/
def opFbuild (dir seq cmd1 cmd2 : Byte) (payload : List Byte) (s : State) : State :=
  if s.syn.planActive then s.raise .errBusy
  else if payload.length > lMax then s.raise .errLen
  else
    let fs := buildFrames s.cfg.cmdByteOrder dir seq cmd1 cmd2 payload
    (s.setFrm { s.frm with frameBuf := fs }).finish .ok (.frames fs)

/-- The result of `FSEND` from the end of `Send` (R108): a control failure is a warning, a bulk one a fault. -/
def fsendEnd (cls : Cls) : CmdOut × State → State
  | (.ok, s) => s.finish .ok (.reply s.frm.rplBuf)
  | (.timeout, s) =>
    match cls with
    | .control => (s.push (.warning Res.warnTimeout.byte)).raise .warnTimeout
    | .bulk => s.raise .faultIo
  | (.ioError, s) =>
    match cls with
    | .control => (s.push (.warning Res.warnIo.byte)).raise .warnIo
    | .bulk => s.raise .faultIo

/-- `FSEND` (R108). -/
def opFsend (cls : Cls) (s : State) : State :=
  if s.syn.planActive then s.raise .errBusy
  else if s.ses.sessValid = false then s.raise .errNotConnected
  else if s.frm.frameBuf = [] then s.raise .errState
  else fsendEnd cls (send cls (s.setUpl { s.upl with isup := false }))

/-- The end of `FCHECK` (R110): the code of `Check` with `LAST_ERR`. -/
def fcheckEnd : Ran → State
  | .ok s => s.finish .ok (.errByte s.ses.lastErr)
  | .warned w s => s.finish w (.errByte s.ses.lastErr)
  | .faulted s => s.raise .faultIo

/-- `FCHECK` (R110). -/
def opFcheck (s : State) : State :=
  if s.syn.planActive then s.raise .errBusy else fcheckEnd (checkReply s)

def execFbuild (dir seq cmd1 cmd2 : Byte) (payload : List Byte) (s : State) : Host.Outcome State Fault Refusal :=
  .next (opFbuild dir seq cmd1 cmd2 payload s)

def execFsend (cls : Cls) (s : State) : Host.Outcome State Fault Refusal := .next (opFsend cls s)

def execFcheck (s : State) : Host.Outcome State Fault Refusal := .next (opFcheck s)

end Sys2Proof.Machine
end

