-- ==== Sys2Proof/Machine/Upload.lean ====
section
/-! DEFINITION. Upload sequencer: the Sequence and its mutations (42_upload R130 to R136), single commands (R137 to
R140), compilation (R142), upload procedures (R148, R149, R153), `SUPLOAD` (R143). -/

namespace Sys2Proof.Machine

/-! ## Defining and changing the Sequence -/

/-- `SEQ_PATS <- Assign(pats)`, the generation count and `ISUP` of a mutation (R132 to R136). -/
def State.mutateSeq (s : State) (pats : List Pattern) : State :=
  (s.setUpl { s.upl with seqPats := assign s.cfg pats, seqGen := s.upl.seqGen + 1, isup := false }).raise .ok

/-- `SDEFINE` (R130). -/
def opSdefine (pats : List PatIn) (rep : Repeat) (mode : PMode) (confirm : Bool) (s : State) : State :=
  if s.syn.planActive then s.raiseUndefined
  else
    match validate s.cfg pats rep confirm with
    | some r => s.raise r
    | none =>
      (s.setUpl { s.upl with
        seqPats := assign s.cfg (pats.map freshPattern), seqRepeat := rep, seqMode := mode, seqValid := true,
        seqGen := s.upl.seqGen + 1, isup := false, blocks := [] }).finish .ok (.handle (s.upl.seqGen + 1))

/-- `PADD` (R132). -/
def opPadd (at_ : U16) (pat : PatIn) (s : State) : State :=
  if s.syn.planActive then s.raiseUndefined
  else if s.upl.seqValid = false then s.raise .errNoSeq
  else if at_.toNat > s.upl.seqPats.length then s.raise .cfgRange
  else if s.upl.seqPats.length ≥ max s.cfg.ceil1 s.cfg.ceil8 then s.raise .cfgCount
  else
    match recordOk s.cfg pat with
    | some r => s.raise r
    | none =>
      s.mutateSeq (s.upl.seqPats.take at_.toNat ++ [freshPattern pat] ++ s.upl.seqPats.drop at_.toNat)

/-- `PREMOVE` (R133). -/
def opPremove (at_ : U16) (s : State) : State :=
  if s.syn.planActive then s.raiseUndefined
  else if s.upl.seqValid = false then s.raise .errNoSeq
  else if at_.toNat ≥ s.upl.seqPats.length then s.raise .cfgRange
  else s.mutateSeq (s.upl.seqPats.take at_.toNat ++ s.upl.seqPats.drop (at_.toNat + 1))

/-- `PMOVE` (R134). -/
def opPmove (src dst : U16) (s : State) : State :=
  if s.syn.planActive then s.raiseUndefined
  else if s.upl.seqValid = false then s.raise .errNoSeq
  else
    match s.upl.seqPats[src.toNat]? with
    | none => s.raise .cfgRange
    | some p =>
      if dst.toNat ≥ s.upl.seqPats.length then s.raise .cfgRange
      else
        let rest := s.upl.seqPats.take src.toNat ++ s.upl.seqPats.drop (src.toNat + 1)
        s.mutateSeq (rest.take dst.toNat ++ [p] ++ rest.drop dst.toNat)

/-- `SREPEAT` (R135). -/
def opSrepeat (rep : Repeat) (s : State) : State :=
  if s.syn.planActive then s.raiseUndefined
  else if s.upl.seqValid = false then s.raise .errNoSeq
  else if rep = .finite 0 then s.raise .cfgRange
  else (s.setUpl { s.upl with seqRepeat := rep, seqGen := s.upl.seqGen + 1, isup := false }).raise .ok

/-- `PSET` (R136). -/
def opPset (at_ : U16) (pat : PatIn) (s : State) : State :=
  if s.syn.planActive then s.raiseUndefined
  else if s.upl.seqValid = false then s.raise .errNoSeq
  else if at_.toNat ≥ s.upl.seqPats.length then s.raise .cfgRange
  else
    match recordOk s.cfg pat with
    | some r => s.raise r
    | none =>
      s.mutateSeq (s.upl.seqPats.take at_.toNat ++ [freshPattern pat] ++ s.upl.seqPats.drop (at_.toNat + 1))

/-! ## Procedures -/

/-- `bd - 1` in its 3-bit field (R85). -/
def bdField (bd : Byte) : BitVec 3 := (bd - 1).setWidth 3

/-- `DefPatCmd` (R138). -/
def defPatAct (c : Cfg) (i : Nat) (p : Pattern) : PAct :=
  .cmd (defPatCmd c (BitVec.ofNat 16 i) (p.expUs.setWidth 24) (bdField p.bd) c.colorMask p.trigIn (p.darkUs.setWidth 24)
    (p.trigOut.setWidth 8) p.blk p.bitpos)

/-- The data-chunk commands a byte string takes (R149). -/
def chunkCount (c : Cfg) (bytes : List Byte) : Nat := ceilDiv bytes.length c.chunk

/-- `BlockCmd` (R149): the size announce, then each chunk with its progress. -/
def blockActs (c : Cfg) (b : Block) : List PAct :=
  .cmd (sizeCmd c (b.idx.setWidth 16) b.size)
    :: (pieces c.chunk b.bytes).flatMap fun data => [.cmd (dataCmd c data), .progress]

/-- `Compile` (R142). -/
def compile (c : Cfg) (pats : List Pattern) : List Block :=
  match pats with
  | [] => []
  | p0 :: _ =>
    if p0.bd = 8 then pats.mapIdx fun i p => ⟨blkOf i, encode8 c p.raster⟩
    else (pieces batch pats).mapIdx fun i ps => ⟨blkOf i, encode1 c (ps.map fun p => p.raster)⟩

/-- The packets of an upload: the sum over its blocks (R153). -/
def packetTotal (c : Cfg) (bs : List Block) : U32 := Config.u32Of ((bs.map fun b => chunkCount c b.bytes).sum)

/-- The single pattern of `UploadSingle` after `Assign([pat])` (R148). -/
def singlePattern (c : Cfg) (p : PatIn) : Pattern := assignOne c p.bd 0 (freshPattern p)

/-- `UploadSingle` (R148). -/
def uploadSingle (c : Cfg) (p : PatIn) : List PAct :=
  let q := singlePattern c p
  let bs := compile c [q]
  [.isup false, .pktInit (packetTotal c bs), defPatAct c 0 q, .cmd (lutCmd c 1 repeatInf)] ++ bs.flatMap (blockActs c)

/-- `UploadSeq` (R153): blocks in descending index order (R146). -/
def uploadSeq (s : State) : List PAct :=
  let pats := s.upl.seqPats
  let bs := compile s.cfg pats
  [.isup false, .blocks bs, .pktInit (packetTotal s.cfg bs)] ++ pats.mapIdx (defPatAct s.cfg)
    ++ [.cmd (lutCmd s.cfg (BitVec.ofNat 16 pats.length) (repeatCount s.upl.seqRepeat pats.length))]
    ++ bs.reverse.flatMap (blockActs s.cfg) ++ [.isup true]

/-! ## Single commands and the full upload -/

/-- The operand checks of `DEFPAT` (R137). -/
def defpatCheck (c : Cfg) (expUs : U32) (bd color : Byte) (darkUs trigOut : U32) (blk : U16) (bitpos : Byte) : Option Res :=
  if bdOk bd = false ∨ color.toNat > 7 ∨ darkUs.toNat > 0xFFFFFF ∨ trigOut.toNat > 0xFF ∨ blk.toNat > 0x7FF
      ∨ bitpos.toNat > 31 then some .cfgRange
  else if expUs.toNat < c.expMin bd then some .cfgExpLow
  else if expUs.toNat > c.expMax then some .cfgExpHigh
  else none

/-- `DEFPAT` (R137). -/
def opDefpat (index : U16) (expUs : U32) (bd color : Byte) (trigIn : Bool) (darkUs trigOut : U32) (blk : U16) (bitpos : Byte)
    (s : State) : State :=
  if s.syn.planActive then s.raise .errBusy
  else
    match (defpatCheck s.cfg expUs bd color darkUs trigOut blk bitpos).orElse fun _ => uplReady s with
    | some r => s.raise r
    | none =>
      (runProc .warn [.isup false, .cmd (defPatCmd s.cfg index (expUs.setWidth 24) (bdField bd) (color.setWidth 3) trigIn
        (darkUs.setWidth 24) (trigOut.setWidth 8) (blk.setWidth 11) (bitpos.setWidth 5))] s).conclude

/-- `CFGLUT` (R139). -/
def opCfglut (count : U16) (rep : U32) (s : State) : State :=
  if s.syn.planActive then s.raise .errBusy
  else if count = 0 then s.raise .cfgRange
  else
    match uplReady s with
    | some r => s.raise r
    | none => (runProc .warn [.isup false, .cmd (lutCmd s.cfg count rep)] s).conclude

/-- `IMGBLK` (R140). -/
def opImgblk (idx : U16) (block : List Byte) (s : State) : State :=
  if s.syn.planActive then s.raise .errBusy
  else if idx.toNat > 0x7FF ∨ block.length = 0 ∨ block.length > 0xFFFFFFFF then s.raise .cfgRange
  else
    match uplReady s with
    | some r => s.raise r
    | none =>
      (runProc .fault ([.isup false, .pktInit (Config.u32Of (chunkCount s.cfg block))]
        ++ blockActs s.cfg ⟨idx.setWidth 11, block⟩) s).conclude

/-- `SUPLOAD` (R143). -/
def opSupload (confirm : Bool) (s : State) : State :=
  if s.syn.planActive then s.raise .errBusy
  else if s.upl.seqValid = false then s.raise .errNoSeq
  else
    match validate s.cfg s.patsIn s.upl.seqRepeat confirm with
    | some r => s.raise r
    | none =>
      if s.upl.isup then s.raise .ok
      else
        match uplReady s with
        | some r => s.raise r
        | none => (runProc .fault (uploadSeq s) s).conclude

/-! ## The meanings -/

def execSdefine (pats : List PatIn) (rep : Repeat) (mode : PMode) (confirm : Bool) (s : State) :
    Host.Outcome State Fault Refusal := .next (opSdefine pats rep mode confirm s)

def execPadd (at_ : U16) (pat : PatIn) (s : State) : Host.Outcome State Fault Refusal := .next (opPadd at_ pat s)

def execPremove (at_ : U16) (s : State) : Host.Outcome State Fault Refusal := .next (opPremove at_ s)

def execPmove (src dst : U16) (s : State) : Host.Outcome State Fault Refusal := .next (opPmove src dst s)

def execPset (at_ : U16) (pat : PatIn) (s : State) : Host.Outcome State Fault Refusal := .next (opPset at_ pat s)

def execDefpat (index : U16) (expUs : U32) (bd color : Byte) (trigIn : Bool) (darkUs trigOut : U32) (blk : U16)
    (bitpos : Byte) (s : State) : Host.Outcome State Fault Refusal :=
  .next (opDefpat index expUs bd color trigIn darkUs trigOut blk bitpos s)

def execCfglut (count : U16) (rep : U32) (s : State) : Host.Outcome State Fault Refusal := .next (opCfglut count rep s)

def execImgblk (idx : U16) (block : List Byte) (s : State) : Host.Outcome State Fault Refusal :=
  .next (opImgblk idx block s)

def execSupload (confirm : Bool) (s : State) : Host.Outcome State Fault Refusal := .next (opSupload confirm s)

def execSrepeat (rep : Repeat) (s : State) : Host.Outcome State Fault Refusal := .next (opSrepeat rep s)

end Sys2Proof.Machine
end

