-- ==== Sys2Proof/Machine/Pseudo.lean ====
section
/-! DEFINITION. The pseudo-operations of R74: the host operations of the expansion one after the other, with the stop
rule of each. -/

namespace Sys2Proof.Machine

/-- The next operation of an expansion where the one before returned `OK`. -/
def andThen (f : State → State) (s : State) : State := if s.host.lastResult = Res.ok.byte then f s else s

/-- The next operation of an expansion unless the one before returned an error code, at or above 0x20. -/
def unlessError (f : State → State) (s : State) : State := if s.host.lastResult.toNat ≥ 0x20 then s else f s

/-- `XFER` (R74): `FBUILD`, then `FSEND` if that returned `OK`. -/
def opXfer (dir seq cmd1 cmd2 : Byte) (payload : List Byte) (cls : Cls) (s : State) : State :=
  andThen (opFsend cls) (opFbuild dir seq cmd1 cmd2 payload s)

/-- `ERRQUERY` (R74): `FBUILD`, `FSEND 0`, `FCHECK`, stopping at the first error code. -/
def opErrquery (s : State) : State :=
  unlessError opFcheck (unlessError (opFsend .control)
    (opFbuild s.cfg.dirR s.cfg.seqErrq s.cfg.opcErrq.cmd1 s.cfg.opcErrq.cmd2 [] s))

/-- `POTF` (R74): `SETMODE VAL_MODE_POTF`. -/
def opPotf (s : State) : State := opSetmode s.cfg.valModePotf s

/-- `LOAD` (R74): `SDEFINE`, then `SUPLOAD` if that returned `OK`. -/
def opLoad (pats : List PatIn) (rep : Repeat) (mode : PMode) (confirm : Bool) (s : State) : State :=
  andThen (opSupload confirm) (opSdefine pats rep mode confirm s)

def execXfer (dir seq cmd1 cmd2 : Byte) (payload : List Byte) (cls : Cls) (s : State) :
    Host.Outcome State Fault Refusal := .next (opXfer dir seq cmd1 cmd2 payload cls s)

def execErrquery (s : State) : Host.Outcome State Fault Refusal := .next (opErrquery s)

def execPotf (s : State) : Host.Outcome State Fault Refusal := .next (opPotf s)

def execLoad (pats : List PatIn) (rep : Repeat) (mode : PMode) (confirm : Bool) (s : State) :
    Host.Outcome State Fault Refusal := .next (opLoad pats rep mode confirm s)

end Sys2Proof.Machine
end

