-- ==== Sys2Proof/Machine/Synchronizer.lean ====
section
/-! DEFINITION. Projection synchronizer, host side: `PSTART`, `PSTOP`, `STREAD` (44_synchronizer R176 to R180). -/

namespace Sys2Proof.Machine

/-- The end of `PSTART` (R176): the plan is taken and the WORKER has `Worker()` to do. -/
def State.beginPlan (s : State) (plan : PlanRec) : State :=
  let s := if plan.mode = s.upl.seqMode then s else s.setUpl { s.upl with seqMode := plan.mode, isup := false }
  ((s.setSyn { s.syn with
    plan := plan, cycles := s.upl.seqRepeat, cancel := false, lastFault := Res.ok.byte, phase := .setup, cycle := 0,
    index := 0, extActive := false, extBlank := false, planActive := true }).setWork [.setup]).raise .ok

/-- `PSTART` (R176). -/
def opPstart (plan : PlanRec) (s : State) : State :=
  if s.syn.planActive then s.raise .errBusy
  else if s.upl.seqValid = false then s.raise .errNoSeq
  else
    match planValidate s plan with
    | some r => s.raise r
    | none =>
      if s.ses.sessValid = false then s.raise .errNotConnected
      else if needsIllum plan = true ∧ s.ses.illValid = false then s.raise .errNotConnected
      else s.beginPlan plan

/-- `PSTOP` (R178). -/
def opPstop (s : State) : State :=
  if s.syn.planActive then (s.setSyn { s.syn with cancel := true }).raise .ok else s.raise .ok

/-- `STREAD` (R180). -/
def opStread (s : State) : State :=
  match s.sts.fifo with
  | [] => s.finish .ok (.event none s.sts.ovf)
  | e :: es =>
    (s.setSts { fifo := es, ovf := if es = [] then false else s.sts.ovf }).finish .ok (.event (some e) s.sts.ovf)

def execPstart (plan : PlanRec) (s : State) : Host.Outcome State Fault Refusal := .next (opPstart plan s)

def execPstop (s : State) : Host.Outcome State Fault Refusal := .next (opPstop s)

def execStread (s : State) : Host.Outcome State Fault Refusal := .next (opStread s)

end Sys2Proof.Machine
end

