-- ==== Sys2Proof/Machine/WireCommands.lean ====
section
/-! DEFINITION. The wire commands of R93 as instructions of their own: the block issues the command with `CMD` (R112).
What a failed reply means is the caller's to say (R113); `RPLV` shows whether a reply came. -/

namespace Sys2Proof.Machine

/-- The block issues a command (R112). -/
def issue (c : Cmd) (s : State) : Host.Outcome State Fault Refusal := .next (doCmd c s).2

/-- `W_MODE` (R82). -/
def execWMode (m : Byte) (s : State) : Host.Outcome State Fault Refusal := issue (modeCmd s.cfg m) s

/-- `W_PLAYCTL` (R83). -/
def execWPlayctl (v : PlayVal) (s : State) : Host.Outcome State Fault Refusal := issue (playCmd s.cfg v) s

/-- `W_DEFPAT` (R84, R85, R86). -/
def execWDefpat (index : U16) (expUs : U24) (bd1 color : BitVec 3) (trigIn : Bool) (darkUs : U24) (trigOut : Byte)
    (blk : BitVec 11) (bitpos : BitVec 5) (s : State) : Host.Outcome State Fault Refusal :=
  issue (defPatCmd s.cfg index expUs bd1 color trigIn darkUs trigOut blk bitpos) s

/-- `W_LUT` (R87). -/
def execWLut (count : U16) (rep : U32) (s : State) : Host.Outcome State Fault Refusal := issue (lutCmd s.cfg count rep) s

/-- `W_IMGSIZE` (R88). -/
def execWImgsize (idx : U16) (size : U32) (s : State) : Host.Outcome State Fault Refusal :=
  issue (sizeCmd s.cfg idx size) s

/-- `W_IMGDATA` (R89); a chunk outside `1 <= n <= CHUNK` is no command. -/
def execWImgdata (data : List Byte) (s : State) : Host.Outcome State Fault Refusal :=
  if s.cfg.chunkOk data then issue (dataCmd s.cfg data) s else .refused .notAWireCommand

/-- `W_ERRQ` (R90). -/
def execWErrq (s : State) : Host.Outcome State Fault Refusal := issue (errqCmd s.cfg) s

/-- `W_INSRC` (R91). -/
def execWInsrc (s : State) : Host.Outcome State Fault Refusal := issue (inSrcCmd s.cfg) s

/-- `W_TRIGMODE` (R92). -/
def execWTrigmode (s : State) : Host.Outcome State Fault Refusal := issue (trigModeCmd s.cfg) s

end Sys2Proof.Machine
end

