-- ==== Sys2Proof/Machine/Dispatch.lean ====
section
/-! DEFINITION. One arm per instruction: a direct call of its meaning. -/

namespace Sys2Proof.Machine

def exec (i : Instr) (s : State) : Host.Outcome State Fault Refusal :=
  match i with
  | .fbuild dir seq cmd1 cmd2 payload => Sys2Proof.Machine.execFbuild dir seq cmd1 cmd2 payload s
  | .fsend cls => Sys2Proof.Machine.execFsend cls s
  | .fcheck => Sys2Proof.Machine.execFcheck s
  | .enc1 rasters => Sys2Proof.Machine.execEnc1 rasters s
  | .enc8 raster => Sys2Proof.Machine.execEnc8 raster s
  | .dec1 block => Sys2Proof.Machine.execDec1 block s
  | .dec8 block => Sys2Proof.Machine.execDec8 block s
  | .sdefine pats rep mode confirm => Sys2Proof.Machine.execSdefine pats rep mode confirm s
  | .padd at_ pat => Sys2Proof.Machine.execPadd at_ pat s
  | .premove at_ => Sys2Proof.Machine.execPremove at_ s
  | .pmove src dst => Sys2Proof.Machine.execPmove src dst s
  | .pset at_ pat => Sys2Proof.Machine.execPset at_ pat s
  | .defpat index expUs bd color trigIn darkUs trigOut blk bitpos => Sys2Proof.Machine.execDefpat index expUs bd color trigIn darkUs trigOut blk bitpos s
  | .cfglut count rep => Sys2Proof.Machine.execCfglut count rep s
  | .imgblk idx block => Sys2Proof.Machine.execImgblk idx block s
  | .supload confirm => Sys2Proof.Machine.execSupload confirm s
  | .srepeat rep => Sys2Proof.Machine.execSrepeat rep s
  | .connect => Sys2Proof.Machine.execConnect s
  | .disconnect => Sys2Proof.Machine.execDisconnect s
  | .setmode m => Sys2Proof.Machine.execSetmode m s
  | .start => Sys2Proof.Machine.execStart s
  | .stop => Sys2Proof.Machine.execStop s
  | .pause => Sys2Proof.Machine.execPause s
  | .illconnect => Sys2Proof.Machine.execIllconnect s
  | .regread n => Sys2Proof.Machine.execRegread n s
  | .pstart plan => Sys2Proof.Machine.execPstart plan s
  | .pstop => Sys2Proof.Machine.execPstop s
  | .stread => Sys2Proof.Machine.execStread s
  | .wMode m => Sys2Proof.Machine.execWMode m s
  | .wPlayctl v => Sys2Proof.Machine.execWPlayctl v s
  | .wDefpat index expUs bd1 color trigIn darkUs trigOut blk bitpos => Sys2Proof.Machine.execWDefpat index expUs bd1 color trigIn darkUs trigOut blk bitpos s
  | .wLut count rep => Sys2Proof.Machine.execWLut count rep s
  | .wImgsize idx size => Sys2Proof.Machine.execWImgsize idx size s
  | .wImgdata data => Sys2Proof.Machine.execWImgdata data s
  | .wErrq => Sys2Proof.Machine.execWErrq s
  | .wInsrc => Sys2Proof.Machine.execWInsrc s
  | .wTrigmode => Sys2Proof.Machine.execWTrigmode s
  | .xfer dir seq cmd1 cmd2 payload cls => Sys2Proof.Machine.execXfer dir seq cmd1 cmd2 payload cls s
  | .errquery => Sys2Proof.Machine.execErrquery s
  | .potf => Sys2Proof.Machine.execPotf s
  | .load pats rep mode confirm => Sys2Proof.Machine.execLoad pats rep mode confirm s

end Sys2Proof.Machine
end

