-- ==== Sys2Proof/Machine/Worker.lean ====
section
/-! DEFINITION. The WORKER (44_synchronizer R181 to R209). One worker step is one port transaction and the register
accesses up to the next one (R64); a worker procedure is the list of what it has left to do. -/

namespace Sys2Proof.Machine

/-! ## Procedures as worker actions -/

/-- A procedure in a context, as worker actions. -/
def inCtx (ctx : Ctx) (as : List PAct) : List WAct := as.map (.act ctx)

/-- `IllAllOff` (R183): nothing when there is no controller session. -/
def illAllOff (s : State) : List PAct := if s.ses.illValid then [.ill .allOff, .illDark] else []

/-- `IllActivate` (R183). -/
def illActivate (c : Cfg) (acts : List Activation) : List PAct :=
  acts.flatMap fun a => [.ill (.load a.nm), .ill (.set a.ch a.pct), .illLit a.ch, .settle c.illSettleMs]

/-- `ShowStep` for a pattern, its activations and the index its event shows (R184, R202). -/
def showActs (s : State) (p : PatIn) (acts : List Activation) (shown : U16) : List PAct :=
  [.phase .s1] ++ stopProc s.cfg ++ [.phase .s2] ++ illAllOff s ++ [.phase .s3] ++ uploadSingle s.cfg p
    ++ [.phase .s4] ++ illActivate s.cfg acts ++ [.phase .s5] ++ startProc s.cfg ++ [.push (.display shown)]

/-- The blank pattern (R202). -/
def blankPattern (c : Cfg) (bd : Byte) : PatIn :=
  { raster := zeros c.pixels, expUs := BitVec.ofNat 32 (c.expMin bd), darkUs := 0, trigIn := false, trigOut := 0, bd := bd }

/-- Stop and all off, as `RunExt` begins and `ExtOff` ends (R197, R201). -/
def stopDark (s : State) : List WAct :=
  inCtx .fault ([.phase .s1] ++ stopProc s.cfg ++ [.phase .s2] ++ illAllOff s)

/-- `Cleanup()` (R204). -/
def cleanup (s : State) : List PAct :=
  [.phase .cleanup] ++ illAllOff s ++ if s.ses.sessValid then stopProc s.cfg else []

/-- `CYCLIC`'s period in microseconds (R195). -/
def period (s : State) : Nat := (s.upl.seqPats.map fun p => p.expUs.toNat + p.darkUs.toNat).sum

/-! ## Which actions reach a port -/

/-- The next thing an action does is a port transaction (R16). -/
def WAct.isPort : WAct → Bool
  | .act _ a =>
    match a with
    | .ill _ => true
    | .settle _ => true
    | _ => false
  | .out _ _ _ => true
  | .inp _ _ => true
  | .nowPlan => true
  | .nowStep _ => true
  | .waitStart _ => true
  | .waitTick _ _ => true
  | .waitRest _ => true
  | .cyclicPoll _ => true
  | .extFirst => true
  | .extNext => true
  | .setup => false
  | .runMode => false
  | .pos _ _ => false
  | .showStep _ => false
  | .showBlank => false
  | .checkCancel => false
  | .pulsedCycle _ _ => false
  | .pulsedPat _ _ _ => false
  | .pulsedWait _ => false
  | .cyclicUpload => false
  | .cyclicLight => false
  | .extPoll _ _ => false
  | .extPrev _ _ => false
  | .extActive _ => false
  | .extBlank _ => false
  | .endPlan _ => false
  | .finishPlan _ => false

/-! ## One action -/

/-- What is left after an action of a procedure: the rest, or the trap (R215, R218). -/
def resume (rest : List WAct) : Ran → State
  | .ok s => s.setWork rest
  | .warned _ s => s.setWork rest
  | .faulted s => s.trap .fault

/-- What is left after a command: as `resume`, but a Stop that failed in the fault context waits its settle time before
the trap, and `SM` is not written (R167, R243; notes/assumptions/31.md). -/
def resumeCmd (ctx : Ctx) (rest : List WAct) (r : Ran) : State :=
  match ctx, r with
  | .stop d, .faulted s => s.setWork [.act .fault (.settle d), .endPlan .fault]
  | _, r => resume rest r

/-- One frame of `Send` (R109). -/
def workOut (ctx : Ctx) (cls : Cls) (k : Nat) (rest : List WAct) (s : State) : State :=
  match s.frm.frameBuf[k]? with
  | none => s.setWork (.inp ctx cls :: rest)
  | some f =>
    match usbOut f s with
    | (.ok, s) =>
      s.setWork ((if k + 1 < s.frm.frameBuf.length then .out ctx cls (k + 1) else .inp ctx cls) :: rest)
    | (.ioError, s) => resumeCmd ctx rest (onFailure ctx false s.dropReply)

/-- The reply of `Send` (R109). -/
def workInp (ctx : Ctx) (cls : Cls) (rest : List WAct) (s : State) : State :=
  resumeCmd ctx rest (cmdEnd ctx (recvReply cls s))

/-- `RunContinuous`, `RunPulsed`, `RunCyclic`, `RunExt` from their first line (R185, R186, R192, R197); each ends in
`EndPlan(0x00)` (R181). -/
def modeWork (s : State) : Except Fault (List WAct) :=
  match s.syn.plan.mode with
  | .continuous =>
    match s.syn.plan.sel with
    | none => .error .noSuchPattern
    | some k =>
      .ok [.pos 0 k, .nowStep true, .act .fault (.push (.step 0 k)), .showStep k.toNat, .act .fault (.phase .run),
        .waitStart (if s.syn.plan.autoStopMs = 0 then none else some s.syn.plan.autoStopMs.toNat), .endPlan .done]
  | .pulsed => .ok [.pulsedCycle 0 true]
  | .cyclic =>
    .ok (stopDark s ++ [.act .fault (.phase .s3), .cyclicUpload, .act .fault (.phase .s4), .cyclicLight,
      .act .fault (.phase .s5)] ++ inCtx .fault (startProc s.cfg) ++ [.nowStep true, .pos 0 0,
      .act .fault (.push (.display 0)), .act .fault (.phase .run), .checkCancel, .cyclicPoll 0])
  | .ext => .ok (.pos 0 0 :: (stopDark s ++ [.extFirst]))

/-- One poll of `RunExt` after its sample (R197). -/
def extLoop (on : Bool) (cnt : U32) (s : State) : List WAct :=
  [.checkCancel, .nowStep false, .extPoll on cnt, .act .fault (.phase .poll), .waitStart (some s.cfg.pollMs), .extNext]

/-- The end of a poll that shows the current pattern. -/
def showCurrent (s : State) : List WAct :=
  [.act .fault (.push (.step s.syn.cycle s.syn.index)), .showStep s.syn.index.toNat]

/-- `SYN_INDEX <- (SYN_INDEX + 1) mod P`, and the cycle count at the wrap (R200). -/
def State.advanceIndex (s : State) : State :=
  let i := (s.syn.index.toNat + 1) % s.upl.seqPats.length
  s.setSyn { s.syn with index := BitVec.ofNat 16 i, cycle := if i = 0 then s.syn.cycle + 1 else s.syn.cycle }

/-- `ExtPoll(on, cnt)` (R198 to R201). -/
def extPoll (on : Bool) (cnt : U32) (rest : List WAct) (s : State) : State :=
  if s.syn.extPrevOnoff = false ∧ on = true then
    let first := if s.syn.plan.blankFirst then [.showBlank, .extBlank true] else showCurrent s
    s.setWork (first ++ .extActive true :: .extPrev on cnt :: rest)
  else if s.syn.extPrevOnoff = true ∧ on = false then
    s.setWork (stopDark s ++ .extActive false :: .extBlank false :: .extPrev on cnt :: rest)
  else if on = true ∧ s.syn.extActive = true ∧ cnt.toNat > s.syn.extPrevCnt.toNat then
    let t := if s.syn.extBlank then s.setSyn { s.syn with extBlank := false } else s.advanceIndex
    t.setWork (showCurrent t ++ .extPrev on cnt :: rest)
  else s.setWork (.extPrev on cnt :: rest)

/-- The count of a finite repeat that `ex` has reached (R195). -/
def cyclesReached (rep : Repeat) (ex : Nat) : Option U32 :=
  match rep with
  | .finite n => if n.toNat ≤ ex then some n else none
  | .inf => none

/-- One sample of `CyclicTrack` (R195) with `el` the time since playback started. -/
def cyclicSample (last : Nat) (el : U64) (rest : List WAct) (s : State) : Except Fault State :=
  if period s = 0 then .error .zeroPeriod
  else
    let ex := 1000 * el.toNat / period s
    match cyclesReached s.syn.cycles ex with
    | some n =>
      .ok (((s.setSyn { s.syn with cycle := n }).push (.cyclic el n)).setWork [.endPlan .done])
    | none =>
      let t := if ex = last then s
        else (s.setSyn { s.syn with cycle := BitVec.ofNat 32 ex }).push (.cyclic el (BitVec.ofNat 32 ex))
      .ok (t.setWork (.waitStart (some s.cfg.pollMs) :: .checkCancel :: .cyclicPoll ex :: rest))

/-- A tick of `Wait(d)` (R205): `CANCEL`, then one reading of the clock, then a sleep of at most `TICK_MS`. -/
def waitTick (t0 : U64) (d : Option Nat) (rest : List WAct) (s : State) : State :=
  if s.syn.cancel then s.trap .cancelled
  else
    let (t, s) := now s
    match d with
    | none => (s.log (.sleep s.cfg.tickMs)).setWork (.waitTick t0 d :: rest)
    | some n =>
      if t.toNat ≥ t0.toNat + n then s.setWork rest
      else (s.log (.sleep (min s.cfg.tickMs (t0.toNat + n - t.toNat)))).setWork (.waitTick t0 d :: rest)

/-- Shows pattern `k` (R184). -/
def showStep (k : Nat) (rest : List WAct) (s : State) : Except Fault State :=
  match s.upl.seqPats[k]?, s.syn.plan.illum[k]? with
  | some p, some acts => .ok (s.setWork (inCtx .fault (showActs s p.toPatIn acts (BitVec.ofNat 16 k)) ++ rest))
  | _, _ => .error .noSuchPattern

/-- Shows the blank pattern (R202). -/
def showBlank (rest : List WAct) (s : State) : Except Fault State :=
  match s.upl.seqPats with
  | p :: _ => .ok (s.setWork (inCtx .fault (showActs s (blankPattern s.cfg p.bd) [] 0xFFFF) ++ rest))
  | [] => .error .noSuchPattern

/-- The head of the outer loop of `RunPulsed` (R186). -/
def pulsedCycle (c : U32) (first : Bool) (s : State) : State :=
  if s.syn.cycles = .finite c then s.setWork [.endPlan .done] else s.setWork [.pulsedPat c 0 first]

/-- The head of the inner loop of `RunPulsed` (R186). -/
def pulsedPat (c : U32) (k : Nat) (first : Bool) (s : State) : State :=
  if k < s.upl.seqPats.length then
    s.setWork [.checkCancel, .pos c (BitVec.ofNat 16 k), .nowStep first, .act .fault (.push (.step c (BitVec.ofNat 16 k))),
      .showStep k, .act .fault (.phase .s6), .pulsedWait k, .pulsedPat c (k + 1) false]
  else s.setWork [.pulsedCycle (c + 1) first]

/-- Step (vi) (R186, R187, R188). -/
def pulsedWait (k : Nat) (rest : List WAct) (s : State) : Except Fault State :=
  match s.syn.plan.durMs[k]? with
  | none => .error .noSuchPattern
  | some d =>
    .ok (s.setWork ((match s.syn.plan.disc with
      | .preciseTotal => .waitRest d.toNat
      | .precisePulse => .waitStart (some d.toNat)) :: rest))

/-- One worker action `a`, with `rest` what comes after it. -/
def workAct (a : WAct) (rest : List WAct) (s : State) : Except Fault State :=
  match a with
  | .act ctx (.cmd c) => .ok ((s.loadFrames (c.frames s.cfg)).setWork (.out ctx c.cls 0 :: rest))
  | .act ctx .stopPlay =>
    .ok ((s.loadFrames ((playCmd s.cfg .stop).frames s.cfg)).setWork
      (.out (ctx.ofStop s.cfg.settleStopMs) .control 0 :: rest))
  | .act ctx a => .ok (resume rest (a.run ctx s))
  | .out ctx cls k => .ok (workOut ctx cls k rest s)
  | .inp ctx cls => .ok (workInp ctx cls rest s)
  | .setup =>
    let s := s.setSyn { s.syn with phase := .setup }
    if s.ses.modeKnown = false ∨ s.ses.mode ≠ s.cfg.valModePotf then
      .ok (s.setWork (inCtx .fault (modeProc s.cfg s.cfg.valModePotf) ++ [.runMode]))
    else .ok (s.setWork [.runMode])
  | .runMode => (modeWork s).map s.setWork
  | .pos c i => .ok ((s.setSyn { s.syn with cycle := c, index := i }).setWork rest)
  | .nowPlan =>
    let (t, s) := now s
    .ok ((s.setSyn { s.syn with tPlan := t }).setWork rest)
  | .nowStep plan =>
    let (t, s) := now s
    .ok ((s.setSyn { s.syn with tStep := t, tPlan := if plan then t else s.syn.tPlan }).setWork rest)
  | .showStep k => showStep k rest s
  | .showBlank => showBlank rest s
  | .checkCancel => .ok (if s.syn.cancel then s.trap .cancelled else s.setWork rest)
  | .waitStart d =>
    let (t0, s) := now s
    .ok (s.setWork (.waitTick t0 d :: rest))
  | .waitTick t0 d => .ok (waitTick t0 d rest s)
  | .waitRest d =>
    let (t, s) := now s
    .ok (s.setWork (.waitStart (some (satsub d (t.toNat - s.syn.tStep.toNat))) :: rest))
  | .pulsedCycle c first => .ok (pulsedCycle c first s)
  | .pulsedPat c k first => .ok (pulsedPat c k first s)
  | .pulsedWait k => pulsedWait k rest s
  | .cyclicUpload => .ok (s.setWork ((if s.upl.isup then [] else inCtx .fault (uploadSeq s)) ++ rest))
  | .cyclicLight =>
    match union s.syn.plan.illum with
    | none => .error .channelConflict
    | some acts => .ok (s.setWork (inCtx .fault (illActivate s.cfg acts) ++ rest))
  | .cyclicPoll last =>
    let (t, s) := now s
    cyclicSample last (BitVec.ofNat 64 (t.toNat - s.syn.tStep.toNat)) rest s
  | .extFirst =>
    let (a, s) := sampleTrg s
    .ok ((s.setSyn { s.syn with extPrevOnoff := false, extPrevCnt := a.2, extActive := false, extBlank := false }).setWork
      (.nowPlan :: extLoop a.1 a.2 s))
  | .extNext =>
    let (a, s) := sampleTrg s
    .ok (s.setWork (extLoop a.1 a.2 s))
  | .extPoll on cnt => .ok (extPoll on cnt rest s)
  | .extPrev on cnt => .ok ((s.setSyn { s.syn with extPrevCnt := cnt, extPrevOnoff := on }).setWork rest)
  | .extActive b => .ok ((s.setSyn { s.syn with extActive := b }).setWork rest)
  | .extBlank b => .ok ((s.setSyn { s.syn with extBlank := b }).setWork rest)
  | .endPlan e => .ok (s.setWork (inCtx .warn (cleanup s) ++ [.finishPlan e]))
  | .finishPlan e => .ok (s.returnIdle e)

/-! ## One step -/

/-- The register accesses up to the next port transaction, at most `fuel` actions of them. -/
def runRegs : Nat → State → Except Fault State
  | 0, s => .ok s
  | fuel + 1, s =>
    match s.work with
    | [] => .ok s
    | a :: rest =>
      if a.isPort then .ok s
      else
        match workAct a rest s with
        | .ok t => runRegs fuel t
        | .error e => .error e

/-- More actions than any procedure has between two port transactions; where it did not suffice, the step would end
early and the next one go on. -/
def regBurst : Nat := 64

/-- One step of the WORKER: the port transaction it stands before, if any, then the register accesses up to the next
(R64). A worker with nothing to do stays as it is. -/
def workerStep (s : State) : Except Fault State :=
  match s.work with
  | [] => .ok s
  | a :: rest =>
    if a.isPort then
      match workAct a rest s with
      | .ok t => runRegs regBurst t
      | .error e => .error e
    else runRegs regBurst s

end Sys2Proof.Machine
end

