-- ==== Sys2Proof/Machine/Turns.lean ====
section
/-! DEFINITION. Whose turn it is and what a turn does (R64, R212, R237): HOST's next operation, one step of the WORKER,
block reset. -/

namespace Sys2Proof.Machine

/-- The next turn and the state that has used it up: the head of the queue, or free between HOST and WORKER. -/
def State.takeTurn (s : State) : Turn × State :=
  match s.ports.turns with
  | t :: ts => (t, s.setPorts { s.ports with turns := ts })
  | [] =>
    (if Config.freeWorkerTurn s.ports.draws then .worker else .host,
      s.setPorts { s.ports with draws := s.ports.draws + 1 })

/-- `HOP` after an operation was taken off it. -/
def State.setHop (s : State) (bs : List Byte) : State := s.setPorts { s.ports with hop := bs }

/-- HOST's turn: the next operation on `HOP` runs; a reserved op byte is `ERR_ILLEGAL_OP` (R71, R236); a record that is no
operation is refused (R72); with nothing on `HOP` nothing happens. -/
def hostTurn (s : State) : Host.Outcome State Fault Refusal :=
  match decode s.ports.hop with
  | .ok (i, rest) => exec i (s.setHop rest)
  | .error .empty => .next s
  | .error (.reservedOp _ rest) => .next ((s.setHop rest).raise .errIllegalOp)
  | .error (.notAnOperation op) => .refused (.notAnOperation op)

/-- The WORKER's turn: one worker step while a plan runs (R212). -/
def workerTurn (s : State) : Host.Outcome State Fault Refusal :=
  if s.syn.planActive then
    match workerStep s with
    | .ok t => .next t
    | .error e => .fault e
  else .next s

/-- The port transactions of `t` that `s` did not have, the first `n` of them in order. -/
def firstNew (s t : State) (n : Nat) : List PortEvent :=
  ((t.ports.trace.take (t.ports.trace.length - s.ports.trace.length)).reverse).take n

/-- HOST's operation with block reset after `n` of its port transactions (R237): those happened, no later one does, and
every register has its reset value. -/
def hostTurnCut (n : Nat) (s : State) : Host.Outcome State Fault Refusal :=
  match hostTurn s with
  | .next t =>
    .next (t.setPorts ((firstNew s t n).foldl Ports.log { s.ports with hop := t.ports.hop })).blockReset
  | .fault e => .fault e
  | .refused r => .refused r

/-- What a turn does. -/
def doTurn : Turn × State → Host.Outcome State Fault Refusal
  | (.host, s) => hostTurn s
  | (.worker, s) => workerTurn s
  | (.reset, s) => .next s.blockReset
  | (.resetIn n, s) => hostTurnCut n s

end Sys2Proof.Machine
end

