-- ==== Sys2Proof/Machine/Step.lean ====
section
/-! DEFINITION. One step of the block: the next turn. The block fetches nothing (R23); HOST's operations arrive on
`HOP`. -/

namespace Sys2Proof.Machine

/-- One step: the agent whose turn it is moves. -/
def step (s : State) : Host.Outcome State Fault Refusal := doTurn s.takeTurn

/-- `s` with the table word `w` of `nbits` bits as HOST's next operation, and the next turn HOST's. -/
def State.withFetchWord (s : State) (nbits w : Nat) : State :=
  s.setPorts { s.ports with hop := fetchBytes nbits w, turns := .host :: s.ports.turns }

end Sys2Proof.Machine
end

