-- ==== Sys2Proof/Safety.lean ====
section
/-! DEFINITION. What counts as a sound state of the block and as a safe run, and the terms the statements use: what an
operation did on the ports, the codes an operation may return (R219), the moves of `SM` (R172). -/

namespace Sys2Proof.Machine

/-! ## What happened on the ports -/

/-- Between `s` and `t` exactly the transactions `evs` happened, in this order. -/
def State.did (s t : State) (evs : List PortEvent) : Prop := t.ports.trace = evs.reverse ++ s.ports.trace

/-- The frame of a `UsbOut`, sent or failed. -/
def PortEvent.frame? : PortEvent → Option Frame
  | .usbOut f _ => some f
  | .probe _ => none
  | .usbIn _ _ => none
  | .ill _ _ _ _ => none
  | .clk _ => none
  | .trg _ _ => none
  | .settled _ _ => none
  | .sleep _ => none

/-- The frames of the `UsbOut`s among some transactions, in order. -/
def framesOut (evs : List PortEvent) : List Frame := evs.filterMap PortEvent.frame?

/-- A frame put on `USB_OUT`, or the length of a finished settle wait. -/
inductive Mark
  | out (f : Frame)
  | settle (d : Nat)
deriving DecidableEq, Repr

/-- The mark of a transaction. -/
def PortEvent.mark? : PortEvent → Option Mark
  | .usbOut f _ => some (.out f)
  | .settled d _ => some (.settle d)
  | .probe _ => none
  | .usbIn _ _ => none
  | .ill _ _ _ _ => none
  | .clk _ => none
  | .trg _ _ => none
  | .sleep _ => none

/-- The frames and settle waits among some transactions, in order. -/
def marks (evs : List PortEvent) : List Mark := evs.filterMap PortEvent.mark?

/-- The frames of some commands, one command after the other (R63). -/
def cmdFrames (c : Cfg) (ks : List Cmd) : List Frame := ks.flatMap (Cmd.frames c)

/-- The only frame of a command whose payload is at most 58 bytes, as a mark. -/
def outMarks (c : Cfg) (k : Cmd) : List Mark := (k.frames c).map .out

/-- A transaction of a command that failed: a frame that was not sent, or no reply (R109). -/
def PortEvent.failed : PortEvent → Bool
  | .usbOut _ .ok => false
  | .usbOut _ .ioError => true
  | .usbIn _ (.reply _) => false
  | .usbIn _ .timeout => true
  | .usbIn _ .ioError => true
  | .probe _ => false
  | .ill _ _ _ _ => false
  | .clk _ => false
  | .trg _ _ => false
  | .settled _ _ => false
  | .sleep _ => false

/-- A failed transaction is a reply's timeout (R109). -/
def PortEvent.timedOut : PortEvent → Bool
  | .usbIn _ .timeout => true
  | .usbIn _ (.reply _) => false
  | .usbIn _ .ioError => false
  | .usbOut _ _ => false
  | .probe _ => false
  | .ill _ _ _ _ => false
  | .clk _ => false
  | .trg _ _ => false
  | .settled _ _ => false
  | .sleep _ => false

/-- The warning a failed transaction of a command in the warn context gives (R113). -/
def PortEvent.warning? (e : PortEvent) : Option Byte := if e.failed then some (if e.timedOut then 0x11 else 0x12) else none

/-- The frame of a reply. -/
def PortEvent.reply? : PortEvent → Option Frame
  | .usbIn _ (.reply b) => some b
  | .usbIn _ .timeout => none
  | .usbIn _ .ioError => none
  | .usbOut _ _ => none
  | .probe _ => none
  | .ill _ _ _ _ => none
  | .clk _ => none
  | .trg _ _ => none
  | .settled _ _ => none
  | .sleep _ => none

/-- The reply among the transactions of one command, if one came. -/
def replyOf (evs : List PortEvent) : Option Frame := evs.findSome? PortEvent.reply?

/-! ## Reading the wire -/

/-- Byte `i` of frame `k` of the command with header `dir`, `seq`, `a`, `b` and payload `p`, by R75 and R76. -/
def wireByte (dir seq a b : Byte) (p : List Byte) (k i : Nat) : Byte :=
  if k = 0 then
    if i = 0 then dir
    else if i = 1 then seq
    else if i = 2 then (BitVec.ofNat 16 (p.length + 2)).extractLsb' 0 8
    else if i = 3 then (BitVec.ofNat 16 (p.length + 2)).extractLsb' 8 8
    else if i = 4 then a
    else if i = 5 then b
    else if i - 6 < 58 then p.getD (i - 6) 0 else 0
  else p.getD (58 + 64 * (k - 1) + i) 0

/-! ## What a command did -/

/-- The devices' next answers take `n` frames and give the replies `bs`, and then `outs` and `ins` are left. -/
def Ports.grants (p : Ports) (n : Nat) (bs : List Frame) (outs : List OutAns) (ins : List InAns) : Prop :=
  p.usbOutAns = List.replicate n .ok ++ outs ∧ p.usbInAns = bs.map .reply ++ ins ∧ ∀ b ∈ bs, b.length = 64

/-- The ports after a command of the frames `fs` was answered with `b`: the frames and the reply joined the trace. -/
def Ports.answered (p : Ports) (timeoutMs : Nat) (fs : List Frame) (b : Frame) (outs : List OutAns) (ins : List InAns) :
    Ports :=
  { p with
    usbOutAns := outs, usbInAns := ins,
    trace := .usbIn timeoutMs (.reply b) :: ((fs.map fun f => PortEvent.usbOut f .ok).reverse ++ p.trace) }

/-- From `s` to `t` one command of the frames `fs` ran in the warn context (R113) and its code is the operation's: every
frame sent and a reply, none of its transactions failing; or one of them failed, and it is a warning, its event and no
valid reply. Devices that take every frame and reply give the first. -/
def warnCommand (s t : State) (fs : List Frame) : Prop :=
  (∃ evs, s.did t evs ∧ framesOut evs <+: fs ∧ t.frm.frameBuf = fs ∧ t.frm.inflight = false
    ∧ ((t.host.lastResult = 0x00 ∧ framesOut evs = fs ∧ t.frm.rplv = true ∧ t.sts = s.sts ∧ ∀ e ∈ evs, e.failed = false)
      ∨ (∃ e ∈ evs, e.failed = true ∧ t.host.lastResult = (if e.timedOut then 0x11 else 0x12) ∧ t.frm.rplv = false
        ∧ t.frm.rplBuf = s.frm.rplBuf ∧ t.sts = (s.push (.warning t.host.lastResult)).sts)))
    ∧ ∀ b outs ins, s.ports.grants fs.length [b] outs ins → t.host.lastResult = 0x00

/-- `s` after a `WARNING` event of each code, in order (R115). -/
def State.warnedOf (s : State) (ws : List Byte) : State := ws.foldl (fun s w => s.push (.warning w)) s

/-- A command of a procedure, and whether `Check` of its reply follows it (R114). -/
structure Sending where
  cmd : Cmd
  checked : Bool
deriving DecidableEq, Repr

/-- `evs` are the transactions of the command `k`, with a settle wait after them or not: every frame out, a reply of 64
bytes and no failure; or a first part of its frames, no reply and one failure. -/
def ranCommand (c : Cfg) (k : Cmd) (evs : List PortEvent) : Prop :=
  (framesOut evs = k.frames c ∧ (∃ b, replyOf evs = some b ∧ b.length = 64) ∧ ∀ e ∈ evs, e.failed = false)
    ∨ (framesOut evs <+: k.frames c ∧ replyOf evs = none ∧ ∃ w, evs.filterMap PortEvent.warning? = [w])

/-- The warnings of `Check` after a command that brought this reply, or none (R111). -/
def checkWarnings (c : Cfg) : Option Frame → List Byte
  | none => [0x13]
  | some b => if b.getD c.errOff 0 = 0 then [] else [0x10]

/-- The warnings met with a command whose transactions were `evs`, in order: of its failure (R113), of `Check` (R111). -/
def Sending.warnings (c : Cfg) (k : Sending) (evs : List PortEvent) : List Byte :=
  evs.filterMap PortEvent.warning? ++ if k.checked then checkWarnings c (replyOf evs) else []

/-- `LAST_ERR` after a command whose transactions were `evs`, from its value before (R111). -/
def Sending.errAfter (c : Cfg) (e : Byte) (k : Sending) (evs : List PortEvent) : Byte :=
  if k.checked then
    match replyOf evs with
    | some b => b.getD c.errOff 0
    | none => e
  else e

/-- From `s` to `t` the commands `ks` ran in the warn context with the transactions `evs`, whatever failed (R113). The code
is the first warning met and every warning is pushed, in order (R115); the reply registers and `LAST_ERR` follow the
replies (R109, R111). The code is `OK` exactly where nothing failed and every checked error byte is 0. Devices that take
every frame and reply to every command bring these replies. -/
def warnCommands (s t : State) (ks : List Sending) (evs : List PortEvent) : Prop :=
  ∃ segs : List (List PortEvent), evs = segs.flatten ∧ segs.length = ks.length
    ∧ (∀ x ∈ ks.zip segs, ranCommand s.cfg x.1.cmd x.2)
    ∧ (∃ ws, ws = (ks.zip segs).flatMap (fun x => x.1.warnings s.cfg x.2)
      ∧ t.host.lastResult = ws.headD 0x00 ∧ t.sts = (s.warnedOf ws).sts)
    ∧ t.ses.lastErr = (ks.zip segs).foldl (fun e x => x.1.errAfter s.cfg e x.2) s.ses.lastErr
    ∧ t.frm.rplv = segs.foldl (fun _ e => (replyOf e).isSome) s.frm.rplv
    ∧ t.frm.rplBuf = segs.foldl (fun b e => (replyOf e).getD b) s.frm.rplBuf
    ∧ (t.host.lastResult = 0x00 ↔ (∀ e ∈ evs, e.failed = false)
      ∧ ∀ x ∈ ks.zip segs, x.1.checked = true → ∃ b, replyOf x.2 = some b ∧ b.getD s.cfg.errOff 0 = 0)
    ∧ ∀ bs outs ins, bs.length = ks.length →
      s.ports.grants (cmdFrames s.cfg (ks.map Sending.cmd)).length bs outs ins →
        segs.map replyOf = bs.map some
          ∧ ((∀ x ∈ ks.zip bs, x.1.checked = true → x.2.getD s.cfg.errOff 0 = 0) →
            t.host.lastResult = 0x00 ∧ t.sts = s.sts)

/-- The commands of `ModeProc(m)` (R162). -/
def modeSendings (c : Cfg) (m : Byte) : List Sending :=
  [⟨playCmd c .stop, false⟩, ⟨modeCmd c m, false⟩, ⟨playCmd c .stop, false⟩]

/-- The commands of `StartProc` (R169), `Check` after each error query (R114). -/
def startSendings (c : Cfg) : List Sending :=
  [⟨inSrcCmd c, false⟩, ⟨errqCmd c, true⟩, ⟨trigModeCmd c, false⟩, ⟨errqCmd c, true⟩, ⟨playCmd c .play, false⟩,
    ⟨errqCmd c, true⟩]

/-- From `s` to `t` the commands `ks` ran in the fault context (R113, R150): all of them, no transaction failing, and
`OK`; or a first part of their frames up to the first transaction that failed, and `FAULT_IO`. Devices that take every
frame and reply to every command give the first. -/
def faultCommands (s t : State) (ks : List Cmd) : Prop :=
  (∃ evs, s.did t evs ∧ framesOut evs <+: cmdFrames s.cfg ks ∧ t.frm.inflight = false
    ∧ ((t.host.lastResult = 0x00 ∧ framesOut evs = cmdFrames s.cfg ks ∧ t.frm.rplv = true ∧ ∀ e ∈ evs, e.failed = false)
      ∨ (t.host.lastResult = 0x20 ∧ t.frm.rplv = false
        ∧ ∃ before e, evs = before ++ [e] ∧ e.failed = true ∧ ∀ x ∈ before, x.failed = false)))
    ∧ ∀ bs outs ins, bs.length = ks.length → s.ports.grants (cmdFrames s.cfg ks).length bs outs ins →
      t.host.lastResult = 0x00

/-- The commands of one block's upload (R149): its size announce, then its bytes in chunks. -/
def blockCmds (c : Cfg) (b : Block) : List Cmd :=
  sizeCmd c (b.idx.setWidth 16) b.size :: (pieces c.chunk b.bytes).map (dataCmd c)

/-- The commands of the full upload of `pats` (R153): a pattern define each, in increasing index; the LUT; the blocks in
descending index (R146). -/
def uploadCmds (c : Cfg) (pats : List Pattern) (rep : Repeat) : List Cmd :=
  (pats.mapIdx fun i p =>
      defPatCmd c (BitVec.ofNat 16 i) (p.expUs.setWidth 24) (bdField p.bd) c.colorMask p.trigIn (p.darkUs.setWidth 24)
        (p.trigOut.setWidth 8) p.blk p.bitpos)
    ++ [lutCmd c (BitVec.ofNat 16 pats.length) (repeatCount rep pats.length)]
    ++ (compile c pats).reverse.flatMap (blockCmds c)

/-- What R145 asks before an upload. -/
def State.uploadReady (s : State) : Prop :=
  s.ses.sessValid = true ∧ s.ses.modeKnown = true ∧ s.ses.mode = s.cfg.valModePotf
    ∧ (s.ses.sm = .modeSet ∨ s.ses.sm = .stopped)

/-- What R145 refuses, and with which code. -/
def State.uploadRefusal (s : State) (r : Res) : Prop :=
  (s.ses.sessValid = false ∧ r = .errNotConnected) ∨ (s.ses.sessValid = true ∧ ¬ s.uploadReady ∧ r = .errState)

/-! ## Operands in range -/

/-- The operands of `DEFPAT` fit their fields on the wire (R137). -/
def defpatFits (bd color : Byte) (darkUs trigOut : U32) (blk : U16) (bitpos : Byte) : Prop :=
  (bd = 1 ∨ bd = 8) ∧ color.toNat ≤ 7 ∧ darkUs.toNat ≤ 0xFFFFFF ∧ trigOut.toNat ≤ 0xFF ∧ blk.toNat ≤ 0x7FF ∧ bitpos.toNat ≤ 31

/-- The least exposure of a bit depth (R137). -/
def leastExposure (c : Cfg) (bd : Byte) : Nat := if bd = 8 then c.expMin8 else c.expMin1

/-- The raster of a pattern has the pixels its bit depth asks for (R144, `RecordOK`). -/
def rasterFits (c : Cfg) (p : PatIn) : Prop := p.raster.length = c.w * c.h ∧ (p.bd = 1 → ∀ x ∈ p.raster, x = 0 ∨ x = 1)

/-- Dark time and trigger-out value fit their fields on the wire (R144, step 5). -/
def wireFits (p : PatIn) : Prop := p.darkUs.toNat ≤ 0xFFFFFF ∧ p.trigOut.toNat ≤ 0xFF

/-- A pattern passes step 5 of `Validate` (R144). -/
def patFits (c : Cfg) (p : PatIn) : Prop :=
  rasterFits c p ∧ leastExposure c p.bd ≤ p.expUs.toNat ∧ p.expUs.toNat ≤ c.expMax ∧ wireFits p

/-- A repeat passes step 6 of `Validate` (R144) with `count` patterns. -/
def repeatFits (rep : Repeat) (count : Nat) : Prop :=
  ∀ n, rep = .finite n → n ≠ 0 ∧ n.toNat * count < 0xFFFFFFFF

/-- A Sequence passes step 7 of `Validate` (R144). -/
def confirmFits (c : Cfg) (pats : List PatIn) (confirm : Bool) : Prop :=
  confirm = true ∨ ∀ p ∈ pats, p.expUs.toNat ≤ c.expRec

/-- A plan passes step 3 of `PlanValidate` (R177) on `count` patterns. -/
def planFits (plan : PlanRec) (count : Nat) : Prop :=
  (plan.mode = .continuous → ∀ k, plan.sel = some k → k.toNat < count)
    ∧ (plan.mode = .pulsed → plan.durMs.length = count) ∧ plan.illum.length = count

/-- A plan's assignments pass step 4 of `PlanValidate` (R177). -/
def lightFits (c : Cfg) (plan : PlanRec) : Prop :=
  ∀ acts ∈ plan.illum, acts.length ≤ 4 ∧ (acts.map Activation.ch).Nodup ∧ ∀ x ∈ acts, x.pct.toNat ≤ 100 ∧ x.nm ∈ menuOf c x.ch

/-- No two activations of one channel differ (R177, step 5). -/
def lightAgrees (plan : PlanRec) : Prop := ∀ x ∈ plan.illum.flatten, ∀ y ∈ plan.illum.flatten, x.ch = y.ch → x = y

/-! ## The spec's procedures, action by action -/

/-- `StopProc` (R167). -/
def stopList (c : Cfg) : List PAct := [.stopPlay, .settle c.settleStopMs, .stopped]

/-- `ModeProc(m)` (R162). -/
def modeList (c : Cfg) (m : Byte) : List PAct :=
  .isup false :: stopList c ++ [.cmd (modeCmd c m), .settle c.settleModeMs] ++ stopList c ++ [.modeSet m]

/-- `IllAllOff` (R183), with and without a controller session. -/
def darkList (illValid : Bool) : List PAct := if illValid then [.ill .allOff, .illDark] else []

/-- `IllActivate` (R183). -/
def lightList (c : Cfg) (acts : List Activation) : List PAct :=
  acts.flatMap fun a => [.ill (.load a.nm), .ill (.set a.ch a.pct), .illLit a.ch, .settle c.illSettleMs]

/-- `StartProc` (R169). -/
def startList (c : Cfg) : List PAct :=
  [.cmd (inSrcCmd c), .cmd (errqCmd c), .check, .cmd (trigModeCmd c), .cmd (errqCmd c), .check, .cmd (playCmd c .play),
    .cmd (errqCmd c), .check, .playing]

/-- `BlockCmd` (R149) for a block with index `idx`. -/
def blockList (c : Cfg) (idx : BitVec 11) (bytes : List Byte) : List PAct :=
  .cmd (sizeCmd c (idx.setWidth 16) (Config.u32Of bytes.length))
    :: (pieces c.chunk bytes).flatMap fun data => [.cmd (dataCmd c data), .progress]

/-- The data chunks a byte string takes (R149). -/
def chunksOf (c : Cfg) (bytes : List Byte) : Nat := (bytes.length + c.chunk - 1) / c.chunk

/-- `UploadSingle` (R148) of the pattern `p` whose encoding is `bytes`. -/
def singleList (c : Cfg) (p : PatIn) (bytes : List Byte) : List PAct :=
  [.isup false, .pktInit (Config.u32Of (chunksOf c bytes)),
    .cmd (defPatCmd c 0 (p.expUs.setWidth 24) (bdField p.bd) c.colorMask p.trigIn (p.darkUs.setWidth 24)
      (p.trigOut.setWidth 8) 0 (if p.bd = 8 then c.bitpos8 else 0)),
    .cmd (lutCmd c 1 0xFFFFFFFF)] ++ blockList c 0 bytes

/-- `UploadSeq` (R153). -/
def seqList (c : Cfg) (pats : List Pattern) (rep : Repeat) : List PAct :=
  [.isup false, .blocks (compile c pats),
    .pktInit (Config.u32Of (((compile c pats).map fun b => chunksOf c b.bytes).sum))]
    ++ (pats.mapIdx fun i p => .cmd (defPatCmd c (BitVec.ofNat 16 i) (p.expUs.setWidth 24) (bdField p.bd) c.colorMask p.trigIn
      (p.darkUs.setWidth 24) (p.trigOut.setWidth 8) p.blk p.bitpos))
    ++ [.cmd (lutCmd c (BitVec.ofNat 16 pats.length) (repeatCount rep pats.length))]
    ++ (compile c pats).reverse.flatMap (fun b => blockList c b.idx b.bytes) ++ [.isup true]

/-- `ShowStep` (R184) of the pattern `p` with the activations `acts`, shown as index `shown`. -/
def showList (s : State) (p : PatIn) (acts : List Activation) (shown : U16) : List PAct :=
  .phase .s1 :: stopList s.cfg ++ .phase .s2 :: darkList s.ses.illValid
    ++ .phase .s3 :: singleList s.cfg p (if p.bd = 8 then encode8 s.cfg p.raster else encode1 s.cfg [p.raster])
    ++ .phase .s4 :: lightList s.cfg acts ++ .phase .s5 :: startList s.cfg ++ [.push (.display shown)]

/-- A procedure as the WORKER's remaining work in the fault context of a plan (R113). -/
def inPlan (as : List PAct) : List WAct := as.map (.act .fault)

/-- The op bytes of R70. -/
def hostOpBytes : List Byte :=
  [0x01, 0x02, 0x03, 0x10, 0x11, 0x12, 0x13, 0x20, 0x21, 0x22, 0x23, 0x24, 0x25, 0x26, 0x27, 0x28, 0x29, 0x30, 0x31, 0x32,
    0x33, 0x34, 0x35, 0x36, 0x37, 0x40, 0x41, 0x42]

/-- The block format of R96: `RleRecords S b o` says that `b` is a sequence of records and an end marker that stands for
the bytes `o` of symbols of `S` bytes. -/
inductive RleRecords (symSize : Nat) : List Byte → List Byte → Prop
  | endMarker : RleRecords symSize [0x00] []
  | literal (n : Byte) (data b o : List Byte) (h1 : 0x01 ≤ n.toNat) (h2 : n.toNat ≤ 0x7F)
      (hl : data.length = n.toNat * symSize) (h : RleRecords symSize b o) : RleRecords symSize (n :: (data ++ b)) (data ++ o)
  | repeated (n : Byte) (sym b o : List Byte) (h1 : 0x80 ≤ n.toNat) (hl : sym.length = symSize)
      (h : RleRecords symSize b o) :
      RleRecords symSize (n :: (sym ++ b)) ((List.replicate (n.toNat - 0x7E) sym).flatten ++ o)

/-! ## A sound state -/

/-- The payload of a command in a procedure fits a command (R107). -/
def PAct.payloadOk : PAct → Prop
  | .cmd k => k.payload.length ≤ lMax
  | .stopPlay => True
  | .check => True
  | .settle _ => True
  | .stopped => True
  | .modeSet _ => True
  | .playing => True
  | .isup _ => True
  | .blocks _ => True
  | .pktInit _ => True
  | .progress => True
  | .phase _ => True
  | .ill _ => True
  | .illDark => True
  | .illLit _ => True
  | .push _ => True

/-- The payload of a command the worker still has to send fits a command (R107). -/
def WAct.payloadOk : WAct → Prop
  | .act _ a => a.payloadOk
  | .out _ _ _ => True
  | .inp _ _ => True
  | .setup => True
  | .runMode => True
  | .pos _ _ => True
  | .nowPlan => True
  | .nowStep _ => True
  | .showStep _ => True
  | .showBlank => True
  | .checkCancel => True
  | .waitStart _ => True
  | .waitTick _ _ => True
  | .waitRest _ => True
  | .pulsedCycle _ _ => True
  | .pulsedPat _ _ _ => True
  | .pulsedWait _ => True
  | .cyclicUpload => True
  | .cyclicLight => True
  | .cyclicPoll _ => True
  | .extFirst => True
  | .extNext => True
  | .extPoll _ _ => True
  | .extPrev _ _ => True
  | .extActive _ => True
  | .extBlank _ => True
  | .endPlan _ => True
  | .finishPlan _ => True

/-- The registers keep their sizes (R26, R27, R30, R32, R49). -/
def State.ShapeInv (s : State) : Prop :=
  (∀ f ∈ s.frm.frameBuf, f.length = 64) ∧ s.frm.frameBuf.length ≤ 1025 ∧ s.frm.rplBuf.length = 64
    ∧ s.sts.fifo.length ≤ s.cfg.statusDepth ∧ s.upl.seqPats.length ≤ max s.cfg.ceil1 s.cfg.ceil8
    ∧ s.cod.rastOut.length ≤ 24 ∧ ∀ a ∈ s.work, a.payloadOk

/-- No procedure of the worker moves `SYN_PHASE` to `Idle` (R203: only the end of a plan does). -/
def PAct.stays : PAct → Prop
  | .cmd _ => True
  | .stopPlay => True
  | .check => True
  | .settle _ => True
  | .stopped => True
  | .modeSet _ => True
  | .playing => True
  | .isup _ => True
  | .blocks _ => True
  | .pktInit _ => True
  | .progress => True
  | .phase p => p ≠ .idle
  | .ill _ => True
  | .illDark => True
  | .illLit _ => True
  | .push _ => True

/-- What a worker action asks of the Sequence and the plan it runs on. -/
def WAct.fits (s : State) : WAct → Prop
  | .act _ a => a.stays
  | .out _ _ _ => True
  | .inp _ _ => True
  | .setup => True
  | .runMode => True
  | .pos _ i => i.toNat < s.upl.seqPats.length
  | .nowPlan => True
  | .nowStep _ => True
  | .showStep k => k < s.upl.seqPats.length
  | .showBlank => True
  | .checkCancel => True
  | .waitStart _ => True
  | .waitTick _ _ => True
  | .waitRest _ => True
  | .pulsedCycle _ _ => s.syn.plan.mode = .pulsed
  | .pulsedPat _ _ _ => s.syn.plan.mode = .pulsed
  | .pulsedWait k => k < s.upl.seqPats.length ∧ s.syn.plan.mode = .pulsed
  | .cyclicUpload => True
  | .cyclicLight => s.syn.plan.mode = .cyclic
  | .cyclicPoll _ => True
  | .extFirst => True
  | .extNext => True
  | .extPoll _ _ => True
  | .extPrev _ _ => True
  | .extActive _ => True
  | .extBlank _ => True
  | .endPlan _ => True
  | .finishPlan _ => True

/-- The actions a worker procedure can end with: each is followed by more work of its own. -/
def WAct.goesOn : WAct → Prop
  | .act _ _ => False
  | .out _ _ _ => False
  | .inp _ _ => False
  | .setup => True
  | .runMode => True
  | .pos _ _ => False
  | .nowPlan => False
  | .nowStep _ => False
  | .showStep _ => False
  | .showBlank => False
  | .checkCancel => False
  | .waitStart _ => False
  | .waitTick _ _ => False
  | .waitRest _ => False
  | .pulsedCycle _ _ => True
  | .pulsedPat _ _ _ => True
  | .pulsedWait _ => False
  | .cyclicUpload => False
  | .cyclicLight => False
  | .cyclicPoll _ => True
  | .extFirst => True
  | .extNext => True
  | .extPoll _ _ => False
  | .extPrev _ _ => False
  | .extActive _ => False
  | .extBlank _ => False
  | .endPlan _ => True
  | .finishPlan _ => True

/-- A frame or a reply is what the worker does next. -/
def WAct.inCommand : WAct → Prop
  | .act _ _ => False
  | .out _ _ _ => True
  | .inp _ _ => True
  | .setup => False
  | .runMode => False
  | .pos _ _ => False
  | .nowPlan => False
  | .nowStep _ => False
  | .showStep _ => False
  | .showBlank => False
  | .checkCancel => False
  | .waitStart _ => False
  | .waitTick _ _ => False
  | .waitRest _ => False
  | .pulsedCycle _ _ => False
  | .pulsedPat _ _ _ => False
  | .pulsedWait _ => False
  | .cyclicUpload => False
  | .cyclicLight => False
  | .cyclicPoll _ => False
  | .extFirst => False
  | .extNext => False
  | .extPoll _ _ => False
  | .extPrev _ _ => False
  | .extActive _ => False
  | .extBlank _ => False
  | .endPlan _ => False
  | .finishPlan _ => False

/-- The plan and the Sequence fit each other as `PlanValidate` left them (R177, R67), and `SYN_INDEX` is an index. -/
def State.PlanFits (s : State) : Prop :=
  s.syn.index.toNat < s.upl.seqPats.length ∧ s.syn.plan.illum.length = s.upl.seqPats.length
    ∧ (s.syn.plan.mode = .pulsed → s.syn.plan.durMs.length = s.upl.seqPats.length)
    ∧ (s.syn.plan.mode = .continuous → ∃ k, s.syn.plan.sel = some k ∧ k.toNat < s.upl.seqPats.length)
    ∧ (s.syn.plan.mode = .cyclic → union s.syn.plan.illum ≠ none)
    ∧ 0 < period s

/-- No plan runs: the worker is idle and nothing is in flight (R28, R45, R203). -/
def State.IdleOk (s : State) : Prop :=
  s.work = [] ∧ s.syn.phase = .idle ∧ s.frm.inflight = false ∧ s.syn.extActive = false ∧ s.syn.extBlank = false

/-- A plan runs: on a defined Sequence and an open session (R176), with something left to do, and a command in flight
only between its frames and its reply (R28, R62). -/
def State.RunOk (s : State) : Prop :=
  s.upl.seqValid = true ∧ s.ses.sessValid = true ∧ s.syn.phase ≠ .idle ∧ s.PlanFits
    ∧ (∀ a ∈ s.work, a.fits s) ∧ (∃ init a, s.work = init ++ [a] ∧ a.goesOn)
    ∧ (s.frm.inflight = true → ∃ a rest, s.work = a :: rest ∧ a.inCommand)

/-- The plan invariant: the worker's position fits the plan (R64, R67, R203), and an uploaded Sequence is a defined one
(R34). -/
def State.PlanInv (s : State) : Prop :=
  (s.syn.planActive = false → s.IdleOk) ∧ (s.syn.planActive = true → s.RunOk)
    ∧ (s.upl.isup = true → s.upl.seqValid = true)

/-- R25, R235: the model claims nothing about a state with `UBF = 1`. The statements about all states and steps of the
machine have this premise. -/
def State.defined (s : State) : Prop := s.host.ubf = false

/-- A safe step: it does not stop in a fault. -/
def State.safeStep (s : State) : Prop := ∀ e, step s ≠ .fault e

/-! ## Codes -/

/-- The codes of the validation (R144). -/
def validationCodes : List Res :=
  [.cfgEmpty, .cfgRange, .cfgMixed, .cfgCount, .cfgRaster, .cfgExpLow, .cfgExpHigh, .cfgConfirm]

/-- Every code a host operation can return besides `OK` (R219); a wire command and a pseudo-operation return none of
their own. -/
def resultCodes : Instr → List Res
  | .fbuild _ _ _ _ _ => [.errBusy, .errLen]
  | .fsend _ => [.errBusy, .errNotConnected, .errState, .warnTimeout, .warnIo, .faultIo]
  | .fcheck => [.errBusy, .warnDevErr, .warnNoReply]
  | .enc1 _ => [.cfgRaster]
  | .enc8 _ => [.cfgRaster]
  | .dec1 _ => [.errDecode]
  | .dec8 _ => [.errDecode]
  | .sdefine _ _ _ _ => .errUndefined :: validationCodes
  | .padd _ _ => [.errUndefined, .errNoSeq, .cfgRange, .cfgCount, .cfgRaster]
  | .premove _ => [.errUndefined, .errNoSeq, .cfgRange]
  | .pmove _ _ => [.errUndefined, .errNoSeq, .cfgRange]
  | .srepeat _ => [.errUndefined, .errNoSeq, .cfgRange]
  | .pset _ _ => [.errUndefined, .errNoSeq, .cfgRange, .cfgRaster]
  | .defpat _ _ _ _ _ _ _ _ _ =>
    [.errBusy, .cfgRange, .cfgExpLow, .cfgExpHigh, .errNotConnected, .errState, .warnTimeout, .warnIo]
  | .cfglut _ _ => [.errBusy, .cfgRange, .errNotConnected, .errState, .warnTimeout, .warnIo]
  | .imgblk _ _ => [.errBusy, .cfgRange, .errNotConnected, .errState, .faultIo]
  | .supload _ => [.errBusy, .errNoSeq] ++ validationCodes ++ [.errNotConnected, .errState, .faultIo]
  | .connect => [.errBusy, .errNoDevice]
  | .disconnect => [.errBusy]
  | .setmode _ => [.errBusy, .errNotConnected, .warnTimeout, .warnIo]
  | .stop => [.errBusy, .errNotConnected, .warnTimeout, .warnIo]
  | .start => [.errBusy, .errNotConnected, .errState, .warnDevErr, .warnTimeout, .warnIo]
  | .pause => [.errBusy, .errNotConnected, .errState, .warnTimeout, .warnIo]
  | .illconnect => [.errBusy, .errNoDevice, .warnTimeout, .warnIo]
  | .regread _ => [.cfgRange]
  | .pstart _ => [.errBusy, .errNoSeq] ++ validationCodes ++ [.cfgPlan, .cfgIllum, .errNotConnected]
  | .pstop => []
  | .stread => []
  | .wMode _ => []
  | .wPlayctl _ => []
  | .wDefpat _ _ _ _ _ _ _ _ _ => []
  | .wLut _ _ => []
  | .wImgsize _ _ => []
  | .wImgdata _ => []
  | .wErrq => []
  | .wInsrc => []
  | .wTrigmode => []
  | .xfer _ _ _ _ _ _ => []
  | .errquery => []
  | .potf => []
  | .load _ _ _ _ => []

/-- The codes of refusals (R215, R216): the operation stopped before any register write and any port transaction. -/
def refusalCodes : List Res :=
  [.cfgEmpty, .cfgMixed, .cfgCount, .cfgRaster, .cfgExpLow, .cfgExpHigh, .cfgConfirm, .cfgRange, .cfgIllum, .cfgPlan,
    .errNotConnected, .errBusy, .errState, .errUndefined, .errLen, .errDecode, .errIllegalOp, .errNoSeq]

/-! ## Moves of the session state -/

/-- How a host operation may move `SM` (R172). -/
def smMove : Instr → SessState → SessState → Prop
  | .connect => fun a b => b = .idle ∨ b = a
  | .disconnect => fun a b => b = .idle ∨ b = a
  | .setmode _ => fun a b => b = .modeSet ∨ b = a
  | .start => fun a b => ((a = .modeSet ∨ a = .stopped ∨ a = .paused) ∧ b = .playing) ∨ b = a
  | .stop => fun a b => (a ≠ .idle ∧ b = .stopped) ∨ b = a
  | .pause => fun a b => (a = .playing ∧ b = .paused) ∨ b = a
  | _ => fun a b => b = a

end Sys2Proof.Machine
end

