-- ==== Sys2Proof/Certificates/Slice0/Obligations.lean ====
section
/-! DEFINITION. The statements. -/

open Sys2Proof Sys2Proof.Machine

/-! ## Encoding -/

/-- Words of host operations read as their instructions. The op bytes are R70's; the layout of the operand records is the
model's choice (notes/assumptions/1.md). -/
def Obligations.HostWordsDecode : Prop :=
  decode [0x01, 0x40, 0x00, 0x1A, 0x1B, 0x01, 0x03, 0x00] = .ok (.fbuild 0x40 0x00 0x1A 0x1B [0x03], [])
    ∧ decode [0x26, 0x03, 0x00, 0x06, 0x00, 0x00, 0x00] = .ok (.cfglut 3 6, [])
    ∧ decode [0x13, 0x00] = .ok (.dec8 [], []) ∧ decode [0x30] = .ok (.connect, []) ∧ decode [0x32, 0x03] = .ok (.setmode 3, [])
    ∧ decode [0x37, 0x04, 0x42] = .ok (.regread 4, [0x42]) ∧ decode [0x42] = .ok (.stread, [])

/-- R71, R236: a reserved op byte changes no register but `LAST_RESULT`, reaches no port and returns `ERR_ILLEGAL_OP`,
whatever else holds. -/
def Obligations.ReservedOpByteIsIllegal : Prop :=
  ∀ (s : State) (op : Byte) (rest : List Byte) (ts : List Turn),
    op ∉ hostOpBytes → s.ports.hop = op :: rest → s.ports.turns = .host :: ts →
      ∃ p, step s = .next { s with host := { s.host with lastResult := 0x35 }, ports := p }
        ∧ p.trace = s.ports.trace ∧ p.hres = some ⟨0x35, .none⟩

/-- Decoding the words of a host operation gives it back, with every operand. The record layout is the model's choice
(notes/assumptions/1.md). -/
def Obligations.HostOpsRoundTrip : Prop :=
  ∀ (c : Cfg) (i : Instr) (rest : List Byte), i.kind = .hostOp → decode (encode c i ++ rest) = .ok (i, rest)

/-- Decoding the frames of a well-formed wire command gives it back, where the nine opcode pairs differ (the spec does
not say that they do: notes/assumptions/29.md). -/
def Obligations.WireCommandsRoundTrip : Prop :=
  ∀ (c : Cfg) (i : Instr) (rest : List Byte), c.opcodesDistinct → i.kind = .wire → i.wellFormed c = true →
    decodeWire c (encode c i ++ rest) = some (i, rest)

/-- A step on HOST's turn whose bytes decode runs that instruction; the turn and the bytes are used up. HOP as a queue, the
queue of turns and a host operation as one step are the model's choices (notes/assumptions/2.md, 3.md, 8.md). -/
def Obligations.StepRunsDecoded : Prop :=
  ∀ (s : State) (ts : List Turn) (i : Instr) (rest : List Byte),
    s.ports.turns = .host :: ts → decode s.ports.hop = .ok (i, rest) →
      step s = exec i { s with ports := { s.ports with turns := ts, hop := rest } }

/-! ## Framer -/

/-- R75, R76, R78, R79: every byte of every frame of a command. -/
def Obligations.FramesByteByByte : Prop :=
  ∀ (o : ByteOrder) (dir seq cmd1 cmd2 : Byte) (p : List Byte), p.length ≤ 65533 →
    ∀ k < (buildFrames o dir seq cmd1 cmd2 p).length, ∀ i < 64,
      (buildFrames o dir seq cmd1 cmd2 p)[k]?.bind (fun f => f[i]?)
        = some (match o with
          | .swap => wireByte dir seq cmd2 cmd1 p k i
          | .arg => wireByte dir seq cmd1 cmd2 p k i)

/-- R106, R59, R26: how many frames a payload takes; each has 64 bytes; a payload within the limit takes at most 1025. -/
def Obligations.FrameCountLaw : Prop :=
  ∀ (o : ByteOrder) (dir seq cmd1 cmd2 : Byte) (p : List Byte),
    (buildFrames o dir seq cmd1 cmd2 p).length = (if p.length ≤ 58 then 1 else 1 + (p.length - 58 + 63) / 64)
      ∧ (∀ f ∈ buildFrames o dir seq cmd1 cmd2 p, f.length = 64)
      ∧ (p.length ≤ 65533 → (buildFrames o dir seq cmd1 cmd2 p).length ≤ 1025)

/-- R104: `FBUILD`, with its two refusals. -/
def Obligations.FbuildResult : Prop :=
  ∀ (dir seq cmd1 cmd2 : Byte) (payload : List Byte) (s : State),
    (s.syn.planActive = true → exec (.fbuild dir seq cmd1 cmd2 payload) s = .next (s.finish .errBusy .none))
      ∧ (s.syn.planActive = false → 65533 < payload.length →
          exec (.fbuild dir seq cmd1 cmd2 payload) s = .next (s.finish .errLen .none))
      ∧ (s.syn.planActive = false → payload.length ≤ 65533 →
          exec (.fbuild dir seq cmd1 cmd2 payload) s = .next (State.finish
            { s with frm := { s.frm with frameBuf := buildFrames s.cfg.cmdByteOrder dir seq cmd1 cmd2 payload } }
            .ok (.frames (buildFrames s.cfg.cmdByteOrder dir seq cmd1 cmd2 payload))))

/-- R108, R109: `FSEND` whose frames are sent and answered. Everything the step changes is in the equation. -/
def Obligations.FsendAnswered : Prop :=
  ∀ (cls : Cls) (s : State) (b : Frame) (outs : List OutAns) (ins : List InAns),
    s.syn.planActive = false → s.ses.sessValid = true → s.frm.frameBuf ≠ [] →
    s.ports.grants s.frm.frameBuf.length [b] outs ins →
      exec (.fsend cls) s = .next (State.finish
        { s with
          frm := { s.frm with inflight := false, rplBuf := b, rplv := true }
          upl := { s.upl with isup := false }
          ports := s.ports.answered
            (match cls with
              | .control => s.cfg.tCtrlMs
              | .bulk => s.cfg.tBulkMs)
            s.frm.frameBuf b outs ins }
        .ok (.reply b))

/-- R59, R108: frame `k` fails: the frames before it stay sent, no later frame goes out, no reply is read, `RPLV` is 0, and
the code is `WARN_IO` of a control command and `FAULT_IO` of a bulk one. R27: every frame is sent and the reply times out or
fails: `WARN_TIMEOUT` or `WARN_IO` and its event, or `FAULT_IO`; `RPLBUF` keeps its bytes. R108: the refusals without a
session and with an empty `FRAMEBUF`. -/
def Obligations.FsendFailed : Prop :=
  (∀ (cls : Cls) (s : State) (sent : List Frame) (f : Frame) (later : List Frame) (outs : List OutAns),
    s.syn.planActive = false → s.ses.sessValid = true → s.frm.frameBuf = sent ++ f :: later →
    s.ports.usbOutAns = List.replicate sent.length .ok ++ .ioError :: outs →
      exec (.fsend cls) s = .next (State.finish
        { s with
          frm := { s.frm with inflight := false, rplv := false }
          upl := { s.upl with isup := false }
          sts := match cls with
            | .control => (s.push (.warning 0x12)).sts
            | .bulk => s.sts
          ports := { s.ports with
            usbOutAns := outs
            trace := .usbOut f .ioError :: ((sent.map fun g => PortEvent.usbOut g .ok).reverse ++ s.ports.trace) } }
        (match cls with
          | .control => .warnIo
          | .bulk => .faultIo)
        .none))
    ∧ (∀ (cls : Cls) (s : State) (outs : List OutAns) (ins : List InAns) (a : InAns) (w : Byte),
      s.syn.planActive = false → s.ses.sessValid = true → s.frm.frameBuf ≠ [] →
      (a = .timeout ∧ w = 0x11 ∨ a = .ioError ∧ w = 0x12) →
      s.ports.usbOutAns = List.replicate s.frm.frameBuf.length .ok ++ outs → s.ports.usbInAns = a :: ins →
        ∃ t, exec (.fsend cls) s = .next t ∧ t.frm = { s.frm with inflight := false, rplv := false }
          ∧ t.upl = { s.upl with isup := false } ∧ t.ports.usbOutAns = outs ∧ t.ports.usbInAns = ins
          ∧ t.cfg = s.cfg ∧ t.cod = s.cod ∧ t.ses = s.ses ∧ t.syn = s.syn ∧ t.work = s.work ∧ t.host.ubf = s.host.ubf
          ∧ (cls = .control → t.host.lastResult = w ∧ t.sts = (s.push (.warning w)).sts)
          ∧ (cls = .bulk → t.host.lastResult = 0x20 ∧ t.sts = s.sts))
    ∧ ∀ (cls : Cls) (s : State), s.syn.planActive = false →
      (s.ses.sessValid = false → exec (.fsend cls) s = .next (s.finish .errNotConnected .none))
        ∧ (s.ses.sessValid = true → s.frm.frameBuf = [] → exec (.fsend cls) s = .next (s.finish .errState .none))

/-- R110, R111: `FCHECK`. -/
def Obligations.FcheckResult : Prop :=
  ∀ (s : State) (e : Byte), e = s.frm.rplBuf.getD s.cfg.errOff 0 →
    (s.syn.planActive = true → exec .fcheck s = .next (s.finish .errBusy .none))
      ∧ (s.syn.planActive = false → s.frm.rplv = false →
          exec .fcheck s = .next ((s.push (.warning 0x13)).finish .warnNoReply (.errByte s.ses.lastErr)))
      ∧ (s.syn.planActive = false → s.frm.rplv = true → e = 0 →
          exec .fcheck s = .next (State.finish { s with ses := { s.ses with lastErr := 0 } } .ok (.errByte 0)))
      ∧ (s.syn.planActive = false → s.frm.rplv = true → e ≠ 0 →
          exec .fcheck s = .next (State.finish
            { s with ses := { s.ses with lastErr := e }, sts := (s.push (.warning 0x10)).sts } .warnDevErr (.errByte e)))

/-! ## Codec -/

/-- R127 for `RLE-S`: decoding what the encoder gives returns the symbols. -/
def Obligations.RleRoundTrip : Prop :=
  ∀ (b : List Byte) (symSize count : Nat), symSize = 1 ∨ symSize = 3 → b.length = count * symSize →
    rleDec (rleEnc b symSize) symSize count = some b

/-- R96, R98, R125: the decoder accepts exactly the sequences of records with an end marker that stand for the expected
number of symbols, and gives the bytes they stand for. -/
def Obligations.RleDecodesRecords : Prop :=
  ∀ (b o : List Byte) (symSize count : Nat),
    rleDec b symSize count = some o ↔ RleRecords symSize b o ∧ o.length = count * symSize

/-- R95, R102: in a pixel word raster `j` is bit `j`, and the planes of absent rasters are 0. R94, R119: the symbols of a
batch, bit by bit: symbol `p` is the three bytes of the word of pixel `p`, the least significant first. R121: those of an
8-bit raster. R123: raster `j` of `Unpack1` is bit `j` of each word. -/
def Obligations.PlaneOrder : Prop :=
  (∀ (vs : List Byte), vs.length ≤ 24 → (∀ v ∈ vs, v = 0 ∨ v = 1) →
    ∀ j < 24, (pixelWord vs).getLsbD j = decide (vs.getD j 0 = 1))
    ∧ (∀ (c : Cfg) (rs : List Raster), rs.length ≤ 24 → (∀ r ∈ rs, r.length = c.pixels ∧ ∀ x ∈ r, x = 0 ∨ x = 1) →
      ∃ syms, encode1 c rs = codecEnc c syms 3 ∧ syms.length = 3 * c.pixels
        ∧ ∀ p < c.pixels, ∀ k < 3, ∀ b < 8, ∃ x, syms[3 * p + k]? = some x
          ∧ x.getLsbD b = decide ((rs.getD (8 * k + b) []).getD p 0 = 1))
    ∧ (∀ (c : Cfg) (r : Raster), encode8 c r = codecEnc c r 1)
    ∧ ∀ (n : Nat) (b : List Byte), b.length = 3 * n →
      (unpack1 b).length = 24 ∧ ∀ j < 24, ∃ r, (unpack1 b)[j]? = some r ∧ r.length = n
        ∧ ∀ p < n, r[p]? = some (if (b.getD (3 * p + j / 8) 0).getLsbD (j % 8) then 1 else 0)

/-- R127 for the operations, with `RLE-S` and with every admitted vendor codec (notes/assumptions/7.md): `DEC8` after `ENC8`
gives the raster; `DEC1` after `ENC1` gives the rasters and all-zero planes after them. -/
def Obligations.DecodeAfterEncode : Prop :=
  (∀ (r : Raster) (s : State), r.length = s.cfg.pixels →
      ∃ t u, exec (.enc8 r) s = .next t ∧ exec (.dec8 t.cod.blkBuf) t = .next u ∧ u.cod.rastOut = [r])
    ∧ ∀ (rs : List Raster) (s : State), 1 ≤ rs.length → rs.length ≤ 24 →
      (∀ r ∈ rs, r.length = s.cfg.pixels ∧ ∀ x ∈ r, x = 0 ∨ x = 1) →
      ∃ t u, exec (.enc1 rs) s = .next t ∧ exec (.dec1 t.cod.blkBuf) t = .next u
        ∧ u.cod.rastOut = rs ++ List.replicate (24 - rs.length) (List.replicate s.cfg.pixels 0)

/-- R118, R120, R122, R124: the codec operations, with their refusals; on `ERR_DECODE` `RASTOUT` is unchanged. R97: the
records the `RLE-S` encoder writes: the end marker; a run of `r` equal symbols that is as long as it may be; a literal of
symbols that are no run, up to the next run, the limit or the end. -/
def Obligations.CodecResults : Prop :=
  (∀ (c : Cfg) (b : List Byte) (symSize count : Nat), c.codec = .rleS →
      codecEnc c b symSize = rleEnc b symSize ∧ codecDec c b symSize count = rleDec b symSize count)
    ∧ (∀ symSize : Nat, 0 < symSize → rleEnc [] symSize = [0x00]
      ∧ (∀ (r : Nat) (x : List Byte) (rest : List (List Byte)), 2 ≤ r → r ≤ 129 → x.length = symSize →
        (∀ y ∈ rest, y.length = symSize) → (r = 129 ∨ rest.head? ≠ some x) →
        rleEnc ((List.replicate r x ++ rest).flatten) symSize
          = BitVec.ofNat 8 (0x7E + r) :: (x ++ rleEnc rest.flatten symSize))
      ∧ ∀ lits rest : List (List Byte), 1 ≤ lits.length → lits.length ≤ 127 → (∀ y ∈ lits ++ rest, y.length = symSize) →
        (∀ i < lits.length, (lits ++ rest)[i]? ≠ (lits ++ rest)[i + 1]?) →
        (lits.length = 127 ∨ rest = [] ∨ ∃ y ys, rest = y :: y :: ys) →
        rleEnc ((lits ++ rest).flatten) symSize
          = BitVec.ofNat 8 lits.length :: (lits.flatten ++ rleEnc rest.flatten symSize))
    ∧ (∀ (rs : List Raster) (s : State),
      (1 ≤ rs.length ∧ rs.length ≤ 24 ∧ ∀ r ∈ rs, r.length = s.cfg.pixels ∧ ∀ x ∈ r, x = 0 ∨ x = 1) →
        exec (.enc1 rs) s = .next (State.finish { s with cod := { s.cod with blkBuf := encode1 s.cfg rs } } .ok
          (.block (encode1 s.cfg rs) (Config.u32Of (encode1 s.cfg rs).length))))
    ∧ (∀ (rs : List Raster) (s : State),
      ¬ (1 ≤ rs.length ∧ rs.length ≤ 24 ∧ ∀ r ∈ rs, r.length = s.cfg.pixels ∧ ∀ x ∈ r, x = 0 ∨ x = 1) →
        exec (.enc1 rs) s = .next (s.finish .cfgRaster .none))
    ∧ (∀ (r : Raster) (s : State), r.length = s.cfg.pixels →
        exec (.enc8 r) s = .next (State.finish { s with cod := { s.cod with blkBuf := encode8 s.cfg r } } .ok
          (.block (encode8 s.cfg r) (Config.u32Of (encode8 s.cfg r).length))))
    ∧ (∀ (r : Raster) (s : State), r.length ≠ s.cfg.pixels → exec (.enc8 r) s = .next (s.finish .cfgRaster .none))
    ∧ (∀ (block b : List Byte) (s : State), codecDec s.cfg block 3 s.cfg.pixels = some b →
      exec (.dec1 block) s = .next (State.finish { s with cod := { s.cod with rastOut := unpack1 b } } .ok
        (.rasters (unpack1 b))))
    ∧ (∀ (block b : List Byte) (s : State), codecDec s.cfg block 1 s.cfg.pixels = some b →
      exec (.dec8 block) s = .next (State.finish { s with cod := { s.cod with rastOut := [b] } } .ok (.rasters [b])))
    ∧ (∀ (block : List Byte) (s : State), codecDec s.cfg block 3 s.cfg.pixels = none →
      exec (.dec1 block) s = .next (s.finish .errDecode .none))
    ∧ ∀ (block : List Byte) (s : State), codecDec s.cfg block 1 s.cfg.pixels = none →
      exec (.dec8 block) s = .next (s.finish .errDecode .none)

/-! ## Upload sequencer -/

/-- R144: the code `Validate` raises first, in the order of its checks, and the Sequences that pass: exactly those all of
whose checks hold. -/
def Obligations.ValidateAccepts : Prop :=
  ∀ (c : Cfg) (p0 : PatIn) (ps pats : List PatIn) (rep : Repeat) (confirm : Bool), pats = p0 :: ps →
    validate c [] rep confirm = some .cfgEmpty
      ∧ ((∃ p ∈ pats, p.bd ≠ 1 ∧ p.bd ≠ 8) → validate c pats rep confirm = some .cfgRange)
      ∧ ((∀ p ∈ pats, p.bd = 1 ∨ p.bd = 8) → (∃ p ∈ pats, p.bd ≠ p0.bd) → validate c pats rep confirm = some .cfgMixed)
      ∧ ((p0.bd = 1 ∨ p0.bd = 8) → (∀ p ∈ pats, p.bd = p0.bd) →
        ((if p0.bd = 8 then c.ceil8 else c.ceil1) < pats.length → validate c pats rep confirm = some .cfgCount)
        ∧ (pats.length ≤ (if p0.bd = 8 then c.ceil8 else c.ceil1) →
          (∀ (i : Nat) (p : PatIn), pats[i]? = some p → (∀ q ∈ pats.take i, patFits c q) →
            (¬ rasterFits c p → validate c pats rep confirm = some .cfgRaster)
            ∧ (rasterFits c p → p.expUs.toNat < leastExposure c p.bd → validate c pats rep confirm = some .cfgExpLow)
            ∧ (rasterFits c p → leastExposure c p.bd ≤ p.expUs.toNat → c.expMax < p.expUs.toNat →
              validate c pats rep confirm = some .cfgExpHigh)
            ∧ (rasterFits c p → leastExposure c p.bd ≤ p.expUs.toNat → p.expUs.toNat ≤ c.expMax → ¬ wireFits p →
              validate c pats rep confirm = some .cfgRange))
          ∧ ((∀ p ∈ pats, patFits c p) →
            (¬ repeatFits rep pats.length → validate c pats rep confirm = some .cfgRange)
            ∧ (repeatFits rep pats.length → ¬ confirmFits c pats confirm → validate c pats rep confirm = some .cfgConfirm))))
      ∧ (validate c pats rep confirm = none ↔
        (∀ p ∈ pats, (p.bd = 1 ∨ p.bd = 8) ∧ p.bd = p0.bd) ∧ pats.length ≤ (if p0.bd = 8 then c.ceil8 else c.ceil1)
        ∧ (∀ p ∈ pats, patFits c p) ∧ repeatFits rep pats.length ∧ confirmFits c pats confirm)

/-- R147: "a finite count is never 0 and never equals the sentinel or wraps" once `Validate` passed; an infinite one is the
sentinel. -/
def Obligations.RepeatCountLaw : Prop :=
  (∀ (c : Cfg) (pats : List PatIn) (n : U32) (confirm : Bool), validate c pats (.finite n) confirm = none →
      (repeatCount (.finite n) pats.length).toNat = n.toNat * pats.length ∧ repeatCount (.finite n) pats.length ≠ 0
        ∧ repeatCount (.finite n) pats.length ≠ 0xFFFFFFFF)
    ∧ ∀ count : Nat, repeatCount .inf count = 0xFFFFFFFF

/-- R141: the block index and the bit position of pattern `i`, every other field unchanged; for an index that does not
fit 11 bits the spec states no value and this statement says nothing (notes/assumptions/13.md). -/
def Obligations.AssignLaw : Prop :=
  ∀ (c : Cfg) (p0 : Pattern) (ps : List Pattern),
    assign c [] = [] ∧ (assign c (p0 :: ps)).length = (p0 :: ps).length
      ∧ ∀ (i : Nat) (p : Pattern), (p0 :: ps)[i]? = some p →
        (p0.bd = 8 → i < 2048 →
          (assign c (p0 :: ps))[i]? = some { p with blk := BitVec.ofNat 11 i, bitpos := c.bitpos8 })
        ∧ (p0.bd ≠ 8 → i / 24 < 2048 →
          (assign c (p0 :: ps))[i]? = some { p with blk := BitVec.ofNat 11 (i / 24), bitpos := BitVec.ofNat 5 (i % 24) })

/-- R142: the blocks of a Sequence, for indexes that fit 11 bits. -/
def Obligations.CompileLaw : Prop :=
  ∀ (c : Cfg) (p0 : Pattern) (ps : List Pattern), compile c [] = []
    ∧ (p0.bd = 8 → (compile c (p0 :: ps)).length = (p0 :: ps).length
        ∧ ∀ (b : Nat) (p : Pattern), (p0 :: ps)[b]? = some p → b < 2048 →
          (compile c (p0 :: ps))[b]? = some ⟨BitVec.ofNat 11 b, encode8 c p.raster⟩)
    ∧ (p0.bd ≠ 8 → (compile c (p0 :: ps)).length = ((p0 :: ps).length + 23) / 24
        ∧ ∀ b < ((p0 :: ps).length + 23) / 24, b < 2048 →
          (compile c (p0 :: ps))[b]?
            = some ⟨BitVec.ofNat 11 b, encode1 c ((((p0 :: ps).drop (24 * b)).take 24).map fun p => p.raster)⟩)

/-- R82 to R93: the nine commands: opcode pair, direction, sequence id, class, and the payload byte by byte; the fixed values
of the header (R8 to R10) at reset. R85, R86: the packed fields of pattern define. -/
def Obligations.DefpatFieldPacking : Prop :=
  (∀ c : Cfg,
    (∀ m : Byte, (Instr.wMode m).wireCmd c = some (modeCmd c m)
        ∧ modeCmd c m = ⟨c.dirW, c.seqCtrl, c.opcMode, [m], .control⟩)
      ∧ (∀ v : PlayVal, (Instr.wPlayctl v).wireCmd c = some (playCmd c v)
        ∧ playCmd c v = ⟨c.dirW, c.seqCtrl, c.opcPlayctl,
          [match v with
            | .stop => c.valStop
            | .pause => c.valPause
            | .play => c.valPlay], .control⟩)
      ∧ (∀ (index : U16) (expUs : U24) (bd1 color : BitVec 3) (trigIn : Bool) (darkUs : U24) (trigOut : Byte)
        (blk : BitVec 11) (bitpos : BitVec 5), ∃ p,
        (Instr.wDefpat index expUs bd1 color trigIn darkUs trigOut blk bitpos).wireCmd c
            = some (defPatCmd c index expUs bd1 color trigIn darkUs trigOut blk bitpos)
          ∧ defPatCmd c index expUs bd1 color trigIn darkUs trigOut blk bitpos
            = ⟨c.dirW, c.seqCtrl, c.opcDefpat, p, .control⟩
          ∧ p.map BitVec.toNat = [index.toNat % 256, index.toNat / 256, expUs.toNat % 256, expUs.toNat / 256 % 256,
            expUs.toNat / 65536, (if trigIn then 128 else 0) + 16 * color.toNat + 2 * bd1.toNat + c.optBit0.toNat,
            darkUs.toNat % 256, darkUs.toNat / 256 % 256, darkUs.toNat / 65536, trigOut.toNat, blk.toNat % 256,
            8 * bitpos.toNat + blk.toNat / 256])
      ∧ (∀ (count : U16) (rep : U32), ∃ p, (Instr.wLut count rep).wireCmd c = some (lutCmd c count rep)
        ∧ lutCmd c count rep = ⟨c.dirW, c.seqCtrl, c.opcLut, p ++ c.lutTail, .control⟩
        ∧ p.map BitVec.toNat = [count.toNat % 256, count.toNat / 256, rep.toNat % 256, rep.toNat / 256 % 256,
          rep.toNat / 65536 % 256, rep.toNat / 16777216])
      ∧ (∀ (idx : U16) (size : U32), ∃ p, (Instr.wImgsize idx size).wireCmd c = some (sizeCmd c idx size)
        ∧ sizeCmd c idx size = ⟨c.dirW, c.seqImg, c.opcImgsize, p, .control⟩
        ∧ p.map BitVec.toNat = [idx.toNat % 256, idx.toNat / 256, size.toNat % 256, size.toNat / 256 % 256,
          size.toNat / 65536 % 256, size.toNat / 16777216])
      ∧ (∀ data : List Byte, data.length ≤ 65535 → ∃ p, (Instr.wImgdata data).wireCmd c = some (dataCmd c data)
        ∧ dataCmd c data = ⟨c.dirW, c.seqImg, c.opcImgdata, p ++ data, .bulk⟩
        ∧ p.map BitVec.toNat = [data.length % 256, data.length / 256])
      ∧ Instr.wErrq.wireCmd c = some (errqCmd c) ∧ errqCmd c = ⟨c.dirR, c.seqErrq, c.opcErrq, [], .control⟩
      ∧ Instr.wInsrc.wireCmd c = some (inSrcCmd c)
      ∧ inSrcCmd c = ⟨c.dirW, c.seqCtrl, c.opcInsrc, [c.valSrcStream], .control⟩
      ∧ Instr.wTrigmode.wireCmd c = some (trigModeCmd c)
      ∧ trigModeCmd c = ⟨c.dirW, c.seqCtrl, c.opcTrigmode, [c.valTrigInt], .control⟩
      ∧ ∀ k : Cmd, k.frames c = buildFrames c.cmdByteOrder k.dir k.seq k.opc.cmd1 k.opc.cmd2 k.payload)
    ∧ (State.reset.cfg.dirW = 0x40 ∧ State.reset.cfg.dirR = 0xC0 ∧ State.reset.cfg.seqCtrl = 0x00
      ∧ State.reset.cfg.seqImg = 0x11 ∧ State.reset.cfg.seqErrq = 0x22 ∧ State.reset.cfg.cmdByteOrder = .swap
      ∧ State.reset.cfg.optBit0 = 1 ∧ State.reset.cfg.colorMask = 7 ∧ State.reset.cfg.lutTail = [0x01])
    ∧ (∀ (trigIn : Bool) (color bd1 : BitVec 3) (spare : BitVec 1),
      (optionsByte trigIn color bd1 spare).toNat
        = (if trigIn then 128 else 0) + 16 * color.toNat + 2 * bd1.toNat + spare.toNat)
    ∧ (∀ (blk : BitVec 11) (bitpos : BitVec 5), (blockWord blk bitpos).toNat = 2048 * bitpos.toNat + blk.toNat)
    ∧ ∀ bd : Byte, bd = 1 ∨ bd = 8 → (bdField bd).toNat = bd.toNat - 1

/-- R130: `SDEFINE`, accepted and refused. -/
def Obligations.SdefineResult : Prop :=
  ∀ (pats : List PatIn) (rep : Repeat) (mode : PMode) (confirm : Bool) (s : State),
    (s.syn.planActive = true → exec (.sdefine pats rep mode confirm) s
        = .next (State.finish { s with host := { s.host with ubf := true } } .errUndefined .none))
      ∧ (s.syn.planActive = false → validate s.cfg pats rep confirm = none →
        exec (.sdefine pats rep mode confirm) s = .next (State.finish
          { s with
            upl := { s.upl with
              seqPats := assign s.cfg (pats.map freshPattern), seqRepeat := rep, seqMode := mode, seqValid := true
              seqGen := s.upl.seqGen + 1, isup := false, blocks := [] } }
          .ok (.handle (s.upl.seqGen + 1))))
      ∧ ∀ r, s.syn.planActive = false → validate s.cfg pats rep confirm = some r →
        exec (.sdefine pats rep mode confirm) s = .next (s.finish r .none)

/-- R132 to R136: the mutations that succeed. -/
def Obligations.MutationResults : Prop :=
  ∀ s : State, s.syn.planActive = false → s.upl.seqValid = true →
    (∀ (a : U16) (pat : PatIn), a.toNat ≤ s.upl.seqPats.length → s.upl.seqPats.length < max s.cfg.ceil1 s.cfg.ceil8 →
        recordOk s.cfg pat = none →
        exec (.padd a pat) s = .next (State.finish
          { s with upl := { s.upl with
              seqPats := assign s.cfg (s.upl.seqPats.take a.toNat ++ [freshPattern pat] ++ s.upl.seqPats.drop a.toNat)
              seqGen := s.upl.seqGen + 1, isup := false } } .ok .none))
      ∧ (∀ a : U16, a.toNat < s.upl.seqPats.length →
        exec (.premove a) s = .next (State.finish
          { s with upl := { s.upl with
              seqPats := assign s.cfg (s.upl.seqPats.eraseIdx a.toNat), seqGen := s.upl.seqGen + 1, isup := false } }
          .ok .none))
      ∧ (∀ (src dst : U16) (p : Pattern), s.upl.seqPats[src.toNat]? = some p → dst.toNat < s.upl.seqPats.length →
        exec (.pmove src dst) s = .next (State.finish
          { s with upl := { s.upl with
              seqPats := assign s.cfg ((s.upl.seqPats.eraseIdx src.toNat).insertIdx dst.toNat p)
              seqGen := s.upl.seqGen + 1, isup := false } } .ok .none))
      ∧ (∀ rep : Repeat, rep ≠ .finite 0 →
        exec (.srepeat rep) s = .next (State.finish
          { s with upl := { s.upl with seqRepeat := rep, seqGen := s.upl.seqGen + 1, isup := false } } .ok .none))
      ∧ ∀ (a : U16) (pat : PatIn), a.toNat < s.upl.seqPats.length → recordOk s.cfg pat = none →
        exec (.pset a pat) s = .next (State.finish
          { s with upl := { s.upl with
              seqPats := assign s.cfg (s.upl.seqPats.set a.toNat (freshPattern pat))
              seqGen := s.upl.seqGen + 1, isup := false } } .ok .none)

/-- R132 to R136: the refusals of the mutations while no plan runs. -/
def Obligations.MutationRefusals : Prop :=
  ∀ s : State, s.syn.planActive = false →
    (s.upl.seqValid = false → ∀ i, (∃ a p, i = .padd a p) ∨ (∃ a, i = .premove a) ∨ (∃ a b, i = .pmove a b)
        ∨ (∃ a p, i = .pset a p) ∨ (∃ r, i = .srepeat r) → exec i s = .next (s.finish .errNoSeq .none))
      ∧ (s.upl.seqValid = true →
        (∀ (a : U16) (pat : PatIn), s.upl.seqPats.length < a.toNat → exec (.padd a pat) s = .next (s.finish .cfgRange .none))
        ∧ (∀ (a : U16) (pat : PatIn), a.toNat ≤ s.upl.seqPats.length → max s.cfg.ceil1 s.cfg.ceil8 ≤ s.upl.seqPats.length →
            exec (.padd a pat) s = .next (s.finish .cfgCount .none))
        ∧ (∀ (a : U16) (pat : PatIn) (r : Res), a.toNat ≤ s.upl.seqPats.length →
            s.upl.seqPats.length < max s.cfg.ceil1 s.cfg.ceil8 → recordOk s.cfg pat = some r →
            exec (.padd a pat) s = .next (s.finish r .none))
        ∧ (∀ a : U16, s.upl.seqPats.length ≤ a.toNat → exec (.premove a) s = .next (s.finish .cfgRange .none))
        ∧ (∀ a b : U16, s.upl.seqPats.length ≤ a.toNat ∨ s.upl.seqPats.length ≤ b.toNat →
            exec (.pmove a b) s = .next (s.finish .cfgRange .none))
        ∧ (∀ (a : U16) (pat : PatIn), s.upl.seqPats.length ≤ a.toNat → exec (.pset a pat) s = .next (s.finish .cfgRange .none))
        ∧ (∀ (a : U16) (pat : PatIn) (r : Res), a.toNat < s.upl.seqPats.length → recordOk s.cfg pat = some r →
            exec (.pset a pat) s = .next (s.finish r .none))
        ∧ exec (.srepeat (.finite 0)) s = .next (s.finish .cfgRange .none))

/-- R131: changing the Sequence while a plan runs. -/
def Obligations.MutatingUnderPlan : Prop :=
  ∀ (s : State) (i : Instr), s.syn.planActive = true →
    ((∃ pats rep mode confirm, i = .sdefine pats rep mode confirm) ∨ (∃ a p, i = .padd a p) ∨ (∃ a, i = .premove a)
      ∨ (∃ a b, i = .pmove a b) ∨ (∃ a p, i = .pset a p) ∨ (∃ r, i = .srepeat r)) →
    exec i s = .next { s with host := { lastResult := 0x32, ubf := true }
                              ports := { s.ports with hres := some ⟨0x32, .none⟩ } }

/-- R137, R139: `DEFPAT` of operands in range and `CFGLUT` of at least one pattern, on a projector ready for uploads: the one
command of each, whatever the devices answer; and their refusals in their order (R145, R220). -/
def Obligations.DefpatCfglutResults : Prop :=
  (∀ (index : U16) (expUs : U32) (bd color : Byte) (trigIn : Bool) (darkUs trigOut : U32) (blk : U16) (bitpos : Byte)
    (s : State), s.syn.planActive = false → defpatFits bd color darkUs trigOut blk bitpos →
    leastExposure s.cfg bd ≤ expUs.toNat → expUs.toNat ≤ s.cfg.expMax → s.uploadReady →
      ∃ t, exec (.defpat index expUs bd color trigIn darkUs trigOut blk bitpos) s = .next t
        ∧ warnCommand s t ((defPatCmd s.cfg index (expUs.setWidth 24) (bdField bd) (color.setWidth 3) trigIn
            (darkUs.setWidth 24) (trigOut.setWidth 8) (blk.setWidth 11) (bitpos.setWidth 5)).frames s.cfg)
        ∧ t.upl = { s.upl with isup := false } ∧ t.cfg = s.cfg ∧ t.cod = s.cod ∧ t.ses = s.ses ∧ t.syn = s.syn
        ∧ t.work = s.work ∧ t.host.ubf = s.host.ubf)
    ∧ (∀ (count : U16) (rep : U32) (s : State), s.syn.planActive = false → count ≠ 0 → s.uploadReady →
      ∃ t, exec (.cfglut count rep) s = .next t ∧ warnCommand s t ((lutCmd s.cfg count rep).frames s.cfg)
        ∧ t.upl = { s.upl with isup := false } ∧ t.cfg = s.cfg ∧ t.cod = s.cod ∧ t.ses = s.ses ∧ t.syn = s.syn
        ∧ t.work = s.work ∧ t.host.ubf = s.host.ubf)
    ∧ (∀ (index : U16) (expUs : U32) (bd color : Byte) (trigIn : Bool) (darkUs trigOut : U32) (blk : U16) (bitpos : Byte)
      (s : State) (r : Res), s.syn.planActive = false →
      (¬ defpatFits bd color darkUs trigOut blk bitpos ∧ r = .cfgRange
        ∨ defpatFits bd color darkUs trigOut blk bitpos
          ∧ (expUs.toNat < leastExposure s.cfg bd ∧ r = .cfgExpLow
            ∨ leastExposure s.cfg bd ≤ expUs.toNat
              ∧ (s.cfg.expMax < expUs.toNat ∧ r = .cfgExpHigh ∨ expUs.toNat ≤ s.cfg.expMax ∧ s.uploadRefusal r))) →
        exec (.defpat index expUs bd color trigIn darkUs trigOut blk bitpos) s = .next (s.finish r .none))
    ∧ ∀ (count : U16) (rep : U32) (s : State) (r : Res), s.syn.planActive = false →
      (count = 0 ∧ r = .cfgRange ∨ count ≠ 0 ∧ s.uploadRefusal r) → exec (.cfglut count rep) s = .next (s.finish r .none)

/-- R140, R149: `IMGBLK` on a projector ready for uploads: the size announce and the chunks in order, or `FAULT_IO` at the
first that fails; and its refusals in their order (R145, R220). -/
def Obligations.ImgblkResult : Prop :=
  (∀ (idx : U16) (block : List Byte) (s : State), s.syn.planActive = false → idx.toNat ≤ 0x7FF → block ≠ [] →
    block.length ≤ 0xFFFFFFFF → s.uploadReady →
      ∃ t, exec (.imgblk idx block) s = .next t
        ∧ faultCommands s t (blockCmds s.cfg ⟨idx.setWidth 11, block⟩)
        ∧ t.upl = { s.upl with
            isup := false, pktTotal := BitVec.ofNat 32 ((block.length + s.cfg.chunk - 1) / s.cfg.chunk)
            pktDone := t.upl.pktDone, pktPct := t.upl.pktPct }
        ∧ (t.host.lastResult = 0x00 → t.upl.pktDone = t.upl.pktTotal)
        ∧ t.cfg = s.cfg ∧ t.cod = s.cod ∧ t.ses = s.ses ∧ t.syn = s.syn ∧ t.work = s.work ∧ t.host.ubf = s.host.ubf)
    ∧ ∀ (idx : U16) (block : List Byte) (s : State) (r : Res), s.syn.planActive = false →
      ((0x7FF < idx.toNat ∨ block = [] ∨ 0xFFFFFFFF < block.length) ∧ r = .cfgRange
        ∨ idx.toNat ≤ 0x7FF ∧ block ≠ [] ∧ block.length ≤ 0xFFFFFFFF ∧ s.uploadRefusal r) →
        exec (.imgblk idx block) s = .next (s.finish r .none)

/-- R143, R146, R150, R153: `SUPLOAD` of a valid Sequence that is not uploaded, on a projector ready for uploads. Either
every command of the upload went out, in the order of R153 with the blocks in descending index, and `ISUP` is 1; or the
frames stopped at a failure, the code is `FAULT_IO` and `ISUP` is 0. R152: of an uploaded one it sends nothing. Its
refusals in their order. A block size or a packet total past 32 bits is the model's free value
(notes/assumptions/14.md). -/
def Obligations.SuploadResult : Prop :=
  (∀ (confirm : Bool) (s : State), s.syn.planActive = false → s.upl.seqValid = true → s.upl.isup = false →
    validate s.cfg s.patsIn s.upl.seqRepeat confirm = none → s.uploadReady →
      ∃ t, exec (.supload confirm) s = .next t
        ∧ faultCommands s t (uploadCmds s.cfg s.upl.seqPats s.upl.seqRepeat)
        ∧ t.upl = { s.upl with
            isup := decide (t.host.lastResult = 0x00), blocks := compile s.cfg s.upl.seqPats
            pktTotal := Config.u32Of (((compile s.cfg s.upl.seqPats).map fun b =>
              (b.bytes.length + s.cfg.chunk - 1) / s.cfg.chunk).sum)
            pktDone := t.upl.pktDone, pktPct := t.upl.pktPct }
        ∧ t.cfg = s.cfg ∧ t.cod = s.cod ∧ t.ses = s.ses ∧ t.syn = s.syn ∧ t.work = s.work ∧ t.host.ubf = s.host.ubf)
    ∧ (∀ (confirm : Bool) (s : State), s.syn.planActive = false → s.upl.seqValid = true → s.upl.isup = true →
      validate s.cfg s.patsIn s.upl.seqRepeat confirm = none → exec (.supload confirm) s = .next (s.finish .ok .none))
    ∧ ∀ (confirm : Bool) (s : State) (r : Res), s.syn.planActive = false →
      (s.upl.seqValid = false ∧ r = .errNoSeq
        ∨ s.upl.seqValid = true ∧ (validate s.cfg s.patsIn s.upl.seqRepeat confirm = some r
          ∨ validate s.cfg s.patsIn s.upl.seqRepeat confirm = none ∧ s.upl.isup = false ∧ s.uploadRefusal r)) →
        exec (.supload confirm) s = .next (s.finish r .none)

/-! ## Session -/

/-- R157, R159: `CONNECT` by the probe's answer, and `DISCONNECT`. -/
def Obligations.ConnectDisconnect : Prop :=
  ∀ s : State, s.syn.planActive = false →
    (∀ (a : ProbeAns) (as : List ProbeAns), s.ports.probeAns = a :: as →
        exec .connect s = .next (State.finish
          { s with
            upl := { s.upl with isup := false }
            ses := { s.ses with
              sessValid := decide (a = .found), sm := .idle, mode := 0x00, modeKnown := false, lastErr := 0x00 }
            frm := { s.frm with rplv := false }
            ports := { s.ports with probeAns := as, trace := .probe a :: s.ports.trace } }
          (match a with
            | .found => .ok
            | .none => .errNoDevice)
          .none))
      ∧ exec .disconnect s = .next (State.finish
          { s with
            upl := { s.upl with isup := false }
            ses := { s.ses with sessValid := false, sm := .idle, modeKnown := false }
            frm := { s.frm with rplv := false } }
          .ok .none)

/-- R161, R162, R242: `SETMODE` sends Stop, waits, sends the mode-set, waits, sends Stop and waits, whatever the devices
answer, and ends in `ModeSet`; without a session it is refused (R160). R113, R115: its code is the first failure's
warning, `OK` exactly where nothing failed, and every failure pushes its warning. -/
def Obligations.SetmodeChoreography : Prop :=
  ∀ (m : Byte) (s : State), s.syn.planActive = false →
    (s.ses.sessValid = false → exec (.setmode m) s = .next (s.finish .errNotConnected .none)) ∧ (s.ses.sessValid = true →
    ∃ t evs, exec (.setmode m) s = .next t ∧ s.did t evs
      ∧ marks evs = outMarks s.cfg (playCmd s.cfg .stop) ++ [.settle s.cfg.settleStopMs]
          ++ outMarks s.cfg (modeCmd s.cfg m) ++ [.settle s.cfg.settleModeMs]
          ++ outMarks s.cfg (playCmd s.cfg .stop) ++ [.settle s.cfg.settleStopMs]
      ∧ t.ses = { s.ses with sm := .modeSet, mode := m, modeKnown := true }
      ∧ t.upl = { s.upl with isup := false } ∧ t.frm.inflight = false
      ∧ t.frm.frameBuf = (playCmd s.cfg .stop).frames s.cfg ∧ warnCommands s t (modeSendings s.cfg m) evs
      ∧ t.host.lastResult = (evs.filterMap PortEvent.warning?).headD 0x00
      ∧ t.sts = (s.warnedOf (evs.filterMap PortEvent.warning?)).sts
      ∧ (t.host.lastResult = 0x00 ↔ ∀ e ∈ evs, e.failed = false)
      ∧ (∀ b1 b2 b3 outs ins, s.ports.grants 3 [b1, b2, b3] outs ins →
        t.host.lastResult = 0x00 ∧ t.sts = s.sts ∧ t.frm.rplv = true ∧ t.frm.rplBuf = b3)
      ∧ t.cfg = s.cfg ∧ t.cod = s.cod ∧ t.syn = s.syn ∧ t.work = s.work ∧ t.host.ubf = s.host.ubf)

/-- R163, R164, R169: `START` from `ModeSet`, `Stopped` or `Paused` sends its six commands, whatever the devices answer, and
ends in `Playing`; without a session, and from `Idle` and `Playing`, it is refused. R113 to R115, R165: its code is the first
warning met, a failed command's or that of a `Check` of an error query, every warning is pushed, and `LAST_ERR` is the last
error byte read; answered with zero error bytes it is `OK`. -/
def Obligations.StartResult : Prop :=
  ∀ s : State, s.syn.planActive = false →
    (s.ses.sessValid = false → exec .start s = .next (s.finish .errNotConnected .none))
      ∧ (s.ses.sessValid = true → (s.ses.sm = .modeSet ∨ s.ses.sm = .stopped ∨ s.ses.sm = .paused) →
        ∃ t evs, exec .start s = .next t ∧ s.did t evs
          ∧ marks evs = outMarks s.cfg (inSrcCmd s.cfg) ++ outMarks s.cfg (errqCmd s.cfg)
              ++ outMarks s.cfg (trigModeCmd s.cfg) ++ outMarks s.cfg (errqCmd s.cfg)
              ++ outMarks s.cfg (playCmd s.cfg .play) ++ outMarks s.cfg (errqCmd s.cfg)
          ∧ t.ses = { s.ses with sm := .playing, lastErr := t.ses.lastErr } ∧ t.upl = s.upl ∧ t.frm.inflight = false
          ∧ t.frm.frameBuf = (errqCmd s.cfg).frames s.cfg ∧ warnCommands s t (startSendings s.cfg) evs
          ∧ (t.host.lastResult = 0x00 ∧ t.sts = s.sts ∧ t.ses.lastErr = 0x00 ∨ t.host.lastResult = 0x10
              ∨ t.host.lastResult = 0x11 ∨ t.host.lastResult = 0x12)
          ∧ (∀ b1 b2 b3 b4 b5 b6 outs ins, s.ports.grants 6 [b1, b2, b3, b4, b5, b6] outs ins →
            ∃ ws, ws = [b2, b4, b6].flatMap (fun b => checkWarnings s.cfg (some b)) ∧ t.host.lastResult = ws.headD 0x00
              ∧ t.sts = (s.warnedOf ws).sts ∧ t.ses.lastErr = b6.getD s.cfg.errOff 0 ∧ t.frm.rplv = true
              ∧ t.frm.rplBuf = b6)
          ∧ t.cfg = s.cfg ∧ t.cod = s.cod ∧ t.syn = s.syn ∧ t.work = s.work ∧ t.host.ubf = s.host.ubf)
      ∧ (s.ses.sessValid = true → (s.ses.sm = .idle ∨ s.ses.sm = .playing) → exec .start s = .next (s.finish .errState .none))

/-- R166, R167, R168: `STOP` sends the Stop command and waits, and moves `SM` to `Stopped` unless it is `Idle`. `PAUSE` from
`Playing` sends Pause and moves `SM` to `Paused`; from any other state it is refused. Without a session both are (R160). -/
def Obligations.StopPauseResults : Prop :=
  ∀ s : State, s.syn.planActive = false →
    (s.ses.sessValid = false → exec .stop s = .next (s.finish .errNotConnected .none)
        ∧ exec .pause s = .next (s.finish .errNotConnected .none))
      ∧ (s.ses.sessValid = true → (∃ t evs, exec .stop s = .next t ∧ s.did t evs
      ∧ marks evs = outMarks s.cfg (playCmd s.cfg .stop) ++ [.settle s.cfg.settleStopMs]
      ∧ warnCommand s t ((playCmd s.cfg .stop).frames s.cfg)
      ∧ t.ses = { s.ses with sm := if s.ses.sm = .idle then .idle else .stopped } ∧ t.upl = s.upl
      ∧ t.cfg = s.cfg ∧ t.cod = s.cod ∧ t.syn = s.syn ∧ t.work = s.work ∧ t.host.ubf = s.host.ubf)
      ∧ (s.ses.sm = .playing →
        ∃ t evs, exec .pause s = .next t ∧ s.did t evs ∧ marks evs = outMarks s.cfg (playCmd s.cfg .pause)
          ∧ warnCommand s t ((playCmd s.cfg .pause).frames s.cfg) ∧ t.ses = { s.ses with sm := .paused } ∧ t.upl = s.upl
          ∧ t.cfg = s.cfg ∧ t.cod = s.cod ∧ t.syn = s.syn ∧ t.work = s.work ∧ t.host.ubf = s.host.ubf)
      ∧ (s.ses.sm ≠ .playing → exec .pause s = .next (s.finish .errState .none)))

/-- R173: `ILLCONNECT` with a controller that answers both queries; with one whose version query fails; with one whose
wavelength query fails; and with none attached. -/
def Obligations.IllconnectResult : Prop :=
  ∀ s : State, s.syn.planActive = false →
    (∀ (line l2 : List Byte) (as : List IllAns), s.cfg.illPresent = true → s.ports.illAns = .ok line :: .ok l2 :: as →
        exec .illconnect s = .next (State.finish
          { s with
            ses := { s.ses with illValid := true, illOn := ⟨false, false, false, false⟩ }
            ports := { s.ports with
              illAns := as
              trace := .ill .wavelengths (IllMsg.line s.cfg.illKw .wavelengths) s.cfg.illTimeoutMs (.ok l2)
                :: .ill .version (IllMsg.line s.cfg.illKw .version) s.cfg.illTimeoutMs (.ok line) :: s.ports.trace } }
          .ok (.info line)))
      ∧ (∀ (a : IllAns) (as : List IllAns), s.cfg.illPresent = true → a = .timeout ∨ a = .ioError → s.ports.illAns = a :: as →
        exec .illconnect s = .next (State.finish
          { s with
            ses := { s.ses with illValid := false, illOn := ⟨false, false, false, false⟩ }
            ports := { s.ports with
              illAns := as
              trace := .ill .version (IllMsg.line s.cfg.illKw .version) s.cfg.illTimeoutMs a :: s.ports.trace } }
          .errNoDevice .none))
      ∧ (∀ (line : List Byte) (a : IllAns) (w : Res) (as : List IllAns), s.cfg.illPresent = true →
        (a = .timeout ∧ w = .warnTimeout ∨ a = .ioError ∧ w = .warnIo) → s.ports.illAns = .ok line :: a :: as →
        exec .illconnect s = .next (State.finish
          { s with
            ses := { s.ses with illValid := true, illOn := ⟨false, false, false, false⟩ }
            sts := (s.push (.warning w.byte)).sts
            ports := { s.ports with
              illAns := as
              trace := .ill .wavelengths (IllMsg.line s.cfg.illKw .wavelengths) s.cfg.illTimeoutMs a
                :: .ill .version (IllMsg.line s.cfg.illKw .version) s.cfg.illTimeoutMs (.ok line) :: s.ports.trace } }
          w (.info line)))
      ∧ (s.cfg.illPresent = false →
        ∃ t, exec .illconnect s = .next t ∧ t.host = { s.host with lastResult := 0x22 }
          ∧ t.ses = { s.ses with illValid := false, illOn := ⟨false, false, false, false⟩ } ∧ t.frm = s.frm ∧ t.cod = s.cod
          ∧ t.upl = s.upl ∧ t.syn = s.syn ∧ t.sts = s.sts ∧ t.work = s.work ∧ t.cfg = s.cfg)

/-- R174: `REGREAD` of a word and of a reserved one. -/
def Obligations.RegreadResult : Prop :=
  ∀ (n : Byte) (s : State),
    (n.toNat < 10 → ∃ w, statusWord s n.toNat = some w ∧ exec (.regread n) s = .next (s.finish .ok (.word w)))
      ∧ (10 ≤ n.toNat → exec (.regread n) s = .next (s.finish .cfgRange .none))

/-- R50 with the codes of R32, R38 and R45: every bit of the ten status words; `FCOUNT`, `len(STATUS)`, `len(SEQ_PATS)` and
`BLKSIZE` for lengths that fit their fields (notes/assumptions/14.md). -/
def Obligations.StatusWordBits : Prop :=
  ∀ (s : State) (k : Nat), k < 32 →
    (∃ w, statusWord s 0 = some w ∧ w.getLsbD k =
        (if k = 0 then s.ses.sessValid else if k = 1 then s.ses.illValid else if k < 5 then
            Nat.testBit (match s.ses.sm with
              | .idle => 0
              | .modeSet => 1
              | .playing => 2
              | .paused => 3
              | .stopped => 4) (k - 2)
          else if k = 5 then s.ses.modeKnown else if k < 8 then false else if k < 16 then s.ses.mode.getLsbD (k - 8)
          else if k < 24 then s.ses.lastErr.getLsbD (k - 16) else if k = 24 then s.ses.illOn.a
          else if k = 25 then s.ses.illOn.b else if k = 26 then s.ses.illOn.c else if k = 27 then s.ses.illOn.d else false))
      ∧ (s.upl.seqPats.length < 2 ^ 16 → ∃ w, statusWord s 1 = some w ∧ w.getLsbD k =
        (if k = 0 then s.upl.seqValid else if k = 1 then s.upl.isup
          else if k = 2 then (s.upl.seqPats.head?.map fun p => decide (p.bd = 8)).getD false
          else if k < 5 then
            Nat.testBit (match s.upl.seqMode with
              | .continuous => 0
              | .cyclic => 1
              | .pulsed => 2
              | .ext => 3) (k - 3)
          else if k = 5 then decide (s.upl.seqRepeat = .inf)
          else if k < 16 then false else s.upl.seqPats.length.testBit (k - 16)))
      ∧ statusWord s 2 = some s.upl.seqGen
      ∧ statusWord s 3 = some (match s.upl.seqRepeat with
          | .finite n => n
          | .inf => 0)
      ∧ (∃ w, statusWord s 4 = some w ∧ w.getLsbD k =
        (if k = 0 then s.syn.planActive else if k = 1 then s.syn.cancel
          else if k < 4 then
            Nat.testBit (match s.syn.plan.mode with
              | .continuous => 0
              | .cyclic => 1
              | .pulsed => 2
              | .ext => 3) (k - 2)
          else if k = 4 then decide (s.syn.plan.disc = .precisePulse)
          else if k = 5 then s.syn.extActive else if k < 10 then
            Nat.testBit (match s.syn.phase with
              | .idle => 0
              | .s1 => 1
              | .s2 => 2
              | .s3 => 3
              | .s4 => 4
              | .s5 => 5
              | .s6 => 6
              | .poll => 7
              | .cleanup => 8
              | .run => 9
              | .setup => 10) (k - 6)
          else if k = 10 then s.syn.extBlank else if k < 16 then false
          else if k < 24 then s.syn.lastFault.getLsbD (k - 16) else false))
      ∧ statusWord s 5 = some s.syn.cycle
      ∧ (∃ w, statusWord s 6 = some w ∧ w.getLsbD k = (if k < 16 then s.syn.index.getLsbD k else false))
      ∧ (∃ w, statusWord s 7 = some w ∧ w.getLsbD k =
        (if k < 8 then s.host.lastResult.getLsbD k else if k < 16 then s.upl.pktPct.getLsbD (k - 8)
          else if k = 16 then s.frm.rplv else if k = 17 then s.sts.ovf else if k = 18 then s.host.ubf
          else if k = 19 then s.frm.inflight else false))
      ∧ (s.frm.frameBuf.length < 2 ^ 16 → s.sts.fifo.length < 2 ^ 16 → ∃ w, statusWord s 8 = some w ∧ w.getLsbD k =
        (if k < 16 then s.frm.frameBuf.length.testBit k else s.sts.fifo.length.testBit (k - 16)))
      ∧ (s.cod.blkBuf.length < 2 ^ 32 → ∃ w, statusWord s 9 = some w ∧ w.getLsbD k = s.cod.blkBuf.length.testBit k)
      ∧ ∀ n, 10 ≤ n → statusWord s n = none

/-! ## Synchronizer -/

/-- R177: the code `PlanValidate` raises first, in the order of its checks, and the plans that pass: exactly those all of
whose checks hold. -/
def Obligations.PlanValidateAccepts : Prop :=
  ∀ (s : State) (plan : PlanRec),
    (∀ r, validate s.cfg s.patsIn s.upl.seqRepeat plan.confirm = some r → planValidate s plan = some r)
      ∧ (validate s.cfg s.patsIn s.upl.seqRepeat plan.confirm = none →
        (plan.mode = .continuous → plan.sel = none → planValidate s plan = some .cfgEmpty)
        ∧ (¬ (plan.mode = .continuous ∧ plan.sel = none) →
          (¬ planFits plan s.upl.seqPats.length → planValidate s plan = some .cfgPlan)
          ∧ (planFits plan s.upl.seqPats.length → ¬ lightFits s.cfg plan → planValidate s plan = some .cfgIllum)
          ∧ (planFits plan s.upl.seqPats.length → lightFits s.cfg plan → plan.mode = .cyclic → ¬ lightAgrees plan →
            planValidate s plan = some .cfgIllum)))
      ∧ (planValidate s plan = none ↔
        validate s.cfg s.patsIn s.upl.seqRepeat plan.confirm = none ∧ ¬ (plan.mode = .continuous ∧ plan.sel = none)
        ∧ planFits plan s.upl.seqPats.length ∧ lightFits s.cfg plan ∧ (plan.mode = .cyclic → lightAgrees plan))

/-- R183: the union of the assignments holds exactly their activations, once each and sorted by channel; it fails exactly
where two of them name one channel and differ. -/
def Obligations.UnionLaw : Prop :=
  ∀ illum : List (List Activation),
    (union illum = none ↔ ∃ x ∈ illum.flatten, ∃ y ∈ illum.flatten, x.ch = y.ch ∧ x ≠ y)
      ∧ ∀ u, union illum = some u → (∀ x, x ∈ u ↔ x ∈ illum.flatten)
        ∧ u.Pairwise fun x y => x.ch.letter.toNat < y.ch.letter.toNat

/-- R176: `PSTART`: its refusals in their order, and its start. -/
def Obligations.PstartResult : Prop :=
  ∀ (plan : PlanRec) (s : State),
    (s.syn.planActive = true → exec (.pstart plan) s = .next (s.finish .errBusy .none))
      ∧ (s.syn.planActive = false → s.upl.seqValid = false → exec (.pstart plan) s = .next (s.finish .errNoSeq .none))
      ∧ (∀ r, s.syn.planActive = false → s.upl.seqValid = true → planValidate s plan = some r →
          exec (.pstart plan) s = .next (s.finish r .none))
      ∧ (s.syn.planActive = false → s.upl.seqValid = true → planValidate s plan = none →
          (s.ses.sessValid = false ∨ (needsIllum plan = true ∧ s.ses.illValid = false)) →
          exec (.pstart plan) s = .next (s.finish .errNotConnected .none))
      ∧ (s.syn.planActive = false → s.upl.seqValid = true → planValidate s plan = none → s.ses.sessValid = true →
          (needsIllum plan = true → s.ses.illValid = true) →
          exec (.pstart plan) s = .next (State.finish
            { s with
              upl := if plan.mode = s.upl.seqMode then s.upl else { s.upl with seqMode := plan.mode, isup := false }
              syn := { s.syn with
                plan := plan, cycles := s.upl.seqRepeat, cancel := false, lastFault := 0x00, phase := .setup, cycle := 0
                index := 0, extActive := false, extBlank := false, planActive := true }
              work := [.setup] }
            .ok .none))

/-- R178, R180: `PSTOP` with and without a plan; `STREAD` of an empty and of a non-empty FIFO. -/
def Obligations.PstopStreadResults : Prop :=
  (∀ s : State,
    (s.syn.planActive = true →
        exec .pstop s = .next (State.finish { s with syn := { s.syn with cancel := true } } .ok .none))
      ∧ (s.syn.planActive = false → exec .pstop s = .next (s.finish .ok .none)))
    ∧ ∀ s : State,
      (s.sts.fifo = [] → exec .stread s = .next (s.finish .ok (.event none s.sts.ovf)))
        ∧ ∀ (e : Event) (es : List Event), s.sts.fifo = e :: es →
          exec .stread s = .next (State.finish
            { s with sts := { fifo := es, ovf := if es = [] then false else s.sts.ovf } } .ok (.event (some e) s.sts.ovf))

/-- R209: `Push`. R49: the kind codes of the events. R151: `Progress` of each packet of
an upload; the last one always gives `PROGRESS(100, T, T)`. -/
def Obligations.PushAndProgress : Prop :=
  (∀ (s : State) (e : Event),
    (s.sts.fifo.length < s.cfg.statusDepth → s.push e = { s with sts := { s.sts with fifo := s.sts.fifo ++ [e] } })
      ∧ (s.cfg.statusDepth ≤ s.sts.fifo.length → s.push e = { s with sts := { s.sts with ovf := true } }))
    ∧ (∀ (p w : Byte) (a b : U32) (i : U16) (el : U64), Event.code (.progress p a b) = 1 ∧ Event.code (.warning w) = 2
      ∧ Event.code (.step a i) = 3 ∧ Event.code (.display i) = 4 ∧ Event.code (.cyclic el a) = 5 ∧ Event.code .planDone = 6
      ∧ Event.code (.planFail w) = 7 ∧ Event.code .planCancelled = 8)
    ∧ (∀ (s : State) (done pct : Nat), done = s.upl.pktDone.toNat + 1 → done ≤ s.upl.pktTotal.toNat →
      pct = 100 * done / s.upl.pktTotal.toNat →
        ((done % s.cfg.progPkts = 0 ∨ s.upl.pktPct.toNat / s.cfg.progPct < pct / s.cfg.progPct
            ∨ done = s.upl.pktTotal.toNat) →
          reportProgress s = State.push
            { s with upl := { s.upl with pktDone := BitVec.ofNat 32 done, pktPct := BitVec.ofNat 8 pct } }
            (.progress (BitVec.ofNat 8 pct) (BitVec.ofNat 32 done) s.upl.pktTotal))
        ∧ (done % s.cfg.progPkts ≠ 0 → pct / s.cfg.progPct ≤ s.upl.pktPct.toNat / s.cfg.progPct →
          done ≠ s.upl.pktTotal.toNat →
          reportProgress s = { s with upl := { s.upl with pktDone := BitVec.ofNat 32 done } }))
    ∧ ∀ s : State, s.upl.pktDone + 1 = s.upl.pktTotal → s.upl.pktTotal ≠ 0 →
      reportProgress s = State.push
        { s with upl := { s.upl with pktDone := s.upl.pktTotal, pktPct := 100 } }
        (.progress 100 s.upl.pktTotal s.upl.pktTotal)

/-- R186: the loops of `RunPulsed`. R179, R187, R188: what the worker does with a Pulsed step's wait and with a check of
`CANCEL`. R205: `Wait(d)` takes a first reading `t0`; a tick of it reads `CANCEL` first and ends the plan as cancelled; else
it returns at the first reading at or after `t0 + d`, never for an unlimited `d`, and before that it sleeps at most a tick.
One clock reading per tick is the model's choice (notes/assumptions/11.md), a time before `T_STEP` counts as 0
(notes/assumptions/30.md). -/
def Obligations.WaitLaws : Prop :=
  (∀ (s : State) (c : U32) (k : Nat) (i : U16) (first : Bool) (rest : List WAct),
    (s.syn.plan.mode = .pulsed → workAct .runMode rest s = .ok { s with work := [.pulsedCycle 0 true] })
      ∧ (s.syn.cycles = .finite c → workAct (.pulsedCycle c first) rest s = .ok { s with work := [.endPlan .done] })
      ∧ (s.syn.cycles ≠ .finite c → workAct (.pulsedCycle c first) rest s = .ok { s with work := [.pulsedPat c 0 first] })
      ∧ (k < s.upl.seqPats.length → workAct (.pulsedPat c k first) rest s = .ok { s with
          work := [.checkCancel, .pos c (BitVec.ofNat 16 k), .nowStep first,
            .act .fault (.push (.step c (BitVec.ofNat 16 k))), .showStep k, .act .fault (.phase .s6), .pulsedWait k,
            .pulsedPat c (k + 1) false] })
      ∧ (s.upl.seqPats.length ≤ k → workAct (.pulsedPat c k first) rest s = .ok { s with work := [.pulsedCycle (c + 1) first] })
      ∧ workAct (.pos c i) rest s = .ok { s with syn := { s.syn with cycle := c, index := i }, work := rest }
      ∧ ∃ u, workAct (.nowStep first) rest s = .ok u ∧ s.did u [.clk s.nextClk]
        ∧ u = { s with
            syn := { s.syn with tStep := s.nextClk, tPlan := if first then s.nextClk else s.syn.tPlan }
            work := rest, ports := u.ports })
    ∧ (∀ (s : State) (k : Nat) (d : U32) (rest : List WAct), s.syn.plan.durMs[k]? = some d →
    (s.syn.plan.disc = .precisePulse → workAct (.pulsedWait k) rest s = .ok { s with work := .waitStart (some d.toNat) :: rest })
      ∧ (s.syn.plan.disc = .preciseTotal →
          workAct (.pulsedWait k) rest s = .ok { s with work := .waitRest d.toNat :: rest }
          ∧ ∃ u, workAct (.waitRest d.toNat) rest s = .ok u
            ∧ u.work = .waitStart (some (d.toNat - (s.nextClk.toNat - s.syn.tStep.toNat))) :: rest))
    ∧ (∀ (s : State) (rest : List WAct),
      (s.syn.cancel = true → workAct .checkCancel rest s = .ok { s with work := [.endPlan .cancelled] })
      ∧ (s.syn.cancel = false → workAct .checkCancel rest s = .ok { s with work := rest }))
    ∧ ∀ (s : State) (t0 : U64) (n : Nat) (rest : List WAct),
      (s.syn.cancel = true → ∀ d, workAct (.waitTick t0 d) rest s = .ok { s with work := [.endPlan .cancelled] })
        ∧ (s.syn.cancel = false → t0.toNat + n ≤ s.nextClk.toNat →
            ∃ u, workAct (.waitTick t0 (some n)) rest s = .ok u ∧ u.work = rest ∧ s.did u [.clk s.nextClk])
        ∧ (s.syn.cancel = false → s.nextClk.toNat < t0.toNat + n →
            ∃ u, workAct (.waitTick t0 (some n)) rest s = .ok u ∧ u.work = .waitTick t0 (some n) :: rest
              ∧ s.did u [.clk s.nextClk, .sleep (min s.cfg.tickMs (t0.toNat + n - s.nextClk.toNat))])
        ∧ (s.syn.cancel = false →
            ∃ u, workAct (.waitTick t0 none) rest s = .ok u ∧ u.work = .waitTick t0 none :: rest
              ∧ s.did u [.clk s.nextClk, .sleep s.cfg.tickMs])
        ∧ ∀ d, ∃ u, workAct (.waitStart d) rest s = .ok u ∧ u.work = .waitTick s.nextClk d :: rest ∧ s.did u [.clk s.nextClk]

/-- R197: the start of `RunExt` and its loop. R202: the blank pattern. R198 to R201: the four cases of a poll. -/
def Obligations.ExtPollLaw : Prop :=
  (∀ (s : State) (rest : List WAct), s.syn.plan.mode = .ext → workAct .runMode rest s = .ok { s with
      work := .pos 0 0 :: inPlan (.phase .s1 :: stopList s.cfg ++ .phase .s2 :: darkList s.ses.illValid) ++ [.extFirst] })
    ∧ (∀ (s : State) (on : Bool) (cnt : U32) (as : List (Bool × U32)) (rest : List WAct), s.ports.trgAns = (on, cnt) :: as →
      workAct .extFirst rest s = .ok { s with
          syn := { s.syn with extPrevOnoff := false, extPrevCnt := cnt, extActive := false, extBlank := false }
          ports := { s.ports with trgAns := as, trace := .trg on cnt :: s.ports.trace }
          work := [.nowPlan, .checkCancel, .nowStep false, .extPoll on cnt, .act .fault (.phase .poll),
            .waitStart (some s.cfg.pollMs), .extNext] }
        ∧ workAct .extNext rest s = .ok { s with
          ports := { s.ports with trgAns := as, trace := .trg on cnt :: s.ports.trace }
          work := [.checkCancel, .nowStep false, .extPoll on cnt, .act .fault (.phase .poll),
            .waitStart (some s.cfg.pollMs), .extNext] })
    ∧ (∀ (s : State) (rest : List WAct), ∃ u, workAct .nowPlan rest s = .ok u ∧ s.did u [.clk s.nextClk]
      ∧ u = { s with syn := { s.syn with tPlan := s.nextClk }, work := rest, ports := u.ports })
    ∧ (∀ (s : State) (p : Pattern) (ps : List Pattern) (rest : List WAct), s.upl.seqPats = p :: ps →
      workAct .showBlank rest s = .ok { s with
        work := inPlan (showList s
          ⟨List.replicate (s.cfg.w * s.cfg.h) 0, BitVec.ofNat 32 (leastExposure s.cfg p.bd), 0, false, 0, p.bd⟩ [] 0xFFFF)
            ++ rest })
    ∧ (∀ (s : State) (on b : Bool) (cnt : U32) (rest : List WAct),
      workAct (.extPoll on cnt) rest s = .ok (extPoll on cnt rest s)
        ∧ workAct (.extPrev on cnt) rest s = .ok { s with
          syn := { s.syn with extPrevCnt := cnt, extPrevOnoff := on }, work := rest }
        ∧ workAct (.extActive b) rest s = .ok { s with syn := { s.syn with extActive := b }, work := rest }
        ∧ workAct (.extBlank b) rest s = .ok { s with syn := { s.syn with extBlank := b }, work := rest })
    ∧ ∀ (s : State) (on : Bool) (cnt : U32) (rest : List WAct),
    (s.syn.extPrevOnoff = false → on = true → s.syn.plan.blankFirst = false →
        extPoll on cnt rest s = { s with
          work := [.act .fault (.push (.step s.syn.cycle s.syn.index)), .showStep s.syn.index.toNat, .extActive true,
            .extPrev on cnt] ++ rest })
      ∧ (s.syn.extPrevOnoff = false → on = true → s.syn.plan.blankFirst = true →
        extPoll on cnt rest s = { s with work := [.showBlank, .extBlank true, .extActive true, .extPrev on cnt] ++ rest })
      ∧ (s.syn.extPrevOnoff = true → on = false →
        extPoll on cnt rest s = { s with
          work := stopDark s ++ [.extActive false, .extBlank false, .extPrev on cnt] ++ rest })
      ∧ (s.syn.extPrevOnoff = true → on = true → s.syn.extActive = true → s.syn.extPrevCnt.toNat < cnt.toNat →
        ∃ c i, extPoll on cnt rest s = { s with
            syn := { s.syn with cycle := c, index := i, extBlank := false }
            work := [.act .fault (.push (.step c i)), .showStep i.toNat, .extPrev on cnt] ++ rest }
          ∧ (s.syn.extBlank = true → c = s.syn.cycle ∧ i = s.syn.index)
          ∧ (s.syn.extBlank = false → i = BitVec.ofNat 16 ((s.syn.index.toNat + 1) % s.upl.seqPats.length)
              ∧ c = if (s.syn.index.toNat + 1) % s.upl.seqPats.length = 0 then s.syn.cycle + 1 else s.syn.cycle))
      ∧ ((s.syn.extPrevOnoff = false ∧ on = false ∨ s.syn.extPrevOnoff = true ∧ on = true
          ∧ (s.syn.extActive = false ∨ cnt.toNat ≤ s.syn.extPrevCnt.toNat)) →
        extPoll on cnt rest s = { s with work := .extPrev on cnt :: rest })

/-- R192, R193, R194: the steps of `RunCyclic`. R195, R196: a sample of `CyclicTrack` at `el` milliseconds, `ex` the expected
count of cycles. A time before `T_STEP` counts as 0, the model's reading (notes/assumptions/30.md). -/
def Obligations.CyclicSampleLaw : Prop :=
  (∀ (s : State) (rest : List WAct),
    (s.syn.plan.mode = .cyclic → workAct .runMode rest s = .ok { s with
        work := inPlan (.phase .s1 :: stopList s.cfg ++ .phase .s2 :: darkList s.ses.illValid)
          ++ [.act .fault (.phase .s3), .cyclicUpload, .act .fault (.phase .s4), .cyclicLight, .act .fault (.phase .s5)]
          ++ inPlan (startList s.cfg)
          ++ [.nowStep true, .pos 0 0, .act .fault (.push (.display 0)), .act .fault (.phase .run), .checkCancel,
            .cyclicPoll 0] })
      ∧ (s.upl.isup = true → workAct .cyclicUpload rest s = .ok { s with work := rest })
      ∧ (s.upl.isup = false → workAct .cyclicUpload rest s = .ok { s with
          work := inPlan (seqList s.cfg s.upl.seqPats s.upl.seqRepeat) ++ rest })
      ∧ ∀ acts, union s.syn.plan.illum = some acts →
        workAct .cyclicLight rest s = .ok { s with work := inPlan (lightList s.cfg acts) ++ rest })
    ∧ (∀ (s : State) (last : Nat) (rest : List WAct), ∃ u, u = { s with ports := u.ports } ∧ s.did u [.clk s.nextClk]
      ∧ workAct (.cyclicPoll last) rest s
        = cyclicSample last (BitVec.ofNat 64 (s.nextClk.toNat - s.syn.tStep.toNat)) rest u)
    ∧ ∀ (s : State) (last ex : Nat) (el : U64) (rest : List WAct), 0 < period s → ex = 1000 * el.toNat / period s →
    (∀ n : U32, s.syn.cycles = .finite n → n.toNat ≤ ex →
        ∃ t, cyclicSample last el rest s = .ok t ∧ t.work = [.endPlan .done] ∧ t.syn = { s.syn with cycle := n }
          ∧ t.sts = (s.push (.cyclic el n)).sts)
      ∧ ((s.syn.cycles = .inf ∨ ∃ n : U32, s.syn.cycles = .finite n ∧ ex < n.toNat) →
        ∃ t, cyclicSample last el rest s = .ok t
          ∧ t.work = .waitStart (some s.cfg.pollMs) :: .checkCancel :: .cyclicPoll ex :: rest
          ∧ (ex = last → t.syn = s.syn ∧ t.sts = s.sts)
          ∧ (ex ≠ last → t.syn = { s.syn with cycle := BitVec.ofNat 32 ex }
              ∧ t.sts = (s.push (.cyclic el (BitVec.ofNat 32 ex))).sts))

/-- R182: `Setup`. R185: `RunContinuous`. R184: `ShowStep`. R204, R218, R223: the entry of the cleanup path: a failed frame,
reply or message in the fault context abandons the step, after its settle wait where it was a Stop (R167, R243; the
model's reading, notes/assumptions/31.md), and the cleanup is illumination off where there is a controller session, then
Stop where there is a projector session, both in the warn context. R113, R224: there a failed frame, reply or message
pushes its warning and the cleanup goes on. R203: the return to idle with `LAST_FAULT`, the final event and the registers
of the plan. -/
def Obligations.PlanEnding : Prop :=
  (∀ (s : State) (rest : List WAct),
    (s.ses.modeKnown = false ∨ s.ses.mode ≠ s.cfg.valModePotf → workAct .setup rest s = .ok { s with
        syn := { s.syn with phase := .setup }, work := inPlan (modeList s.cfg s.cfg.valModePotf) ++ [.runMode] })
      ∧ (s.ses.modeKnown = true → s.ses.mode = s.cfg.valModePotf → workAct .setup rest s = .ok { s with
        syn := { s.syn with phase := .setup }, work := [.runMode] })
      ∧ ∀ k : U16, s.syn.plan.mode = .continuous → s.syn.plan.sel = some k → workAct .runMode rest s = .ok { s with
        work := [.pos 0 k, .nowStep true, .act .fault (.push (.step 0 k)), .showStep k.toNat, .act .fault (.phase .run),
          .waitStart (if s.syn.plan.autoStopMs = 0 then none else some s.syn.plan.autoStopMs.toNat), .endPlan .done] })
    ∧ (∀ (s : State) (k : Nat) (p : Pattern) (acts : List Activation) (rest : List WAct), s.upl.seqPats[k]? = some p →
      s.syn.plan.illum[k]? = some acts → workAct (.showStep k) rest s = .ok { s with
        work := inPlan (showList s p.toPatIn acts (BitVec.ofNat 16 k)) ++ rest })
    ∧ (∀ (s : State) (ctx : Ctx) (cls : Cls) (i : Nat) (f : Frame) (rest : List WAct) (outs : List OutAns)
      (ins : List InAns) (a : InAns) (left : List WAct),
      (ctx = .fault ∧ left = [] ∨ ∃ d, ctx = .stop d ∧ left = [.act .fault (.settle d)]) →
        (s.frm.frameBuf[i]? = some f → s.ports.usbOutAns = .ioError :: outs →
          workAct (.out ctx cls i) rest s = .ok { s with
            frm := { s.frm with inflight := false, rplv := false }, work := left ++ [.endPlan .fault]
            ports := { s.ports with usbOutAns := outs, trace := .usbOut f .ioError :: s.ports.trace } })
        ∧ (a = .timeout ∨ a = .ioError → s.ports.usbInAns = a :: ins →
          ∃ t, workAct (.inp ctx cls) rest s = .ok t ∧ t.work = left ++ [.endPlan .fault]
            ∧ t.frm = { s.frm with inflight := false, rplv := false } ∧ t.syn = s.syn ∧ t.sts = s.sts ∧ t.ses = s.ses
            ∧ t.upl = s.upl ∧ t.cod = s.cod ∧ t.host = s.host))
    ∧ (∀ (s : State) (m : IllMsg) (rest : List WAct) (as : List IllAns) (a : IllAns), s.cfg.illPresent = true →
      a = .timeout ∨ a = .ioError → s.ports.illAns = a :: as →
        workAct (.act .fault (.ill m)) rest s = .ok { s with
          work := [.endPlan .fault]
          ports := { s.ports with
            illAns := as, trace := .ill m (IllMsg.line s.cfg.illKw m) s.cfg.illTimeoutMs a :: s.ports.trace } })
    ∧ (∀ (s : State) (cls : Cls) (i : Nat) (f : Frame) (rest : List WAct) (outs : List OutAns) (ins : List InAns)
      (a : InAns) (w : Byte),
      (s.frm.frameBuf[i]? = some f → s.ports.usbOutAns = .ioError :: outs →
          workAct (.out .warn cls i) rest s = .ok { s with
            frm := { s.frm with inflight := false, rplv := false }, work := rest, sts := (s.push (.warning 0x12)).sts
            ports := { s.ports with usbOutAns := outs, trace := .usbOut f .ioError :: s.ports.trace } })
        ∧ ((a = .timeout ∧ w = 0x11 ∨ a = .ioError ∧ w = 0x12) → s.ports.usbInAns = a :: ins →
          workAct (.inp .warn cls) rest s = .ok { s with
            frm := { s.frm with inflight := false, rplv := false }, work := rest, sts := (s.push (.warning w)).sts
            ports := { s.ports with
              usbInAns := ins
              trace := .usbIn (match cls with
                | .control => s.cfg.tCtrlMs
                | .bulk => s.cfg.tBulkMs) a :: s.ports.trace } }))
    ∧ (∀ (s : State) (m : IllMsg) (rest : List WAct) (as : List IllAns) (a : IllAns) (w : Byte),
      (s.cfg.illPresent = true → (a = .timeout ∧ w = 0x11 ∨ a = .ioError ∧ w = 0x12) → s.ports.illAns = a :: as →
        workAct (.act .warn (.ill m)) rest s = .ok { s with
          work := rest, sts := (s.push (.warning w)).sts
          ports := { s.ports with
            illAns := as, trace := .ill m (IllMsg.line s.cfg.illKw m) s.cfg.illTimeoutMs a :: s.ports.trace } })
        ∧ (s.cfg.illPresent = false →
          ∃ t, workAct (.act .warn (.ill m)) rest s = .ok t ∧ t.work = rest ∧ t.sts = (s.push (.warning 0x11)).sts
            ∧ t.ses = s.ses ∧ t.syn = s.syn ∧ t.frm = s.frm ∧ t.upl = s.upl))
    ∧ (∀ (s : State) (e : PlanEnd) (rest : List WAct), workAct (.endPlan e) rest s = .ok { s with
        work := (.phase .cleanup :: darkList s.ses.illValid ++ (if s.ses.sessValid then stopList s.cfg else [])).map
          (WAct.act .warn) ++ [.finishPlan e] })
    ∧ ∀ (s : State) (e : PlanEnd) (rest : List WAct),
      ∃ b ev, workAct (.finishPlan e) rest s = .ok { s with
            syn := { s.syn with lastFault := b, phase := .idle, extActive := false, extBlank := false, planActive := false }
            sts := (s.push ev).sts, work := [] }
        ∧ (e = .done → b = 0x00 ∧ ev = .planDone) ∧ (e = .fault → b = 0x20 ∧ ev = .planFail 0x20)
        ∧ (e = .cancelled → b = 0x40 ∧ ev = .planCancelled)

/-- R64: a worker step makes at most one port transaction; a settle wait is one step of two readings, and a tick of a wait
is one reading and a sleep. A turn of the WORKER runs its next action: the transaction it stands before, then the register
accesses up to the next. R109, R112: a command of the worker, its frames one by one and its reply. R183: its messages and
`ILL_ON`. What the other actions of a procedure write when the WORKER runs them: R162, R167, R169, R172 the session; R149,
R153 the upload registers; R111 `LAST_ERR`; R170 the settle wait. The granularity and a clock that stops at the top of u64
are the model's reading (notes/assumptions/9.md to 12.md). -/
def Obligations.WorkerStepIsOneTransaction : Prop :=
  (∀ s t : State, workerStep s = .ok t →
    ∃ evs, s.did t evs ∧ (evs.length ≤ 1 ∨ (∃ t0 d u, evs = [.clk t0, .settled d u] ∧ (clockAdd t0 d).toNat ≤ u.toNat)
      ∨ ∃ t0 ms, evs = [.clk t0, .sleep ms]))
    ∧ (∀ (s t u : State) (ts : List Turn) (a : WAct) (rest : List WAct), s.ports.turns = .worker :: ts →
      s.syn.planActive = true → s.work = a :: rest →
        (a.isPort = true → workAct a rest { s with ports := { s.ports with turns := ts } } = .ok u →
          runRegs regBurst u = .ok t → step s = .next t)
        ∧ (a.isPort = false → runRegs regBurst { s with ports := { s.ports with turns := ts } } = .ok t → step s = .next t))
    ∧ (∀ (s u : State) (n : Nat) (a : WAct) (rest : List WAct), s.work = a :: rest →
      (a.isPort = true → runRegs n s = .ok s)
        ∧ (a.isPort = false → workAct a rest s = .ok u → runRegs (n + 1) s = runRegs n u))
    ∧ (∀ (s : State) (ctx : Ctx) (k : Cmd) (rest : List WAct),
      workAct (.act ctx (.cmd k)) rest s = .ok { s with
          frm := { s.frm with frameBuf := k.frames s.cfg, inflight := true }, work := .out ctx k.cls 0 :: rest }
        ∧ workAct (.act .fault .stopPlay) rest s = .ok { s with
          frm := { s.frm with frameBuf := (playCmd s.cfg .stop).frames s.cfg, inflight := true }
          work := .out (.stop s.cfg.settleStopMs) .control 0 :: rest }
        ∧ workAct (.act .warn .stopPlay) rest s = .ok { s with
          frm := { s.frm with frameBuf := (playCmd s.cfg .stop).frames s.cfg, inflight := true }
          work := .out .warn .control 0 :: rest })
    ∧ (∀ (s : State) (ctx : Ctx) (cls : Cls) (i : Nat) (f b : Frame) (rest : List WAct) (outs : List OutAns)
      (ins : List InAns),
      (s.frm.frameBuf[i]? = some f → s.ports.usbOutAns = .ok :: outs → workAct (.out ctx cls i) rest s = .ok { s with
          work := (if i + 1 < s.frm.frameBuf.length then .out ctx cls (i + 1) else .inp ctx cls) :: rest
          ports := { s.ports with usbOutAns := outs, trace := .usbOut f .ok :: s.ports.trace } })
        ∧ (b.length = 64 → s.ports.usbInAns = .reply b :: ins → workAct (.inp ctx cls) rest s = .ok { s with
          frm := { s.frm with inflight := false, rplBuf := b, rplv := true }, work := rest
          ports := { s.ports with
            usbInAns := ins
            trace := .usbIn (match cls with
              | .control => s.cfg.tCtrlMs
              | .bulk => s.cfg.tBulkMs) (.reply b) :: s.ports.trace } }))
    ∧ (∀ (s : State) (ctx : Ctx) (m : IllMsg) (ch : Chan) (p : Phase) (line : List Byte) (as : List IllAns) (rest : List WAct),
      (s.cfg.illPresent = true → s.ports.illAns = .ok line :: as → workAct (.act ctx (.ill m)) rest s = .ok { s with
          work := rest
          ports := { s.ports with
            illAns := as, trace := .ill m (IllMsg.line s.cfg.illKw m) s.cfg.illTimeoutMs (.ok line) :: s.ports.trace } })
        ∧ workAct (.act ctx .illDark) rest s = .ok { s with
          ses := { s.ses with illOn := ⟨false, false, false, false⟩ }, work := rest }
        ∧ workAct (.act ctx (.illLit ch)) rest s = .ok { s with
          ses := { s.ses with illOn := ⟨s.ses.illOn.a || decide (ch = .a), s.ses.illOn.b || decide (ch = .b),
            s.ses.illOn.c || decide (ch = .c), s.ses.illOn.d || decide (ch = .d)⟩ }
          work := rest }
        ∧ workAct (.act ctx (.phase p)) rest s = .ok { s with syn := { s.syn with phase := p }, work := rest })
    ∧ (∀ (s : State) (ctx : Ctx) (m : Byte) (b : Bool) (bs : List Block) (total : U32) (e : Event) (rest : List WAct),
      workAct (.act ctx .stopped) rest s = .ok { s with
          ses := { s.ses with sm := if s.ses.sm = .idle then .idle else .stopped }, work := rest }
        ∧ workAct (.act ctx (.modeSet m)) rest s = .ok { s with
          ses := { s.ses with sm := .modeSet, mode := m, modeKnown := true }, work := rest }
        ∧ workAct (.act ctx .playing) rest s = .ok { s with ses := { s.ses with sm := .playing }, work := rest }
        ∧ workAct (.act ctx (.isup b)) rest s = .ok { s with upl := { s.upl with isup := b }, work := rest }
        ∧ workAct (.act ctx (.blocks bs)) rest s = .ok { s with upl := { s.upl with blocks := bs }, work := rest }
        ∧ workAct (.act ctx (.pktInit total)) rest s = .ok { s with
          upl := { s.upl with pktTotal := total, pktDone := 0, pktPct := 0 }, work := rest }
        ∧ workAct (.act ctx .progress) rest s = .ok { reportProgress s with work := rest }
        ∧ workAct (.act ctx (.push e)) rest s = .ok { s with sts := (s.push e).sts, work := rest })
    ∧ (∀ (s : State) (ctx : Ctx) (e : Byte) (rest : List WAct), e = s.frm.rplBuf.getD s.cfg.errOff 0 →
      (s.frm.rplv = false → workAct (.act ctx .check) rest s = .ok { s with
          sts := (s.push (.warning 0x13)).sts, work := rest })
        ∧ (s.frm.rplv = true → e = 0 → workAct (.act ctx .check) rest s = .ok { s with
          ses := { s.ses with lastErr := 0 }, work := rest })
        ∧ (s.frm.rplv = true → e ≠ 0 → workAct (.act ctx .check) rest s = .ok { s with
          ses := { s.ses with lastErr := e }, sts := (s.push (.warning 0x10)).sts, work := rest }))
    ∧ ∀ (s : State) (ctx : Ctx) (d : Nat) (rest : List WAct),
      ∃ u v, workAct (.act ctx (.settle d)) rest s = .ok u ∧ s.did u [.clk s.nextClk, .settled d v]
        ∧ (clockAdd s.nextClk d).toNat ≤ v.toNat ∧ u = { s with work := rest, ports := u.ports }

/-! ## Whole-machine rules -/

/-- R24, R215, R219: a host operation in a state with `UBF = 0` answers a next state, writes the code it returns on `HRES` to
`LAST_RESULT`, and the code is `OK` or one of its row. R100: the numbers of the codes. -/
def Obligations.ReturnCodes : Prop :=
  (([.ok, .cfgEmpty, .cfgMixed, .cfgCount, .cfgRaster, .cfgExpLow, .cfgExpHigh, .cfgConfirm, .cfgRange, .cfgIllum, .cfgPlan,
      .warnDevErr, .warnTimeout, .warnIo, .warnNoReply, .faultIo, .errNotConnected, .errNoDevice, .errBusy, .errState,
      .errUndefined, .errLen, .errDecode, .errIllegalOp, .errNoSeq, .cancelled] : List Res).map Res.byte
    = [0x00, 0x01, 0x02, 0x03, 0x04, 0x05, 0x06, 0x07, 0x08, 0x09, 0x0A, 0x10, 0x11, 0x12, 0x13, 0x20, 0x21, 0x22, 0x30, 0x31,
      0x32, 0x33, 0x34, 0x35, 0x36, 0x40])
  ∧ ∀ (i : Instr) (s : State), s.defined → i.kind = .hostOp →
    ∃ t rec, exec i s = .next t ∧ t.ports.hres = some ⟨t.host.lastResult, rec⟩
      ∧ t.host.lastResult ∈ (.ok :: resultCodes i).map Res.byte

/-- R215: a refused operation in a state with `UBF = 0` changes only `LAST_RESULT`, and `UBF` for `ERR_UNDEFINED`. -/
def Obligations.RefusalsChangeNothing : Prop :=
  ∀ (i : Instr) (s t : State), s.defined → i.kind = .hostOp → exec i s = .next t →
    t.host.lastResult ∈ refusalCodes.map Res.byte →
      ∃ u, t = { s with
          host := { lastResult := t.host.lastResult, ubf := u }
          ports := { s.ports with hres := some ⟨t.host.lastResult, .none⟩ } }
        ∧ (u = s.host.ubf ∨ t.host.lastResult = 0x32)

/-- R222: the operations that a running plan refuses. -/
def Obligations.BusyDuringPlan : Prop :=
  ∀ (i : Instr) (s : State), s.syn.planActive = true →
    ((∃ d q a b p, i = .fbuild d q a b p) ∨ (∃ c, i = .fsend c) ∨ i = .fcheck
      ∨ (∃ a b c d e f g h j, i = .defpat a b c d e f g h j) ∨ (∃ a b, i = .cfglut a b) ∨ (∃ a b, i = .imgblk a b)
      ∨ (∃ b, i = .supload b) ∨ i = .connect ∨ i = .disconnect ∨ (∃ m, i = .setmode m) ∨ i = .start ∨ i = .stop
      ∨ i = .pause ∨ i = .illconnect ∨ ∃ p, i = .pstart p) →
    exec i s = .next { s with
      host := { s.host with lastResult := 0x30 }, ports := { s.ports with hres := some ⟨0x30, .none⟩ } }

/-- R64, R67, R208, R246: while a plan runs and `UBF = 0` no host operation reaches a port or changes the framer, the
Sequence, the session, or anything of the plan but `CANCEL`. -/
def Obligations.HostSilentDuringPlan : Prop :=
  ∀ (i : Instr) (s t : State), s.defined → i.kind = .hostOp → s.syn.planActive = true → exec i s = .next t →
    t.ports.trace = s.ports.trace ∧ t.frm = s.frm ∧ t.upl = s.upl ∧ t.ses = s.ses ∧ t.work = s.work ∧ t.cfg = s.cfg
      ∧ t.syn = { s.syn with cancel := t.syn.cancel }

/-- R172: how a host operation in a state with `UBF = 0` moves `SM`. -/
def Obligations.SessionTransitions : Prop :=
  ∀ (i : Instr) (s t : State), s.defined → i.kind = .hostOp → exec i s = .next t → smMove i s.ses.sm t.ses.sm

/-- R52, R237, R239: block reset. -/
def Obligations.BlockResetValues : Prop :=
  ∀ (s : State) (ts : List Turn), s.ports.turns = .reset :: ts →
    ∃ t, step s = .next t ∧ t.cfg = s.cfg ∧ t.ports.trace = s.ports.trace ∧ t.work = []
      ∧ t.host = ⟨0x00, false⟩ ∧ t.frm = ⟨[], List.replicate 64 0, false, false⟩ ∧ t.cod = ⟨[], []⟩
      ∧ t.upl = ⟨false, [], .finite 1, .continuous, 0, false, [], 0, 0, 0⟩
      ∧ t.ses = ⟨false, .idle, 0x00, false, 0x00, false, ⟨false, false, false, false⟩⟩
      ∧ t.syn = ⟨false, false, ⟨.continuous, .preciseTotal, [], 0, none, false, false, []⟩, .finite 1, .idle, 0, 0, 0, 0, false,
          false, 0, false, 0x00⟩
      ∧ t.sts = ⟨[], false⟩

/-- R237: a reset that lands inside a host operation: of what the operation would have done on the ports a first part
happened and nothing more, and every register has its reset value. -/
def Obligations.ResetInsideOperation : Prop :=
  ∀ (s : State) (n : Nat) (ts : List Turn) (i : Instr) (rest : List Byte) (u : State) (evs : List PortEvent),
    s.ports.turns = .resetIn n :: ts → decode s.ports.hop = .ok (i, rest) →
    exec i { s with ports := { s.ports with turns := ts, hop := rest } } = .next u → s.did u evs →
      ∃ p, step s = .next (State.resetWith s.cfg p) ∧ p.trace = (evs.take n).reverse ++ s.ports.trace ∧ p.hres = none

/-- R20, R239, R248: no step from a state with `UBF = 0` changes the configuration, moves the clock back or undoes a port
transaction. R25: nothing clears `UBF` except block reset. -/
def Obligations.StepsOnlyAddHistory : Prop :=
  ∀ s t : State, step s = .next t →
    (s.defined → t.cfg = s.cfg ∧ s.ports.clk.toNat ≤ t.ports.clk.toNat ∧ ∃ evs, s.did t evs)
      ∧ (s.host.ubf = true → t.host.ubf = false →
        ∃ ts, s.ports.turns = .reset :: ts ∨ ∃ n, s.ports.turns = .resetIn n :: ts)

/-- R26, R27, R30, R32, R49: every step keeps the registers within their sizes, nothing being claimed of a state with
`UBF = 1` (R25, R235). -/
def Obligations.ShapeKept : Prop :=
  ∀ s t : State, (s.defined → s.ShapeInv) → step s = .next t → t.defined → t.ShapeInv

/-- R28, R34, R62, R67, R177, R203: every step keeps the plan invariant, nothing being claimed of a state with `UBF = 1`
(R25, R235). -/
def Obligations.PlanKept : Prop :=
  ∀ s t : State, (s.defined → s.PlanInv) → step s = .next t → t.defined → t.PlanInv

/-- From a state with `UBF = 0` that meets the plan invariant no step faults: the worker never asks for a pattern, a duration
or an assignment that is not there. The faults are the model's own (notes/assumptions/22.md). -/
def Obligations.StepsNeverFault : Prop :=
  ∀ s : State, s.defined → s.PlanInv → s.safeStep

/-- The block after reset, whatever the configuration and the ports, meets both invariants. -/
def Obligations.ResetIsSound : Prop :=
  (∀ (c : Cfg) (p : Ports), (State.resetWith c p).ShapeInv ∧ (State.resetWith c p).PlanInv)
    ∧ State.reset.ShapeInv ∧ State.reset.PlanInv

/-! ## Wire commands and pseudo-operations -/

/-- R82 to R93, R112: a wire command whose frames are sent and answered; everything the step changes is in the equation. An
image data chunk of no bytes or of more than `CHUNK` is no wire command (R89); that refusal is the model's
(notes/assumptions/18.md). -/
def Obligations.WireCommandResults : Prop :=
  (∀ (i : Instr) (s : State) (k : Cmd) (b : Frame) (outs : List OutAns) (ins : List InAns),
    i.wireCmd s.cfg = some k → i.wellFormed s.cfg = true → s.ports.grants (k.frames s.cfg).length [b] outs ins →
      exec i s = .next { s with
        frm := { s.frm with frameBuf := k.frames s.cfg, inflight := false, rplBuf := b, rplv := true }
        ports := s.ports.answered
          (match k.cls with
            | .control => s.cfg.tCtrlMs
            | .bulk => s.cfg.tBulkMs)
          (k.frames s.cfg) b outs ins })
    ∧ ∀ (data : List Byte) (s : State), (data = [] ∨ s.cfg.chunk < data.length) →
      exec (.wImgdata data) s = .refused .notAWireCommand

/-- R74: what a pseudo-operation does is what its expansion does, with its stop rule. That a pseudo-operation is one
instruction that runs its expansion in one step is the model's choice (notes/assumptions/19.md). -/
def Obligations.PseudoOpsExpand : Prop :=
  (∀ (dir seq cmd1 cmd2 : Byte) (payload : List Byte) (cls : Cls) (s t : State),
      exec (.fbuild dir seq cmd1 cmd2 payload) s = .next t →
        (t.host.lastResult = 0x00 → exec (.xfer dir seq cmd1 cmd2 payload cls) s = exec (.fsend cls) t)
        ∧ (t.host.lastResult ≠ 0x00 → exec (.xfer dir seq cmd1 cmd2 payload cls) s = .next t))
    ∧ (∀ s t u : State,
      exec (.fbuild s.cfg.dirR s.cfg.seqErrq s.cfg.opcErrq.cmd1 s.cfg.opcErrq.cmd2 []) s = .next t →
      exec (.fsend .control) t = .next u →
        (0x20 ≤ t.host.lastResult.toNat → exec .errquery s = .next t)
        ∧ (t.host.lastResult.toNat < 0x20 → 0x20 ≤ u.host.lastResult.toNat → exec .errquery s = .next u)
        ∧ (t.host.lastResult.toNat < 0x20 → u.host.lastResult.toNat < 0x20 → exec .errquery s = exec .fcheck u))
    ∧ (∀ s : State, exec .potf s = exec (.setmode s.cfg.valModePotf) s)
    ∧ ∀ (pats : List PatIn) (rep : Repeat) (mode : PMode) (confirm : Bool) (s t : State),
      exec (.sdefine pats rep mode confirm) s = .next t →
        (t.host.lastResult = 0x00 → exec (.load pats rep mode confirm) s = exec (.supload confirm) t)
        ∧ (t.host.lastResult ≠ 0x00 → exec (.load pats rep mode confirm) s = .next t)

/-- R74: the pseudo-operations complete: a raw command sent and answered, the mode choreography, and a new Sequence
defined and uploaded or stopped at a failed command. That each is one step is the model's choice
(notes/assumptions/19.md). -/
def Obligations.PseudoOpsComplete : Prop :=
  (∀ (dir seq cmd1 cmd2 : Byte) (payload : List Byte) (cls : Cls) (s : State) (b : Frame) (fs : List Frame)
      (outs : List OutAns) (ins : List InAns), s.syn.planActive = false → s.ses.sessValid = true → payload.length ≤ 65533 →
      fs = buildFrames s.cfg.cmdByteOrder dir seq cmd1 cmd2 payload → s.ports.grants fs.length [b] outs ins →
        exec (.xfer dir seq cmd1 cmd2 payload cls) s = .next (State.finish
          { s with
            frm := { frameBuf := fs, inflight := false, rplBuf := b, rplv := true }
            upl := { s.upl with isup := false }
            ports := s.ports.answered
              (match cls with
                | .control => s.cfg.tCtrlMs
                | .bulk => s.cfg.tBulkMs)
              fs b outs ins }
          .ok (.reply b)))
    ∧ (∀ (s : State) (b : Frame) (fs : List Frame) (outs : List OutAns) (ins : List InAns), s.syn.planActive = false →
      s.ses.sessValid = true → fs = (errqCmd s.cfg).frames s.cfg → s.ports.grants fs.length [b] outs ins →
      b.getD s.cfg.errOff 0 = 0 →
        exec .errquery s = .next (State.finish
          { s with
            frm := { frameBuf := fs, inflight := false, rplBuf := b, rplv := true }
            upl := { s.upl with isup := false }
            ses := { s.ses with lastErr := 0 }
            ports := s.ports.answered s.cfg.tCtrlMs fs b outs ins }
          .ok (.errByte 0)))
    ∧ (∀ s : State, s.syn.planActive = false → s.ses.sessValid = true →
      ∃ t evs, exec .potf s = .next t ∧ s.did t evs
        ∧ marks evs = outMarks s.cfg (playCmd s.cfg .stop) ++ [.settle s.cfg.settleStopMs]
            ++ outMarks s.cfg (modeCmd s.cfg s.cfg.valModePotf) ++ [.settle s.cfg.settleModeMs]
            ++ outMarks s.cfg (playCmd s.cfg .stop) ++ [.settle s.cfg.settleStopMs]
        ∧ warnCommands s t (modeSendings s.cfg s.cfg.valModePotf) evs ∧ t.frm.inflight = false
        ∧ t.frm.frameBuf = (playCmd s.cfg .stop).frames s.cfg
        ∧ t.upl = { s.upl with isup := false } ∧ t.cfg = s.cfg ∧ t.cod = s.cod ∧ t.syn = s.syn
        ∧ t.ses = { s.ses with sm := .modeSet, mode := s.cfg.valModePotf, modeKnown := true } ∧ t.work = s.work
        ∧ t.host.ubf = s.host.ubf)
    ∧ ∀ (pats : List PatIn) (rep : Repeat) (mode : PMode) (confirm : Bool) (s : State), s.syn.planActive = false →
      validate s.cfg pats rep confirm = none → s.uploadReady →
        ∃ t, exec (.load pats rep mode confirm) s = .next t
          ∧ faultCommands s t (uploadCmds s.cfg (assign s.cfg (pats.map freshPattern)) rep)
          ∧ t.upl.seqPats = assign s.cfg (pats.map freshPattern) ∧ t.upl.seqRepeat = rep ∧ t.upl.seqMode = mode
          ∧ t.upl.seqValid = true ∧ t.upl.seqGen = s.upl.seqGen + 1
          ∧ t.upl.isup = decide (t.host.lastResult = 0x00)
          ∧ t.upl.blocks = compile s.cfg (assign s.cfg (pats.map freshPattern))
          ∧ t.cfg = s.cfg ∧ t.cod = s.cod ∧ t.ses = s.ses ∧ t.syn = s.syn ∧ t.work = s.work ∧ t.host.ubf = s.host.ubf
end

