-- ==== Sys2Proof/Laws/State.lean ====
section
/-! SUPPORT. Reading one group of registers after writing one: a lemma per group and per write, and what is left of two
writes of one group. -/

namespace Sys2Proof.Machine

@[simp] theorem State.setHost_cfg (s : State) (x : HostRegs) : (s.setHost x).cfg = s.cfg := rfl
@[simp] theorem State.setHost_host (s : State) (x : HostRegs) : (s.setHost x).host = x := rfl
@[simp] theorem State.setHost_frm (s : State) (x : HostRegs) : (s.setHost x).frm = s.frm := rfl
@[simp] theorem State.setHost_cod (s : State) (x : HostRegs) : (s.setHost x).cod = s.cod := rfl
@[simp] theorem State.setHost_upl (s : State) (x : HostRegs) : (s.setHost x).upl = s.upl := rfl
@[simp] theorem State.setHost_ses (s : State) (x : HostRegs) : (s.setHost x).ses = s.ses := rfl
@[simp] theorem State.setHost_syn (s : State) (x : HostRegs) : (s.setHost x).syn = s.syn := rfl
@[simp] theorem State.setHost_sts (s : State) (x : HostRegs) : (s.setHost x).sts = s.sts := rfl
@[simp] theorem State.setHost_work (s : State) (x : HostRegs) : (s.setHost x).work = s.work := rfl
@[simp] theorem State.setHost_ports (s : State) (x : HostRegs) : (s.setHost x).ports = s.ports := rfl
@[simp] theorem State.setHost_setHost (s : State) (x y : HostRegs) : (s.setHost x).setHost y = s.setHost y := rfl
@[simp] theorem State.setHost_self (s : State) : s.setHost s.host = s := rfl

@[simp] theorem State.setFrm_cfg (s : State) (x : FrmRegs) : (s.setFrm x).cfg = s.cfg := rfl
@[simp] theorem State.setFrm_host (s : State) (x : FrmRegs) : (s.setFrm x).host = s.host := rfl
@[simp] theorem State.setFrm_frm (s : State) (x : FrmRegs) : (s.setFrm x).frm = x := rfl
@[simp] theorem State.setFrm_cod (s : State) (x : FrmRegs) : (s.setFrm x).cod = s.cod := rfl
@[simp] theorem State.setFrm_upl (s : State) (x : FrmRegs) : (s.setFrm x).upl = s.upl := rfl
@[simp] theorem State.setFrm_ses (s : State) (x : FrmRegs) : (s.setFrm x).ses = s.ses := rfl
@[simp] theorem State.setFrm_syn (s : State) (x : FrmRegs) : (s.setFrm x).syn = s.syn := rfl
@[simp] theorem State.setFrm_sts (s : State) (x : FrmRegs) : (s.setFrm x).sts = s.sts := rfl
@[simp] theorem State.setFrm_work (s : State) (x : FrmRegs) : (s.setFrm x).work = s.work := rfl
@[simp] theorem State.setFrm_ports (s : State) (x : FrmRegs) : (s.setFrm x).ports = s.ports := rfl
@[simp] theorem State.setFrm_setFrm (s : State) (x y : FrmRegs) : (s.setFrm x).setFrm y = s.setFrm y := rfl
@[simp] theorem State.setFrm_self (s : State) : s.setFrm s.frm = s := rfl

@[simp] theorem State.setCod_cfg (s : State) (x : CodRegs) : (s.setCod x).cfg = s.cfg := rfl
@[simp] theorem State.setCod_host (s : State) (x : CodRegs) : (s.setCod x).host = s.host := rfl
@[simp] theorem State.setCod_frm (s : State) (x : CodRegs) : (s.setCod x).frm = s.frm := rfl
@[simp] theorem State.setCod_cod (s : State) (x : CodRegs) : (s.setCod x).cod = x := rfl
@[simp] theorem State.setCod_upl (s : State) (x : CodRegs) : (s.setCod x).upl = s.upl := rfl
@[simp] theorem State.setCod_ses (s : State) (x : CodRegs) : (s.setCod x).ses = s.ses := rfl
@[simp] theorem State.setCod_syn (s : State) (x : CodRegs) : (s.setCod x).syn = s.syn := rfl
@[simp] theorem State.setCod_sts (s : State) (x : CodRegs) : (s.setCod x).sts = s.sts := rfl
@[simp] theorem State.setCod_work (s : State) (x : CodRegs) : (s.setCod x).work = s.work := rfl
@[simp] theorem State.setCod_ports (s : State) (x : CodRegs) : (s.setCod x).ports = s.ports := rfl
@[simp] theorem State.setCod_setCod (s : State) (x y : CodRegs) : (s.setCod x).setCod y = s.setCod y := rfl
@[simp] theorem State.setCod_self (s : State) : s.setCod s.cod = s := rfl

@[simp] theorem State.setUpl_cfg (s : State) (x : UplRegs) : (s.setUpl x).cfg = s.cfg := rfl
@[simp] theorem State.setUpl_host (s : State) (x : UplRegs) : (s.setUpl x).host = s.host := rfl
@[simp] theorem State.setUpl_frm (s : State) (x : UplRegs) : (s.setUpl x).frm = s.frm := rfl
@[simp] theorem State.setUpl_cod (s : State) (x : UplRegs) : (s.setUpl x).cod = s.cod := rfl
@[simp] theorem State.setUpl_upl (s : State) (x : UplRegs) : (s.setUpl x).upl = x := rfl
@[simp] theorem State.setUpl_ses (s : State) (x : UplRegs) : (s.setUpl x).ses = s.ses := rfl
@[simp] theorem State.setUpl_syn (s : State) (x : UplRegs) : (s.setUpl x).syn = s.syn := rfl
@[simp] theorem State.setUpl_sts (s : State) (x : UplRegs) : (s.setUpl x).sts = s.sts := rfl
@[simp] theorem State.setUpl_work (s : State) (x : UplRegs) : (s.setUpl x).work = s.work := rfl
@[simp] theorem State.setUpl_ports (s : State) (x : UplRegs) : (s.setUpl x).ports = s.ports := rfl
@[simp] theorem State.setUpl_setUpl (s : State) (x y : UplRegs) : (s.setUpl x).setUpl y = s.setUpl y := rfl
@[simp] theorem State.setUpl_self (s : State) : s.setUpl s.upl = s := rfl

@[simp] theorem State.setSes_cfg (s : State) (x : SesRegs) : (s.setSes x).cfg = s.cfg := rfl
@[simp] theorem State.setSes_host (s : State) (x : SesRegs) : (s.setSes x).host = s.host := rfl
@[simp] theorem State.setSes_frm (s : State) (x : SesRegs) : (s.setSes x).frm = s.frm := rfl
@[simp] theorem State.setSes_cod (s : State) (x : SesRegs) : (s.setSes x).cod = s.cod := rfl
@[simp] theorem State.setSes_upl (s : State) (x : SesRegs) : (s.setSes x).upl = s.upl := rfl
@[simp] theorem State.setSes_ses (s : State) (x : SesRegs) : (s.setSes x).ses = x := rfl
@[simp] theorem State.setSes_syn (s : State) (x : SesRegs) : (s.setSes x).syn = s.syn := rfl
@[simp] theorem State.setSes_sts (s : State) (x : SesRegs) : (s.setSes x).sts = s.sts := rfl
@[simp] theorem State.setSes_work (s : State) (x : SesRegs) : (s.setSes x).work = s.work := rfl
@[simp] theorem State.setSes_ports (s : State) (x : SesRegs) : (s.setSes x).ports = s.ports := rfl
@[simp] theorem State.setSes_setSes (s : State) (x y : SesRegs) : (s.setSes x).setSes y = s.setSes y := rfl
@[simp] theorem State.setSes_self (s : State) : s.setSes s.ses = s := rfl

@[simp] theorem State.setSyn_cfg (s : State) (x : SynRegs) : (s.setSyn x).cfg = s.cfg := rfl
@[simp] theorem State.setSyn_host (s : State) (x : SynRegs) : (s.setSyn x).host = s.host := rfl
@[simp] theorem State.setSyn_frm (s : State) (x : SynRegs) : (s.setSyn x).frm = s.frm := rfl
@[simp] theorem State.setSyn_cod (s : State) (x : SynRegs) : (s.setSyn x).cod = s.cod := rfl
@[simp] theorem State.setSyn_upl (s : State) (x : SynRegs) : (s.setSyn x).upl = s.upl := rfl
@[simp] theorem State.setSyn_ses (s : State) (x : SynRegs) : (s.setSyn x).ses = s.ses := rfl
@[simp] theorem State.setSyn_syn (s : State) (x : SynRegs) : (s.setSyn x).syn = x := rfl
@[simp] theorem State.setSyn_sts (s : State) (x : SynRegs) : (s.setSyn x).sts = s.sts := rfl
@[simp] theorem State.setSyn_work (s : State) (x : SynRegs) : (s.setSyn x).work = s.work := rfl
@[simp] theorem State.setSyn_ports (s : State) (x : SynRegs) : (s.setSyn x).ports = s.ports := rfl
@[simp] theorem State.setSyn_setSyn (s : State) (x y : SynRegs) : (s.setSyn x).setSyn y = s.setSyn y := rfl
@[simp] theorem State.setSyn_self (s : State) : s.setSyn s.syn = s := rfl

@[simp] theorem State.setSts_cfg (s : State) (x : StsRegs) : (s.setSts x).cfg = s.cfg := rfl
@[simp] theorem State.setSts_host (s : State) (x : StsRegs) : (s.setSts x).host = s.host := rfl
@[simp] theorem State.setSts_frm (s : State) (x : StsRegs) : (s.setSts x).frm = s.frm := rfl
@[simp] theorem State.setSts_cod (s : State) (x : StsRegs) : (s.setSts x).cod = s.cod := rfl
@[simp] theorem State.setSts_upl (s : State) (x : StsRegs) : (s.setSts x).upl = s.upl := rfl
@[simp] theorem State.setSts_ses (s : State) (x : StsRegs) : (s.setSts x).ses = s.ses := rfl
@[simp] theorem State.setSts_syn (s : State) (x : StsRegs) : (s.setSts x).syn = s.syn := rfl
@[simp] theorem State.setSts_sts (s : State) (x : StsRegs) : (s.setSts x).sts = x := rfl
@[simp] theorem State.setSts_work (s : State) (x : StsRegs) : (s.setSts x).work = s.work := rfl
@[simp] theorem State.setSts_ports (s : State) (x : StsRegs) : (s.setSts x).ports = s.ports := rfl
@[simp] theorem State.setSts_setSts (s : State) (x y : StsRegs) : (s.setSts x).setSts y = s.setSts y := rfl
@[simp] theorem State.setSts_self (s : State) : s.setSts s.sts = s := rfl

@[simp] theorem State.setWork_cfg (s : State) (x : List WAct) : (s.setWork x).cfg = s.cfg := rfl
@[simp] theorem State.setWork_host (s : State) (x : List WAct) : (s.setWork x).host = s.host := rfl
@[simp] theorem State.setWork_frm (s : State) (x : List WAct) : (s.setWork x).frm = s.frm := rfl
@[simp] theorem State.setWork_cod (s : State) (x : List WAct) : (s.setWork x).cod = s.cod := rfl
@[simp] theorem State.setWork_upl (s : State) (x : List WAct) : (s.setWork x).upl = s.upl := rfl
@[simp] theorem State.setWork_ses (s : State) (x : List WAct) : (s.setWork x).ses = s.ses := rfl
@[simp] theorem State.setWork_syn (s : State) (x : List WAct) : (s.setWork x).syn = s.syn := rfl
@[simp] theorem State.setWork_sts (s : State) (x : List WAct) : (s.setWork x).sts = s.sts := rfl
@[simp] theorem State.setWork_work (s : State) (x : List WAct) : (s.setWork x).work = x := rfl
@[simp] theorem State.setWork_ports (s : State) (x : List WAct) : (s.setWork x).ports = s.ports := rfl
@[simp] theorem State.setWork_setWork (s : State) (x y : List WAct) : (s.setWork x).setWork y = s.setWork y := rfl
@[simp] theorem State.setWork_self (s : State) : s.setWork s.work = s := rfl

@[simp] theorem State.setPorts_cfg (s : State) (x : Ports) : (s.setPorts x).cfg = s.cfg := rfl
@[simp] theorem State.setPorts_host (s : State) (x : Ports) : (s.setPorts x).host = s.host := rfl
@[simp] theorem State.setPorts_frm (s : State) (x : Ports) : (s.setPorts x).frm = s.frm := rfl
@[simp] theorem State.setPorts_cod (s : State) (x : Ports) : (s.setPorts x).cod = s.cod := rfl
@[simp] theorem State.setPorts_upl (s : State) (x : Ports) : (s.setPorts x).upl = s.upl := rfl
@[simp] theorem State.setPorts_ses (s : State) (x : Ports) : (s.setPorts x).ses = s.ses := rfl
@[simp] theorem State.setPorts_syn (s : State) (x : Ports) : (s.setPorts x).syn = s.syn := rfl
@[simp] theorem State.setPorts_sts (s : State) (x : Ports) : (s.setPorts x).sts = s.sts := rfl
@[simp] theorem State.setPorts_work (s : State) (x : Ports) : (s.setPorts x).work = s.work := rfl
@[simp] theorem State.setPorts_ports (s : State) (x : Ports) : (s.setPorts x).ports = x := rfl
@[simp] theorem State.setPorts_setPorts (s : State) (x y : Ports) : (s.setPorts x).setPorts y = s.setPorts y := rfl
@[simp] theorem State.setPorts_self (s : State) : s.setPorts s.ports = s := rfl

/-- Two states with equal groups are equal. -/
theorem State.ext_groups {s t : State} (hc : s.cfg = t.cfg) (hh : s.host = t.host) (hf : s.frm = t.frm) (hk : s.cod = t.cod)
    (hu : s.upl = t.upl) (he : s.ses = t.ses) (hy : s.syn = t.syn) (hs : s.sts = t.sts) (hw : s.work = t.work)
    (hp : s.ports = t.ports) : s = t := by
  cases s
  cases t
  simp_all

end Sys2Proof.Machine
end

