-- ==== Sys2Proof/Laws/Ops.lean ====
section
/-! SUPPORT. What each shared operation can do, said once: port transactions, `Send` and `CMD`, `Check`, the actions of a
procedure, a procedure run by a host operation. -/

namespace Sys2Proof.Machine

/-! ## Bytes -/

@[simp] theorem length_zeros (n : Nat) : (zeros n).length = n := by simp [zeros]

@[simp] theorem length_fitTo (n : Nat) (b : List Byte) : (fitTo n b).length = n := by simp [fitTo]

theorem clockMax_le_left (a b : U64) : a.toNat ≤ (clockMax a b).toNat := by unfold clockMax; split <;> omega

theorem clockMax_le_right (a b : U64) : b.toNat ≤ (clockMax a b).toNat := by unfold clockMax; split <;> omega

theorem clockAdd_le (t : U64) (n : Nat) : t.toNat ≤ (clockAdd t n).toNat := by
  have := t.isLt
  simp only [clockAdd, BitVec.toNat_ofNat]
  rw [Nat.mod_eq_of_lt (by omega)]
  omega

/-! ## Ports -/

/-- `q` is `p` after some transactions: more trace, a clock no earlier, HOST's side and the turns untouched. -/
structure Ports.Grows (p q : Ports) : Prop where
  trace : ∃ evs, q.trace = evs ++ p.trace
  clk : p.clk.toNat ≤ q.clk.toNat
  hop : q.hop = p.hop
  hres : q.hres = p.hres
  turns : q.turns = p.turns

theorem Ports.Grows.refl (p : Ports) : p.Grows p := ⟨⟨[], rfl⟩, Nat.le_refl _, rfl, rfl, rfl⟩

theorem Ports.Grows.trans {p q r : Ports} (h : p.Grows q) (k : q.Grows r) : p.Grows r := by
  obtain ⟨es, he⟩ := h.trace
  obtain ⟨fs, hf⟩ := k.trace
  exact ⟨⟨fs ++ es, by rw [hf, he, List.append_assoc]⟩, h.clk.trans k.clk, k.hop.trans h.hop, k.hres.trans h.hres,
    k.turns.trans h.turns⟩

/-- The clock reading a transaction brings, if any, is no earlier than the last one. -/
def PortEvent.onTime (p : Ports) : PortEvent → Prop
  | .clk t => p.clk.toNat ≤ t.toNat
  | .settled _ t => p.clk.toNat ≤ t.toNat
  | _ => True

@[simp] theorem Ports.log_trace (p : Ports) (e : PortEvent) : (p.log e).trace = e :: p.trace := rfl

theorem Ports.log_grows (p : Ports) (e : PortEvent) (h : e.onTime p) : p.Grows (p.log e) := by
  refine ⟨⟨[e], rfl⟩, ?_, ?_, ?_, ?_⟩ <;> cases e <;>
    first | rfl | exact Nat.le_refl _ | exact h | exact clockAdd_le _ _

theorem State.nextClk_le (s : State) : s.ports.clk.toNat ≤ s.nextClk.toNat := clockMax_le_left _ _

/-! ## Send and CMD -/

/-- How the transactions `evs` of a transfer of the frames `fs` look, by its outcome (R59, R109). -/
def Transfer (cls : Cls) (c : Cfg) (fs : List Frame) (o : CmdOut) (evs : List PortEvent) : Prop :=
  (∃ a, evs = fs.map (fun f => .usbOut f .ok) ++ [.usbIn (replyTimeout c cls) a]
      ∧ (o = .ok ↔ ∃ b, a = .reply b) ∧ (o = .timeout ↔ a = .timeout) ∧ (o = .ioError ↔ a = .ioError))
    ∨ ∃ sent f rest, fs = sent ++ f :: rest
      ∧ evs = sent.map (fun f => .usbOut f .ok) ++ [.usbOut f .ioError] ∧ o = .ioError

/-- What a transfer leaves (R27, R28, R109). -/
structure Sent (s : State) (o : CmdOut) (t : State) : Prop where
  only : t = (s.setFrm t.frm).setPorts t.ports
  buf : t.frm.frameBuf = s.frm.frameBuf
  idle : t.frm.inflight = false
  ok : o = .ok → t.frm.rplv = true ∧ t.frm.rplBuf.length = 64
  failed : o ≠ .ok → t.frm.rplv = false ∧ t.frm.rplBuf = s.frm.rplBuf
  grows : s.ports.Grows t.ports

theorem recvReply_spec (cls : Cls) (s : State) : Sent s (recvReply cls s).1 (recvReply cls s).2 := by
  have hg : s.ports.Grows (usbIn cls s).2.ports := Ports.log_grows _ _ trivial
  unfold recvReply
  rcases ha : usbIn cls s with ⟨a, t⟩
  have ht : t = (usbIn cls s).2 := by rw [ha]
  have hb : ∀ b, a = .reply b → b.length = 64 := by
    intro b hb
    have : (usbIn cls s).1 = .reply b := by rw [ha, hb]
    simp only [usbIn, fitReply] at this
    split at this <;> cases this
    simp [frameBytes]
  subst ht
  cases a with
  | reply b => exact ⟨rfl, rfl, rfl, fun _ => ⟨rfl, hb b rfl⟩, fun h => absurd rfl h, hg⟩
  | timeout => exact ⟨rfl, rfl, rfl, (fun h => nomatch h), fun _ => ⟨rfl, rfl⟩, hg⟩
  | ioError => exact ⟨rfl, rfl, rfl, (fun h => nomatch h), fun _ => ⟨rfl, rfl⟩, hg⟩

theorem recvReply_did (cls : Cls) (s : State) :
    ∃ evs, s.did (recvReply cls s).2 evs ∧ Transfer cls s.cfg [] (recvReply cls s).1 evs := by
  have hd : (usbIn cls s).2 = s.log (.usbIn (replyTimeout s.cfg cls) (usbIn cls s).1) := rfl
  refine ⟨[.usbIn (replyTimeout s.cfg cls) (usbIn cls s).1], ?_, .inl ⟨(usbIn cls s).1, rfl, ?_⟩⟩
  · unfold recvReply
    rcases ha : usbIn cls s with ⟨a, t⟩
    rw [ha] at hd
    cases a <;> exact congrArg (fun u => u.ports.trace) hd
  · unfold recvReply
    rcases usbIn cls s with ⟨a, t⟩
    cases a <;> simp

theorem usbOut_grows (f : Frame) (s : State) : s.ports.Grows (usbOut f s).2.ports := Ports.log_grows _ _ trivial

theorem sendFrames_spec (cls : Cls) (fs : List Frame) (s : State) :
    Sent s (sendFrames cls fs s).1 (sendFrames cls fs s).2 := by
  induction fs generalizing s with
  | nil => exact recvReply_spec cls s
  | cons f fs ih =>
    have hg := usbOut_grows f s
    have hu : (usbOut f s).2 = s.log (.usbOut f (usbOut f s).1) := rfl
    unfold sendFrames
    rcases ha : usbOut f s with ⟨a, t⟩
    rw [ha] at hg hu
    cases a with
    | ok =>
      have h := ih t
      dsimp only at hu
      refine ⟨?_, ?_, h.idle, h.ok, ?_, hg.trans h.grows⟩
      · rw [h.only, hu]; rfl
      · rw [h.buf, hu]; rfl
      · intro hne; have := h.failed hne; rw [hu] at this ⊢; exact this
    | ioError =>
      dsimp only at hu
      subst hu
      exact ⟨rfl, rfl, rfl, (fun h => nomatch h), fun _ => ⟨rfl, rfl⟩, hg⟩

theorem sendFrames_did (cls : Cls) (fs : List Frame) (s : State) :
    ∃ evs, s.did (sendFrames cls fs s).2 evs ∧ Transfer cls s.cfg fs (sendFrames cls fs s).1 evs := by
  induction fs generalizing s with
  | nil => exact recvReply_did cls s
  | cons f fs ih =>
    have hu : (usbOut f s).2 = s.log (.usbOut f (usbOut f s).1) := rfl
    unfold sendFrames
    rcases ha : usbOut f s with ⟨a, t⟩
    rw [ha] at hu
    cases a with
    | ok =>
      dsimp only at hu
      obtain ⟨evs, hd, ht⟩ := ih t
      refine ⟨.usbOut f .ok :: evs, ?_, ?_⟩
      · rw [State.did] at hd ⊢
        rw [hd, hu]
        simp [State.log]
      · rcases ht with ⟨b, he, h⟩ | ⟨sent, g, rest, hf, he, ho⟩
        · refine .inl ⟨b, by rw [he, hu]; rfl, h⟩
        · exact .inr ⟨f :: sent, g, rest, by rw [hf]; rfl, by rw [he]; rfl, ho⟩
    | ioError =>
      dsimp only at hu
      subst hu
      exact ⟨[.usbOut f .ioError], rfl, .inr ⟨[], f, fs, rfl, rfl, rfl⟩⟩

/-- `Send` (R109). -/
theorem send_spec (cls : Cls) (s : State) : Sent s (send cls s).1 (send cls s).2 := by
  have h := sendFrames_spec cls s.frm.frameBuf (s.loadFrames s.frm.frameBuf)
  exact ⟨h.only, h.buf, h.idle, h.ok, h.failed, h.grows⟩

theorem send_did (cls : Cls) (s : State) :
    ∃ evs, s.did (send cls s).2 evs ∧ Transfer cls s.cfg s.frm.frameBuf (send cls s).1 evs :=
  sendFrames_did cls s.frm.frameBuf (s.loadFrames s.frm.frameBuf)

/-- `CMD` (R112): as `Send`, with the command's frames in `FRAMEBUF`. -/
theorem doCmd_spec (k : Cmd) (s : State) :
    Sent (s.setFrm { s.frm with frameBuf := k.frames s.cfg }) (doCmd k s).1 (doCmd k s).2 := send_spec _ _

theorem doCmd_did (k : Cmd) (s : State) :
    ∃ evs, s.did (doCmd k s).2 evs ∧ Transfer k.cls s.cfg (k.frames s.cfg) (doCmd k s).1 evs := send_did _ _

/-! ## The frames and settle waits of a transfer -/

theorem framesOut_append (a b : List PortEvent) : framesOut (a ++ b) = framesOut a ++ framesOut b :=
  List.filterMap_append

theorem marks_append (a b : List PortEvent) : marks (a ++ b) = marks a ++ marks b := List.filterMap_append

theorem framesOut_sent (fs : List Frame) : framesOut (fs.map fun f => .usbOut f .ok) = fs := by
  induction fs with
  | nil => rfl
  | cons f fs ih => exact congrArg (f :: ·) ih

theorem marks_sent (fs : List Frame) : marks (fs.map fun f => .usbOut f .ok) = fs.map .out := by
  induction fs with
  | nil => rfl
  | cons f fs ih => exact congrArg (.out f :: ·) ih

/-- The frames a transfer puts out are the first of the command's, and all of them where every frame was sent. -/
theorem Transfer.frames {cls : Cls} {c : Cfg} {fs : List Frame} {o : CmdOut} {evs : List PortEvent}
    (h : Transfer cls c fs o evs) : framesOut evs <+: fs ∧ (o ≠ .ioError → framesOut evs = fs) := by
  rcases h with ⟨a, rfl, -⟩ | ⟨sent, f, rest, rfl, rfl, rfl⟩
  · simp only [framesOut_append, framesOut_sent]
    have h0 : framesOut [.usbIn (replyTimeout c cls) a] = [] := rfl
    rw [h0, List.append_nil]
    exact ⟨List.prefix_rfl, fun _ => rfl⟩
  · simp only [framesOut_append, framesOut_sent]
    exact ⟨⟨rest, by simp [framesOut, PortEvent.frame?]⟩, fun h => absurd rfl h⟩

/-- A transfer ends at its first failed transaction, if any, and that one says how it ended. -/
theorem Transfer.failed {cls : Cls} {c : Cfg} {fs : List Frame} {o : CmdOut} {evs : List PortEvent}
    (h : Transfer cls c fs o evs) :
    (o = .ok → ∀ e ∈ evs, e.failed = false)
      ∧ (o ≠ .ok → ∃ before e, evs = before ++ [e] ∧ e.failed = true ∧ (e.timedOut = true ↔ o = .timeout)
        ∧ ∀ x ∈ before, x.failed = false) := by
  have hs : ∀ (gs : List Frame), ∀ x ∈ gs.map fun f => PortEvent.usbOut f .ok, x.failed = false := by
    intro gs x hx
    obtain ⟨f, -, rfl⟩ := List.mem_map.mp hx
    rfl
  rcases h with ⟨a, rfl, h1, h2, h3⟩ | ⟨sent, f, rest, rfl, rfl, rfl⟩
  · refine ⟨fun ho e he => ?_, fun ho => ⟨_, _, rfl, ?_, ?_, hs fs⟩⟩
    · obtain ⟨b, rfl⟩ := h1.mp ho
      rcases List.mem_append.mp he with he | he
      · exact hs fs e he
      · rw [List.mem_singleton.mp he]; rfl
    · cases a with
      | reply b => exact absurd (h1.mpr ⟨b, rfl⟩) ho
      | timeout => rfl
      | ioError => rfl
    · rw [h2]; cases a <;> simp [PortEvent.timedOut]
  · exact ⟨(fun ho => nomatch ho), fun _ => ⟨_, _, rfl, rfl, by simp [PortEvent.timedOut], hs sent⟩⟩

/-- A one-frame command always puts out its frame, sent or failed. -/
theorem Transfer.one {cls : Cls} {c : Cfg} {f : Frame} {o : CmdOut} {evs : List PortEvent}
    (h : Transfer cls c [f] o evs) : marks evs = [.out f] := by
  rcases h with ⟨a, rfl, -⟩ | ⟨sent, g, rest, hf, rfl, rfl⟩
  · rfl
  · cases sent with
    | nil => cases hf; rfl
    | cons x xs => simp at hf

/-! ## Warnings, Check, Settle -/

/-- The state an action ends in, however it ends. -/
def Ran.st : Ran → State
  | .ok s => s
  | .warned _ s => s
  | .faulted s => s

/-- `Push` (R209) writes the status FIFO and nothing else, and keeps it within its depth. -/
theorem push_spec (s : State) (e : Event) :
    s.push e = s.setSts (s.push e).sts
      ∧ (s.sts.fifo.length ≤ s.cfg.statusDepth → (s.push e).sts.fifo.length ≤ s.cfg.statusDepth) := by
  unfold State.push
  split
  · exact ⟨rfl, fun _ => by simp; omega⟩
  · exact ⟨rfl, fun h => h⟩

/-- What a `Push` leaves in the status registers depends on those registers and the FIFO's depth alone. -/
theorem push_sts_congr {s t : State} (e : Event) (h : t.sts = s.sts) (hc : t.cfg = s.cfg) :
    (t.push e).sts = (s.push e).sts := by
  unfold State.push
  rw [h, hc]
  split <;> rfl

@[simp] theorem push_cfg (s : State) (e : Event) : (s.push e).cfg = s.cfg := by rw [(push_spec s e).1]; rfl
@[simp] theorem push_host (s : State) (e : Event) : (s.push e).host = s.host := by rw [(push_spec s e).1]; rfl
@[simp] theorem push_frm (s : State) (e : Event) : (s.push e).frm = s.frm := by rw [(push_spec s e).1]; rfl
@[simp] theorem push_cod (s : State) (e : Event) : (s.push e).cod = s.cod := by rw [(push_spec s e).1]; rfl
@[simp] theorem push_upl (s : State) (e : Event) : (s.push e).upl = s.upl := by rw [(push_spec s e).1]; rfl
@[simp] theorem push_ses (s : State) (e : Event) : (s.push e).ses = s.ses := by rw [(push_spec s e).1]; rfl
@[simp] theorem push_syn (s : State) (e : Event) : (s.push e).syn = s.syn := by rw [(push_spec s e).1]; rfl
@[simp] theorem push_work (s : State) (e : Event) : (s.push e).work = s.work := by rw [(push_spec s e).1]; rfl
@[simp] theorem push_ports (s : State) (e : Event) : (s.push e).ports = s.ports := by rw [(push_spec s e).1]; rfl

/-- What a warning or a fault of a failed transfer does (R113): one event at most. -/
theorem onFailure_spec (ctx : Ctx) (b : Bool) (s : State) :
    (∃ w e, (w = .warnTimeout ∨ w = .warnIo) ∧ ctx = .warn ∧ onFailure ctx b s = .warned w (s.push e))
      ∨ (ctx ≠ .warn ∧ onFailure ctx b s = .faulted s) := by
  cases ctx with
  | warn =>
    cases b
    · exact .inl ⟨.warnIo, _, .inr rfl, rfl, rfl⟩
    · exact .inl ⟨.warnTimeout, _, .inl rfl, rfl, rfl⟩
  | fault => exact .inr ⟨nofun, rfl⟩
  | stop d => exact .inr ⟨nofun, rfl⟩

/-- `Settle(d)` (R170) touches the ports only: two readings, the second at least `d` later. -/
theorem settleFor_did (d : Nat) (s : State) :
    ∃ t0 t : U64, s.did (settleFor d s) [.clk t0, .settled d t] ∧ (clockAdd t0 d).toNat ≤ t.toNat :=
  ⟨s.nextClk, _, rfl, clockMax_le_left _ _⟩

theorem settleFor_spec (d : Nat) (s : State) :
    settleFor d s = s.setPorts (settleFor d s).ports ∧ s.ports.Grows (settleFor d s).ports := by
  refine ⟨rfl, (Ports.log_grows s.ports (.clk s.nextClk) s.nextClk_le).trans (Ports.log_grows _ _ ?_)⟩
  exact (clockAdd_le _ _).trans (clockMax_le_left _ _)

/-! ## Actions of a procedure -/

/-- What an action of a procedure leaves alone, whatever its outcome: configuration, HOST's registers, the codec, the
Sequence, the sessions' validity, the plan but for its phase, the WORKER's work. -/
structure Acted (s t : State) : Prop where
  cfg : t.cfg = s.cfg
  host : t.host = s.host
  cod : t.cod = s.cod
  work : t.work = s.work
  syn : t.syn = { s.syn with phase := t.syn.phase }
  seqValid : t.upl.seqValid = s.upl.seqValid
  seqPats : t.upl.seqPats = s.upl.seqPats
  seqRepeat : t.upl.seqRepeat = s.upl.seqRepeat
  seqMode : t.upl.seqMode = s.upl.seqMode
  seqGen : t.upl.seqGen = s.upl.seqGen
  sessValid : t.ses.sessValid = s.ses.sessValid
  illValid : t.ses.illValid = s.ses.illValid
  fifo : s.sts.fifo.length ≤ s.cfg.statusDepth → t.sts.fifo.length ≤ s.cfg.statusDepth
  inflight : s.frm.inflight = false → t.frm.inflight = false
  reply : s.frm.rplBuf.length = 64 → t.frm.rplBuf.length = 64
  grows : s.ports.Grows t.ports

theorem Acted.refl (s : State) : Acted s s :=
  ⟨rfl, rfl, rfl, rfl, rfl, rfl, rfl, rfl, rfl, rfl, rfl, rfl, id, id, id, .refl _⟩

theorem Acted.trans {s t u : State} (h : Acted s t) (k : Acted t u) : Acted s u where
  cfg := k.cfg.trans h.cfg
  host := k.host.trans h.host
  cod := k.cod.trans h.cod
  work := k.work.trans h.work
  syn := by rw [k.syn, h.syn]
  seqValid := k.seqValid.trans h.seqValid
  seqPats := k.seqPats.trans h.seqPats
  seqRepeat := k.seqRepeat.trans h.seqRepeat
  seqMode := k.seqMode.trans h.seqMode
  seqGen := k.seqGen.trans h.seqGen
  sessValid := k.sessValid.trans h.sessValid
  illValid := k.illValid.trans h.illValid
  fifo := fun hs => by have := k.fifo (by rw [h.cfg]; exact h.fifo hs); rwa [h.cfg] at this
  inflight := fun hs => k.inflight (h.inflight hs)
  reply := fun hs => k.reply (h.reply hs)
  grows := h.grows.trans k.grows

theorem push_acted (s : State) (e : Event) : Acted s (s.push e) :=
  ⟨by simp, by simp, by simp, by simp, by simp, by simp, by simp, by simp, by simp, by simp, by simp, by simp,
    (push_spec s e).2, by simp, by simp, by rw [push_ports]; exact .refl _⟩

theorem Sent.acted {s t : State} {o : CmdOut} (h : Sent s o t) : Acted s t := by
  have ho := h.only
  refine ⟨by rw [ho]; rfl, by rw [ho]; rfl, by rw [ho]; rfl, by rw [ho]; rfl, by rw [ho]; rfl, by rw [ho]; rfl,
    by rw [ho]; rfl, by rw [ho]; rfl, by rw [ho]; rfl, by rw [ho]; rfl, by rw [ho]; rfl, by rw [ho]; rfl,
    by rw [ho]; exact id, fun _ => h.idle, ?_, h.grows⟩
  intro hl
  by_cases hk : o = .ok
  · exact (h.ok hk).2
  · rw [(h.failed hk).2]; exact hl

theorem doCmd_acted (k : Cmd) (s : State) : Acted s (doCmd k s).2 := by
  have h := (doCmd_spec k s).acted
  exact ⟨h.cfg, h.host, h.cod, h.work, h.syn, h.seqValid, h.seqPats, h.seqRepeat, h.seqMode, h.seqGen, h.sessValid,
    h.illValid, h.fifo, h.inflight, h.reply, h.grows⟩

theorem onFailure_acted (ctx : Ctx) (b : Bool) (s : State) : Acted s (onFailure ctx b s).st := by
  rcases onFailure_spec ctx b s with ⟨w, e, -, -, h⟩ | ⟨-, h⟩ <;> rw [h]
  · exact push_acted s e
  · exact Acted.refl s

theorem cmdEnd_cases (ctx : Ctx) (x : CmdOut × State) :
    cmdEnd ctx x = .ok x.2 ∨ ∃ b, cmdEnd ctx x = onFailure ctx b x.2 := by
  rcases x with ⟨- | - | -, s⟩
  · exact .inl rfl
  · exact .inr ⟨true, rfl⟩
  · exact .inr ⟨false, rfl⟩

theorem cmdEnd_acted (ctx : Ctx) (o : CmdOut) (s : State) : Acted s (cmdEnd ctx (o, s)).st := by
  cases o with
  | ok => exact Acted.refl s
  | timeout => exact onFailure_acted ctx true s
  | ioError => exact onFailure_acted ctx false s

theorem checkReply_acted (s : State) : Acted s (checkReply s).st := by
  unfold checkReply
  split
  · exact push_acted s _
  · dsimp only
    have h : Acted s (s.setSes { s.ses with lastErr := s.errByte }) :=
      ⟨rfl, rfl, rfl, rfl, rfl, rfl, rfl, rfl, rfl, rfl, rfl, rfl, id, id, id, .refl _⟩
    split
    · exact h
    · exact h.trans (push_acted _ _)

theorem illSend_acted (m : IllMsg) (s : State) : Acted s (illSend m s).2 :=
  ⟨rfl, rfl, rfl, rfl, rfl, rfl, rfl, rfl, rfl, rfl, rfl, rfl, id, id, id, Ports.log_grows _ _ trivial⟩

theorem illMsg_cases (ctx : Ctx) (m : IllMsg) (s : State) :
    illMsg ctx m s = .ok (illSend m s).2 ∨ ∃ b, illMsg ctx m s = onFailure ctx b (illSend m s).2 := by
  unfold illMsg
  generalize illSend m s = x
  rcases x with ⟨a | - | -, t⟩
  · exact .inl rfl
  · exact .inr ⟨true, rfl⟩
  · exact .inr ⟨false, rfl⟩

theorem illMsg_acted (ctx : Ctx) (m : IllMsg) (s : State) : Acted s (illMsg ctx m s).st := by
  rcases illMsg_cases ctx m s with h | ⟨b, h⟩ <;> rw [h]
  · exact illSend_acted m s
  · exact (illSend_acted m s).trans (onFailure_acted ctx b _)

theorem reportProgress_acted (s : State) : Acted s (reportProgress s) := by
  have h : ∀ (d : U32) (p : Byte), Acted s (s.setUpl { s.upl with pktDone := d, pktPct := p }) := fun d p =>
    ⟨rfl, rfl, rfl, rfl, rfl, rfl, rfl, rfl, rfl, rfl, rfl, rfl, id, id, id, .refl _⟩
  unfold reportProgress
  dsimp only
  split
  · exact (h _ _).trans (push_acted _ _)
  · exact h _ s.upl.pktPct

theorem settleFor_acted (d : Nat) (s : State) : Acted s (settleFor d s) := by
  obtain ⟨-, hg⟩ := settleFor_spec d s
  exact ⟨rfl, rfl, rfl, rfl, rfl, rfl, rfl, rfl, rfl, rfl, rfl, rfl, id, id, id, hg⟩

theorem waitStop_acted (d : Nat) (r : Ran) : Acted r.st (r.waitStop d).st := by
  cases r with
  | faulted s => exact settleFor_acted d s
  | ok s => exact Acted.refl s
  | warned w s => exact Acted.refl s

/-- The settle wait after a failed Stop changes nothing but the state of a raise. -/
theorem Ran.waitStop_warned (d : Nat) (r : Ran) (w : Res) (t : State) : r.waitStop d = .warned w t ↔ r = .warned w t := by
  cases r <;> simp [Ran.waitStop]

theorem Ran.waitStop_faulted (d : Nat) (r : Ran) (t : State) :
    r.waitStop d = .faulted t ↔ ∃ u, r = .faulted u ∧ settleFor d u = t := by
  cases r <;> simp [Ran.waitStop]

/-- One action of a procedure. -/
theorem PAct.run_acted (ctx : Ctx) (a : PAct) (s : State) : Acted s (a.run ctx s).st := by
  cases a with
  | cmd k => exact (doCmd_acted k s).trans (cmdEnd_acted ctx _ _)
  | stopPlay => exact ((doCmd_acted _ s).trans (cmdEnd_acted ctx _ _)).trans (waitStop_acted _ _)
  | check => exact checkReply_acted s
  | settle d => exact settleFor_acted d s
  | stopped =>
    simp only [PAct.run, Ran.st]
    split
    · exact Acted.refl s
    · exact ⟨rfl, rfl, rfl, rfl, rfl, rfl, rfl, rfl, rfl, rfl, rfl, rfl, id, id, id, .refl _⟩
  | progress => exact reportProgress_acted s
  | ill m => exact illMsg_acted ctx m s
  | push e => exact push_acted s e
  | modeSet m => exact ⟨rfl, rfl, rfl, rfl, rfl, rfl, rfl, rfl, rfl, rfl, rfl, rfl, id, id, id, .refl _⟩
  | playing => exact ⟨rfl, rfl, rfl, rfl, rfl, rfl, rfl, rfl, rfl, rfl, rfl, rfl, id, id, id, .refl _⟩
  | isup b => exact ⟨rfl, rfl, rfl, rfl, rfl, rfl, rfl, rfl, rfl, rfl, rfl, rfl, id, id, id, .refl _⟩
  | blocks bs => exact ⟨rfl, rfl, rfl, rfl, rfl, rfl, rfl, rfl, rfl, rfl, rfl, rfl, id, id, id, .refl _⟩
  | pktInit n => exact ⟨rfl, rfl, rfl, rfl, rfl, rfl, rfl, rfl, rfl, rfl, rfl, rfl, id, id, id, .refl _⟩
  | phase p => exact ⟨rfl, rfl, rfl, rfl, rfl, rfl, rfl, rfl, rfl, rfl, rfl, rfl, id, id, id, .refl _⟩
  | illDark => exact ⟨rfl, rfl, rfl, rfl, rfl, rfl, rfl, rfl, rfl, rfl, rfl, rfl, id, id, id, .refl _⟩
  | illLit ch => exact ⟨rfl, rfl, rfl, rfl, rfl, rfl, rfl, rfl, rfl, rfl, rfl, rfl, id, id, id, .refl _⟩

/-- In the warn context nothing raises (R113). -/
theorem PAct.run_warn (a : PAct) (s : State) : ∀ t, a.run .warn s ≠ .faulted t := by
  intro t h
  have hf : ∀ b u, onFailure .warn b u ≠ .faulted t := by
    intro b u hu
    rcases onFailure_spec .warn b u with ⟨w, e, -, -, h⟩ | ⟨h, -⟩
    · rw [h] at hu; cases hu
    · exact h rfl
  cases a with
  | cmd k =>
    rcases cmdEnd_cases .warn (doCmd k s) with hc | ⟨b, hc⟩
    · rw [PAct.run, hc] at h; cases h
    · rw [PAct.run, hc] at h; exact hf _ _ h
  | stopPlay =>
    rw [PAct.run, Ran.waitStop_faulted] at h
    obtain ⟨u, h, -⟩ := h
    rcases cmdEnd_cases .warn (doCmd (playCmd s.cfg .stop) s) with hc | ⟨b, hc⟩
    · rw [hc] at h; cases h
    · rcases onFailure_spec .warn b (doCmd (playCmd s.cfg .stop) s).2 with ⟨w, e, -, -, hw⟩ | ⟨hw, -⟩
      · rw [hc, hw] at h; cases h
      · exact hw rfl
  | check =>
    simp only [PAct.run, checkReply] at h
    split at h
    · cases h
    · split at h <;> cases h
  | ill m =>
    rcases illMsg_cases .warn m s with hc | ⟨b, hc⟩
    · rw [PAct.run, hc] at h; cases h
    · rw [PAct.run, hc] at h; exact hf _ _ h
  | _ => cases h

/-- The codes of warnings (R100). -/
def warnCodes : List Res := [.warnDevErr, .warnTimeout, .warnIo, .warnNoReply]

/-- A warning carries a warning code. -/
theorem PAct.run_code (ctx : Ctx) (a : PAct) (s t : State) (w : Res) (h : a.run ctx s = .warned w t) : w ∈ warnCodes := by
  have hf : ∀ b u, onFailure ctx b u = .warned w t → w ∈ warnCodes := by
    intro b u hu
    rcases onFailure_spec ctx b u with ⟨w', e, hw, -, h⟩ | ⟨-, h⟩
    · rw [h] at hu
      cases hu
      rcases hw with rfl | rfl <;> simp [warnCodes]
    · rw [h] at hu; cases hu
  cases a with
  | cmd k =>
    rcases cmdEnd_cases ctx (doCmd k s) with hc | ⟨b, hc⟩
    · rw [PAct.run, hc] at h; cases h
    · rw [PAct.run, hc] at h; exact hf _ _ h
  | stopPlay =>
    rw [PAct.run, Ran.waitStop_warned] at h
    rcases cmdEnd_cases ctx (doCmd (playCmd s.cfg .stop) s) with hc | ⟨b, hc⟩
    · rw [hc] at h; cases h
    · rw [hc] at h; exact hf _ _ h
  | check =>
    simp only [PAct.run, checkReply] at h
    split at h
    · cases h; simp [warnCodes]
    · split at h
      · cases h
      · cases h; simp [warnCodes]
  | ill m =>
    rcases illMsg_cases ctx m s with hc | ⟨b, hc⟩
    · rw [PAct.run, hc] at h; cases h
    · rw [PAct.run, hc] at h; exact hf _ _ h
  | _ => cases h

/-! ## A whole procedure -/

theorem Run.after_st (r : Run) (x : Ran) : (r.after x).st = x.st := by cases x <;> rfl

/-- What holds of the start and is kept by every action holds of the end. -/
theorem runActs_induct (P : State → Prop) (ctx : Ctx) (as : List PAct) (r : Run)
    (h : ∀ a ∈ as, ∀ s, P s → P (a.run ctx s).st) (hs : P r.st) : P (runActs ctx as r).st := by
  induction as generalizing r with
  | nil => exact hs
  | cons a as ih =>
    unfold runActs
    split
    · exact hs
    · refine ih _ (fun b hb => h b (.tail _ hb)) ?_
      rw [Run.after_st]
      exact h a (.head _) _ hs

theorem runProc_acted (ctx : Ctx) (as : List PAct) (s : State) : Acted s (runProc ctx as s).st :=
  runActs_induct (Acted s) ctx as _ (fun a _ t ht => ht.trans (a.run_acted ctx t)) (.refl s)

theorem runActs_append (ctx : Ctx) (as bs : List PAct) (r : Run) :
    runActs ctx (as ++ bs) r = runActs ctx bs (runActs ctx as r) := by
  induction as generalizing r with
  | nil => rfl
  | cons a as ih =>
    rw [List.cons_append, runActs, runActs]
    split
    · cases bs with
      | nil => rfl
      | cons b bs => rw [runActs, if_pos ‹_›]
    · exact ih _

/-- In the warn context a procedure never raises. -/
theorem runProc_warn (as : List PAct) (s : State) : (runProc .warn as s).fault = false := by
  suffices h : ∀ r : Run, r.fault = false → (runActs .warn as r).fault = false from h _ rfl
  induction as with
  | nil => exact fun r h => h
  | cons a as ih =>
    intro r h
    unfold runActs
    rw [if_neg (by simp [h])]
    refine ih _ ?_
    rcases hx : a.run .warn r.st with s | ⟨w, s⟩ | s
    · exact h
    · exact h
    · exact absurd hx (a.run_warn r.st s)

/-- The code of a procedure (R115): `OK`, a warning, or `FAULT_IO`. -/
theorem runProc_code (ctx : Ctx) (as : List PAct) (s : State) :
    (runProc ctx as s).code = .ok ∨ (runProc ctx as s).code ∈ warnCodes
      ∨ ((runProc ctx as s).code = .faultIo ∧ (runProc ctx as s).fault = true) := by
  suffices h : ∀ r : Run, (∀ w, r.warn = some w → w ∈ warnCodes) →
      ∀ w, (runActs ctx as r).warn = some w → w ∈ warnCodes by
    have hw := h { st := s, warn := none, fault := false } (fun w h => nomatch h)
    unfold Run.code
    split
    · exact .inr (.inr ⟨rfl, ‹_›⟩)
    · change ∀ w, (runProc ctx as s).warn = some w → _ at hw
      rcases hx : (runProc ctx as s).warn with - | w
      · exact .inl rfl
      · exact .inr (.inl (hw w hx))
  induction as with
  | nil => exact fun r h => h
  | cons a as ih =>
    intro r h
    unfold runActs
    split
    · exact h
    · refine ih _ ?_
      rcases hx : a.run ctx r.st with s | ⟨w, s⟩ | s
      · exact h
      · intro w' hw'
        rcases hr : r.warn with - | w''
        · simp only [Run.after, hr, Option.orElse_none] at hw'
          cases hw'
          exact a.run_code ctx _ _ _ hx
        · simp only [Run.after, hr, Option.orElse_some] at hw'
          exact h w' (hr.trans hw')
      · exact h

end Sys2Proof.Machine
end

