-- ==== Sys2Proof/Laws/Bytes.lean ====
section
/-! SUPPORT. Byte strings and the operands on `HOP`: what each encoder writes its decoder reads back; the bytes of a
command's frames one after the other. -/

namespace Sys2Proof

/-! ## Little-endian fields -/

theorem of16_le16 (x : U16) : of16 (x.extractLsb' 0 8) (x.extractLsb' 8 8) = x := by
  rw [of16, BitVec.extractLsb'_append_extractLsb'_eq_extractLsb' (by omega)]
  simp

theorem of24_le24 (x : U24) : of24 (x.extractLsb' 0 8) (x.extractLsb' 8 8) (x.extractLsb' 16 8) = x := by
  rw [of24, BitVec.extractLsb'_append_extractLsb'_eq_extractLsb' (by omega),
    BitVec.extractLsb'_append_extractLsb'_eq_extractLsb' (by omega)]
  simp

theorem of32_le32 (x : U32) :
    of32 (x.extractLsb' 0 8) (x.extractLsb' 8 8) (x.extractLsb' 16 8) (x.extractLsb' 24 8) = x := by
  rw [of32, BitVec.extractLsb'_append_extractLsb'_eq_extractLsb' (by omega),
    BitVec.extractLsb'_append_extractLsb'_eq_extractLsb' (by omega),
    BitVec.extractLsb'_append_extractLsb'_eq_extractLsb' (by omega)]
  simp

theorem fitTo_self (n : Nat) (b : List Byte) (h : b.length = n) : fitTo n b = b := by
  rw [fitTo, List.take_append_of_le_length (by omega), List.take_of_length_le (by omega)]

/-! ## Operands -/

/-- `d` reads what `e` writes, whatever follows. -/
def Reads {α : Type} (d : Dec α) (e : α → List Byte) : Prop := ∀ x rest, d (e x ++ rest) = some (x, rest)

theorem reads_byte : Reads dByte (fun b => [b]) := fun _ _ => rfl

theorem reads_u16 : Reads dU16 le16 := fun x r => by simp [le16, dU16, of16_le16]

theorem reads_u32 : Reads dU32 le32 := fun x r => by simp [le32, dU32, of32_le32]

theorem reads_bit : Reads dBit eBit := by intro x r; cases x <;> simp [eBit, dBit]

theorem reads_cls : Reads dCls eCls := by intro x r; cases x <;> simp [eCls, dCls]

theorem reads_mode : Reads dMode eMode := by intro x r; cases x <;> simp [eMode, dMode]

theorem reads_disc : Reads dDisc eDisc := by intro x r; cases x <;> simp [eDisc, dDisc]

theorem reads_chan : Reads dChan eChan := by intro x r; cases x <;> simp [eChan, dChan]

theorem reads_repeat : Reads dRepeat eRepeat := by intro x r; cases x <;> simp [eRepeat, dRepeat, reads_u32 _ _]

theorem reads_sel : Reads dSel eSel := by intro x r; cases x <;> simp [eSel, dSel, reads_u16 _ _]

theorem reads_listN {α : Type} {d : Dec α} {e : α → List Byte} (h : Reads d e) (xs : List α) :
    ∀ n rest, xs.length < n → dListN d n (eList e xs ++ rest) = some (xs, rest) := by
  induction xs with
  | nil =>
    intro n rest hn
    obtain ⟨n, rfl⟩ := Nat.exists_eq_succ_of_ne_zero (by omega : n ≠ 0)
    simp [eList, dListN]
  | cons x xs ih =>
    intro n rest hn
    obtain ⟨n, rfl⟩ := Nat.exists_eq_succ_of_ne_zero (by omega : n ≠ 0)
    simp only [List.length_cons] at hn
    simp [eList, dListN, h x (eList e xs ++ rest), ih n rest (by omega)]

theorem length_lt_eList {α : Type} (e : α → List Byte) (xs : List α) : xs.length < (eList e xs).length := by
  induction xs with
  | nil => simp [eList]
  | cons x xs ih => simp [eList]; omega

theorem reads_list {α : Type} {d : Dec α} {e : α → List Byte} (h : Reads d e) : Reads (dList d) (eList e) := by
  intro xs rest
  have := length_lt_eList e xs
  exact reads_listN h xs _ _ (by simp; omega)

theorem reads_bytes : Reads dBytes eBytes := reads_list reads_byte

/-! ## Cutting into pieces -/

theorem piecesOf_flatten {α : Type} (n : Nat) (hn : 0 < n) (ls : List (List α)) (h : ∀ y ∈ ls, y.length = n) :
    ∀ f, ls.length ≤ f → piecesOf n f ls.flatten = ls := by
  induction ls with
  | nil => intro f _; cases f <;> rfl
  | cons y ls ih =>
    intro f hf
    obtain ⟨f, rfl⟩ := Nat.exists_eq_succ_of_ne_zero (by simp at hf; omega : f ≠ 0)
    have hy : y.length = n := h y (by simp)
    obtain ⟨a, as, rfl⟩ := List.exists_cons_of_length_pos (hy ▸ hn)
    have e : piecesOf n (f + 1) ((a :: as) ++ ls.flatten)
        = ((a :: as) ++ ls.flatten).take n :: piecesOf n f (((a :: as) ++ ls.flatten).drop n) := rfl
    rw [List.flatten_cons, e, List.take_left' hy, List.drop_left' hy,
      ih (fun z hz => h z (by simp [hz])) f (by simp at hf; omega)]

/-- Pieces of the right length put together are cut apart again. -/
theorem pieces_flatten {α : Type} (n : Nat) (hn : 0 < n) (ls : List (List α)) (h : ∀ y ∈ ls, y.length = n) :
    pieces n ls.flatten = ls := by
  refine piecesOf_flatten n hn ls h _ ?_
  induction ls with
  | nil => simp
  | cons y ls ih =>
    have := ih fun z hz => h z (by simp [hz])
    rw [List.flatten_cons, List.length_append, h y (by simp), List.length_cons]
    omega

/-! ## The frames of a command as one byte string -/

theorem pieces_fit (l : List Byte) : ∀ f, l.length ≤ f →
    ((piecesOf 64 f l).map (fitTo 64)).flatten = l ++ zeros (64 * ((l.length + 63) / 64) - l.length) := by
  intro f
  induction f generalizing l with
  | zero =>
    intro h
    obtain rfl := List.length_eq_zero_iff.1 (by omega : l.length = 0)
    rfl
  | succ f ih =>
    intro h
    cases l with
    | nil => rfl
    | cons x xs =>
      rw [piecesOf, List.map_cons, List.flatten_cons, ih _ (by simp at h ⊢; omega)]
      have hpos : 0 < (x :: xs).length := by simp
      generalize x :: xs = l at *
      by_cases h64 : l.length < 64
      · have h1 : l.take 64 = l := List.take_of_length_le (by omega)
        have h2 : l.drop 64 = [] := List.drop_of_length_le (by omega)
        have h3 : (l.length + 63) / 64 = 1 := by omega
        rw [h1, h2, h3, fitTo, List.take_append, List.take_of_length_le (by omega)]
        simp only [zeros, List.take_replicate, List.length_nil, Nat.zero_add, Nat.reduceDiv, Nat.mul_zero, Nat.sub_self,
          List.replicate_zero, List.append_nil]
        congr 2
        omega
      · rw [fitTo_self 64 _ (by simp; omega), ← List.append_assoc, List.take_append_drop, List.length_drop]
        congr 2
        omega

end Sys2Proof
end

