-- ==== Sys2Proof/Laws/PerInstr.lean ====
section
/-! SUPPORT. Statements for every instruction, one lemma per constructor. `EncodingHead`: how an instruction's words
begin (R70, R74) and, of a wire command, what they are (R93). -/

/-- The words of a host operation or a pseudo-operation begin with an op byte of R70; those of a wire command are the
frames of its command. -/
def Sys2Proof.Laws.EncodingHead.Statement (i : Sys2Proof.Instr) : Prop :=
  ∀ c : Sys2Proof.Cfg,
    (i.kind ≠ .wire → ∃ op rest, op ∈ Sys2Proof.Machine.hostOpBytes ∧ Sys2Proof.encode c i = op :: rest)
      ∧ (i.kind = .wire → ∃ k, i.wireCmd c = some k ∧ Sys2Proof.encode c i = k.stream c)

namespace Sys2Proof.Laws.EncodingHead

/-- A row with an op byte of its own, or whose expansion begins with one. -/
theorem of_op (i : Instr) (op : Byte) (rest : Cfg → List Byte) (hk : i.kind ≠ .wire) (ho : op ∈ Machine.hostOpBytes)
    (he : ∀ c, encode c i = op :: rest c) : Statement i :=
  fun c => ⟨fun _ => ⟨op, rest c, ho, he c⟩, fun h => absurd h hk⟩

/-- A wire command. -/
theorem of_wire (i : Instr) (k : Cfg → Cmd) (hk : i.kind = .wire) (hw : ∀ c, i.wireCmd c = some (k c))
    (he : ∀ c, encode c i = (k c).stream c) : Statement i :=
  fun c => ⟨fun h => absurd hk h, fun _ => ⟨k c, hw c, he c⟩⟩

theorem fbuild (dir seq cmd1 cmd2 : Byte) (payload : List Byte) : Statement (.fbuild dir seq cmd1 cmd2 payload) :=
  of_op _ _ _ (fun h => nomatch h) (by decide) (fun _ => rfl)

theorem fsend (cls : Cls) : Statement (.fsend cls) := of_op _ _ _ (fun h => nomatch h) (by decide) (fun _ => rfl)

theorem fcheck : Statement (.fcheck) := of_op _ _ _ (fun h => nomatch h) (by decide) (fun _ => rfl)

theorem enc1 (rasters : List Raster) : Statement (.enc1 rasters) :=
  of_op _ _ _ (fun h => nomatch h) (by decide) (fun _ => rfl)

theorem enc8 (raster : Raster) : Statement (.enc8 raster) := of_op _ _ _ (fun h => nomatch h) (by decide) (fun _ => rfl)

theorem dec1 (block : List Byte) : Statement (.dec1 block) :=
  of_op _ _ _ (fun h => nomatch h) (by decide) (fun _ => rfl)

theorem dec8 (block : List Byte) : Statement (.dec8 block) :=
  of_op _ _ _ (fun h => nomatch h) (by decide) (fun _ => rfl)

theorem sdefine (pats : List PatIn) (rep : Repeat) (mode : PMode) (confirm : Bool) : Statement (.sdefine pats rep mode confirm) :=
  of_op _ _ _ (fun h => nomatch h) (by decide) (fun _ => rfl)

theorem padd (at_ : U16) (pat : PatIn) : Statement (.padd at_ pat) :=
  of_op _ _ _ (fun h => nomatch h) (by decide) (fun _ => rfl)

theorem premove (at_ : U16) : Statement (.premove at_) := of_op _ _ _ (fun h => nomatch h) (by decide) (fun _ => rfl)

theorem pmove (src dst : U16) : Statement (.pmove src dst) :=
  of_op _ _ _ (fun h => nomatch h) (by decide) (fun _ => rfl)

theorem pset (at_ : U16) (pat : PatIn) : Statement (.pset at_ pat) :=
  of_op _ _ _ (fun h => nomatch h) (by decide) (fun _ => rfl)

theorem defpat (index : U16) (expUs : U32) (bd color : Byte) (trigIn : Bool) (darkUs trigOut : U32) (blk : U16)
    (bitpos : Byte) : Statement (.defpat index expUs bd color trigIn darkUs trigOut blk bitpos) :=
  of_op _ _ _ (fun h => nomatch h) (by decide) (fun _ => rfl)

theorem cfglut (count : U16) (rep : U32) : Statement (.cfglut count rep) :=
  of_op _ _ _ (fun h => nomatch h) (by decide) (fun _ => rfl)

theorem imgblk (idx : U16) (block : List Byte) : Statement (.imgblk idx block) :=
  of_op _ _ _ (fun h => nomatch h) (by decide) (fun _ => rfl)

theorem supload (confirm : Bool) : Statement (.supload confirm) :=
  of_op _ _ _ (fun h => nomatch h) (by decide) (fun _ => rfl)

theorem srepeat (rep : Repeat) : Statement (.srepeat rep) := of_op _ _ _ (fun h => nomatch h) (by decide) (fun _ => rfl)

theorem connect : Statement (.connect) := of_op _ _ _ (fun h => nomatch h) (by decide) (fun _ => rfl)

theorem disconnect : Statement (.disconnect) := of_op _ _ _ (fun h => nomatch h) (by decide) (fun _ => rfl)

theorem setmode (m : Byte) : Statement (.setmode m) := of_op _ _ _ (fun h => nomatch h) (by decide) (fun _ => rfl)

theorem start : Statement (.start) := of_op _ _ _ (fun h => nomatch h) (by decide) (fun _ => rfl)

theorem stop : Statement (.stop) := of_op _ _ _ (fun h => nomatch h) (by decide) (fun _ => rfl)

theorem pause : Statement (.pause) := of_op _ _ _ (fun h => nomatch h) (by decide) (fun _ => rfl)

theorem illconnect : Statement (.illconnect) := of_op _ _ _ (fun h => nomatch h) (by decide) (fun _ => rfl)

theorem regread (n : Byte) : Statement (.regread n) := of_op _ _ _ (fun h => nomatch h) (by decide) (fun _ => rfl)

theorem pstart (plan : PlanRec) : Statement (.pstart plan) :=
  of_op _ _ _ (fun h => nomatch h) (by decide) (fun _ => rfl)

theorem pstop : Statement (.pstop) := of_op _ _ _ (fun h => nomatch h) (by decide) (fun _ => rfl)

theorem stread : Statement (.stread) := of_op _ _ _ (fun h => nomatch h) (by decide) (fun _ => rfl)

theorem wMode (m : Byte) : Statement (.wMode m) := of_wire _ _ rfl (fun _ => rfl) (fun _ => rfl)

theorem wPlayctl (v : PlayVal) : Statement (.wPlayctl v) := of_wire _ _ rfl (fun _ => rfl) (fun _ => rfl)

theorem wDefpat (index : U16) (expUs : U24) (bd1 color : BitVec 3) (trigIn : Bool) (darkUs : U24) (trigOut : Byte)
    (blk : BitVec 11) (bitpos : BitVec 5) : Statement (.wDefpat index expUs bd1 color trigIn darkUs trigOut blk bitpos) :=
  of_wire _ _ rfl (fun _ => rfl) (fun _ => rfl)

theorem wLut (count : U16) (rep : U32) : Statement (.wLut count rep) := of_wire _ _ rfl (fun _ => rfl) (fun _ => rfl)

theorem wImgsize (idx : U16) (size : U32) : Statement (.wImgsize idx size) :=
  of_wire _ _ rfl (fun _ => rfl) (fun _ => rfl)

theorem wImgdata (data : List Byte) : Statement (.wImgdata data) := of_wire _ _ rfl (fun _ => rfl) (fun _ => rfl)

theorem wErrq : Statement (.wErrq) := of_wire _ _ rfl (fun _ => rfl) (fun _ => rfl)

theorem wInsrc : Statement (.wInsrc) := of_wire _ _ rfl (fun _ => rfl) (fun _ => rfl)

theorem wTrigmode : Statement (.wTrigmode) := of_wire _ _ rfl (fun _ => rfl) (fun _ => rfl)

theorem xfer (dir seq cmd1 cmd2 : Byte) (payload : List Byte) (cls : Cls) : Statement (.xfer dir seq cmd1 cmd2 payload cls) :=
  of_op _ _ _ (fun h => nomatch h) (by decide) (fun _ => rfl)

theorem errquery : Statement (.errquery) := of_op _ _ _ (fun h => nomatch h) (by decide) (fun _ => rfl)

theorem potf : Statement (.potf) := of_op _ _ _ (fun h => nomatch h) (by decide) (fun _ => rfl)

theorem load (pats : List PatIn) (rep : Repeat) (mode : PMode) (confirm : Bool) : Statement (.load pats rep mode confirm) :=
  of_op _ _ _ (fun h => nomatch h) (by decide) (fun _ => rfl)

end Sys2Proof.Laws.EncodingHead
end

