-- ==== Sys2Proof/Laws/Send.lean ====
section
/-! SUPPORT. `Send` (R109) where the devices' answers are known. -/

namespace Sys2Proof.Machine

/-- Every frame sent and a reply. -/
theorem sendFrames_answered (cls : Cls) (fs : List Frame) (s : State) (b : Frame) (outs : List OutAns) (ins : List InAns)
    (h : s.ports.grants fs.length [b] outs ins) :
    sendFrames cls fs s = (.ok, (s.setFrm { s.frm with inflight := false, rplBuf := b, rplv := true }).setPorts
      (s.ports.answered (replyTimeout s.cfg cls) fs b outs ins)) := by
  induction fs generalizing s with
  | nil =>
    obtain ⟨h1, h2, h3⟩ := h
    have hb := h3 b (by simp)
    simp only [List.length_nil, List.replicate_zero, List.nil_append, List.map_cons, List.map_nil, List.cons_append] at h1 h2
    simp [sendFrames, recvReply, usbIn, drawAns, h1, h2, fitReply, fitTo_self _ _ hb, frameBytes, Ports.answered, State.log,
      Ports.log, PortEvent.consume, popAns, State.setFrm, State.setPorts]
  | cons f fs ih =>
    obtain ⟨h1, h2, h3⟩ := h
    have hs : usbOut f s = (.ok, s.log (.usbOut f .ok)) := by simp [usbOut, drawAns, h1, List.replicate_succ]
    have hg : (s.log (.usbOut f .ok)).ports.grants fs.length [b] outs ins :=
      ⟨by simp [State.log, Ports.log, PortEvent.consume, popAns, h1, List.replicate_succ], h2, h3⟩
    rw [sendFrames, hs]
    dsimp only
    rw [ih _ hg]
    simp [Ports.answered, State.log, Ports.log, PortEvent.consume, popAns, State.setFrm, State.setPorts, h1,
      List.replicate_succ]

/-- `CMD` (R112) where the devices take its frames and reply. -/
theorem doCmd_answered (k : Cmd) (s : State) (b : Frame) (outs : List OutAns) (ins : List InAns)
    (h : s.ports.grants (k.frames s.cfg).length [b] outs ins) :
    doCmd k s = (.ok,
      (s.setFrm { frameBuf := k.frames s.cfg, inflight := false, rplBuf := b, rplv := true }).setPorts
        (s.ports.answered (replyTimeout s.cfg k.cls) (k.frames s.cfg) b outs ins)) :=
  sendFrames_answered k.cls (k.frames s.cfg)
    ((s.setFrm { s.frm with frameBuf := k.frames s.cfg }).loadFrames (k.frames s.cfg)) b outs ins h

/-- A frame fails: the frames before it are sent, no later one is, no reply is read. -/
theorem sendFrames_cut (cls : Cls) (sent : List Frame) (f : Frame) (later : List Frame) (s : State) (outs : List OutAns)
    (h : s.ports.usbOutAns = List.replicate sent.length .ok ++ .ioError :: outs) :
    sendFrames cls (sent ++ f :: later) s = (.ioError, (s.setFrm { s.frm with inflight := false, rplv := false }).setPorts
      { s.ports with
        usbOutAns := outs
        trace := .usbOut f .ioError :: ((sent.map fun g => PortEvent.usbOut g .ok).reverse ++ s.ports.trace) }) := by
  induction sent generalizing s with
  | nil =>
    simp only [List.length_nil, List.replicate_zero, List.nil_append] at h
    simp [sendFrames, usbOut, drawAns, h, State.log, Ports.log, PortEvent.consume, popAns, State.setFrm, State.setPorts,
      State.dropReply]
  | cons g sent ih =>
    have hs : usbOut g s = (.ok, s.log (.usbOut g .ok)) := by simp [usbOut, drawAns, h, List.replicate_succ]
    rw [List.cons_append, sendFrames, hs]
    dsimp only
    rw [ih (s.log (.usbOut g .ok)) (by simp [State.log, Ports.log, PortEvent.consume, popAns, h, List.replicate_succ])]
    simp [State.log, Ports.log, PortEvent.consume, popAns, State.setFrm, State.setPorts, h, List.replicate_succ]

/-- Every frame sent and no reply. -/
theorem sendFrames_noReply (cls : Cls) (fs : List Frame) (s : State) (outs : List OutAns) (ins : List InAns)
    (h : s.ports.usbOutAns = List.replicate fs.length .ok ++ outs) (h2 : s.ports.usbInAns = .timeout :: ins) :
    sendFrames cls fs s = (.timeout, (s.setFrm { s.frm with inflight := false, rplv := false }).setPorts
      { s.ports with
        usbOutAns := outs, usbInAns := ins
        trace := .usbIn (replyTimeout s.cfg cls) .timeout
          :: ((fs.map fun g => PortEvent.usbOut g .ok).reverse ++ s.ports.trace) }) := by
  induction fs generalizing s with
  | nil =>
    simp only [List.length_nil, List.replicate_zero, List.nil_append] at h
    simp [sendFrames, recvReply, usbIn, drawAns, h, h2, fitReply, State.log, Ports.log, PortEvent.consume, popAns,
      State.setFrm, State.setPorts, State.dropReply]
  | cons f fs ih =>
    have hs : usbOut f s = (.ok, s.log (.usbOut f .ok)) := by simp [usbOut, drawAns, h, List.replicate_succ]
    rw [sendFrames, hs]
    dsimp only
    rw [ih (s.log (.usbOut f .ok)) (by simp [State.log, Ports.log, PortEvent.consume, popAns, h, List.replicate_succ]) h2]
    simp [State.log, Ports.log, PortEvent.consume, popAns, State.setFrm, State.setPorts, h, List.replicate_succ]

/-- Every frame sent and the reply's transfer fails. -/
theorem sendFrames_ioReply (cls : Cls) (fs : List Frame) (s : State) (outs : List OutAns) (ins : List InAns)
    (h : s.ports.usbOutAns = List.replicate fs.length .ok ++ outs) (h2 : s.ports.usbInAns = .ioError :: ins) :
    sendFrames cls fs s = (.ioError, (s.setFrm { s.frm with inflight := false, rplv := false }).setPorts
      { s.ports with
        usbOutAns := outs, usbInAns := ins
        trace := .usbIn (replyTimeout s.cfg cls) .ioError
          :: ((fs.map fun g => PortEvent.usbOut g .ok).reverse ++ s.ports.trace) }) := by
  induction fs generalizing s with
  | nil =>
    simp only [List.length_nil, List.replicate_zero, List.nil_append] at h
    simp [sendFrames, recvReply, usbIn, drawAns, h, h2, fitReply, State.log, Ports.log, PortEvent.consume, popAns,
      State.setFrm, State.setPorts, State.dropReply]
  | cons f fs ih =>
    have hs : usbOut f s = (.ok, s.log (.usbOut f .ok)) := by simp [usbOut, drawAns, h, List.replicate_succ]
    rw [sendFrames, hs]
    dsimp only
    rw [ih (s.log (.usbOut f .ok)) (by simp [State.log, Ports.log, PortEvent.consume, popAns, h, List.replicate_succ]) h2]
    simp [State.log, Ports.log, PortEvent.consume, popAns, State.setFrm, State.setPorts, h, List.replicate_succ]

end Sys2Proof.Machine
end

