-- ==== Sys2Proof/Laws/Warn.lean ====
section
/-! SUPPORT. A procedure in the warn context (R113 to R115): what its transactions, replies and warnings are after each of
its actions, and that a host operation that runs it to its end meets `warnCommands`. -/

namespace Sys2Proof.Machine

/-! ## Warnings and replies among transactions -/

theorem warnedOf_append (s : State) (a b : List Byte) : s.warnedOf (a ++ b) = (s.warnedOf a).warnedOf b :=
  List.foldl_append

@[simp] theorem warnedOf_cfg (s : State) (ws : List Byte) : (s.warnedOf ws).cfg = s.cfg := by
  induction ws generalizing s with
  | nil => rfl
  | cons w ws ih => exact (ih _).trans (push_cfg _ _)

theorem warnings_nil {evs : List PortEvent} : evs.filterMap PortEvent.warning? = [] ↔ ∀ e ∈ evs, e.failed = false := by
  rw [List.filterMap_eq_nil_iff]
  refine forall₂_congr fun e _ => ?_
  cases h : e.failed <;> simp [PortEvent.warning?, h]

/-- A warning's code is not `OK`. -/
theorem warning_ne_zero {c : Cfg} {k : Sending} {evs : List PortEvent} : ∀ w ∈ k.warnings c evs, w ≠ 0 := by
  intro w hw
  rcases List.mem_append.mp hw with hw | hw
  · obtain ⟨e, -, he⟩ := List.mem_filterMap.mp hw
    unfold PortEvent.warning? at he
    split at he
    · cases he; split <;> decide
    · cases he
  · split at hw
    · unfold checkWarnings at hw
      split at hw
      · rw [List.mem_singleton.mp hw]; decide
      · split at hw
        · cases hw
        · rw [List.mem_singleton.mp hw]; decide
    · cases hw

theorem replyOf_append (a b : List PortEvent) : replyOf (a ++ b) = (replyOf a).or (replyOf b) := List.findSome?_append

theorem replyOf_sent (fs : List Frame) : replyOf (fs.map fun f => .usbOut f .ok) = none := by
  induction fs with
  | nil => rfl
  | cons f fs ih => exact ih

/-- The reply among a transfer's transactions is its answer's. -/
theorem Transfer.reply {cls : Cls} {c : Cfg} {fs : List Frame} {o : CmdOut} {evs : List PortEvent}
    (h : Transfer cls c fs o evs) :
    (o = .ok ↔ ∃ b, replyOf evs = some b)
      ∧ evs.filterMap PortEvent.warning? = if o = .ok then [] else if o = .timeout then [0x11] else [0x12] := by
  have hs : (fs : List Frame) → (fs.map fun f => PortEvent.usbOut f .ok).filterMap PortEvent.warning? = [] := fun fs =>
    warnings_nil.mpr fun e he => by obtain ⟨f, -, rfl⟩ := List.mem_map.mp he; rfl
  rcases h with ⟨a, rfl, h1, h2, h3⟩ | ⟨sent, f, rest, rfl, rfl, rfl⟩
  · rw [replyOf_append, replyOf_sent, List.filterMap_append, hs]
    cases a with
    | reply b => obtain rfl := h1.mpr ⟨b, rfl⟩; exact ⟨by simp [replyOf, PortEvent.reply?], rfl⟩
    | timeout => obtain rfl := h2.mpr rfl; exact ⟨by simp [replyOf, PortEvent.reply?], rfl⟩
    | ioError => obtain rfl := h3.mpr rfl; exact ⟨by simp [replyOf, PortEvent.reply?], rfl⟩
  · rw [replyOf_append, replyOf_sent, List.filterMap_append, hs]
    exact ⟨by simp [replyOf, PortEvent.reply?], rfl⟩

/-- The reply in `RPLBUF` after a transfer that ended well is the one among its transactions. -/
theorem sendFrames_reply (cls : Cls) (fs : List Frame) (s : State) (h : (sendFrames cls fs s).1 = .ok) :
    ∃ evs, s.did (sendFrames cls fs s).2 evs ∧ replyOf evs = some (sendFrames cls fs s).2.frm.rplBuf := by
  induction fs generalizing s with
  | nil =>
    have hu : (usbIn cls s).2 = s.log (.usbIn (replyTimeout s.cfg cls) (usbIn cls s).1) := rfl
    unfold sendFrames recvReply at h ⊢
    rcases ha : usbIn cls s with ⟨a, t⟩
    rw [ha] at h hu
    cases a with
    | reply b =>
      dsimp only at hu
      subst hu
      exact ⟨[.usbIn (replyTimeout s.cfg cls) (.reply b)], rfl, rfl⟩
    | timeout => cases h
    | ioError => cases h
  | cons f fs ih =>
    have hu : (usbOut f s).2 = s.log (.usbOut f (usbOut f s).1) := rfl
    unfold sendFrames at h ⊢
    rcases ha : usbOut f s with ⟨a, t⟩
    rw [ha] at h hu
    cases a with
    | ok =>
      dsimp only at hu h ⊢
      obtain ⟨evs, hd, hr⟩ := ih t h
      refine ⟨.usbOut f .ok :: evs, ?_, hr⟩
      rw [State.did] at hd ⊢
      rw [hd, hu]
      simp [State.log]
    | ioError => cases h

theorem did_inj {s t : State} {a b : List PortEvent} (h : s.did t a) (k : s.did t b) : a = b :=
  List.reverse_injective (List.append_cancel_right (h.symm.trans k))

/-! ## Where a run stands -/

/-- The warnings met with the commands `ks` whose transactions were `segs`. -/
def warningsMet (c : Cfg) (ks : List Sending) (segs : List (List PortEvent)) : List Byte :=
  (ks.zip segs).flatMap fun x => x.1.warnings c x.2

/-- A run in the warn context that began at `s` has run the commands `ks` with the transactions `segs`. -/
structure Warned (s : State) (ks : List Sending) (segs : List (List PortEvent)) (r : Run) : Prop where
  fault : r.fault = false
  did : s.did r.st segs.flatten
  len : segs.length = ks.length
  ran : ∀ x ∈ ks.zip segs, ranCommand s.cfg x.1.cmd x.2
  cfg : r.st.cfg = s.cfg
  warn : r.warn.map Res.byte = (warningsMet s.cfg ks segs).head?
  sts : r.st.sts = (s.warnedOf (warningsMet s.cfg ks segs)).sts
  lastErr : r.st.ses.lastErr = (ks.zip segs).foldl (fun e x => x.1.errAfter s.cfg e x.2) s.ses.lastErr
  rplv : r.st.frm.rplv = segs.foldl (fun _ e => (replyOf e).isSome) s.frm.rplv
  rplBuf : r.st.frm.rplBuf = segs.foldl (fun b e => (replyOf e).getD b) s.frm.rplBuf
  grants : ∀ (bs later : List Frame) (n : Nat) (outs : List OutAns) (ins : List InAns), bs.length = ks.length →
    s.ports.grants ((cmdFrames s.cfg (ks.map Sending.cmd)).length + n) (bs ++ later) outs ins →
      segs.map replyOf = bs.map some ∧ r.st.ports.usbOutAns = List.replicate n .ok ++ outs
        ∧ r.st.ports.usbInAns = later.map .reply ++ ins

theorem Warned.start (s : State) : Warned s [] [] { st := s, warn := none, fault := false } := by
  refine ⟨rfl, rfl, rfl, (fun x hx => nomatch hx), rfl, rfl, rfl, rfl, rfl, rfl, fun bs later n outs ins hb h => ?_⟩
  obtain rfl := List.length_eq_zero_iff.mp hb
  exact ⟨rfl, by simpa [cmdFrames] using h.1, h.2.1⟩

/-- An action that reaches no port and leaves the reply, the FIFO and `LAST_ERR` alone. -/
theorem Warned.reg {s : State} {ks : List Sending} {segs : List (List PortEvent)} {r : Run} (h : Warned s ks segs r)
    (t : State) (hc : t.cfg = r.st.cfg) (hf : t.frm = r.st.frm) (hs : t.sts = r.st.sts)
    (he : t.ses.lastErr = r.st.ses.lastErr) (hp : t.ports = r.st.ports) : Warned s ks segs (r.after (.ok t)) where
  fault := h.fault
  did := by rw [State.did]; exact (congrArg Ports.trace hp).trans h.did
  len := h.len
  ran := h.ran
  cfg := hc.trans h.cfg
  warn := h.warn
  sts := hs.trans h.sts
  lastErr := he.trans h.lastErr
  rplv := (congrArg FrmRegs.rplv hf).trans h.rplv
  rplBuf := (congrArg FrmRegs.rplBuf hf).trans h.rplBuf
  grants := fun bs later n outs ins hb hg => by
    have := h.grants bs later n outs ins hb hg
    rwa [← hp] at this

theorem zip_snoc {α β : Type} (a : List α) (b : List β) (x : α) (y : β) (h : b.length = a.length) :
    (a ++ [x]).zip (b ++ [y]) = a.zip b ++ [(x, y)] := by rw [List.zip_append h.symm]; rfl

theorem warningsMet_snoc (c : Cfg) (ks : List Sending) (segs : List (List PortEvent)) (k : Sending)
    (seg : List PortEvent) (h : segs.length = ks.length) :
    warningsMet c (ks ++ [k]) (segs ++ [seg]) = warningsMet c ks segs ++ k.warnings c seg := by
  rw [warningsMet, zip_snoc _ _ _ _ h, List.flatMap_append, List.flatMap_singleton, warningsMet]

/-- The first warning stays the first (R115). -/
theorem first_warning {o : Option Res} {ws : List Byte} (w : Res) (h : o.map Res.byte = ws.head?) :
    (o.orElse fun _ => some w).map Res.byte = (ws ++ [w.byte]).head? := by
  cases o <;> cases ws <;> simp at h ⊢; exact h

/-- A command. -/
theorem Warned.cmd {s : State} {ks : List Sending} {segs : List (List PortEvent)} {r : Run} (h : Warned s ks segs r)
    (k : Cmd) :
    ∃ seg, Transfer k.cls s.cfg (k.frames s.cfg) (doCmd k r.st).1 seg
      ∧ Warned s (ks ++ [⟨k, false⟩]) (segs ++ [seg]) (r.after (cmdEnd .warn (doCmd k r.st))) := by
  obtain ⟨seg, hd, ht⟩ := doCmd_did k r.st
  have hs := doCmd_spec k r.st
  have hrep : (doCmd k r.st).1 = .ok → replyOf seg = some (doCmd k r.st).2.frm.rplBuf := fun ho => by
    obtain ⟨evs, h1, h2⟩ := sendFrames_reply k.cls (k.frames r.st.cfg) _ ho
    exact did_inj hd h1 ▸ h2
  have hans := doCmd_answered k r.st
  rw [h.cfg] at ht hans
  refine ⟨seg, ht, ?_⟩
  obtain ⟨hro, hw⟩ := ht.reply
  obtain ⟨hokf, -⟩ := ht.failed
  obtain ⟨hpre, hall⟩ := ht.frames
  have hsts : (doCmd k r.st).2.sts = r.st.sts := by rw [hs.only]; rfl
  have hses : (doCmd k r.st).2.ses = r.st.ses := by rw [hs.only]; rfl
  have hcfg : (doCmd k r.st).2.cfg = s.cfg := (doCmd_acted k r.st).cfg.trans h.cfg
  have hok := hs.ok
  have hbuf : (doCmd k r.st).1 ≠ .ok → (doCmd k r.st).2.frm.rplv = false
      ∧ (doCmd k r.st).2.frm.rplBuf = r.st.frm.rplBuf := hs.failed
  generalize doCmd k r.st = x at *
  obtain ⟨o, t⟩ := x
  dsimp only at *
  have hz := zip_snoc ks segs (⟨k, false⟩ : Sending) seg h.len
  have hm : warningsMet s.cfg (ks ++ [⟨k, false⟩]) (segs ++ [seg])
      = warningsMet s.cfg ks segs ++ seg.filterMap PortEvent.warning? := by
    rw [warningsMet_snoc _ _ _ _ _ h.len]; simp [Sending.warnings]
  have hdid : s.did t (segs ++ [seg]).flatten := by
    have := h.did
    rw [State.did] at this hd ⊢
    rw [hd, this]; simp
  have hranAll : ranCommand s.cfg k seg → ∀ x ∈ (ks ++ [(⟨k, false⟩ : Sending)]).zip (segs ++ [seg]),
      ranCommand s.cfg x.1.cmd x.2 := by
    intro hr x hx
    rw [hz] at hx
    rcases List.mem_append.mp hx with hx | hx
    · exact h.ran x hx
    · rw [List.mem_singleton.mp hx]; exact hr
  have herr : t.ses.lastErr = ((ks ++ [(⟨k, false⟩ : Sending)]).zip (segs ++ [seg])).foldl
      (fun e x => x.1.errAfter s.cfg e x.2) s.ses.lastErr := by
    rw [hz, List.foldl_append, hses, h.lastErr]; rfl
  have hgr : ∀ (bs later : List Frame) (n : Nat) (outs : List OutAns) (ins : List InAns),
      bs.length = (ks ++ [(⟨k, false⟩ : Sending)]).length →
      s.ports.grants ((cmdFrames s.cfg ((ks ++ [(⟨k, false⟩ : Sending)]).map Sending.cmd)).length + n) (bs ++ later) outs
        ins →
      (segs ++ [seg]).map replyOf = bs.map some ∧ t.ports.usbOutAns = List.replicate n .ok ++ outs
        ∧ t.ports.usbInAns = later.map .reply ++ ins := by
    intro bs later n outs ins hb hg
    have hb0 : bs ≠ [] := by rintro rfl; simp at hb
    obtain ⟨bs, b, rfl⟩ : ∃ l x, bs = l ++ [x] := ⟨_, _, (List.dropLast_append_getLast hb0).symm⟩
    have hcf : (cmdFrames s.cfg ((ks ++ [(⟨k, false⟩ : Sending)]).map Sending.cmd)).length + n
        = (cmdFrames s.cfg (ks.map Sending.cmd)).length + ((k.frames s.cfg).length + n) := by
      simp [cmdFrames, List.flatMap_append, Nat.add_assoc]
    rw [hcf, List.append_assoc] at hg
    obtain ⟨a1, a2, a3⟩ := h.grants bs ([b] ++ later) _ outs ins (by simpa using hb) hg
    have ha := hans b (List.replicate n .ok ++ outs) (later.map .reply ++ ins)
      ⟨by rw [a2, List.replicate_add, List.append_assoc], by simpa using a3,
        fun x hx => hg.2.2 x (by rw [List.mem_singleton.mp hx]; simp)⟩
    obtain ⟨rfl, rfl⟩ := Prod.mk.inj ha
    refine ⟨?_, rfl, rfl⟩
    rw [List.map_append, List.map_append, a1]
    exact congrArg (_ ++ [·]) (hrep rfl)
  have hlen : (segs ++ [seg]).length = (ks ++ [(⟨k, false⟩ : Sending)]).length := by simp [h.len]
  have hfail : ∀ w : Res, o ≠ .ok → seg.filterMap PortEvent.warning? = [w.byte] →
      Warned s (ks ++ [⟨k, false⟩]) (segs ++ [seg]) (r.after (.warned w (t.push (.warning w.byte)))) := by
    intro w ho hw
    have hn : replyOf seg = none := by
      rcases hr : replyOf seg with _ | b
      · rfl
      · exact absurd (hro.mpr ⟨b, hr⟩) ho
    refine ⟨h.fault, ?_, hlen, hranAll (.inr ⟨hpre, hn, _, hw⟩), (push_cfg _ _).trans hcfg, ?_, ?_, ?_, ?_, ?_, ?_⟩
    · rw [State.did]; exact (congrArg Ports.trace (push_ports _ _)).trans hdid
    · rw [hm, hw]; exact first_warning w h.warn
    · rw [hm, hw, warnedOf_append]
      exact push_sts_congr _ (hsts.trans h.sts) (hcfg.trans (warnedOf_cfg _ _).symm)
    · exact (congrArg SesRegs.lastErr (push_ses _ _)).trans herr
    · rw [List.foldl_append]
      exact (congrArg FrmRegs.rplv (push_frm _ _)).trans ((hbuf ho).1.trans (by simp [hn]))
    · rw [List.foldl_append]
      exact (congrArg FrmRegs.rplBuf (push_frm _ _)).trans (((hbuf ho).2.trans h.rplBuf).trans (by simp [hn]))
    · intro bs later n outs ins hb hg
      have := hgr bs later n outs ins hb hg
      rwa [← push_ports t (.warning w.byte)] at this
  cases o with
  | ok =>
    have hr := hrep rfl
    replace hw : seg.filterMap PortEvent.warning? = [] := hw
    refine ⟨h.fault, hdid, hlen, hranAll (.inl ⟨hall nofun, ⟨_, hr, (hok rfl).2⟩, hokf rfl⟩), hcfg, ?_, ?_, herr, ?_, ?_,
      hgr⟩
    · rw [hm, hw, List.append_nil]; exact h.warn
    · rw [hm, hw, List.append_nil]; exact hsts.trans h.sts
    · rw [List.foldl_append]; exact (hok rfl).1.trans (by simp [hr])
    · rw [List.foldl_append]; simp only [List.foldl_cons, List.foldl_nil, hr]; rfl
  | timeout => exact hfail .warnTimeout nofun hw
  | ioError => exact hfail .warnIo nofun hw

/-- `Check` after a command (R111, R114). -/
theorem Warned.check {s : State} {ks : List Sending} {segs : List (List PortEvent)} {k : Cmd} {seg : List PortEvent}
    {r : Run} (h : Warned s (ks ++ [⟨k, false⟩]) (segs ++ [seg]) r) :
    Warned s (ks ++ [⟨k, true⟩]) (segs ++ [seg]) (r.after (checkReply r.st)) := by
  have hl : segs.length = ks.length := by simpa using h.len
  have hz := zip_snoc ks segs (⟨k, true⟩ : Sending) seg hl
  have hz0 := zip_snoc ks segs (⟨k, false⟩ : Sending) seg hl
  have hm : warningsMet s.cfg (ks ++ [⟨k, true⟩]) (segs ++ [seg])
      = warningsMet s.cfg (ks ++ [⟨k, false⟩]) (segs ++ [seg]) ++ checkWarnings s.cfg (replyOf seg) := by
    rw [warningsMet_snoc _ _ _ _ _ hl, warningsMet_snoc _ _ _ _ _ hl]; simp [Sending.warnings]
  have hran : ∀ x ∈ (ks ++ [(⟨k, true⟩ : Sending)]).zip (segs ++ [seg]), ranCommand s.cfg x.1.cmd x.2 := by
    intro x hx
    have hr := h.ran
    rw [hz0] at hr
    rw [hz] at hx
    rcases List.mem_append.mp hx with hx | hx
    · exact hr x (List.mem_append_left _ hx)
    · rw [List.mem_singleton.mp hx]; exact hr (⟨k, false⟩, seg) (by simp)
  have hlen : (segs ++ [seg]).length = (ks ++ [(⟨k, true⟩ : Sending)]).length := by simp [hl]
  have hg : ∀ t : State, t.ports = r.st.ports → ∀ (bs later : List Frame) (n : Nat) (outs : List OutAns) (ins : List InAns),
      bs.length = (ks ++ [(⟨k, true⟩ : Sending)]).length →
      s.ports.grants ((cmdFrames s.cfg ((ks ++ [(⟨k, true⟩ : Sending)]).map Sending.cmd)).length + n) (bs ++ later) outs
        ins →
      (segs ++ [seg]).map replyOf = bs.map some ∧ t.ports.usbOutAns = List.replicate n .ok ++ outs
        ∧ t.ports.usbInAns = later.map .reply ++ ins := by
    intro t hp bs later n outs ins hb hg
    rw [hp]
    exact h.grants bs later n outs ins (by simpa using hb) (by simpa using hg)
  have hv : r.st.frm.rplv = (replyOf seg).isSome := by rw [h.rplv, List.foldl_append]; rfl
  have hb : r.st.frm.rplBuf = (replyOf seg).getD (segs.foldl (fun b e => (replyOf e).getD b) s.frm.rplBuf) := by
    rw [h.rplBuf, List.foldl_append]; rfl
  have he := h.lastErr
  rw [hz0, List.foldl_append] at he
  unfold checkReply
  rcases hr : replyOf seg with _ | b
  · rw [if_pos (hv.trans (by rw [hr]; rfl))]
    refine ⟨h.fault, ?_, hlen, hran, (push_cfg _ _).trans h.cfg, ?_, ?_, ?_, ?_, ?_, hg _ (push_ports _ _)⟩
    · rw [State.did]; exact (congrArg Ports.trace (push_ports _ _)).trans h.did
    · rw [hm, hr]; exact first_warning .warnNoReply h.warn
    · rw [hm, hr, warnedOf_append]; exact push_sts_congr _ h.sts (h.cfg.trans (warnedOf_cfg _ _).symm)
    · rw [hz, List.foldl_append]
      refine (congrArg SesRegs.lastErr (push_ses _ _)).trans (he.trans ?_)
      simp [Sending.errAfter, hr]
    · exact (congrArg FrmRegs.rplv (push_frm _ _)).trans h.rplv
    · exact (congrArg FrmRegs.rplBuf (push_frm _ _)).trans h.rplBuf
  · have hx : r.st.errByte = b.getD s.cfg.errOff 0 := by rw [State.errByte, hb, hr, h.cfg]; rfl
    have hl' : b.getD s.cfg.errOff 0 = ((ks ++ [(⟨k, true⟩ : Sending)]).zip (segs ++ [seg])).foldl
        (fun e x => x.1.errAfter s.cfg e x.2) s.ses.lastErr := by
      rw [hz, List.foldl_append]; simp [Sending.errAfter, hr]
    rw [if_neg (by rw [hv, hr]; simp)]
    dsimp only
    rw [hx]
    by_cases h0 : b.getD s.cfg.errOff 0 = 0
    · have hc : checkWarnings s.cfg (replyOf seg) = [] := by rw [hr, checkWarnings, if_pos h0]
      rw [if_pos h0]
      refine ⟨h.fault, h.did, hlen, hran, h.cfg, ?_, ?_, hl', h.rplv, h.rplBuf, hg _ rfl⟩
      · rw [hm, hc, List.append_nil]; exact h.warn
      · rw [hm, hc, List.append_nil]; exact h.sts
    · have hc : checkWarnings s.cfg (replyOf seg) = [0x10] := by rw [hr, checkWarnings, if_neg h0]
      rw [if_neg h0]
      refine ⟨h.fault, ?_, hlen, hran, (push_cfg _ _).trans h.cfg, ?_, ?_, ?_, ?_, ?_, hg _ (push_ports _ _)⟩
      · rw [State.did]; exact (congrArg Ports.trace (push_ports _ _)).trans h.did
      · rw [hm, hc]; exact first_warning .warnDevErr h.warn
      · rw [hm, hc, warnedOf_append]; exact push_sts_congr _ h.sts (h.cfg.trans (warnedOf_cfg _ _).symm)
      · exact (congrArg SesRegs.lastErr (push_ses _ _)).trans hl'
      · exact (congrArg FrmRegs.rplv (push_frm _ _)).trans h.rplv
      · exact (congrArg FrmRegs.rplBuf (push_frm _ _)).trans h.rplBuf

/-- A settle wait after a command (R170). -/
theorem Warned.settle {s : State} {ks : List Sending} {segs : List (List PortEvent)} {k : Sending} {seg : List PortEvent}
    {r : Run} (h : Warned s (ks ++ [k]) (segs ++ [seg]) r) (d : Nat) :
    ∃ t0 t1 : U64, Warned s (ks ++ [k]) (segs ++ [seg ++ [.clk t0, .settled d t1]]) (r.after (.ok (settleFor d r.st))) := by
  obtain ⟨t0, t1, hd, -⟩ := settleFor_did d r.st
  refine ⟨t0, t1, ?_⟩
  have hl : segs.length = ks.length := by simpa using h.len
  have hw : (seg ++ [PortEvent.clk t0, .settled d t1]).filterMap PortEvent.warning? = seg.filterMap PortEvent.warning? := by
    rw [List.filterMap_append]; exact List.append_nil _
  have hr : replyOf (seg ++ [PortEvent.clk t0, .settled d t1]) = replyOf seg := by
    rw [replyOf_append]; exact Option.or_none
  have hf : framesOut (seg ++ [PortEvent.clk t0, .settled d t1]) = framesOut seg := by
    rw [framesOut_append]; exact List.append_nil _
  have hm : warningsMet s.cfg (ks ++ [k]) (segs ++ [seg ++ [PortEvent.clk t0, .settled d t1]])
      = warningsMet s.cfg (ks ++ [k]) (segs ++ [seg]) := by
    rw [warningsMet_snoc _ _ _ _ _ hl, warningsMet_snoc _ _ _ _ _ hl, Sending.warnings, Sending.warnings, hw, hr]
  refine ⟨h.fault, ?_, by simp [hl], ?_, h.cfg, ?_, ?_, ?_, ?_, ?_, ?_⟩
  · have := h.did
    rw [State.did] at this hd ⊢
    exact hd.trans (by rw [this]; simp)
  · intro x hx
    have hran := h.ran
    rw [zip_snoc _ _ _ _ hl] at hx hran
    rcases List.mem_append.mp hx with hx | hx
    · exact hran x (List.mem_append_left _ hx)
    · have := hran _ (List.mem_append_right _ (List.mem_singleton.mpr rfl))
      rw [List.mem_singleton.mp hx]
      refine this.imp (fun g => ?_) fun g => ?_
      · refine ⟨hf.trans g.1, by rw [hr]; exact g.2.1, fun e he => ?_⟩
        rcases List.mem_append.mp he with he | he
        · exact g.2.2 e he
        · simp only [List.mem_cons, List.not_mem_nil, or_false] at he
          rcases he with rfl | rfl <;> rfl
      · rw [hf, hr, hw]; exact g
  · rw [hm]; exact h.warn
  · rw [hm]; exact h.sts
  · refine h.lastErr.trans ?_
    rw [zip_snoc _ _ _ _ hl, zip_snoc _ _ _ _ hl, List.foldl_append, List.foldl_append]
    simp [Sending.errAfter, hr]
  · refine h.rplv.trans ?_
    rw [List.foldl_append, List.foldl_append]; simp [hr]
  · refine h.rplBuf.trans ?_
    rw [List.foldl_append, List.foldl_append]; simp [hr]
  · intro bs later n outs ins hb hg
    have := h.grants bs later n outs ins hb hg
    rw [List.map_append, List.map_singleton] at this ⊢
    rw [hr]
    exact this

/-- The end of a host operation that ran such a procedure. -/
theorem Warned.conclude {s : State} {ks : List Sending} {segs : List (List PortEvent)} {r : Run} (h : Warned s ks segs r) :
    warnCommands s r.conclude ks segs.flatten := by
  have hcode : r.code.byte = (warningsMet s.cfg ks segs).headD 0x00 := by
    have := h.warn
    rw [Run.code, if_neg (by rw [h.fault]; simp), List.headD_eq_head?_getD, ← this]
    cases r.warn <;> rfl
  have hnil : warningsMet s.cfg ks segs = [] ↔ (∀ e ∈ segs.flatten, e.failed = false)
      ∧ ∀ x ∈ ks.zip segs, x.1.checked = true → ∃ b, replyOf x.2 = some b ∧ b.getD s.cfg.errOff 0 = 0 := by
    have hx : ∀ x : Sending × List PortEvent, x.1.warnings s.cfg x.2 = [] ↔ (∀ e ∈ x.2, e.failed = false)
        ∧ (x.1.checked = true → ∃ b, replyOf x.2 = some b ∧ b.getD s.cfg.errOff 0 = 0) := by
      intro x
      rw [Sending.warnings, List.append_eq_nil_iff, warnings_nil]
      refine and_congr_right fun _ => ?_
      cases x.1.checked <;> rcases replyOf x.2 with _ | b <;> simp [checkWarnings]
    rw [warningsMet, List.flatMap_eq_nil_iff]
    simp only [hx]
    refine ⟨fun g => ⟨fun e he => ?_, fun x hm => (g x hm).2⟩, fun g x hm => ⟨fun e he => ?_, g.2 x hm⟩⟩
    · obtain ⟨seg, hs, he⟩ := List.mem_flatten.mp he
      rw [← List.map_snd_zip h.len.le] at hs
      obtain ⟨x, hx, rfl⟩ := List.mem_map.mp hs
      exact (g x hx).1 e he
    · exact g.1 e (List.mem_flatten.mpr ⟨x.2, (List.of_mem_zip hm).2, he⟩)
  have hzero : r.code.byte = 0 ↔ warningsMet s.cfg ks segs = [] := by
    rw [hcode]
    rcases hw : warningsMet s.cfg ks segs with _ | ⟨w, ws⟩
    · simp
    · have : w ∈ warningsMet s.cfg ks segs := by rw [hw]; simp
      obtain ⟨x, -, hx⟩ := List.mem_flatMap.mp this
      simpa using warning_ne_zero w hx
  refine ⟨segs, rfl, h.len, h.ran, ⟨_, rfl, hcode, h.sts⟩, h.lastErr, h.rplv, h.rplBuf, hzero.trans hnil, ?_⟩
  intro bs outs ins hb hg
  obtain ⟨ha, -, -⟩ := h.grants bs [] 0 outs ins hb (by simpa using hg)
  refine ⟨ha, fun hok => ?_⟩
  have : warningsMet s.cfg ks segs = [] := by
    refine hnil.mpr ⟨fun e he => ?_, fun x hx hc => ?_⟩
    · obtain ⟨seg, hs, he⟩ := List.mem_flatten.mp he
      have hsome : ∃ b, replyOf seg = some b := by
        have := List.mem_map_of_mem (f := replyOf) hs
        rw [ha] at this
        obtain ⟨b, -, hb⟩ := List.mem_map.mp this
        exact ⟨b, hb.symm⟩
      rw [← List.map_snd_zip h.len.le] at hs
      obtain ⟨x, hx, rfl⟩ := List.mem_map.mp hs
      rcases h.ran x hx with g | g
      · exact g.2.2 e he
      · rw [g.2.1] at hsome; obtain ⟨b, hb⟩ := hsome; cases hb
    · obtain ⟨i, hi, rfl⟩ := List.getElem_of_mem hx
      simp only [List.getElem_zip] at hc ⊢
      have hi1 : i < ks.length := by simp at hi; omega
      have hi2 : i < segs.length := by simp at hi; omega
      have hi3 : i < bs.length := by omega
      refine ⟨bs[i], ?_, ?_⟩
      · have := congrArg (·[i]?) ha
        simpa [hi2, hi3] using this
      · exact hok (ks[i], bs[i]) (by rw [← List.getElem_zip (h := by simp; omega)]; exact List.getElem_mem _) hc
  have hs : r.conclude.sts = r.st.sts := rfl
  exact ⟨hzero.mpr this, by rw [hs, h.sts, this]; rfl⟩

end Sys2Proof.Machine
end

