-- ==== Sys2Proof/Laws/Worker.lean ====
section
/-! SUPPORT. The register accesses of a worker step reach no port and keep the configuration (R64). -/

namespace Sys2Proof.Machine

theorem resume_cfg (rest : List WAct) (r : Ran) : (resume rest r).cfg = r.st.cfg := by cases r <;> rfl

theorem resume_ports (rest : List WAct) (r : Ran) : (resume rest r).ports = r.st.ports := by cases r <;> rfl

theorem resumeCmd_cfg (ctx : Ctx) (rest : List WAct) (r : Ran) : (resumeCmd ctx rest r).cfg = r.st.cfg := by
  cases ctx <;> cases r <;> rfl

theorem resumeCmd_ports (ctx : Ctx) (rest : List WAct) (r : Ran) : (resumeCmd ctx rest r).ports = r.st.ports := by
  cases ctx <;> cases r <;> rfl

/-- An action of a procedure that is no command, no message and no settle wait reaches no port. -/
theorem PAct.run_quiet (ctx : Ctx) (a : PAct) (s : State) (hc : ∀ k, a ≠ .cmd k) (hs : a ≠ .stopPlay)
    (hp : (WAct.act ctx a).isPort = false) :
    (a.run ctx s).st.ports = s.ports := by
  cases a with
  | cmd k => exact absurd rfl (hc k)
  | stopPlay => exact absurd rfl hs
  | ill m => simp [WAct.isPort] at hp
  | settle d => simp [WAct.isPort] at hp
  | check =>
    simp only [PAct.run, checkReply]
    split
    · simp [Ran.st]
    · split
      · rfl
      · simp [Ran.st]
  | stopped => simp only [PAct.run, Ran.st]; split <;> rfl
  | progress =>
    simp only [PAct.run, Ran.st, reportProgress]
    split
    · simp
    · rfl
  | push e => simp [PAct.run, Ran.st]
  | modeSet m => rfl
  | playing => rfl
  | isup b => rfl
  | blocks bs => rfl
  | pktInit n => rfl
  | phase p => rfl
  | illDark => rfl
  | illLit ch => rfl

theorem showStep_ports (k : Nat) (rest : List WAct) (s t : State) (h : showStep k rest s = .ok t) :
    t.ports = s.ports ∧ t.cfg = s.cfg := by
  unfold showStep at h
  split at h <;> cases h
  exact ⟨rfl, rfl⟩

theorem showBlank_ports (rest : List WAct) (s t : State) (h : showBlank rest s = .ok t) :
    t.ports = s.ports ∧ t.cfg = s.cfg := by
  unfold showBlank at h
  split at h <;> cases h
  exact ⟨rfl, rfl⟩

theorem pulsedWait_ports (k : Nat) (rest : List WAct) (s t : State) (h : pulsedWait k rest s = .ok t) :
    t.ports = s.ports ∧ t.cfg = s.cfg := by
  unfold pulsedWait at h
  split at h <;> cases h
  exact ⟨rfl, rfl⟩

theorem extPoll_ports (on : Bool) (cnt : U32) (rest : List WAct) (s : State) :
    (extPoll on cnt rest s).ports = s.ports ∧ (extPoll on cnt rest s).cfg = s.cfg := by
  unfold extPoll
  split
  · exact ⟨rfl, rfl⟩
  split
  · exact ⟨rfl, rfl⟩
  split
  · dsimp only
    split <;> exact ⟨rfl, rfl⟩
  · exact ⟨rfl, rfl⟩

/-- A worker action that is no port transaction reaches no port. -/
theorem workAct_quiet (a : WAct) (rest : List WAct) (s t : State) (hp : a.isPort = false)
    (h : workAct a rest s = .ok t) : t.ports = s.ports ∧ t.cfg = s.cfg := by
  cases a with
  | act ctx x =>
    by_cases hc : ∃ k, x = .cmd k
    · obtain ⟨k, rfl⟩ := hc
      cases h
      exact ⟨rfl, rfl⟩
    by_cases hs : x = .stopPlay
    · subst hs
      cases h
      exact ⟨rfl, rfl⟩
    · have hx : workAct (.act ctx x) rest s = .ok (resume rest (x.run ctx s)) := by
        cases x <;> first | rfl | exact absurd ⟨_, rfl⟩ hc | exact absurd rfl hs
      rw [hx] at h
      cases h
      rw [resume_ports, resume_cfg, (x.run_acted ctx s).cfg]
      exact ⟨x.run_quiet ctx s (fun k hk => hc ⟨k, hk⟩) hs hp, rfl⟩
  | setup =>
    simp only [workAct] at h
    split at h <;> cases h <;> exact ⟨rfl, rfl⟩
  | runMode =>
    simp only [workAct] at h
    rcases hm : modeWork s with e | w
    · rw [hm] at h; cases h
    · rw [hm] at h; cases h; exact ⟨rfl, rfl⟩
  | pos c i => cases h; exact ⟨rfl, rfl⟩
  | showStep k => exact showStep_ports k rest s t h
  | showBlank => exact showBlank_ports rest s t h
  | checkCancel =>
    simp only [workAct, Except.ok.injEq] at h
    subst h
    split <;> exact ⟨rfl, rfl⟩
  | pulsedCycle c first =>
    simp only [workAct, Except.ok.injEq] at h
    subst h
    unfold pulsedCycle
    split <;> exact ⟨rfl, rfl⟩
  | pulsedPat c k first =>
    simp only [workAct, Except.ok.injEq] at h
    subst h
    unfold pulsedPat
    split <;> exact ⟨rfl, rfl⟩
  | pulsedWait k => exact pulsedWait_ports k rest s t h
  | cyclicUpload => cases h; exact ⟨rfl, rfl⟩
  | cyclicLight =>
    simp only [workAct] at h
    split at h <;> cases h
    exact ⟨rfl, rfl⟩
  | extPoll on cnt =>
    simp only [workAct, Except.ok.injEq] at h
    subst h
    exact extPoll_ports on cnt rest s
  | extPrev on cnt => cases h; exact ⟨rfl, rfl⟩
  | extActive b => cases h; exact ⟨rfl, rfl⟩
  | extBlank b => cases h; exact ⟨rfl, rfl⟩
  | endPlan e => cases h; exact ⟨rfl, rfl⟩
  | finishPlan e =>
    cases h
    exact ⟨by simp [State.returnIdle], by simp [State.returnIdle]⟩
  | out ctx cls k => cases hp
  | inp ctx cls => cases hp
  | nowPlan => cases hp
  | nowStep p => cases hp
  | waitStart d => cases hp
  | waitTick t0 d => cases hp
  | waitRest d => cases hp
  | cyclicPoll n => cases hp
  | extFirst => cases hp
  | extNext => cases hp

/-- The register accesses up to the next port transaction reach no port. -/
theorem runRegs_ports (n : Nat) (s t : State) (h : runRegs n s = .ok t) : t.ports = s.ports ∧ t.cfg = s.cfg := by
  induction n generalizing s with
  | zero => cases h; exact ⟨rfl, rfl⟩
  | succ n ih =>
    unfold runRegs at h
    split at h
    · cases h; exact ⟨rfl, rfl⟩
    · rename_i a rest hw
      split at h
      · cases h; exact ⟨rfl, rfl⟩
      · split at h
        · rename_i u hu
          have hq := workAct_quiet a rest s u (by simpa using ‹¬a.isPort = true›) hu
          have hr := ih u h
          exact ⟨hr.1.trans hq.1, hr.2.trans hq.2⟩
        · cases h

end Sys2Proof.Machine
end

