-- ==== Sys2Proof/Tests/Slice0.lean ====
section
/-! SUPPORT. Tests on fixed values, each expected result from spec/95_test_vectors.md (the vector's name stands in the
docstring), and for every statement with hypotheses a witness that meets them. -/

namespace Sys2Proof.Tests

open Sys2Proof.Machine

/-! ## The test configuration and small states -/

/-- `TCFG` (95 section 0.1); the keywords are made up. -/
def params : Params :=
  { w := 4, h := 2, expMax := 1000000, expRec := 500000, menu := ⟨[470, 530], [590], [625], [405]⟩, illPresent := true,
    opcMode := ⟨0xA0, 1⟩, opcPlayctl := ⟨0xA0, 2⟩, opcDefpat := ⟨0xA0, 3⟩, opcLut := ⟨0xA0, 4⟩, opcImgsize := ⟨0xA0, 5⟩,
    opcImgdata := ⟨0xA0, 6⟩, opcErrq := ⟨0xA0, 7⟩, opcInsrc := ⟨0xA0, 8⟩, opcTrigmode := ⟨0xA0, 9⟩, valModePotf := 3,
    valStop := 0, valPause := 1, valPlay := 2, valSrcStream := 0, valTrigInt := 1,
    illKw := ⟨[0x56], [0x57], [0x4C], [0x53], [0x4F], [0x41], [0x50]⟩ }

def cfg : Cfg := { params with ok := by decide }

def s0 : State := State.resetWith cfg Ports.reset

def p0 : PatIn := ⟨[1, 1, 1, 1, 0, 0, 0, 0], 105, 0, false, 1, 1⟩
def p1 : PatIn := ⟨[0, 0, 0, 0, 0, 0, 0, 0], 200, 0, false, 1, 1⟩
def p2 : PatIn := ⟨[1, 1, 1, 1, 1, 1, 1, 1], 500, 0, false, 1, 1⟩
def e0 : PatIn := ⟨[1, 2, 3, 3, 3, 4, 5, 5], 4046, 0, false, 0, 8⟩

/-- The next state of a meaning. -/
def next (o : Host.Outcome State Fault Refusal) : State :=
  match o with
  | .next t => t
  | .fault _ => s0
  | .refused _ => s0

/-- The state after an instruction. -/
def after (i : Instr) (s : State) : State := next (exec i s)

/-- `s` with devices that take every frame and answer `n` commands with 64 zero bytes. -/
def answering (n : Nat) (s : State) : State :=
  { s with ports := { s.ports with
      usbOutAns := List.replicate (9 * n) .ok, usbInAns := List.replicate n (.reply (zeros 64)) } }

/-- `s` with given replies, every frame taken. -/
def replying (ins : List InAns) (s : State) : State :=
  { s with ports := { s.ports with usbOutAns := List.replicate (9 * ins.length) .ok, usbInAns := ins } }

/-- A reply whose byte 6 is `e`. -/
def errReply (e : Byte) : InAns := .reply (zeros 6 ++ e :: zeros 57)

def conn : State := s0.setSes { s0.ses with sessValid := true }

def ready : State := conn.setSes { conn.ses with sm := .modeSet, mode := 3, modeKnown := true }

/-- The Sequence of program P2, uploaded. -/
def seq3 : State :=
  ready.setUpl { ready.upl with
    seqPats := assign cfg ([p0, p1, p2].map freshPattern), seqValid := true, seqRepeat := .finite 2, seqMode := .cyclic
    seqGen := 1, isup := true }

/-- The default plan of 95 section 8. -/
def plan : PlanRec := { PlanRec.reset with mode := .pulsed, durMs := [1000, 1000, 1000], illum := [[], [], []] }

/-- `seq3` with the default plan running. -/
def running : State := after (.pstart plan) seq3

/-- A frame from its leading bytes. -/
def pad (l : List Byte) : Frame := l ++ zeros (64 - l.length)

/-- The frames put on `USB_OUT` so far. -/
def sent (s : State) : List Frame := framesOut s.ports.trace.reverse

/-- The code and the record on `HRES`. -/
def result (s : State) : Option (Byte × HRec) := s.ports.hres.map fun r => (r.code, r.record)

/-! ## Well-formedness -/

theorem smoke_wellFormed_chunk_empty : (Instr.wImgdata []).wellFormed cfg = false := by decide
theorem smoke_wellFormed_chunk_long : (Instr.wImgdata (zeros 505)).wellFormed cfg = false := by decide +kernel
theorem smoke_wellFormed_chunk_full : (Instr.wImgdata (zeros 504)).wellFormed cfg = true := by decide +kernel
/-- R13: a configuration that breaks a constraint is refused. -/
theorem smoke_cfg_order : Cfg.of? { params with expRec := 2000000 } = none := by decide
/-- R12: two equal play-control values. -/
theorem smoke_cfg_play : Cfg.of? { params with valPlay := 1 } = none := by decide
theorem smoke_cfg_used : Cfg.of? { params with errOff := 64 } = none := by decide

/-! ## Decoding: words written out from R70 and the record layout of notes/assumptions/1.md -/

theorem decode_fbuild :
    decode [0x01, 0x40, 0x00, 0x1A, 0x1B, 0x01, 0x03, 0x00] = .ok (.fbuild 0x40 0x00 0x1A 0x1B [0x03], []) := by decide
theorem decode_fsend : decode [0x02, 0x01] = .ok (.fsend .bulk, []) := by decide
theorem decode_fcheck : decode [0x03, 0x42] = .ok (.fcheck, [0x42]) := by decide
theorem decode_enc1 : decode [0x10, 0x01, 0x01, 0x01, 0x00, 0x00] = .ok (.enc1 [[1]], []) := by decide
theorem decode_enc8 : decode [0x11, 0x01, 0xFF, 0x01, 0x02, 0x00] = .ok (.enc8 [0xFF, 2], []) := by decide
theorem decode_dec1 : decode [0x12, 0x01, 0x00, 0x00] = .ok (.dec1 [0], []) := by decide
theorem decode_dec8 : decode [0x13, 0x01, 0x86, 0x01, 0x00, 0x01, 0x00, 0x00] = .ok (.dec8 [0x86, 0, 0], []) := by decide
theorem decode_sdefine :
    decode [0x20, 0x01, 0x01, 0x01, 0x00, 0x69, 0, 0, 0, 1, 0, 0, 0, 0, 2, 0, 0, 0, 0x01, 0x00, 0x00, 2, 0, 0, 0, 0x01, 0x00]
      = .ok (.sdefine [⟨[1], 105, 1, false, 2, 1⟩] (.finite 2) .cyclic false, []) := by decide
theorem decode_padd :
    decode [0x21, 0x03, 0x00, 0x00, 0xCE, 0x0F, 0, 0, 0, 0, 0, 0, 1, 0xFF, 0, 0, 0, 8]
      = .ok (.padd 3 ⟨[], 4046, 0, true, 255, 8⟩, []) := by decide
theorem decode_premove : decode [0x22, 0x34, 0x12] = .ok (.premove 0x1234, []) := by decide
theorem decode_pmove : decode [0x23, 0x00, 0x00, 0x02, 0x00] = .ok (.pmove 0 2, []) := by decide
theorem decode_pset :
    decode [0x24, 0x00, 0x01, 0x00, 0x69, 0, 0, 0, 0, 0, 0, 0, 0, 1, 0, 0, 0, 1]
      = .ok (.pset 0x100 ⟨[], 105, 0, false, 1, 1⟩, []) := by decide
theorem decode_defpat :
    decode [0x25, 5, 0, 0xCE, 0x0F, 0, 0, 8, 7, 0, 0xE8, 3, 0, 0, 0xFF, 0, 0, 0, 5, 0, 6]
      = .ok (.defpat 5 4046 8 7 false 1000 255 5 6, []) := by decide
theorem decode_cfglut : decode [0x26, 0x03, 0x00, 0x06, 0x00, 0x00, 0x00] = .ok (.cfglut 3 6, []) := by decide
theorem decode_imgblk : decode [0x27, 0x03, 0x00, 0x01, 0xAA, 0x00] = .ok (.imgblk 3 [0xAA], []) := by decide
theorem decode_supload : decode [0x28, 0x01] = .ok (.supload true, []) := by decide
theorem decode_srepeat : decode [0x29, 0x01] = .ok (.srepeat .inf, []) := by decide
theorem decode_connect : decode [0x30] = .ok (.connect, []) := by decide
theorem decode_disconnect : decode [0x31] = .ok (.disconnect, []) := by decide
theorem decode_setmode : decode [0x32, 0x03] = .ok (.setmode 3, []) := by decide
theorem decode_start : decode [0x33] = .ok (.start, []) := by decide
theorem decode_stop : decode [0x34] = .ok (.stop, []) := by decide
theorem decode_pause : decode [0x35] = .ok (.pause, []) := by decide
theorem decode_illconnect : decode [0x36] = .ok (.illconnect, []) := by decide
theorem decode_regread : decode [0x37, 0x04] = .ok (.regread 4, []) := by decide
theorem decode_pstart :
    decode [0x40, 2, 1, 1, 0xE8, 3, 0, 0, 0, 0x88, 0x13, 0, 0, 1, 1, 0, 1, 0, 1, 1, 0, 0xD6, 1, 50, 0, 0]
      = .ok (.pstart ⟨.pulsed, .precisePulse, [1000], 5000, some 1, true, false, [[⟨.a, 470, 50⟩]]⟩, []) := by decide
theorem decode_pstop : decode [0x41] = .ok (.pstop, []) := by decide
theorem decode_stread : decode [0x42] = .ok (.stread, []) := by decide
/-- R71. -/
theorem decode_reserved : decode [0x14, 0x30] = .error (.reservedOp 0x14 [0x30]) := by decide
/-- R72: a u1 operand of 2. -/
theorem decode_malformed : decode [0x28, 0x02] = .error (.notAnOperation 0x28) := by decide
/-- R74: the words of `XFER` are an `FBUILD` and an `FSEND`. -/
theorem decode_xfer :
    decode (encode cfg (.xfer 0x40 0 0x1A 0x2B [] .bulk)) = .ok (.fbuild 0x40 0 0x1A 0x2B [], [0x02, 0x01]) := by decide
theorem decode_errquery : encode cfg .errquery = [0x01, 0xC0, 0x22, 0xA0, 0x07, 0x00, 0x02, 0x00, 0x03] := by decide
theorem decode_potf : decode (encode cfg .potf) = .ok (.setmode 3, []) := by decide
theorem decode_load :
    decode (encode cfg (.load [] .inf .ext true)) = .ok (.sdefine [] .inf .ext true, [0x28, 0x01]) := by decide

/-! ## Decoding: the frames of 95 section 0.5 -/

theorem decode_wMode : decodeWire cfg (pad [0x40, 0, 3, 0, 0x01, 0xA0, 0x03]) = some (.wMode 3, []) := by decide
theorem decode_wPlayctl : decodeWire cfg (pad [0x40, 0, 3, 0, 0x02, 0xA0, 0x02]) = some (.wPlayctl .play, []) := by decide
/-- E4. -/
theorem decode_wDefpat :
    decodeWire cfg (pad [0x40, 0, 0x0E, 0, 0x03, 0xA0, 5, 0, 0xCE, 0x0F, 0, 0x7F, 0xE8, 3, 0, 0xFF, 5, 0])
      = some (.wDefpat 5 4046 7 7 false 1000 0xFF 5 0, []) := by decide
/-- E9. -/
theorem decode_wLut :
    decodeWire cfg (pad [0x40, 0, 9, 0, 0x04, 0xA0, 3, 0, 6, 0, 0, 0, 1]) = some (.wLut 3 6, []) := by decide
/-- E14. -/
theorem decode_wImgsize :
    decodeWire cfg (pad [0x40, 0x11, 8, 0, 0x05, 0xA0, 3, 0, 0xE8, 3, 0, 0]) = some (.wImgsize 3 1000, []) := by decide
/-- E15. -/
theorem decode_wImgdata :
    decodeWire cfg (pad [0x40, 0x11, 0x0D, 0, 0x06, 0xA0, 9, 0, 0x82, 5, 0, 0, 0x82, 4, 0, 0, 0])
      = some (.wImgdata [0x82, 5, 0, 0, 0x82, 4, 0, 0, 0], []) := by decide
theorem decode_wErrq : decodeWire cfg (pad [0xC0, 0x22, 2, 0, 0x07, 0xA0]) = some (.wErrq, []) := by decide
theorem decode_wInsrc : decodeWire cfg (pad [0x40, 0, 3, 0, 0x08, 0xA0, 0]) = some (.wInsrc, []) := by decide
theorem decode_wTrigmode : decodeWire cfg (pad [0x40, 0, 3, 0, 0x09, 0xA0, 1]) = some (.wTrigmode, []) := by decide
/-- E5, E6: every packed field at a place of its own. -/
theorem encode_wDefpat :
    encode cfg (.wDefpat 5 4046 7 7 true 1000 0xFF 5 0)
        = pad [0x40, 0, 0x0E, 0, 0x03, 0xA0, 5, 0, 0xCE, 0x0F, 0, 0xFF, 0xE8, 3, 0, 0xFF, 5, 0]
      ∧ encode cfg (.wDefpat 30 105 0 7 false 0 0 1 6)
        = pad [0x40, 0, 0x0E, 0, 0x03, 0xA0, 0x1E, 0, 0x69, 0, 0, 0x71, 0, 0, 0, 0, 0x01, 0x30] := by decide
/-- A frame with a byte set after the payload is no command. -/
theorem decode_wire_padding : decodeWire cfg (pad [0xC0, 0x22, 2, 0, 0x07, 0xA0, 1]) = none := by decide

/-! ## Framer -/

/-- F1 and F2. -/
theorem test_fbuild_one :
    (after (.fbuild 0x40 0 0x1A 0x1B [3]) s0).frm.frameBuf = [pad [0x40, 0, 3, 0, 0x1B, 0x1A, 3]]
      ∧ buildFrames .arg 0x40 0 0x1A 0x1B [3] = [pad [0x40, 0, 3, 0, 0x1A, 0x1B, 3]] := by decide
/-- F4: 59 bytes. -/
theorem test_fbuild_two :
    ((after (.fbuild 0x40 0 0x1A 0x2B ((List.range 59).map (BitVec.ofNat 8))) s0).frm.frameBuf.map (List.take 7))
      = [[0x40, 0, 0x3D, 0, 0x2B, 0x1A, 0], [0x3A, 0, 0, 0, 0, 0, 0]] := by decide
/-- F10. -/
theorem test_fsend_answered :
    let t := after (.fsend .control) (answering 1 (after (.fbuild 0x40 0 0x1A 0x1B [3]) seq3))
    t.frm.rplv = true ∧ t.upl.isup = false ∧ t.host.lastResult = 0 ∧ sent t = [pad [0x40, 0, 3, 0, 0x1B, 0x1A, 3]] := by
  decide
/-- F13: frame 1 of two fails. -/
theorem test_fsend_ioError :
    let s := after (.fbuild 0x40 0 0x1A 0x2B (zeros 100)) ready
    let t := after (.fsend .control) { s with ports := { s.ports with usbOutAns := [.ok, .ioError] } }
    t.host.lastResult = 0x12 ∧ t.frm.rplv = false ∧ t.sts.fifo = [.warning 0x12] ∧ (sent t).length = 2 := by
  decide
/-- F17. -/
theorem test_fcheck_error :
    let t := after .fcheck (ready.setFrm { ready.frm with rplv := true, rplBuf := zeros 6 ++ 5 :: zeros 57 })
    result t = some (0x10, .errByte 5) ∧ t.ses.lastErr = 5 ∧ t.sts.fifo = [.warning 0x10] := by decide
/-- F20. -/
theorem test_fcheck_noReply :
    let t := after .fcheck (ready.setSes { ready.ses with lastErr := 5 })
    result t = some (0x13, .errByte 5) ∧ t.ses.lastErr = 5 ∧ t.sts.fifo = [.warning 0x13] := by decide

/-! ## Codec -/

/-- K15. -/
theorem test_enc1_batch :
    (after (.enc1 [p0.raster, p1.raster, p2.raster]) s0).cod.blkBuf = [0x82, 5, 0, 0, 0x82, 4, 0, 0, 0] := by
  decide
/-- K21. -/
theorem test_enc1_notBinary : (after (.enc1 [[1, 1, 1, 1, 2, 0, 0, 0]]) s0).host.lastResult = 0x04 := by decide
/-- K24 with its status word. -/
theorem test_enc8_mixed :
    let t := after (.enc8 e0.raster) s0
    t.cod.blkBuf = [2, 1, 2, 0x81, 3, 1, 4, 0x80, 5, 0] ∧ statusWord t 9 = some 0x0000000A := by decide
/-- K10: a repeat of 129, then a literal. -/
theorem test_rle_split : rleEnc (List.replicate 130 7) 1 = [0xFF, 7, 1, 7, 0] := by decide +kernel
/-- K25. -/
theorem test_dec1_batch :
    (after (.dec1 [0x82, 5, 0, 0, 0x82, 4, 0, 0, 0]) s0).cod.rastOut
      = [p0.raster, p1.raster, p2.raster] ++ List.replicate 21 (zeros 8) := by decide
/-- K35. -/
theorem test_dec1_noEnd : (after (.dec1 [0x82, 5, 0, 0, 0x82, 4, 0, 0]) s0).host.lastResult = 0x34 := by decide
/-- K34: a literal of equal symbols. -/
theorem test_dec8_literal : (after (.dec8 [2, 5, 5, 0x84, 5, 0]) s0).cod.rastOut = [List.replicate 8 5] := by
  decide
/-- K30: a byte after the end marker. -/
theorem test_dec8_trailing :
    let t := after (.dec8 [0x86, 0, 0, 0]) s0
    t.host.lastResult = 0x34 ∧ t.cod.rastOut = [] := by decide

/-! ## Upload sequencer -/

/-- Q1 and Q1a. -/
theorem test_sdefine :
    let t := after (.sdefine [p0, p1, p2] (.finite 2) .cyclic false) s0
    result t = some (0, .handle 1) ∧ t.upl.seqPats.map (fun p => p.bitpos) = [0, 1, 2]
      ∧ statusWord t 1 = some 0x00030009 := by decide
/-- V9: the first bad pattern names the code. -/
theorem test_sdefine_order :
    (after (.sdefine [p0, { p1 with expUs := 104 }, { p2 with raster := [] }] (.finite 1) .pulsed false) s0).host.lastResult
      = 0x05 := by decide
/-- Q2. -/
theorem test_padd :
    let t := after (.padd 1 p2) seq3
    t.patsIn = [p0, p2, p1, p2] ∧ t.upl.seqPats.map (fun p => p.bitpos) = [0, 1, 2, 3] ∧ t.upl.isup = false
      ∧ t.upl.seqGen = 2 := by decide
/-- Q3. -/
theorem test_padd_range : (after (.padd 4 p0) seq3).host.lastResult = 0x08 := by decide
/-- Q5. -/
theorem test_premove :
    let t := after (.premove 0) seq3
    t.patsIn = [p1, p2] ∧ t.upl.seqPats.map (fun p => p.bitpos) = [0, 1] ∧ t.upl.isup = false := by decide
/-- Q6. -/
theorem test_premove_range :
    let t := after (.premove 3) seq3
    t.host.lastResult = 0x08 ∧ t.upl.isup = true := by decide
/-- Q7. -/
theorem test_pmove : (after (.pmove 0 2) seq3).patsIn = [p1, p2, p0] := by decide
/-- Q10: the exposure is not checked. -/
theorem test_pset :
    let t := after (.pset 0 { p0 with expUs := 50 }) seq3
    t.host.lastResult = 0 ∧ t.upl.isup = false
      ∧ (after (.supload false) t).host.lastResult = 0x05 := by decide
/-- Q12. -/
theorem test_srepeat :
    let t := after (.srepeat .inf) seq3
    statusWord t 3 = some 0 ∧ statusWord t 1 = some 0x00030029 := by decide
/-- Q11. -/
theorem test_srepeat_zero : (after (.srepeat (.finite 0)) seq3).host.lastResult = 0x08 := by decide
/-- U2 with the payload of E4. -/
theorem test_defpat :
    let t := after (.defpat 5 4046 8 7 false 1000 255 5 0) (answering 1 ready)
    t.host.lastResult = 0
      ∧ sent t = [pad [0x40, 0, 0x0E, 0, 0x03, 0xA0, 5, 0, 0xCE, 0x0F, 0, 0x7F, 0xE8, 3, 0, 0xFF, 5, 0]] := by
  decide
/-- U4: the range is checked before the exposure. -/
theorem test_defpat_range : (after (.defpat 0 0 2 7 false 0 1 0 0) ready).host.lastResult = 0x08 := by decide
/-- U11 with the payload of E10. -/
theorem test_cfglut :
    sent (after (.cfglut 1 0xFFFFFFFF) (answering 1 ready))
      = [pad [0x40, 0, 9, 0, 0x04, 0xA0, 1, 0, 0xFF, 0xFF, 0xFF, 0xFF, 1]] := by decide
/-- X8. -/
theorem test_cfglut_state :
    (after (.cfglut 3 6) (ready.setSes { ready.ses with sm := .playing })).host.lastResult = 0x31 := by decide
/-- U13. -/
theorem test_imgblk :
    let t := after (.imgblk 0 [0x82, 5, 0, 0, 0x82, 4, 0, 0, 0]) (answering 2 ready)
    sent t = [pad [0x40, 0x11, 8, 0, 0x05, 0xA0, 0, 0, 9, 0, 0, 0],
        pad [0x40, 0x11, 0x0D, 0, 0x06, 0xA0, 9, 0, 0x82, 5, 0, 0, 0x82, 4, 0, 0, 0]]
      ∧ t.sts.fifo = [.progress 100 1 1] := by decide
/-- U17. -/
theorem test_imgblk_timeout :
    let t := after (.imgblk 0 [0x82, 5]) (replying [.timeout] ready)
    t.host.lastResult = 0x20 ∧ (sent t).length = 1 ∧ t.upl.pktDone = 0 := by decide
/-- W5. -/
theorem test_supload :
    let t := after (.supload false) (answering 6 (seq3.setUpl { seq3.upl with isup := false }))
    sent t = [pad [0x40, 0, 0x0E, 0, 3, 0xA0, 0, 0, 0x69, 0, 0, 0x71, 0, 0, 0, 1, 0, 0],
        pad [0x40, 0, 0x0E, 0, 3, 0xA0, 1, 0, 0xC8, 0, 0, 0x71, 0, 0, 0, 1, 0, 8],
        pad [0x40, 0, 0x0E, 0, 3, 0xA0, 2, 0, 0xF4, 1, 0, 0x71, 0, 0, 0, 1, 0, 0x10],
        pad [0x40, 0, 9, 0, 4, 0xA0, 3, 0, 6, 0, 0, 0, 1],
        pad [0x40, 0x11, 8, 0, 5, 0xA0, 0, 0, 9, 0, 0, 0],
        pad [0x40, 0x11, 0x0D, 0, 6, 0xA0, 9, 0, 0x82, 5, 0, 0, 0x82, 4, 0, 0, 0]]
      ∧ t.upl.isup = true ∧ t.upl.blocks = [⟨0, [0x82, 5, 0, 0, 0x82, 4, 0, 0, 0]⟩] ∧ t.sts.fifo = [.progress 100 1 1] := by
  decide
/-- U28: validation comes before the connection. -/
theorem test_supload_invalid :
    (after (.supload false) (seq3.setUpl { seq3.upl with seqPats := assign cfg [freshPattern { p0 with expUs := 50 }] }
      |>.setSes { seq3.ses with sessValid := false })).host.lastResult = 0x05 := by decide

/-! ## Session -/

/-- S1. -/
theorem test_connect :
    let t := after .connect { s0 with ports := { s0.ports with probeAns := [.found] } }
    t.host.lastResult = 0 ∧ statusWord t 0 = some 0x00000001 := by decide
/-- S15. -/
theorem test_connect_none :
    let t := after .connect { ready with ports := { ready.ports with probeAns := [.none] } }
    t.host.lastResult = 0x22 ∧ statusWord t 0 = some 0x00000000 := by decide
/-- S13. -/
theorem test_disconnect :
    statusWord (after .disconnect (ready.setSes { ready.ses with mode := 5 })) 0 = some 0x00000500 := by decide
/-- S5 and W12. -/
theorem test_setmode :
    let t := after (.setmode 3) (answering 3 conn)
    statusWord t 0 = some 0x00000325
      ∧ marks t.ports.trace.reverse = [.out (pad [0x40, 0, 3, 0, 2, 0xA0, 0]), .settle 150,
        .out (pad [0x40, 0, 3, 0, 1, 0xA0, 3]), .settle 50, .out (pad [0x40, 0, 3, 0, 2, 0xA0, 0]), .settle 150] := by
  decide
/-- S23. -/
theorem test_setmode_ioError :
    let s := answering 3 conn
    let t := after (.setmode 3) { s with ports := { s.ports with usbOutAns := [.ok, .ioError, .ok] } }
    t.host.lastResult = 0x12 ∧ t.ses.modeKnown = true ∧ (sent t).length = 3 := by decide
/-- S6. -/
theorem test_start :
    let t := after .start (answering 6 ready)
    statusWord t 0 = some 0x00000329
      ∧ sent t = [pad [0x40, 0, 3, 0, 8, 0xA0, 0], pad [0xC0, 0x22, 2, 0, 7, 0xA0], pad [0x40, 0, 3, 0, 9, 0xA0, 1],
        pad [0xC0, 0x22, 2, 0, 7, 0xA0], pad [0x40, 0, 3, 0, 2, 0xA0, 2], pad [0xC0, 0x22, 2, 0, 7, 0xA0]] := by
  decide
/-- S22: the first warning is the result. -/
theorem test_start_warning :
    let z := InAns.reply (zeros 64)
    let t := after .start (replying [.timeout, z, z, z, z, errReply 2] ready)
    t.host.lastResult = 0x11 ∧ t.sts.fifo = [.warning 0x11, .warning 0x10] ∧ t.ses.lastErr = 2 := by decide
/-- S4. -/
theorem test_stop_idle :
    let t := after .stop (answering 1 conn)
    t.host.lastResult = 0 ∧ t.ses.sm = .idle := by decide
/-- S24. -/
theorem test_stop_timeout :
    let t := after .stop (replying [.timeout] ready)
    t.host.lastResult = 0x11 ∧ t.ses.sm = .stopped
      ∧ marks t.ports.trace.reverse = [.out (pad [0x40, 0, 3, 0, 2, 0xA0, 0]), .settle 150] := by decide
/-- S8. -/
theorem test_pause :
    let t := after .pause (answering 1 (ready.setSes { ready.ses with sm := .playing }))
    statusWord t 0 = some 0x0000032D ∧ sent t = [pad [0x40, 0, 3, 0, 2, 0xA0, 1]] := by decide
/-- S9. -/
theorem test_pause_paused :
    (after .pause (ready.setSes { ready.ses with sm := .paused })).host.lastResult = 0x31 := by decide
/-- S30. -/
theorem test_illconnect :
    let t := after .illconnect { conn with ports := { conn.ports with illAns := [.ok [0x76, 0x31], .ok []] } }
    result t = some (0, .info [0x76, 0x31]) ∧ statusWord t 0 = some 0x00000003 := by decide
/-- S32. -/
theorem test_illconnect_warning :
    let t := after .illconnect { conn with ports := { conn.ports with illAns := [.ok [0x76], .timeout] } }
    result t = some (0x11, .info [0x76]) ∧ t.ses.illValid = true ∧ t.sts.fifo = [.warning 0x11] := by decide
/-- S40. -/
theorem test_regread_reset :
    (List.range 10).map (statusWord s0) = [0, 0, 0, 1, 0, 0, 0, 0, 0, 0].map some := by decide
/-- S41 and S42. -/
theorem test_regread_reserved :
    let t := after (.regread 10) s0
    t.host.lastResult = 0x08 ∧ result (after (.regread 7) t) = some (0, .word 0x00000008) := by decide

/-! ## Synchronizer -/

/-- Y16. -/
theorem test_pstart : statusWord running 4 = some 0x00000289 ∧ running.upl.isup = false := by decide
/-- Y9. -/
theorem test_pstart_illum :
    (after (.pstart { plan with illum := [[⟨.a, 470, 50⟩, ⟨.a, 530, 50⟩], [], []] }) seq3).host.lastResult = 0x09 := by
  decide
/-- R49: the kind codes. -/
theorem test_event_codes :
    ([.progress 0 0 0, .warning 0, .step 0 0, .display 0, .cyclic 0 0, .planDone, .planFail 0, .planCancelled] :
      List Event).map Event.code = [1, 2, 3, 4, 5, 6, 7, 8] := by decide
/-- R178 while a plan runs. -/
theorem test_pstop : (after .pstop running).syn.cancel = true := by decide
/-- Y28. -/
theorem test_pstop_idle :
    let t := after .pstop seq3
    t.host.lastResult = 0 ∧ t.syn.cancel = false := by decide
/-- Y61. -/
theorem test_stread :
    let s := s0.setSts { fifo := [.planDone, .planCancelled], ovf := true }
    let t := after .stread s
    result t = some (0, .event (some .planDone) true)
      ∧ result (after .stread t) = some (0, .event (some .planCancelled) true)
      ∧ (after .stread t).sts.ovf = false := by decide
/-- X3. -/
theorem test_mutation_underPlan :
    let t := after (.sdefine [p0] (.finite 1) .pulsed false) running
    t.host.lastResult = 0x32 ∧ t.host.ubf = true ∧ t.upl = running.upl := by decide
/-- Y23: the wait of the precise-total discipline. -/
theorem test_waitRest :
    ([300, 1000, 1500].map fun t => (workAct (.waitRest 1000) []
        { s0 with ports := { s0.ports with clkAns := [t] } }).toOption.map (fun u => u.work))
      = [some [.waitStart (some 700)], some [.waitStart (some 0)], some [.waitStart (some 0)]] := by decide
/-- Y43: the sample that ends a Cyclic plan. -/
theorem test_cyclicSample :
    ((cyclicSample 0 100 [] (seq3.setSyn { seq3.syn with cycles := .finite 2 })).toOption.map
        fun t => (t.syn.cycle, t.sts.fifo, t.work))
      = some (2, [.cyclic 100 2], [.endPlan .done]) := by decide
/-- W8, poll 6: the advance wraps. -/
theorem test_extPoll_wrap :
    let t := extPoll true 8 [] (seq3.setSyn
      { seq3.syn with extActive := true, extPrevOnoff := true, extPrevCnt := 7, index := 2 })
    t.syn.cycle = 1 ∧ t.syn.index = 0 := by decide
/-- Y57: the blank pattern. -/
theorem test_blank : blankPattern cfg 1 = ⟨zeros 8, 105, 0, false, 0, 1⟩ := by decide
/-- Y27, the end: `REGREAD 4`. -/
theorem test_returnIdle :
    statusWord ((running.setSyn { running.syn with cancel := true }).returnIdle .cancelled) 4 = some 0x0040000A := by
  decide

/-! ## Wire commands and pseudo-operations -/

theorem test_wMode : sent (after (.wMode 3) (answering 1 s0)) = [pad [0x40, 0, 3, 0, 1, 0xA0, 3]] := by decide
theorem test_wPlayctl : sent (after (.wPlayctl .pause) (answering 1 s0)) = [pad [0x40, 0, 3, 0, 2, 0xA0, 1]] := by
  decide
/-- E2. -/
theorem test_wDefpat :
    sent (after (.wDefpat 1 200 0 7 false 0 1 0 1) (answering 1 s0))
      = [pad [0x40, 0, 0x0E, 0, 3, 0xA0, 1, 0, 0xC8, 0, 0, 0x71, 0, 0, 0, 1, 0, 8]] := by decide
/-- E11. -/
theorem test_wLut :
    sent (after (.wLut 400 800) (answering 1 s0)) = [pad [0x40, 0, 9, 0, 4, 0xA0, 0x90, 1, 0x20, 3, 0, 0, 1]] := by
  decide
/-- E13. -/
theorem test_wImgsize :
    sent (after (.wImgsize 0 9) (answering 1 s0)) = [pad [0x40, 0x11, 8, 0, 5, 0xA0, 0, 0, 9, 0, 0, 0]] := by
  decide
theorem test_wImgdata_empty : exec (.wImgdata []) s0 = .refused .notAWireCommand := rfl
/-- R80: 504 bytes take 8 frames. -/
theorem test_wImgdata_full :
    let t := after (.wImgdata (zeros 504)) (answering 1 s0)
    (sent t).length = 8 ∧ (sent t).head?.map (List.take 8) = some [0x40, 0x11, 0xFC, 1, 6, 0xA0, 0xF8, 1] := by
  decide +kernel
theorem test_wErrq :
    let t := after .wErrq (replying [errReply 7] s0)
    sent t = [pad [0xC0, 0x22, 2, 0, 7, 0xA0]] ∧ t.errByte = 7 := by decide
theorem test_wInsrc : sent (after .wInsrc (answering 1 s0)) = [pad [0x40, 0, 3, 0, 8, 0xA0, 0]] := by decide
theorem test_wTrigmode : sent (after .wTrigmode (answering 1 s0)) = [pad [0x40, 0, 3, 0, 9, 0xA0, 1]] := by decide
theorem test_xfer :
    sent (after (.xfer 0x40 0 0x1A 0x2B [] .control) (answering 1 conn)) = [pad [0x40, 0, 2, 0, 0x2B, 0x1A]] := by
  decide
/-- F23. -/
theorem test_errquery :
    let t := after .errquery (replying [errReply 9] conn)
    t.host.lastResult = 0x10 ∧ t.ses.lastErr = 9 ∧ sent t = [pad [0xC0, 0x22, 2, 0, 7, 0xA0]] := by decide
theorem test_potf : (after .potf (answering 3 conn)).ses.sm = .modeSet := by decide
/-- The first half fails: nothing is sent (R74). -/
theorem test_load_refused :
    let t := after (.load [] (.finite 1) .pulsed false) ready
    t.host.lastResult = 0x01 ∧ t.ports.trace = [] := by decide

/-! ## Steps -/

/-- X2: a reserved op byte while a plan runs. -/
theorem test_step_reserved :
    let t := next (step { running with ports := { running.ports with hop := [0x04], turns := [.host] } })
    t.host.lastResult = 0x35 ∧ t.syn = running.syn := by decide
/-- X9. -/
theorem test_step_reset :
    let t := next (step { running with ports := { running.ports with turns := [.reset] } })
    t.syn = SynRegs.reset ∧ t.work = [] ∧ t.sts = StsRegs.reset := by decide
/-- R237: a reset after the first of the three transactions of `STOP`. -/
theorem test_step_resetIn :
    let s := answering 1 conn
    let t := next (step { s with ports := { s.ports with hop := [0x34], turns := [.resetIn 1] } })
    sent t = [pad [0x40, 0, 3, 0, 2, 0xA0, 0]] ∧ t.ports.trace.length = 1 ∧ t.ses = SesRegs.reset := by decide
/-- The first worker step of Y16: `Setup` sends nothing, and the first `Now()` is next. -/
theorem test_step_worker :
    let t := next (step { running with ports := { running.ports with turns := [.worker] } })
    t.ports.trace = running.ports.trace ∧ t.work.head? = some (.nowStep true) := by decide
/-- A table word runs as the first operation after reset. -/
theorem test_fetchWord : decodeTableWord 8 0x25 = some (.defpat 0 0 0 0 false 0 0 0 0) := by decide

/-! ## Witnesses: for every statement with hypotheses, values that meet them -/

/-- `s` with HOST's next operation on `HOP` and the turn HOST's. -/
def hosting (bs : List Byte) (s : State) : State := { s with ports := { s.ports with hop := bs, turns := [.host] } }

/-- `s` with given answers of the illumination controller. -/
def illuminated (as : List IllAns) (s : State) : State := { s with ports := { s.ports with illAns := as } }

/-- `seq3` before its upload. -/
def seq3Stale : State := seq3.setUpl { seq3.upl with isup := false }

/-- `conn` with two frames in `FRAMEBUF` and given answers. -/
def twoFrames (outs : List OutAns) (ins : List InAns) : State :=
  let s := after (.fbuild 0x40 0 0x1A 0x2B (zeros 59)) conn
  { s with ports := { s.ports with usbOutAns := outs, usbInAns := ins } }

theorem ready_uploadReady : ready.uploadReady := by unfold State.uploadReady; decide

theorem witness_ReservedOpByteIsIllegal :
    0x04 ∉ hostOpBytes ∧ (hosting [0x04] running).ports.hop = [0x04] ∧ (hosting [0x04] running).ports.turns = [.host] := by
  decide

theorem witness_HostOpsRoundTrip : (Instr.pstart plan).kind = .hostOp := rfl

theorem witness_WireCommandsRoundTrip :
    cfg.opcodesDistinct ∧ (Instr.wImgdata [0]).kind = .wire ∧ (Instr.wImgdata [0]).wellFormed cfg = true := by
  unfold Params.opcodesDistinct
  decide

theorem witness_StepRunsDecoded :
    (hosting [0x37, 4, 0x42] running).ports.turns = [.host]
      ∧ decode (hosting [0x37, 4, 0x42] running).ports.hop = .ok (.regread 4, [0x42]) := by decide

theorem witness_FramesByteByByte :
    (zeros 59).length ≤ 65533 ∧ 1 < (buildFrames .swap 0x40 0 1 2 (zeros 59)).length ∧ 63 < 64 := by decide

theorem witness_FrameCountLaw : (zeros 65533).length ≤ 65533 := (length_zeros _).le

theorem witness_FbuildResult :
    running.syn.planActive = true ∧ s0.syn.planActive = false ∧ 65533 < (zeros 65534).length
      ∧ (zeros 65533).length ≤ 65533 := 
  ⟨rfl, rfl, by rw [length_zeros]; decide, (length_zeros _).le⟩

theorem witness_FsendAnswered :
    (twoFrames [.ok, .ok] [.reply (zeros 64)]).syn.planActive = false
      ∧ (twoFrames [.ok, .ok] [.reply (zeros 64)]).ses.sessValid = true
      ∧ (twoFrames [.ok, .ok] [.reply (zeros 64)]).frm.frameBuf ≠ []
      ∧ (twoFrames [.ok, .ok] [.reply (zeros 64)]).ports.grants
        (twoFrames [.ok, .ok] [.reply (zeros 64)]).frm.frameBuf.length [zeros 64] [] [] := by
  unfold Ports.grants
  decide

theorem witness_FsendFailed_frame :
    (twoFrames [.ok, .ioError] []).syn.planActive = false ∧ (twoFrames [.ok, .ioError] []).ses.sessValid = true
      ∧ (twoFrames [.ok, .ioError] []).frm.frameBuf = [pad [0x40, 0, 0x3D, 0, 0x2B, 0x1A]] ++ zeros 64 :: []
      ∧ (twoFrames [.ok, .ioError] []).ports.usbOutAns = List.replicate 1 .ok ++ .ioError :: [] := by decide

theorem witness_FsendFailed_reply :
    (twoFrames [.ok, .ok] [.timeout]).syn.planActive = false ∧ (twoFrames [.ok, .ok] [.timeout]).ses.sessValid = true
      ∧ (twoFrames [.ok, .ok] [.timeout]).frm.frameBuf ≠ []
      ∧ (twoFrames [.ok, .ok] [.timeout]).ports.usbOutAns = List.replicate 2 .ok ++ []
      ∧ (twoFrames [.ok, .ok] [.timeout]).ports.usbInAns = .timeout :: [] := by decide

theorem witness_FsendFailed_ioError :
    (twoFrames [.ok, .ok] [.ioError]).frm.frameBuf ≠ []
      ∧ (twoFrames [.ok, .ok] [.ioError]).ports.usbOutAns = List.replicate 2 .ok ++ []
      ∧ (twoFrames [.ok, .ok] [.ioError]).ports.usbInAns = .ioError :: [] := by decide

theorem witness_FsendFailed_refused :
    (s0.syn.planActive = false ∧ s0.ses.sessValid = false) ∧ conn.ses.sessValid = true ∧ conn.frm.frameBuf = [] := by decide

theorem witness_FcheckResult :
    running.syn.planActive = true ∧ (ready.syn.planActive = false ∧ ready.frm.rplv = false)
      ∧ (ready.setFrm { ready.frm with rplv := true }).errByte = 0
      ∧ (ready.setFrm { ready.frm with rplv := true, rplBuf := zeros 6 ++ 5 :: zeros 57 }).errByte ≠ 0 := by decide

theorem witness_RleRoundTrip :
    (([] : List Byte).length = 0 * 1) ∧ (List.replicate 130 (7 : Byte)).length = 130 * 1
      ∧ (zeros 390).length = 130 * 3 :=
  ⟨rfl, List.length_replicate, length_zeros _⟩

theorem witness_PlaneOrder :
    (List.replicate 24 (1 : Byte)).length ≤ 24 ∧ (∀ v ∈ List.replicate 24 (1 : Byte), v = 0 ∨ v = 1) ∧ 23 < 24 := by decide

theorem witness_PlaneOrder_batch :
    (List.replicate 24 p0.raster).length ≤ 24
      ∧ (∀ r ∈ List.replicate 24 p0.raster, r.length = cfg.pixels ∧ ∀ x ∈ r, x = 0 ∨ x = 1)
      ∧ 0 < cfg.pixels ∧ 7 < cfg.pixels ∧ (zeros 6).length = 3 * 2 ∧ 1 < 2 ∧ 23 < 24 := by decide

theorem witness_DecodeAfterEncode :
    e0.raster.length = s0.cfg.pixels ∧ 1 ≤ (List.replicate 24 p0.raster).length
      ∧ (List.replicate 24 p0.raster).length ≤ 24
      ∧ ∀ r ∈ List.replicate 24 p0.raster, r.length = s0.cfg.pixels ∧ ∀ x ∈ r, x = 0 ∨ x = 1 := by decide

/-- `p0` with every field at its largest value. -/
def p0max : PatIn := { p0 with expUs := 1000000, darkUs := 0xFFFFFF, trigOut := 0xFF }

theorem witness_ValidateAccepts_list :
    (∃ p ∈ [p0, { p1 with bd := 2 }], p.bd ≠ 1 ∧ p.bd ≠ 8)
      ∧ ((∀ p ∈ [p0, e0], p.bd = 1 ∨ p.bd = 8) ∧ ∃ p ∈ [p0, e0], p.bd ≠ p0.bd)
      ∧ ((p0.bd = 1 ∨ p0.bd = 8) ∧ ∀ p ∈ [p0, p1, p2], p.bd = p0.bd)
      ∧ cfg.ceil1 < (List.replicate 401 p0).length ∧ (List.replicate 400 p0).length ≤ cfg.ceil1 :=
  ⟨by decide, by decide, by decide, by rw [List.length_replicate]; decide, by rw [List.length_replicate]; decide⟩

theorem witness_ValidateAccepts_pattern :
    [p0, { p1 with raster := [] }][1]? = some { p1 with raster := [] } ∧ patFits cfg p0 ∧ patFits cfg p0max
      ∧ (¬ rasterFits cfg { p1 with raster := [] } ∧ ¬ rasterFits cfg { p1 with raster := [2, 0, 0, 0, 0, 0, 0, 0] })
      ∧ (rasterFits cfg { p0 with expUs := 104 } ∧ (104 : U32).toNat < leastExposure cfg 1)
      ∧ (leastExposure cfg 1 ≤ (1000001 : U32).toNat ∧ cfg.expMax < (1000001 : U32).toNat)
      ∧ (¬ wireFits { p0 with darkUs := 0x1000000 } ∧ ¬ wireFits { p0 with trigOut := 0x100 }) := by
  unfold patFits rasterFits wireFits
  and_intros <;> decide

/-- V18, the largest count that passes, and the least that does not. -/
theorem witness_ValidateAccepts_end :
    (repeatFits (.finite 0x55555554) 3 ∧ ¬ repeatFits (.finite 0x55555555) 3 ∧ ¬ repeatFits (.finite 0) 3 ∧ repeatFits .inf 3)
      ∧ ¬ confirmFits cfg [{ p0 with expUs := 500001 }] false ∧ confirmFits cfg [{ p0 with expUs := 500000 }] false
      ∧ confirmFits cfg [{ p0 with expUs := 500001 }] true := by
  refine ⟨⟨?_, ?_, ?_, ?_⟩, ?_, ?_, .inl rfl⟩
  · intro n h; cases h; decide
  · intro h; exact absurd (h _ rfl) (by decide)
  · intro h; exact absurd (h _ rfl) (by decide)
  · intro n h; cases h
  · unfold confirmFits; decide
  · unfold confirmFits; decide

theorem witness_CodecResults_encode :
    (1 ≤ [p0.raster].length ∧ [p0.raster].length ≤ 24
        ∧ ∀ r ∈ [p0.raster], r.length = s0.cfg.pixels ∧ ∀ x ∈ r, x = 0 ∨ x = 1)
      ∧ ¬ (1 ≤ (List.replicate 25 p0.raster).length ∧ (List.replicate 25 p0.raster).length ≤ 24)
      ∧ e0.raster.length = s0.cfg.pixels ∧ (zeros 9).length ≠ s0.cfg.pixels := by decide

theorem witness_CodecResults_decode :
    codecDec s0.cfg [0x86, 0, 0, 0, 0] 3 s0.cfg.pixels = some (zeros 24)
      ∧ codecDec s0.cfg [0x86, 0, 0] 1 s0.cfg.pixels = some (zeros 8)
      ∧ codecDec s0.cfg [0x86, 0, 0] 3 s0.cfg.pixels = none ∧ codecDec s0.cfg [] 1 s0.cfg.pixels = none := by decide

/-- Runs of 2 and of 129, of one- and three-byte symbols; literals of 127, up to the end and up to a run. -/
theorem witness_CodecResults_records :
    cfg.codec = .rleS
      ∧ (([] : List (List Byte)).head? ≠ some [7] ∧ (zeros 3).length = 3 ∧ [zeros 3].head? = some (zeros 3)
        ∧ ∀ y ∈ [zeros 3], y.length = 3)
      ∧ (let lits := (List.range 127).map fun i => [BitVec.ofNat 8 i]
        lits.length = 127 ∧ (∀ y ∈ lits, y.length = 1) ∧ ∀ i < 127, (lits ++ [])[i]? ≠ (lits ++ [])[i + 1]?)
      ∧ (∀ i < 2, ([[1], [2]] ++ [[5], [5]] : List (List Byte))[i]? ≠ ([[1], [2]] ++ [[5], [5]])[i + 1]?)
      ∧ ∃ y ys, ([[5], [5]] : List (List Byte)) = y :: y :: ys :=
  ⟨rfl, by decide, by decide +kernel, by decide, _, _, rfl⟩

/-- V18, the largest count that passes. -/
theorem witness_RepeatCountLaw : validate cfg [p0, p1, p2] (.finite 0x55555554) false = none := by decide

theorem witness_AssignLaw :
    (List.replicate 2048 (freshPattern e0))[2047]? = some (freshPattern e0) ∧ (freshPattern e0).bd = 8
      ∧ (List.replicate 25 (freshPattern p0))[24]? = some (freshPattern p0) ∧ (freshPattern p0).bd ≠ 8 ∧ 24 / 24 < 2048 :=
  ⟨by rw [List.getElem?_replicate]; rfl, rfl, rfl, by decide, by decide⟩

theorem witness_CompileLaw :
    (freshPattern e0).bd = 8 ∧ ([freshPattern e0])[0]? = some (freshPattern e0) ∧ (freshPattern p0).bd ≠ 8
      ∧ 1 < ((List.replicate 25 (freshPattern p0)).length + 23) / 24 := by decide

theorem witness_DefpatFieldPacking : p0.bd = 1 ∧ e0.bd = 8 ∧ (zeros 65535).length ≤ 65535 :=
  ⟨rfl, rfl, (length_zeros _).le⟩

theorem witness_SdefineResult :
    running.syn.planActive = true ∧ s0.syn.planActive = false ∧ validate s0.cfg [p0, p1, p2] .inf false = none
      ∧ validate s0.cfg [p0, e0] .inf false = some .cfgMixed := by decide

theorem witness_MutationResults :
    seq3.syn.planActive = false ∧ seq3.upl.seqValid = true
      ∧ ((3 : U16).toNat ≤ seq3.upl.seqPats.length ∧ seq3.upl.seqPats.length < max seq3.cfg.ceil1 seq3.cfg.ceil8
        ∧ recordOk seq3.cfg p0 = none)
      ∧ (2 : U16).toNat < seq3.upl.seqPats.length
      ∧ (∃ p, seq3.upl.seqPats[(0 : U16).toNat]? = some p)
      ∧ Repeat.finite 1 ≠ .finite 0 := ⟨rfl, rfl, by decide, by decide, ⟨_, rfl⟩, by decide⟩

/-- `seq3` with as many patterns as the block holds. -/
def seqFull : State := seq3.setUpl { seq3.upl with seqPats := List.replicate 400 (freshPattern p0) }

theorem witness_MutationRefusals :
    (s0.syn.planActive = false ∧ s0.upl.seqValid = false) ∧ (seq3.syn.planActive = false ∧ seq3.upl.seqValid = true)
      ∧ seq3.upl.seqPats.length < (4 : U16).toNat
      ∧ ((400 : U16).toNat ≤ seqFull.upl.seqPats.length
        ∧ max seqFull.cfg.ceil1 seqFull.cfg.ceil8 ≤ seqFull.upl.seqPats.length)
      ∧ recordOk seq3.cfg { p0 with bd := 2 } = some .cfgRange ∧ seq3.upl.seqPats.length ≤ (3 : U16).toNat := by
  have h : seqFull.upl.seqPats.length = 400 := List.length_replicate
  exact ⟨by decide, by decide, by decide, ⟨h.ge, h.ge⟩, by decide, by decide⟩

theorem witness_MutatingUnderPlan : running.syn.planActive = true := rfl

theorem witness_DefpatCfglutResults :
    ready.syn.planActive = false ∧ defpatFits 8 7 0xFFFFFF 0xFF 0x7FF 31 ∧ leastExposure ready.cfg 8 ≤ (4046 : U32).toNat
      ∧ (1000000 : U32).toNat ≤ ready.cfg.expMax ∧ (1 : U16) ≠ 0 ∧ ready.uploadReady :=
  ⟨rfl, by unfold defpatFits; decide, by decide, by decide, by decide, ready_uploadReady⟩

/-- Devices that answer the one command of `DEFPAT`, `CFGLUT`, `STOP` and `PAUSE`. -/
theorem witness_warnCommand_granted :
    (answering 1 ready).ports.grants ((defPatCmd cfg 0 4046 (bdField 8) 7 true 0 0 0x7FF 31).frames cfg).length [zeros 64]
        (List.replicate 8 .ok) []
      ∧ (answering 1 ready).ports.grants ((lutCmd cfg 1 0).frames cfg).length [zeros 64] (List.replicate 8 .ok) []
      ∧ (answering 1 ready).ports.grants ((playCmd cfg .stop).frames cfg).length [zeros 64] (List.replicate 8 .ok) []
      ∧ (answering 1 ready).ports.grants ((playCmd cfg .pause).frames cfg).length [zeros 64] (List.replicate 8 .ok) [] := by
  unfold Ports.grants
  decide

/-- Devices that answer every command of an upload, of one block and of the Sequence of P2. -/
theorem witness_faultCommands_granted :
    ((blockCmds cfg ⟨0x7FF, [0]⟩).length = 2
        ∧ (answering 2 ready).ports.grants (cmdFrames cfg (blockCmds cfg ⟨0x7FF, [0]⟩)).length [zeros 64, zeros 64]
          (List.replicate 16 .ok) [])
      ∧ (uploadCmds cfg seq3Stale.upl.seqPats seq3Stale.upl.seqRepeat).length = 6
      ∧ (answering 6 seq3Stale).ports.grants
        (cmdFrames cfg (uploadCmds cfg seq3Stale.upl.seqPats seq3Stale.upl.seqRepeat)).length (List.replicate 6 (zeros 64))
        (List.replicate 48 .ok) [] := by
  unfold Ports.grants
  decide

theorem witness_DefpatCfglut_refused :
    (¬ defpatFits 2 7 0 0 0 0 ∧ ¬ defpatFits 1 8 0 0 0 0 ∧ ¬ defpatFits 1 7 0x1000000 0 0 0 ∧ ¬ defpatFits 1 7 0 0x100 0 0
        ∧ ¬ defpatFits 1 7 0 0 0x800 0 ∧ ¬ defpatFits 1 7 0 0 0 32)
      ∧ (4045 : U32).toNat < leastExposure ready.cfg 8 ∧ ready.cfg.expMax < (1000001 : U32).toNat
      ∧ s0.uploadRefusal .errNotConnected ∧ conn.uploadRefusal .errState := by
  unfold defpatFits
  exact ⟨by and_intros <;> decide, by decide, by decide, .inl ⟨rfl, rfl⟩,
    .inr ⟨rfl, by unfold State.uploadReady; decide, rfl⟩⟩

theorem witness_ImgblkResult :
    ready.syn.planActive = false ∧ (0x7FF : U16).toNat ≤ 0x7FF ∧ zeros 505 ≠ [] ∧ (zeros 505).length ≤ 0xFFFFFFFF
      ∧ ready.uploadReady ∧ 0x7FF < (0x800 : U16).toNat ∧ 0xFFFFFFFF < (zeros 0x100000000).length :=
  ⟨rfl, by decide, by decide, by rw [length_zeros]; decide, ready_uploadReady, by decide, by rw [length_zeros]; decide⟩

theorem witness_SuploadResult :
    (seq3Stale.syn.planActive = false ∧ seq3Stale.upl.seqValid = true ∧ seq3Stale.upl.isup = false
        ∧ validate seq3Stale.cfg seq3Stale.patsIn seq3Stale.upl.seqRepeat false = none ∧ seq3Stale.uploadReady)
      ∧ seq3.upl.isup = true ∧ validate seq3.cfg seq3.patsIn seq3.upl.seqRepeat false = none := by
  unfold State.uploadReady
  decide

/-- No Sequence; one that asks for confirmation; `seq3Stale` without a session, and while it plays. -/
theorem witness_SuploadResult_refused :
    s0.upl.seqValid = false
      ∧ (let s := seq3Stale.setUpl { seq3Stale.upl with seqPats := [freshPattern { p0 with expUs := 500001 }] }
        validate s.cfg s.patsIn s.upl.seqRepeat false = some .cfgConfirm)
      ∧ (seq3Stale.setSes { seq3Stale.ses with sessValid := false }).uploadRefusal .errNotConnected
      ∧ (seq3Stale.setSes { seq3Stale.ses with sm := .playing }).uploadRefusal .errState := by
  exact ⟨rfl, by decide, .inl ⟨rfl, rfl⟩, .inr ⟨rfl, by unfold State.uploadReady; decide, rfl⟩⟩

theorem witness_ConnectDisconnect :
    s0.syn.planActive = false
      ∧ ({ s0 with ports := { s0.ports with probeAns := [.none] } } : State).ports.probeAns = .none :: [] := by decide

theorem witness_SetmodeChoreography :
    (conn.syn.planActive = false ∧ conn.ses.sessValid = true) ∧ s0.syn.planActive = false ∧ s0.ses.sessValid = false := by decide

/-- Devices that answer the commands of `SETMODE`, `POTF` and `START`, the last also with error bytes. -/
theorem witness_warnCommands_granted :
    (answering 3 conn).ports.grants 3 [zeros 64, zeros 64, zeros 64] (List.replicate 24 .ok) []
      ∧ (cmdFrames cfg ((modeSendings cfg 3).map Sending.cmd)).length = 3
      ∧ (answering 6 ready).ports.grants 6 (List.replicate 6 (zeros 64)) (List.replicate 48 .ok) []
      ∧ (cmdFrames cfg ((startSendings cfg).map Sending.cmd)).length = 6
      ∧ (∀ x ∈ (startSendings cfg).zip (List.replicate 6 (zeros 64)), x.1.checked = true → x.2.getD cfg.errOff 0 = 0)
      ∧ (replying (List.replicate 5 (.reply (zeros 64)) ++ [errReply 2]) ready).ports.grants 6
        (List.replicate 5 (zeros 64) ++ [zeros 6 ++ 2 :: zeros 57]) (List.replicate 48 .ok) [] := by
  unfold Ports.grants
  decide

theorem witness_StartResult :
    (ready.syn.planActive = false ∧ ready.ses.sessValid = true ∧ ready.ses.sm = .modeSet)
      ∧ (conn.syn.planActive = false ∧ conn.ses.sessValid = true ∧ conn.ses.sm = .idle) ∧ s0.ses.sessValid = false := by
  decide

theorem witness_StopPauseResults :
    (ready.syn.planActive = false ∧ ready.ses.sessValid = true ∧ ready.ses.sm ≠ .playing)
      ∧ (ready.setSes { ready.ses with sm := .playing }).ses.sm = .playing ∧ s0.ses.sessValid = false := by decide

theorem witness_IllconnectResult :
    conn.syn.planActive = false ∧ conn.cfg.illPresent = true
      ∧ (illuminated [.ok [0x76], .ok []] conn).ports.illAns = .ok [0x76] :: .ok [] :: []
      ∧ (illuminated [.timeout] conn).ports.illAns = .timeout :: []
      ∧ (illuminated [.ok [0x76], .ioError] conn).ports.illAns = .ok [0x76] :: .ioError :: []
      ∧ (Cfg.of? { params with illPresent := false }).map (fun c => c.illPresent) = some false := by decide

theorem witness_RegreadResult : (9 : Byte).toNat < 10 ∧ 10 ≤ (10 : Byte).toNat := by decide

theorem witness_StatusWordBits :
    31 < 32 ∧ seq3.upl.seqPats.length < 2 ^ 16 ∧ seq3.frm.frameBuf.length < 2 ^ 16 ∧ seq3.sts.fifo.length < 2 ^ 16
      ∧ seq3.cod.blkBuf.length < 2 ^ 32 := by decide

/-- Plans that pass: an assignment at every bound, and each mode's own lists. -/
theorem witness_PlanValidateAccepts_fits :
    validate seq3.cfg seq3.patsIn seq3.upl.seqRepeat plan.confirm = none ∧ ¬ (plan.mode = .continuous ∧ plan.sel = none)
      ∧ planFits plan 3 ∧ planFits { plan with mode := .continuous, sel := some 2 } 3
      ∧ lightFits cfg { plan with illum := [[⟨.a, 470, 100⟩, ⟨.b, 590, 0⟩, ⟨.c, 625, 1⟩, ⟨.d, 405, 1⟩], [], []] }
      ∧ lightAgrees { plan with illum := [[⟨.a, 470, 100⟩], [⟨.a, 470, 100⟩], []] } := by
  refine ⟨by decide, by decide, ⟨(fun h => nomatch h), fun _ => rfl, rfl⟩,
    ⟨fun _ k h => ?_, (fun h => nomatch h), rfl⟩, ?_, ?_⟩
  · cases h; decide
  · unfold lightFits; decide
  · unfold lightAgrees; decide

/-- A plan refused by each check. -/
theorem witness_PlanValidateAccepts_refused :
    validate seq3.cfg (seq3.setUpl { seq3.upl with seqPats := [] }).patsIn seq3.upl.seqRepeat false = some .cfgEmpty
      ∧ ({ plan with mode := .continuous } : PlanRec).sel = none
      ∧ ¬ planFits { plan with mode := .continuous, sel := some 3 } 3 ∧ ¬ planFits { plan with durMs := [1] } 3
      ∧ ¬ planFits { plan with illum := [[]] } 3
      ∧ ¬ lightFits cfg { plan with illum := [[⟨.a, 470, 101⟩]] } ∧ ¬ lightFits cfg { plan with illum := [[⟨.a, 471, 1⟩]] }
      ∧ ¬ lightFits cfg { plan with illum := [[⟨.a, 470, 1⟩, ⟨.a, 530, 1⟩]] }
      ∧ ¬ lightAgrees { plan with illum := [[⟨.a, 470, 1⟩], [⟨.a, 530, 1⟩]] } := by
  unfold lightFits lightAgrees
  exact ⟨by decide, rfl, fun h => absurd (h.1 rfl 3 rfl) (by decide), fun h => absurd (h.2.1 rfl) (by decide),
    fun h => absurd h.2.2 (by decide), by decide, by decide, by decide, by decide⟩

theorem witness_UnionLaw :
    union [[⟨.c, 625, 9⟩], [⟨.a, 470, 50⟩], [⟨.c, 625, 9⟩]] = some [⟨.a, 470, 50⟩, ⟨.c, 625, 9⟩] := by decide

theorem witness_PstartResult :
    running.syn.planActive = true ∧ (s0.syn.planActive = false ∧ s0.upl.seqValid = false)
      ∧ planValidate seq3 { plan with durMs := [] } = some .cfgPlan
      ∧ (planValidate seq3 { plan with illum := [[⟨.a, 470, 50⟩], [], []] } = none
        ∧ needsIllum { plan with illum := [[⟨.a, 470, 50⟩], [], []] } = true ∧ seq3.ses.illValid = false)
      ∧ (seq3.syn.planActive = false ∧ seq3.upl.seqValid = true ∧ planValidate seq3 plan = none
        ∧ seq3.ses.sessValid = true ∧ needsIllum plan = false) := by decide

theorem witness_PstopStreadResults :
    running.syn.planActive = true ∧ s0.syn.planActive = false ∧ s0.sts.fifo = []
      ∧ (s0.push .planDone).sts.fifo = .planDone :: [] := by decide

theorem witness_PushAndProgress :
    s0.sts.fifo.length < s0.cfg.statusDepth
      ∧ s0.cfg.statusDepth ≤ (s0.setSts { fifo := List.replicate 64 .planDone, ovf := false }).sts.fifo.length
      ∧ (s0.setUpl { s0.upl with pktDone := 1, pktTotal := 2 }).upl.pktDone + 1
        = (s0.setUpl { s0.upl with pktDone := 1, pktTotal := 2 }).upl.pktTotal ∧ (2 : U32) ≠ 0 := by decide

/-- The upload registers after `done` of 1000 packets, `pct` reported last. -/
def packets (done : U32) (pct : Byte) : UplRegs := { s0.upl with pktDone := done, pktTotal := 1000, pktPct := pct }

/-- Of 1000 packets the 50th and the 100th are reported, the second one on both grounds; the 51st is not. -/
theorem witness_PushAndProgress_progress :
    (50 = (packets 49 0).pktDone.toNat + 1 ∧ 50 ≤ (packets 49 0).pktTotal.toNat
        ∧ 5 = 100 * 50 / (packets 49 0).pktTotal.toNat ∧ 50 % cfg.progPkts = 0)
      ∧ (100 = (packets 99 9).pktDone.toNat + 1 ∧ 10 = 100 * 100 / (packets 99 9).pktTotal.toNat
        ∧ (packets 99 9).pktPct.toNat / cfg.progPct < 10 / cfg.progPct)
      ∧ 51 = (packets 50 5).pktDone.toNat + 1 ∧ 5 = 100 * 51 / (packets 50 5).pktTotal.toNat ∧ 51 % cfg.progPkts ≠ 0
      ∧ 5 / cfg.progPct ≤ (packets 50 5).pktPct.toNat / cfg.progPct ∧ 51 ≠ (packets 50 5).pktTotal.toNat := by decide

theorem witness_WaitLaws :
    running.syn.plan.durMs[2]? = some 1000 ∧ running.syn.plan.disc = .preciseTotal
      ∧ (after (.pstart { plan with disc := .precisePulse }) seq3).syn.plan.disc = .precisePulse
      ∧ (after .pstop running).syn.cancel = true ∧ running.syn.cancel = false
      ∧ (0 : U64).toNat + 100 ≤ ({ running with ports := { running.ports with clkAns := [100] } } : State).nextClk.toNat
      ∧ ({ running with ports := { running.ports with clkAns := [99] } } : State).nextClk.toNat < (0 : U64).toNat + 100 := by
  decide

/-- A cancelled Cyclic plan, which has no durations. -/
theorem witness_WaitLaws_cancel :
    let s := after .pstop (after (.pstart { plan with mode := .cyclic, durMs := [] }) seq3)
    s.syn.cancel = true ∧ s.syn.planActive = true ∧ s.syn.plan.durMs = [] := by decide

theorem witness_WaitLaws_pulsed :
    running.syn.plan.mode = .pulsed ∧ running.syn.cycles = .finite 2 ∧ running.syn.cycles ≠ .finite 1
      ∧ 2 < running.upl.seqPats.length ∧ running.upl.seqPats.length ≤ 3 := by decide

theorem witness_ExtPollLaw :
    (s0.syn.extPrevOnoff = false ∧ s0.syn.plan.blankFirst = false)
      ∧ (after (.pstart { plan with mode := .ext, durMs := [], blankFirst := true }) seq3).syn.plan.blankFirst = true
      ∧ ((s0.setSyn { s0.syn with extPrevOnoff := true, extActive := true, extPrevCnt := 7 }).syn.extPrevOnoff = true
        ∧ (7 : U32).toNat < (8 : U32).toNat ∧ (7 : U32).toNat ≤ (7 : U32).toNat) := by decide

theorem witness_ExtPollLaw_start :
    (after (.pstart { plan with mode := .ext, durMs := [] }) seq3).syn.plan.mode = .ext
      ∧ ({ running with ports := { running.ports with trgAns := [(true, 7)] } } : State).ports.trgAns = (true, 7) :: []
      ∧ ∃ p ps, running.upl.seqPats = p :: ps := ⟨rfl, rfl, _, _, rfl⟩

theorem witness_CyclicSampleLaw :
    0 < period seq3 ∧ (2 : Nat) = 1000 * (2 : U64).toNat / period seq3
      ∧ (seq3.setSyn { seq3.syn with cycles := .finite 2 }).syn.cycles = .finite 2 ∧ (2 : U32).toNat ≤ 2
      ∧ 2 < (3 : U32).toNat ∧ (seq3.setSyn { seq3.syn with cycles := .inf }).syn.cycles = .inf := by decide

theorem witness_CyclicSampleLaw_steps :
    (after (.pstart { plan with mode := .cyclic, durMs := [] }) seq3).syn.plan.mode = .cyclic
      ∧ (after (.pstart { plan with mode := .cyclic, durMs := [] }) seq3).upl.isup = true ∧ seq3Stale.upl.isup = false
      ∧ union running.syn.plan.illum = some [] := by decide

theorem witness_PlanEnding_begin :
    (s0.ses.modeKnown = false ∧ running.ses.modeKnown = true ∧ running.ses.mode = running.cfg.valModePotf)
      ∧ (after (.pstart { plan with mode := .continuous, sel := some 2, durMs := [] }) seq3).syn.plan.mode = .continuous
      ∧ (after (.pstart { plan with mode := .continuous, sel := some 2, durMs := [] }) seq3).syn.plan.sel = some 2
      ∧ (∃ p, running.upl.seqPats[2]? = some p) ∧ running.syn.plan.illum[2]? = some [] :=
  ⟨by decide, by decide, by decide, ⟨_, rfl⟩, rfl⟩

theorem witness_PlanEnding_failed :
    (Ctx.fault = .fault ∧ ∃ d, Ctx.stop 150 = .stop d)
      ∧ ({ twoFrames [.ioError] [] with syn := running.syn } : State).frm.frameBuf[1]? = some (zeros 64 : Frame)
      ∧ (twoFrames [.ioError] []).ports.usbOutAns = .ioError :: []
      ∧ (replying [.timeout] running).ports.usbInAns = .timeout :: []
      ∧ running.cfg.illPresent = true ∧ (illuminated [.ioError] running).ports.illAns = .ioError :: [] :=
  ⟨⟨rfl, 150, rfl⟩, by decide, by decide, by decide, by decide, by decide⟩

theorem witness_PlanEnding_cleanup :
    (twoFrames [.ioError] []).frm.frameBuf[1]? = some (zeros 64 : Frame)
      ∧ (twoFrames [.ioError] []).ports.usbOutAns = .ioError :: []
      ∧ (replying [.timeout] running).ports.usbInAns = .timeout :: []
      ∧ (replying [.ioError] running).ports.usbInAns = .ioError :: []
      ∧ (running.cfg.illPresent = true ∧ (illuminated [.timeout] running).ports.illAns = .timeout :: []
        ∧ (illuminated [.ioError] running).ports.illAns = .ioError :: [])
      ∧ (Cfg.of? { params with illPresent := false }).map (fun c => c.illPresent) = some false := by decide

theorem witness_WorkerStepIsOneTransaction : ∃ t, workerStep running = .ok t := ⟨_, rfl⟩

/-- `running` on the WORKER's turn. -/
def working : State := { running with ports := { running.ports with turns := [.worker] } }

theorem witness_WorkerStep_turn :
    (working.ports.turns = .worker :: [] ∧ working.syn.planActive = true ∧ working.work = .setup :: []
        ∧ WAct.setup.isPort = false ∧ ∃ t, runRegs regBurst { working with ports := { working.ports with turns := [] } } = .ok t)
      ∧ (let s := working.setWork [.waitStart none]
        s.ports.turns = .worker :: [] ∧ s.work = .waitStart none :: [] ∧ (WAct.waitStart none).isPort = true
          ∧ ∃ u, workAct (.waitStart none) [] { s with ports := { s.ports with turns := [] } } = .ok u
            ∧ ∃ t, runRegs regBurst u = .ok t) :=
  ⟨⟨rfl, rfl, rfl, rfl, _, rfl⟩, rfl, rfl, rfl, _, rfl, _, rfl⟩

theorem witness_WorkerStep_command :
    (∃ f, (twoFrames [.ok] [.reply (zeros 64)]).frm.frameBuf[1]? = some f)
      ∧ (twoFrames [.ok] [.reply (zeros 64)]).ports.usbOutAns = .ok :: []
      ∧ (twoFrames [.ok] [.reply (zeros 64)]).ports.usbInAns = .reply (zeros 64) :: [] ∧ (zeros 64).length = 64
      ∧ conn.cfg.illPresent = true ∧ (illuminated [.ok [0x76]] conn).ports.illAns = .ok [0x76] :: [] :=
  ⟨⟨_, rfl⟩, rfl, rfl, rfl, rfl, rfl⟩

theorem witness_WorkerStep_check :
    ready.frm.rplv = false
      ∧ (0 : Byte) = (ready.setFrm { ready.frm with rplv := true }).frm.rplBuf.getD ready.cfg.errOff 0
      ∧ (ready.setFrm { ready.frm with rplv := true }).frm.rplv = true
      ∧ (5 : Byte) = (ready.setFrm { ready.frm with rplBuf := zeros 6 ++ 5 :: zeros 57 }).frm.rplBuf.getD ready.cfg.errOff 0
      ∧ (5 : Byte) ≠ 0 := by decide

/-- A Stop that fails in the fault context waits its settle time before the trap (R167, R243; notes/assumptions/31.md). -/
theorem test_worker_stop_failed :
    let s := replying [.timeout] running
    (workAct (.inp (.stop 150) .control) [.act .fault .stopped, .runMode] s).toOption.map (fun t => (t.work, t.ses.sm))
      = some ([.act .fault (.settle 150), .endPlan .fault], .modeSet) := by decide

theorem witness_ReturnCodes : running.defined ∧ (Instr.setmode 3).kind = .hostOp := ⟨rfl, rfl⟩

theorem witness_RefusalsChangeNothing :
    conn.defined ∧ (Instr.start).kind = .hostOp ∧ exec .start conn = .next (after .start conn)
      ∧ (after .start conn).host.lastResult ∈ refusalCodes.map Res.byte := ⟨rfl, rfl, rfl, by decide⟩

theorem witness_BusyDuringPlan : running.syn.planActive = true ∧ ∃ m, Instr.setmode 3 = .setmode m := ⟨rfl, 3, rfl⟩

theorem witness_HostSilentDuringPlan :
    running.defined ∧ (Instr.pstop).kind = .hostOp ∧ running.syn.planActive = true
      ∧ exec .pstop running = .next (after .pstop running) := ⟨rfl, rfl, rfl, rfl⟩

theorem witness_SessionTransitions :
    ready.defined ∧ (Instr.disconnect).kind = .hostOp ∧ exec .disconnect ready = .next (after .disconnect ready) :=
  ⟨rfl, rfl, rfl⟩

theorem witness_BlockResetValues :
    ({ running with ports := { running.ports with turns := [.reset] } } : State).ports.turns = .reset :: [] := rfl

/-- The `STOP` of the witness below. -/
def cutStop : State := { conn with ports := { conn.ports with hop := [0x34], turns := [.resetIn 1] } }

theorem witness_ResetInsideOperation :
    cutStop.ports.turns = .resetIn 1 :: [] ∧ decode cutStop.ports.hop = .ok (.stop, [])
      ∧ ∃ u evs, exec .stop { cutStop with ports := { cutStop.ports with turns := [], hop := [] } } = .next u
        ∧ cutStop.did u evs :=
  ⟨rfl, rfl, _, _, rfl, (List.append_nil _).symm.trans (congrArg (· ++ []) (List.reverse_reverse _).symm)⟩

/-- A state with `UBF = 1` that is reset. -/
def ubfReset : State :=
  { s0 with host := { s0.host with ubf := true }, ports := { s0.ports with turns := [.reset] } }

theorem witness_StepsOnlyAddHistory :
    (working.defined ∧ ∃ t, step working = .next t)
      ∧ ubfReset.host.ubf = true ∧ step ubfReset = .next (next (step ubfReset)) ∧ (next (step ubfReset)).host.ubf = false :=
  ⟨⟨rfl, _, rfl⟩, rfl, rfl, rfl⟩

theorem working_shape : working.ShapeInv := by
  refine ⟨by decide, by decide, by decide, by decide, by decide, by decide, ?_⟩
  intro a ha
  obtain rfl : a = .setup := by simpa using (show a ∈ [WAct.setup] from ha)
  trivial

theorem working_plan : working.PlanInv := by
  refine ⟨(fun h => nomatch h), fun _ => ⟨rfl, rfl, by decide, ?_, ?_, ⟨[], .setup, rfl, trivial⟩, (fun h => nomatch h)⟩,
    (fun h => nomatch h)⟩
  · exact ⟨by decide, by decide, by decide, by decide, by decide, by decide⟩
  · intro a ha
    obtain rfl : a = .setup := by simpa using (show a ∈ [WAct.setup] from ha)
    trivial

theorem witness_ShapeKept :
    (working.defined → working.ShapeInv) ∧ ∃ t, step working = .next t ∧ t.defined := ⟨fun _ => working_shape, _, rfl, rfl⟩

theorem witness_PlanKept :
    (working.defined → working.PlanInv) ∧ ∃ t, step working = .next t ∧ t.defined := ⟨fun _ => working_plan, _, rfl, rfl⟩

theorem witness_StepsNeverFault : working.defined ∧ working.PlanInv := ⟨rfl, working_plan⟩

theorem witness_WireCommandResults :
    (Instr.wImgdata [7]).wireCmd s0.cfg = some (dataCmd s0.cfg [7]) ∧ (Instr.wImgdata [7]).wellFormed s0.cfg = true
      ∧ (replying [.reply (zeros 64)] s0).ports.grants ((dataCmd s0.cfg [7]).frames s0.cfg).length [zeros 64]
        (List.replicate 8 .ok) []
      ∧ s0.cfg.chunk < (zeros 505).length := by
  unfold Ports.grants
  refine ⟨rfl, by decide, by decide, by rw [length_zeros]; decide⟩

theorem witness_PseudoOpsExpand :
    exec (.fbuild 0x40 0 1 2 []) conn = .next (after (.fbuild 0x40 0 1 2 []) conn)
      ∧ (after (.fbuild 0x40 0 1 2 []) conn).host.lastResult = 0x00
      ∧ (after (.fbuild 0x40 0 1 2 []) running).host.lastResult ≠ 0x00
      ∧ 0x20 ≤ (after (.fbuild 0x40 0 1 2 []) running).host.lastResult.toNat
      ∧ 0x20 ≤ (after (.fsend .control) (after (.fbuild 0x40 0 1 2 []) s0)).host.lastResult.toNat
      ∧ (after (.sdefine [p0] .inf .ext true) s0).host.lastResult = 0x00
      ∧ (after (.sdefine [] .inf .ext true) s0).host.lastResult ≠ 0x00 := ⟨rfl, by decide⟩

theorem witness_PseudoOpsComplete_send :
    conn.syn.planActive = false ∧ conn.ses.sessValid = true ∧ (zeros 1).length ≤ 65533
      ∧ (replying [.reply (zeros 64)] conn).ports.grants (buildFrames .swap 0x40 0 1 2 (zeros 1)).length [zeros 64]
        (List.replicate 8 .ok) []
      ∧ (replying [.reply (zeros 64)] conn).ports.grants ((errqCmd cfg).frames cfg).length [zeros 64]
        (List.replicate 8 .ok) []
      ∧ (zeros 64).getD cfg.errOff 0 = 0 := by
  unfold Ports.grants
  decide

theorem witness_PseudoOpsComplete_load :
    ready.syn.planActive = false ∧ validate ready.cfg [p0, p1, p2] (.finite 2) false = none ∧ ready.uploadReady :=
  ⟨rfl, by decide, ready_uploadReady⟩

end Sys2Proof.Tests
end

section
/-! Block reset (R52, R237): what a turn of reset does, and what each part of the state reads afterwards. -/

namespace Sys2Proof.BlockReset

open Sys2Proof.Machine

/-! ## Reading the state after block reset -/

section

variable (s : State)

@[simp] theorem blockReset_cfg : s.blockReset.cfg = s.cfg := rfl
@[simp] theorem blockReset_host : s.blockReset.host = HostRegs.reset := rfl
@[simp] theorem blockReset_frm : s.blockReset.frm = FrmRegs.reset := rfl
@[simp] theorem blockReset_cod : s.blockReset.cod = CodRegs.reset := rfl
@[simp] theorem blockReset_upl : s.blockReset.upl = UplRegs.reset := rfl
@[simp] theorem blockReset_ses : s.blockReset.ses = SesRegs.reset := rfl
@[simp] theorem blockReset_syn : s.blockReset.syn = SynRegs.reset := rfl
@[simp] theorem blockReset_sts : s.blockReset.sts = StsRegs.reset := rfl
@[simp] theorem blockReset_work : s.blockReset.work = [] := rfl
@[simp] theorem blockReset_ports : s.blockReset.ports = { s.ports with hres := none } := rfl

end

/-! ## The turn of reset -/

theorem takeTurn_of_turns_eq_cons {s : State} {t : Turn} {ts : List Turn} (h : s.ports.turns = t :: ts) :
    s.takeTurn = (t, s.setPorts { s.ports with turns := ts }) := by
  simp only [State.takeTurn, h]

/-- A queued reset is taken whatever the block was doing; no operation and no worker step runs. -/
theorem step_of_reset_turn {s : State} {ts : List Turn} (h : s.ports.turns = .reset :: ts) :
    step s = .next (s.setPorts { s.ports with turns := ts }).blockReset := by
  rw [step, takeTurn_of_turns_eq_cons h, doTurn]

/-- Settles O51: the step is block reset of the state that has used up its turn, and each group of registers reads
the value its reset record gives, compared with the literal of the statement. -/
theorem blockResetValues : Obligations.BlockResetValues := by
  intro s ts hturn
  refine ⟨_, step_of_reset_turn hturn, ?cfg, ?trace, ?work, ?host, ?frm, ?cod, ?upl, ?ses, ?syn, ?sts⟩
  case cfg => simp
  case trace => simp
  case work => simp
  case host => simp [HostRegs.reset]
  case frm => simp [FrmRegs.reset, zeros]
  case cod => simp [CodRegs.reset]
  case upl => simp [UplRegs.reset]
  case ses => simp [SesRegs.reset]
  case syn => simp [SynRegs.reset, PlanRec.reset]
  case sts => simp [StsRegs.reset]

end Sys2Proof.BlockReset
end

section
/-! Encoding (R71, R75 to R93, R96, R98): what the op-byte table leaves out, the bytes of every frame, the `RLE-S` decoder
against the record format, and the fields of the nine projector commands as numbers. -/

namespace Sys2Proof.Encoding

open Sys2Proof.Machine

/-! ## Reserved op bytes -/

theorem mem_hostOpBytes_of_toNat {op : Byte} {n : Nat} (hop : op.toNat = n) (hn : BitVec.ofNat 8 n ∈ hostOpBytes) :
    op ∈ hostOpBytes := by
  rw [← hop] at hn
  simpa using hn

/-- The rows of `decodeRecord` are those of R70. -/
theorem decodeRecord_of_reserved {op : Byte} (h : op ∉ hostOpBytes) (bs : List Byte) : decodeRecord op.toNat bs = none := by
  unfold decodeRecord
  split
  case h_29 => rfl
  all_goals exact absurd (mem_hostOpBytes_of_toNat ‹_› (by decide)) h

theorem decode_of_reserved {op : Byte} (h : op ∉ hostOpBytes) (bs : List Byte) :
    decode (op :: bs) = .error (.reservedOp op bs) := by
  simp only [decode, decodeRecord_of_reserved h]

theorem step_of_host_turn {s : State} {ts : List Turn} (h : s.ports.turns = .host :: ts) :
    step s = hostTurn (s.setPorts { s.ports with turns := ts }) := by
  rw [step, BlockReset.takeTurn_of_turns_eq_cons h, doTurn]

theorem hostTurn_of_reserved {s : State} {op : Byte} {bs : List Byte} (h : op ∉ hostOpBytes)
    (hhop : s.ports.hop = op :: bs) : hostTurn s = .next ((s.setHop bs).raise .errIllegalOp) := by
  simp only [hostTurn, hhop, decode_of_reserved h]

/-- Settles O2: the decoder reads a reserved op byte as `.reservedOp`, and HOST's turn then raises `ERR_ILLEGAL_OP` with
the turn and the byte used up. -/
theorem reservedOpByteIsIllegal : Obligations.ReservedOpByteIsIllegal := by
  intro s op rest ts hres hhop hturn
  have hraise : hostTurn (s.setPorts { s.ports with turns := ts }) = _ := hostTurn_of_reserved hres hhop
  rw [step_of_host_turn hturn, hraise]
  exact ⟨_, rfl, rfl, rfl⟩

/-! ## The bytes of a frame -/

theorem getElem?_fitTo {n i : Nat} (b : List Byte) (hi : i < n) : (fitTo n b)[i]? = some (b.getD i 0) := by
  rw [fitTo, zeros, List.getElem?_take_of_lt hi, List.getElem?_append, List.getD_eq_getElem?_getD]
  split
  case isTrue h => simp [h]
  case isFalse h =>
    rw [List.getElem?_replicate_of_lt (by omega), List.getElem?_eq_none (by omega), Option.getD_none]

theorem getElem?_piecesOf {α : Type} {n : Nat} (hn : 0 < n) (f : Nat) (l : List α) (k : Nat) (hf : l.length ≤ f)
    (hk : k < (piecesOf n f l).length) : (piecesOf n f l)[k]? = some ((l.drop (n * k)).take n) := by
  induction f generalizing l k with
  | zero => simp [piecesOf] at hk
  | succ f ih =>
    match l, k with
    | [], _ => simp [piecesOf] at hk
    | x :: xs, 0 => simp [piecesOf]
    | x :: xs, k + 1 =>
      simp only [piecesOf, List.length_cons, Nat.add_lt_add_iff_right] at hk
      simp only [piecesOf, List.getElem?_cons_succ]
      rw [ih _ k (by simp at hf ⊢; omega) hk, List.drop_drop]
      congr 3
      rw [Nat.mul_succ]; omega

/-- Byte `i` of piece `k`, with zeros past the end. -/
theorem getD_take_drop (p : List Byte) (a : Nat) {i n : Nat} (hi : i < n) :
    ((p.drop a).take n).getD i 0 = p.getD (a + i) 0 := by
  simp only [List.getD_eq_getElem?_getD, List.getElem?_take_of_lt hi, List.getElem?_drop]

theorem getElem?_buildFrames_zero (o : ByteOrder) (dir seq cmd1 cmd2 : Byte) (p : List Byte) :
    (buildFrames o dir seq cmd1 cmd2 p)[0]? = some (fitTo 64 (frameHeader o dir seq cmd1 cmd2 p.length ++ p.take 58)) := rfl

theorem getElem?_buildFrames_succ {o : ByteOrder} {dir seq cmd1 cmd2 : Byte} {p : List Byte} {k : Nat}
    (hk : k + 1 < (buildFrames o dir seq cmd1 cmd2 p).length) :
    (buildFrames o dir seq cmd1 cmd2 p)[k + 1]? = some (fitTo 64 (((p.drop 58).drop (64 * k)).take 64)) := by
  simp only [buildFrames, List.length_cons, List.length_map, Nat.add_lt_add_iff_right] at hk
  rw [buildFrames, List.getElem?_cons_succ, List.getElem?_map, pieces,
    getElem?_piecesOf (by decide) _ _ _ (Nat.le_refl _) hk]
  rfl

theorem firstFrame_byte (dir seq a b : Byte) (p : List Byte) (i : Nat) :
    (frameHeader .arg dir seq a b p.length ++ p.take 58).getD i 0 = wireByte dir seq a b p 0 i := by
  match i with
  | 0 | 1 | 2 | 3 | 4 | 5 => rfl
  | j + 6 =>
    have hhead : (frameHeader .arg dir seq a b p.length ++ p.take 58).getD (j + 6) 0 = (p.take 58).getD j 0 := rfl
    have hwire : wireByte dir seq a b p 0 (j + 6) = if j < 58 then p.getD j 0 else 0 := rfl
    rw [hhead, hwire]
    split
    case isTrue h => simpa using getD_take_drop p 0 h
    case isFalse h => exact List.getD_eq_default _ _ (by simp; omega)

/-- R76 as `wireByte` says it. -/
theorem wireByte_succ (dir seq a b : Byte) (p : List Byte) (k i : Nat) :
    wireByte dir seq a b p (k + 1) i = p.getD (58 + 64 * k + i) 0 := rfl

theorem buildFrames_byte {o : ByteOrder} {dir seq cmd1 cmd2 : Byte} {p : List Byte} {k i : Nat} {a b : Byte}
    (ho : cmdBytes o cmd1 cmd2 = [a, b]) (hk : k < (buildFrames o dir seq cmd1 cmd2 p).length) (hi : i < 64) :
    (buildFrames o dir seq cmd1 cmd2 p)[k]?.bind (fun f => f[i]?) = some (wireByte dir seq a b p k i) := by
  cases k with
  | zero =>
    have hhead : frameHeader o dir seq cmd1 cmd2 p.length = frameHeader .arg dir seq a b p.length := by
      rw [frameHeader, ho]
      rfl
    rw [getElem?_buildFrames_zero, Option.bind_some, getElem?_fitTo _ hi, hhead, firstFrame_byte]
  | succ k =>
    rw [getElem?_buildFrames_succ hk, Option.bind_some, getElem?_fitTo _ hi, getD_take_drop _ _ hi, wireByte_succ]
    simp only [List.getD_eq_getElem?_getD, List.getElem?_drop, Nat.add_assoc]

/-- Settles O6: frame 0 is the padded header and payload head, frame `k + 1` the padded piece `k` of the rest. -/
theorem framesByteByByte : Obligations.FramesByteByByte := by
  intro o dir seq cmd1 cmd2 p _ k hk i hi
  cases o with
  | swap => exact buildFrames_byte rfl hk hi
  | arg => exact buildFrames_byte rfl hk hi

/-! ## The `RLE-S` decoder and the record format -/

/-- How many bytes the record that begins with `n` takes after that byte (R96). -/
def recordBytes (symSize : Nat) (n : Byte) : Nat := if n.toNat ≤ 0x7F then n.toNat * symSize else symSize

/-- What the record that begins with `n` and goes on with `b` stands for (R96). -/
def recordOutput (symSize : Nat) (n : Byte) (b : List Byte) : List Byte :=
  if n.toNat ≤ 0x7F then b.take (recordBytes symSize n) else copies (n.toNat - 0x7E) (b.take (recordBytes symSize n))

theorem not_rleRecords_nil {symSize : Nat} {o : List Byte} : ¬ RleRecords symSize [] o := fun h => nomatch h

theorem rleRecords_endMarker_iff {symSize : Nat} {b o : List Byte} :
    RleRecords symSize (0x00 :: b) o ↔ b = [] ∧ o = [] := by
  constructor
  · generalize hn : (0x00 : Byte) = n
    intro h
    cases h with
    | endMarker => exact ⟨rfl, rfl⟩
    | literal _ _ _ _ hpos _ _ _ => simp [← hn] at hpos
    | repeated _ _ _ _ hbig _ _ => simp [← hn] at hbig
  · rintro ⟨rfl, rfl⟩
    exact .endMarker

/-- A record of a literal or a run, read off the front. -/
theorem rleRecords_cons_iff {symSize : Nat} {n : Byte} {b o : List Byte} (hn : n ≠ 0x00) :
    RleRecords symSize (n :: b) o ↔ recordBytes symSize n ≤ b.length
      ∧ ∃ o', RleRecords symSize (b.drop (recordBytes symSize n)) o' ∧ o = recordOutput symSize n b ++ o' := by
  constructor
  · intro h
    cases h with
    | endMarker => exact absurd rfl hn
    | literal _ data b o _ hle hdata h =>
      simp only [recordOutput, recordBytes, if_pos hle, List.length_append, List.take_left' hdata, List.drop_left' hdata]
      exact ⟨by omega, o, h, rfl⟩
    | repeated _ sym b o hbig hsym h =>
      have hgt : ¬ n.toNat ≤ 0x7F := by omega
      simp only [recordOutput, recordBytes, if_neg hgt, List.length_append, List.take_left' hsym, List.drop_left' hsym]
      exact ⟨by omega, o, h, rfl⟩
  · rintro ⟨hlen, o', h, rfl⟩
    have htake := List.length_take_of_le hlen
    rw [recordOutput]
    split
    case isTrue hle =>
      have hpos : 0x01 ≤ n.toNat := Nat.pos_of_ne_zero fun h0 => hn (BitVec.eq_of_toNat_eq h0)
      have hrec := RleRecords.literal n _ _ o' hpos hle (htake.trans (if_pos hle)) h
      rwa [List.take_append_drop] at hrec
    case isFalse hgt =>
      have hrec := RleRecords.repeated n _ _ o' (Nat.not_le.1 hgt) (htake.trans (if_neg hgt)) h
      rwa [List.take_append_drop] at hrec

theorem rleDecGo_endMarker (symSize total fuel : Nat) (b out : List Byte) :
    rleDecGo symSize total (fuel + 1) (0x00 :: b) out = if b = [] ∧ out.length = total then some out else none := rfl

theorem rleDecGo_cons {symSize total fuel : Nat} {n : Byte} {b out : List Byte} (hn : n ≠ 0x00) :
    rleDecGo symSize total (fuel + 1) (n :: b) out
      = if b.length < recordBytes symSize n then none
        else if (out ++ recordOutput symSize n b).length > total then none
        else rleDecGo symSize total fuel (b.drop (recordBytes symSize n)) (out ++ recordOutput symSize n b) := by
  rw [rleDecGo, if_neg hn]
  simp only [recordOutput, recordBytes]
  split <;> rfl

/-- `Completes S N b out r`: the records in `b`, put out after `out`, make up the `N` bytes `r`. -/
def Completes (symSize total : Nat) (b out r : List Byte) : Prop :=
  ∃ o, RleRecords symSize b o ∧ r = out ++ o ∧ r.length = total

theorem not_completes_nil {symSize total : Nat} {out r : List Byte} : ¬ Completes symSize total [] out r :=
  fun ⟨_, h, _⟩ => not_rleRecords_nil h

theorem completes_endMarker_iff {symSize total : Nat} {b out r : List Byte} :
    Completes symSize total (0x00 :: b) out r ↔ (b = [] ∧ out.length = total) ∧ out = r := by
  constructor
  · rintro ⟨o, h, rfl, hlen⟩
    obtain ⟨rfl, rfl⟩ := rleRecords_endMarker_iff.1 h
    simpa using hlen
  · rintro ⟨⟨rfl, hlen⟩, rfl⟩
    exact ⟨[], .endMarker, by simp, hlen⟩

theorem completes_cons_iff {symSize total : Nat} {n : Byte} {b out r : List Byte} (hn : n ≠ 0x00) :
    Completes symSize total (n :: b) out r ↔ recordBytes symSize n ≤ b.length
      ∧ Completes symSize total (b.drop (recordBytes symSize n)) (out ++ recordOutput symSize n b) r := by
  constructor
  · rintro ⟨o, h, rfl, hlen⟩
    obtain ⟨hle, o', h', rfl⟩ := (rleRecords_cons_iff hn).1 h
    exact ⟨hle, o', h', by rw [List.append_assoc], hlen⟩
  · rintro ⟨hle, o', h', rfl, hlen⟩
    exact ⟨_, (rleRecords_cons_iff hn).2 ⟨hle, o', h', rfl⟩, by rw [List.append_assoc], hlen⟩

/-- Too much output is never completed: the loop may stop as soon as it has more than `N` bytes. -/
theorem length_le_of_completes {symSize total : Nat} {b out r : List Byte} (h : Completes symSize total b out r) :
    out.length ≤ total := by
  obtain ⟨o, _, rfl, hlen⟩ := h
  rw [List.length_append] at hlen
  omega

theorem rleDecGo_eq_some_iff {symSize total : Nat} (fuel : Nat) (b out r : List Byte) (hb : b.length ≤ fuel) :
    rleDecGo symSize total fuel b out = some r ↔ Completes symSize total b out r := by
  induction fuel generalizing b out with
  | zero =>
    obtain rfl := List.length_eq_zero_iff.1 (Nat.le_zero.1 hb)
    exact iff_of_false (fun h => nomatch h) not_completes_nil
  | succ fuel ih =>
    cases b with
    | nil => exact iff_of_false (fun h => nomatch h) not_completes_nil
    | cons n b =>
      have hfuel : (b.drop (recordBytes symSize n)).length ≤ fuel := by simp at hb ⊢; omega
      by_cases hn : n = 0x00
      · rw [hn, rleDecGo_endMarker, completes_endMarker_iff, Option.ite_none_right_eq_some, Option.some.injEq]
      · rw [rleDecGo_cons hn, completes_cons_iff hn, ← ih _ _ hfuel]
        split_ifs with hshort hlong
        · exact iff_of_false (fun h => nomatch h) fun h => absurd h.1 (Nat.not_le.2 hshort)
        · refine iff_of_false (fun h => nomatch h) fun h => ?_
          exact absurd (length_le_of_completes ((ih _ _ hfuel).1 h.2)) (Nat.not_le.2 hlong)
        · exact (and_iff_right (Nat.not_lt.1 hshort)).symm

/-- Settles O13: the loop of the decoder answers what its input completes, started with no output. -/
theorem rleDecodesRecords : Obligations.RleDecodesRecords := by
  intro b o symSize count
  rw [rleDec, rleDecGo_eq_some_iff _ _ _ _ (Nat.le_refl _)]
  simp [Completes]

/-! ## Fields as numbers -/

theorem map_toNat_le16 (v : U16) : (le16 v).map BitVec.toNat = [v.toNat % 256, v.toNat / 256] := by
  simp [le16, BitVec.extractLsb'_toNat]; omega

theorem map_toNat_le24 (v : U24) :
    (le24 v).map BitVec.toNat = [v.toNat % 256, v.toNat / 256 % 256, v.toNat / 65536] := by
  simp [le24, BitVec.extractLsb'_toNat]; omega

theorem map_toNat_le32 (v : U32) :
    (le32 v).map BitVec.toNat
      = [v.toNat % 256, v.toNat / 256 % 256, v.toNat / 65536 % 256, v.toNat / 16777216] := by
  simp [le32, BitVec.extractLsb'_toNat]; omega

theorem toNat_append_eq_add {m n : Nat} (x : BitVec m) (y : BitVec n) : (x ++ y).toNat = 2 ^ n * x.toNat + y.toNat := by
  rw [BitVec.toNat_append, ← Nat.shiftLeft_add_eq_or_of_lt y.isLt, Nat.shiftLeft_eq, Nat.mul_comm]

theorem toNat_optionsByte (trigIn : Bool) (color bd1 : BitVec 3) (spare : BitVec 1) :
    (optionsByte trigIn color bd1 spare).toNat
      = (if trigIn then 128 else 0) + 16 * color.toNat + 2 * bd1.toNat + spare.toNat := by
  have hbit : (bit trigIn).toNat = if trigIn then 1 else 0 := by cases trigIn <;> rfl
  simp only [optionsByte, toNat_append_eq_add, hbit]
  split <;> omega

theorem toNat_blockWord (blk : BitVec 11) (bitpos : BitVec 5) :
    (blockWord blk bitpos).toNat = 2048 * bitpos.toNat + blk.toNat :=
  toNat_append_eq_add _ _

theorem toNat_bdField {bd : Byte} (h : bd = 1 ∨ bd = 8) : (bdField bd).toNat = bd.toNat - 1 := by
  obtain rfl | rfl := h <;> rfl

theorem map_toNat_defPatPayload (c : Cfg) (index : U16) (expUs : U24) (bd1 color : BitVec 3) (trigIn : Bool) (darkUs : U24)
    (trigOut : Byte) (blk : BitVec 11) (bitpos : BitVec 5) :
    (defPatPayload c index expUs bd1 color trigIn darkUs trigOut blk bitpos).map BitVec.toNat
      = [index.toNat % 256, index.toNat / 256, expUs.toNat % 256, expUs.toNat / 256 % 256, expUs.toNat / 65536,
        (if trigIn then 128 else 0) + 16 * color.toNat + 2 * bd1.toNat + c.optBit0.toNat, darkUs.toNat % 256,
        darkUs.toNat / 256 % 256, darkUs.toNat / 65536, trigOut.toNat, blk.toNat % 256, 8 * bitpos.toNat + blk.toNat / 256] := by
  have hlow : (blockWord blk bitpos).toNat % 256 = blk.toNat % 256 := by rw [toNat_blockWord]; omega
  have hhigh : (blockWord blk bitpos).toNat / 256 = 8 * bitpos.toNat + blk.toNat / 256 := by rw [toNat_blockWord]; omega
  simp only [defPatPayload, List.map_append, map_toNat_le16, map_toNat_le24, List.map_cons, List.map_nil, toNat_optionsByte,
    hlow, hhigh]
  rfl

/-- The length field of a data chunk: a length within 16 bits is itself. -/
theorem map_toNat_le16_length {n : Nat} (h : n ≤ 65535) :
    (le16 (BitVec.ofNat 16 n)).map BitVec.toNat = [n % 256, n / 256] := by
  have hfits : n < 2 ^ 16 := by omega
  rw [map_toNat_le16, BitVec.toNat_ofNat, Nat.mod_eq_of_lt hfits]

theorem map_toNat_le16_le32 (a : U16) (b : U32) :
    (le16 a ++ le32 b).map BitVec.toNat = [a.toNat % 256, a.toNat / 256, b.toNat % 256, b.toNat / 256 % 256,
      b.toNat / 65536 % 256, b.toNat / 16777216] := by
  rw [List.map_append, map_toNat_le16, map_toNat_le32]
  rfl

/-! ## The nine projector commands -/

/-- Settles O21: the header of each command is its definition's; the numbers of each payload are those of its fields. -/
theorem defpatFieldPacking : Obligations.DefpatFieldPacking := by
  refine ⟨fun c => ⟨?mode, ?playctl, ?defpat, ?lut, ?imgsize, ?imgdata, ?errq⟩, ?reset, toNat_optionsByte, toNat_blockWord,
    fun _ => toNat_bdField⟩
  case mode => exact fun m => ⟨rfl, rfl⟩
  case playctl => exact fun v => ⟨rfl, by cases v <;> rfl⟩
  case defpat =>
    intro index expUs bd1 color trigIn darkUs trigOut blk bitpos
    exact ⟨_, rfl, rfl, map_toNat_defPatPayload c index expUs bd1 color trigIn darkUs trigOut blk bitpos⟩
  case lut => exact fun count rep => ⟨_, rfl, rfl, map_toNat_le16_le32 count rep⟩
  case imgsize => exact fun idx size => ⟨_, rfl, rfl, map_toNat_le16_le32 idx size⟩
  case imgdata => exact fun data hlen => ⟨_, rfl, rfl, map_toNat_le16_length hlen⟩
  case errq => exact ⟨rfl, rfl, rfl, rfl, rfl, rfl, fun _ => rfl⟩
  case reset => and_intros <;> rfl

end Sys2Proof.Encoding
end

section
/-! Framer (R104, R110, R111): `FBUILD` and `FCHECK`, one equation per refusal and per result. -/

namespace Sys2Proof.Framer

open Sys2Proof.Machine

/-! ## `FBUILD` -/

section

variable {dir seq cmd1 cmd2 : Byte} {payload : List Byte} {s : State}

theorem exec_fbuild : exec (.fbuild dir seq cmd1 cmd2 payload) s = .next (opFbuild dir seq cmd1 cmd2 payload s) := rfl

theorem opFbuild_of_planActive (hplan : s.syn.planActive = true) :
    opFbuild dir seq cmd1 cmd2 payload s = s.raise .errBusy := if_pos hplan

theorem opFbuild_of_lMax_lt (hplan : s.syn.planActive = false) (hlong : lMax < payload.length) :
    opFbuild dir seq cmd1 cmd2 payload s = s.raise .errLen := by
  rw [opFbuild, if_neg (Bool.eq_false_iff.1 hplan), if_pos hlong]

theorem opFbuild_of_le_lMax (hplan : s.syn.planActive = false) (hfits : payload.length ≤ lMax) :
    opFbuild dir seq cmd1 cmd2 payload s
      = (s.setFrm { s.frm with frameBuf := buildFrames s.cfg.cmdByteOrder dir seq cmd1 cmd2 payload }).finish .ok
          (.frames (buildFrames s.cfg.cmdByteOrder dir seq cmd1 cmd2 payload)) := by
  rw [opFbuild, if_neg (Bool.eq_false_iff.1 hplan), if_neg (Nat.not_lt.2 hfits)]

end

/-- Settles O8: `65533` is `lMax`, and the three clauses are the three branches of `opFbuild`. -/
theorem fbuildResult : Obligations.FbuildResult := by
  intro dir seq cmd1 cmd2 payload s
  refine ⟨fun hplan => ?busy, fun hplan hlong => ?long, fun hplan hfits => ?built⟩
  case busy => rw [exec_fbuild, opFbuild_of_planActive hplan, State.raise]
  case long => rw [exec_fbuild, opFbuild_of_lMax_lt hplan hlong, State.raise]
  case built => rw [exec_fbuild, opFbuild_of_le_lMax hplan hfits, State.setFrm]

/-! ## `Check` -/

/-- A `Push` does not read the session registers, so it puts the same event into the same FIFO after they change. -/
theorem push_setSes (s : State) (x : SesRegs) (e : Event) :
    (s.setSes x).push e = (s.setSes x).setSts (s.push e).sts := by
  have hsts : ((s.setSes x).push e).sts = (s.push e).sts := push_sts_congr e (State.setSes_sts s x) (State.setSes_cfg s x)
  rw [(push_spec (s.setSes x) e).1, hsts]

section

variable {s : State}

theorem checkReply_of_noReply (hrplv : s.frm.rplv = false) :
    checkReply s = .warned .warnNoReply (s.push (.warning 0x13)) := if_pos hrplv

theorem checkReply_of_errByte_eq_zero (hrplv : s.frm.rplv = true) (hzero : s.errByte = 0) :
    checkReply s = .ok (s.setSes { s.ses with lastErr := 0 }) := by
  rw [checkReply, if_neg (ne_false_of_eq_true hrplv), if_pos hzero, hzero]

theorem checkReply_of_errByte_ne_zero (hrplv : s.frm.rplv = true) (herr : s.errByte ≠ 0) :
    checkReply s = .warned .warnDevErr
      ((s.setSes { s.ses with lastErr := s.errByte }).setSts (s.push (.warning 0x10)).sts) := by
  rw [checkReply, if_neg (ne_false_of_eq_true hrplv), if_neg herr, push_setSes]
  rfl

end

/-! ## `FCHECK` -/

section

variable {s : State}

theorem exec_fcheck : exec .fcheck s = .next (opFcheck s) := rfl

theorem opFcheck_of_planActive (hplan : s.syn.planActive = true) : opFcheck s = s.raise .errBusy := if_pos hplan

theorem opFcheck_of_not_planActive (hplan : s.syn.planActive = false) : opFcheck s = fcheckEnd (checkReply s) :=
  if_neg (Bool.eq_false_iff.1 hplan)

end

/-- Settles O11: without a plan `FCHECK` ends as `Check` does, with the `LAST_ERR` that `Check` leaves as its record. A
`Push` leaves `LAST_ERR` alone, so with no valid reply the record is the old one. -/
theorem fcheckResult : Obligations.FcheckResult := by
  rintro s e rfl
  refine ⟨fun hplan => ?busy, fun hplan hrplv => ?noReply, fun hplan hrplv hzero => ?zero, fun hplan hrplv herr => ?devErr⟩
  case busy => rw [exec_fcheck, opFcheck_of_planActive hplan, State.raise]
  case noReply =>
    rw [exec_fcheck, opFcheck_of_not_planActive hplan, checkReply_of_noReply hrplv, fcheckEnd, push_ses]
  case zero =>
    rw [exec_fcheck, opFcheck_of_not_planActive hplan, checkReply_of_errByte_eq_zero hrplv hzero, fcheckEnd,
      State.setSes_ses, State.setSes]
  case devErr =>
    rw [exec_fcheck, opFcheck_of_not_planActive hplan, checkReply_of_errByte_ne_zero hrplv herr, fcheckEnd,
      State.setSts_ses, State.setSes_ses]
    rfl

end Sys2Proof.Framer
end

section
/-! Upload sequencer (R130, R131, R147): what a passed `Validate` says of the repeat count, the three ends of `SDEFINE`,
and every change of the Sequence while a plan runs. -/

namespace Sys2Proof.Upload

open Sys2Proof.Machine

/-! ## What passes `Validate` -/

section

variable {c : Cfg} {pats : List PatIn} {rep : Repeat} {confirm : Bool}

theorem ne_nil_of_validate_eq_none (h : validate c pats rep confirm = none) : pats ≠ [] := by
  rintro rfl
  cases h

/-- With a bad repeat every path through `Validate` ends in a code: at the latest in that of step 6. -/
theorem repeatBad_of_validate_eq_none (h : validate c pats rep confirm = none) : repeatBad rep pats.length = false := by
  cases pats with
  | nil => cases h
  | cons p0 ps =>
    refine Bool.eq_false_iff.2 fun hbad => ?_
    simp only [validate, hbad, if_true] at h
    split_ifs at h
    split at h <;> cases h

end

/-! ## The repeat count -/

theorem repeatBad_finite_eq_false_iff {n : U32} {count : Nat} :
    repeatBad (.finite n) count = false ↔ n ≠ 0 ∧ n.toNat * count < 0xFFFFFFFF := by
  simp [repeatBad]

theorem repeatCount_inf (count : Nat) : repeatCount .inf count = 0xFFFFFFFF := rfl

theorem toNat_repeatCount_finite {n : U32} {count : Nat} (hfits : n.toNat * count < 2 ^ 32) :
    (repeatCount (.finite n) count).toNat = n.toNat * count := by
  rw [repeatCount, BitVec.toNat_ofNat, Nat.mod_eq_of_lt hfits]

/-- Settles O18: `Validate` leaves a product below the sentinel of two factors that are not 0, so the 32-bit field holds
the product itself. -/
theorem repeatCountLaw : Obligations.RepeatCountLaw := by
  refine ⟨fun c pats n confirm hvalid => ?_, repeatCount_inf⟩
  obtain ⟨hn, hbelow⟩ := repeatBad_finite_eq_false_iff.1 (repeatBad_of_validate_eq_none hvalid)
  have hcount := toNat_repeatCount_finite (hbelow.trans (by decide))
  have hn_pos : 0 < n.toNat := Nat.pos_of_ne_zero fun h0 => hn (BitVec.eq_of_toNat_eq h0)
  have hpats_pos : 0 < pats.length := List.length_pos_of_ne_nil (ne_nil_of_validate_eq_none hvalid)
  have hpos : 0 < n.toNat * pats.length := Nat.mul_pos hn_pos hpats_pos
  refine ⟨hcount, fun hzero => ?_, fun hsentinel => ?_⟩
  · rw [hzero] at hcount
    exact absurd hcount hpos.ne
  · rw [hsentinel] at hcount
    exact absurd hcount hbelow.ne'

/-! ## Changing the Sequence while a plan runs -/

/-- `UBF <- 1; raise ERR_UNDEFINED` as one write of the host registers and one of `HRES`. -/
theorem raiseUndefined_eq (s : State) :
    s.raiseUndefined = { s with host := { lastResult := 0x32, ubf := true }
                                ports := { s.ports with hres := some ⟨0x32, .none⟩ } } := rfl

section

variable {s : State} (hplan : s.syn.planActive = true)

include hplan

theorem exec_sdefine_of_planActive (pats : List PatIn) (rep : Repeat) (mode : PMode) (confirm : Bool) :
    exec (.sdefine pats rep mode confirm) s = .next s.raiseUndefined := congrArg Host.Outcome.next (if_pos hplan)

theorem exec_padd_of_planActive (a : U16) (pat : PatIn) : exec (.padd a pat) s = .next s.raiseUndefined :=
  congrArg Host.Outcome.next (if_pos hplan)

theorem exec_premove_of_planActive (a : U16) : exec (.premove a) s = .next s.raiseUndefined :=
  congrArg Host.Outcome.next (if_pos hplan)

theorem exec_pmove_of_planActive (src dst : U16) : exec (.pmove src dst) s = .next s.raiseUndefined :=
  congrArg Host.Outcome.next (if_pos hplan)

theorem exec_pset_of_planActive (a : U16) (pat : PatIn) : exec (.pset a pat) s = .next s.raiseUndefined :=
  congrArg Host.Outcome.next (if_pos hplan)

theorem exec_srepeat_of_planActive (rep : Repeat) : exec (.srepeat rep) s = .next s.raiseUndefined :=
  congrArg Host.Outcome.next (if_pos hplan)

end

/-- Settles O25: each of the six looks at `PLAN_ACTIVE` before anything else. -/
theorem mutatingUnderPlan : Obligations.MutatingUnderPlan := by
  intro s i hplan hmut
  have hexec : exec i s = .next s.raiseUndefined := by
    obtain ⟨pats, rep, mode, confirm, rfl⟩ | ⟨a, pat, rfl⟩ | ⟨a, rfl⟩ | ⟨src, dst, rfl⟩ | ⟨a, pat, rfl⟩ | ⟨rep, rfl⟩ := hmut
    · exact exec_sdefine_of_planActive hplan pats rep mode confirm
    · exact exec_padd_of_planActive hplan a pat
    · exact exec_premove_of_planActive hplan a
    · exact exec_pmove_of_planActive hplan src dst
    · exact exec_pset_of_planActive hplan a pat
    · exact exec_srepeat_of_planActive hplan rep
  rw [hexec, raiseUndefined_eq]

/-! ## `SDEFINE` -/

section

variable {pats : List PatIn} {rep : Repeat} {mode : PMode} {confirm : Bool} {s : State}

theorem exec_sdefine : exec (.sdefine pats rep mode confirm) s = .next (opSdefine pats rep mode confirm s) := rfl

theorem opSdefine_of_validate_eq_none (hplan : s.syn.planActive = false)
    (hvalid : validate s.cfg pats rep confirm = none) :
    opSdefine pats rep mode confirm s
      = (s.setUpl { s.upl with
          seqPats := assign s.cfg (pats.map freshPattern), seqRepeat := rep, seqMode := mode, seqValid := true
          seqGen := s.upl.seqGen + 1, isup := false, blocks := [] }).finish .ok (.handle (s.upl.seqGen + 1)) := by
  rw [opSdefine, if_neg (Bool.eq_false_iff.1 hplan), hvalid]

theorem opSdefine_of_validate_eq_some {r : Res} (hplan : s.syn.planActive = false)
    (hrefused : validate s.cfg pats rep confirm = some r) : opSdefine pats rep mode confirm s = s.raise r := by
  rw [opSdefine, if_neg (Bool.eq_false_iff.1 hplan), hrefused]

end

/-- Settles O22: the three clauses are the three branches of `opSdefine`. -/
theorem sdefineResult : Obligations.SdefineResult := by
  intro pats rep mode confirm s
  refine ⟨fun hplan => ?running, fun hplan hvalid => ?accepted, fun r hplan hrefused => ?refused⟩
  case running =>
    rw [exec_sdefine_of_planActive hplan, State.raiseUndefined, State.raise, State.setHost]
  case accepted => rw [exec_sdefine, opSdefine_of_validate_eq_none hplan hvalid, State.setUpl]
  case refused => rw [exec_sdefine, opSdefine_of_validate_eq_some hplan hrefused, State.raise]

end Sys2Proof.Upload
end

section
/-! Session (R174): which status words there are, and the two ends of `REGREAD`. -/

namespace Sys2Proof.Session

open Sys2Proof.Machine

/-! ## The status words there are -/

section

variable {s : State} {n : Nat}

theorem exists_statusWord_of_lt (h : n < 10) : ∃ w, statusWord s n = some w := by
  interval_cases n <;> exact ⟨_, rfl⟩

theorem statusWord_eq_none_of_le (h : 10 ≤ n) : statusWord s n = none := by
  obtain ⟨k, rfl⟩ := Nat.exists_eq_add_of_le' h
  rfl

end

/-! ## `REGREAD` -/

section

variable {n : Byte} {s : State}

theorem exec_regread : exec (.regread n) s = .next (opRegread n s) := rfl

theorem opRegread_of_statusWord_eq_some {w : U32} (h : statusWord s n.toNat = some w) :
    opRegread n s = s.finish .ok (.word w) := by
  rw [opRegread, h]

theorem opRegread_of_statusWord_eq_none (h : statusWord s n.toNat = none) : opRegread n s = s.raise .cfgRange := by
  rw [opRegread, h]

end

/-- Settles O34: `REGREAD` reads the word of the state before it and looks at no plan, so it ends as that word is there or
not. -/
theorem regreadResult : Obligations.RegreadResult := by
  intro n s
  refine ⟨fun hword => ?word, fun hreserved => ?reserved⟩
  case word =>
    obtain ⟨w, hw⟩ := exists_statusWord_of_lt (s := s) hword
    exact ⟨w, hw, by rw [exec_regread, opRegread_of_statusWord_eq_some hw]⟩
  case reserved =>
    rw [exec_regread, opRegread_of_statusWord_eq_none (statusWord_eq_none_of_le hreserved), State.raise]

end Sys2Proof.Session
end

section
/-! Synchronizer, host side (R176, R178, R180), and status FIFO (R49, R151, R209): one equation per end of `PSTART`, `PSTOP`
and `STREAD`, and per branch of `Push` and `Progress`. -/

namespace Sys2Proof.Synchronizer

open Sys2Proof.Machine

/-! ## `PSTART` -/

section

variable {plan : PlanRec} {s : State}

theorem exec_pstart : exec (.pstart plan) s = .next (opPstart plan s) := rfl

theorem opPstart_of_planActive (hplan : s.syn.planActive = true) : opPstart plan s = s.raise .errBusy := if_pos hplan

theorem opPstart_of_not_seqValid (hplan : s.syn.planActive = false) (hseq : s.upl.seqValid = false) :
    opPstart plan s = s.raise .errNoSeq := by
  rw [opPstart, if_neg (Bool.eq_false_iff.1 hplan), if_pos hseq]

theorem opPstart_of_planValidate_eq_some {r : Res} (hplan : s.syn.planActive = false) (hseq : s.upl.seqValid = true)
    (hrefused : planValidate s plan = some r) : opPstart plan s = s.raise r := by
  rw [opPstart, if_neg (Bool.eq_false_iff.1 hplan), if_neg (ne_false_of_eq_true hseq), hrefused]

/-- What is left of `PSTART` once the plan has passed `PlanValidate`: the two sessions it may need. -/
theorem opPstart_of_planValidate_eq_none (hplan : s.syn.planActive = false) (hseq : s.upl.seqValid = true)
    (hvalid : planValidate s plan = none) :
    opPstart plan s =
      if s.ses.sessValid = false ∨ (needsIllum plan = true ∧ s.ses.illValid = false) then s.raise .errNotConnected
      else s.beginPlan plan := by
  rw [opPstart, if_neg (Bool.eq_false_iff.1 hplan), if_neg (ne_false_of_eq_true hseq), hvalid, ite_or]

end

/-- The start of a plan as one write of each register group: the groups `PSTART` does not name stay as they are. -/
theorem beginPlan_eq (s : State) (plan : PlanRec) :
    s.beginPlan plan = State.finish
      { s with
        upl := if plan.mode = s.upl.seqMode then s.upl else { s.upl with seqMode := plan.mode, isup := false }
        syn := { s.syn with
          plan := plan, cycles := s.upl.seqRepeat, cancel := false, lastFault := 0x00, phase := .setup, cycle := 0
          index := 0, extActive := false, extBlank := false, planActive := true }
        work := [.setup] }
      .ok .none := by
  unfold State.beginPlan
  by_cases hmode : plan.mode = s.upl.seqMode
  · simp only [if_pos hmode]
    rfl
  · simp only [if_neg hmode]
    rfl

/-- Settles O38: each clause is one exit of `opPstart`, and the last is its start of the plan. -/
theorem pstartResult : Obligations.PstartResult := by
  intro plan s
  refine ⟨fun hplan => ?busy, fun hplan hseq => ?noSeq, fun r hplan hseq hrefused => ?refused,
    fun hplan hseq hvalid hmissing => ?notConnected, fun hplan hseq hvalid hsess hill => ?started⟩
  case busy => rw [exec_pstart, opPstart_of_planActive hplan, State.raise]
  case noSeq => rw [exec_pstart, opPstart_of_not_seqValid hplan hseq, State.raise]
  case refused => rw [exec_pstart, opPstart_of_planValidate_eq_some hplan hseq hrefused, State.raise]
  case notConnected =>
    rw [exec_pstart, opPstart_of_planValidate_eq_none hplan hseq hvalid, if_pos hmissing, State.raise]
  case started =>
    have hconnected : ¬ (s.ses.sessValid = false ∨ (needsIllum plan = true ∧ s.ses.illValid = false)) := by
      rintro (hno | ⟨hneeds, hno⟩)
      · exact ne_false_of_eq_true hsess hno
      · exact ne_false_of_eq_true (hill hneeds) hno
    rw [exec_pstart, opPstart_of_planValidate_eq_none hplan hseq hvalid, if_neg hconnected, beginPlan_eq]

/-! ## `PSTOP` and `STREAD` -/

section

variable {s : State}

theorem exec_pstop : exec .pstop s = .next (opPstop s) := rfl

theorem opPstop_of_planActive (hplan : s.syn.planActive = true) :
    opPstop s = (s.setSyn { s.syn with cancel := true }).raise .ok := if_pos hplan

theorem opPstop_of_not_planActive (hplan : s.syn.planActive = false) : opPstop s = s.raise .ok :=
  if_neg (Bool.eq_false_iff.1 hplan)

theorem exec_stread : exec .stread s = .next (opStread s) := rfl

theorem opStread_of_fifo_eq_nil (hfifo : s.sts.fifo = []) : opStread s = s.finish .ok (.event none s.sts.ovf) := by
  rw [opStread, hfifo]

theorem opStread_of_fifo_eq_cons {e : Event} {es : List Event} (hfifo : s.sts.fifo = e :: es) :
    opStread s
      = (s.setSts { fifo := es, ovf := if es = [] then false else s.sts.ovf }).finish .ok (.event (some e) s.sts.ovf) := by
  rw [opStread, hfifo]

end

/-- Settles O39: `PSTOP` looks at `PLAN_ACTIVE` alone, `STREAD` at the FIFO alone. -/
theorem pstopStreadResults : Obligations.PstopStreadResults := by
  refine ⟨fun s => ⟨fun hplan => ?running, fun hplan => ?noPlan⟩,
    fun s => ⟨fun hfifo => ?empty, fun e es hfifo => ?oldest⟩⟩
  case running => rw [exec_pstop, opPstop_of_planActive hplan, State.raise, State.setSyn]
  case noPlan => rw [exec_pstop, opPstop_of_not_planActive hplan, State.raise]
  case empty => rw [exec_stread, opStread_of_fifo_eq_nil hfifo]
  case oldest => rw [exec_stread, opStread_of_fifo_eq_cons hfifo, State.setSts]

/-! ## `Push` -/

theorem push_of_lt {s : State} {e : Event} (hroom : s.sts.fifo.length < s.cfg.statusDepth) :
    s.push e = s.setSts { s.sts with fifo := s.sts.fifo ++ [e] } := if_pos hroom

theorem push_of_le {s : State} {e : Event} (hfull : s.cfg.statusDepth ≤ s.sts.fifo.length) :
    s.push e = s.setSts { s.sts with ovf := true } := if_neg (Nat.not_lt.2 hfull)

/-! ## `Progress` -/

theorem u32Of_of_lt {n : Nat} (h : n < 2 ^ 32) : Config.u32Of n = BitVec.ofNat 32 n := if_pos h

theorem packetPct_of_ne_zero {done total : U32} (h : total ≠ 0) : packetPct done total = 100 * done.toNat / total.toNat :=
  if_neg h

/-- The three grounds on which `Progress` reports packet `done` at `pct` percent (R151). -/
abbrev Reports (s : State) (done pct : Nat) : Prop :=
  done % s.cfg.progPkts = 0 ∨ s.upl.pktPct.toNat / s.cfg.progPct < pct / s.cfg.progPct ∨ done = s.upl.pktTotal.toNat

section

variable {s : State} {done pct : Nat}

/-- `Progress` over numbers: up to the total, neither the packet count nor the percent is a free value. -/
theorem reportProgress_eq (hdone : done = s.upl.pktDone.toNat + 1)
    (hle : done ≤ s.upl.pktTotal.toNat) (hpct : pct = 100 * done / s.upl.pktTotal.toNat) :
    reportProgress s =
      if Reports s done pct then
        (s.setUpl { s.upl with pktDone := BitVec.ofNat 32 done, pktPct := BitVec.ofNat 8 pct }).push
          (.progress (BitVec.ofNat 8 pct) (BitVec.ofNat 32 done) s.upl.pktTotal)
      else s.setUpl { s.upl with pktDone := BitVec.ofNat 32 done } := by
  have hlt : done < 2 ^ 32 := hle.trans_lt s.upl.pktTotal.isLt
  have hcount : Config.u32Of (s.upl.pktDone.toNat + 1) = BitVec.ofNat 32 done := by rw [← hdone, u32Of_of_lt hlt]
  have htoNat : (BitVec.ofNat 32 done).toNat = done := by rw [BitVec.toNat_ofNat, Nat.mod_eq_of_lt hlt]
  have htotal : s.upl.pktTotal ≠ 0 := by bv_omega
  have hpercent : packetPct (BitVec.ofNat 32 done) s.upl.pktTotal = pct := by
    rw [packetPct_of_ne_zero htotal, htoNat, hpct]
  have hlast : BitVec.ofNat 32 done = s.upl.pktTotal ↔ done = s.upl.pktTotal.toNat := by
    rw [← BitVec.toNat_inj, htoNat]
  simp only [reportProgress, hcount, hpercent, htoNat, State.setUpl_cfg, State.setUpl_upl, State.setUpl_setUpl]
  exact if_congr (by rw [hlast]) rfl rfl

theorem reportProgress_of_reports (hdone : done = s.upl.pktDone.toNat + 1) (hle : done ≤ s.upl.pktTotal.toNat)
    (hpct : pct = 100 * done / s.upl.pktTotal.toNat) (hreports : Reports s done pct) :
    reportProgress s
      = (s.setUpl { s.upl with pktDone := BitVec.ofNat 32 done, pktPct := BitVec.ofNat 8 pct }).push
          (.progress (BitVec.ofNat 8 pct) (BitVec.ofNat 32 done) s.upl.pktTotal) := by
  rw [reportProgress_eq hdone hle hpct, if_pos hreports]

theorem reportProgress_of_not_reports (hdone : done = s.upl.pktDone.toNat + 1) (hle : done ≤ s.upl.pktTotal.toNat)
    (hpct : pct = 100 * done / s.upl.pktTotal.toNat) (hsilent : ¬ Reports s done pct) :
    reportProgress s = s.setUpl { s.upl with pktDone := BitVec.ofNat 32 done } := by
  rw [reportProgress_eq hdone hle hpct, if_neg hsilent]

end

/-- The last packet of a positive total is reported as 100 percent, whatever was reported before it. -/
theorem reportProgress_of_last {s : State} (hlast : s.upl.pktDone + 1 = s.upl.pktTotal) (htotal : s.upl.pktTotal ≠ 0) :
    reportProgress s
      = (s.setUpl { s.upl with pktDone := s.upl.pktTotal, pktPct := 100 }).push
          (.progress 100 s.upl.pktTotal s.upl.pktTotal) := by
  have hpos : 0 < s.upl.pktTotal.toNat := Nat.pos_of_ne_zero fun h => htotal (BitVec.eq_of_toNat_eq h)
  have hdone : s.upl.pktTotal.toNat = s.upl.pktDone.toNat + 1 := by bv_omega
  have hpct : 100 = 100 * s.upl.pktTotal.toNat / s.upl.pktTotal.toNat := (Nat.mul_div_cancel _ hpos).symm
  have hreported := reportProgress_of_reports hdone (Nat.le_refl _) hpct (.inr (.inr rfl))
  rwa [BitVec.ofNat_toNat, BitVec.setWidth_eq] at hreported

/-- Settles O40: `Push` by the room in the FIFO, `Progress` by its three grounds to report. -/
theorem pushAndProgress : Obligations.PushAndProgress := by
  refine ⟨fun s e => ⟨fun hroom => ?room, fun hfull => ?full⟩, ?codes,
    fun s done pct hdone hle hpct => ⟨fun hreports => ?reported, fun hpkts hstep hnotLast => ?silent⟩,
    fun s hlast htotal => ?last⟩
  case room => rw [push_of_lt hroom, State.setSts]
  case full => rw [push_of_le hfull, State.setSts]
  case codes => exact fun _ _ _ _ _ _ => ⟨rfl, rfl, rfl, rfl, rfl, rfl, rfl, rfl⟩
  case reported => rw [reportProgress_of_reports hdone hle hpct hreports, State.setUpl]
  case silent =>
    have hsilent : ¬ Reports s done pct := by
      rintro (hdiv | hmore | hend)
      · exact hpkts hdiv
      · exact Nat.not_lt.2 hstep hmore
      · exact hnotLast hend
    rw [reportProgress_of_not_reports hdone hle hpct hsilent, State.setUpl]
  case last => rw [reportProgress_of_last hlast htotal, State.setUpl]

end Sys2Proof.Synchronizer
end

section
/-! Exceptions (R222): every operation that uses the projector, the frame buffer or the plan itself looks at `PLAN_ACTIVE`
before anything else. The session operations do so through the common preconditions of R160, the others at their own head. -/

namespace Sys2Proof.Exceptions

open Sys2Proof.Machine

/-- `raise ERR_BUSY` as one write of `LAST_RESULT` and one of `HRES`. -/
theorem raise_errBusy_eq (s : State) :
    s.raise .errBusy = { s with host := { s.host with lastResult := 0x30 }
                                ports := { s.ports with hres := some ⟨0x30, .none⟩ } } := rfl

section

variable {s : State} (hplan : s.syn.planActive = true)

include hplan

/-! ## Framer and upload operations -/

theorem exec_fbuild_of_planActive (dir seq cmd1 cmd2 : Byte) (payload : List Byte) :
    exec (.fbuild dir seq cmd1 cmd2 payload) s = .next (s.raise .errBusy) :=
  Framer.exec_fbuild.trans (congrArg Host.Outcome.next (Framer.opFbuild_of_planActive hplan))

theorem exec_fsend_of_planActive (cls : Cls) : exec (.fsend cls) s = .next (s.raise .errBusy) :=
  congrArg Host.Outcome.next (if_pos hplan)

theorem exec_fcheck_of_planActive : exec .fcheck s = .next (s.raise .errBusy) :=
  Framer.exec_fcheck.trans (congrArg Host.Outcome.next (Framer.opFcheck_of_planActive hplan))

theorem exec_defpat_of_planActive (index : U16) (expUs : U32) (bd color : Byte) (trigIn : Bool) (darkUs trigOut : U32)
    (blk : U16) (bitpos : Byte) :
    exec (.defpat index expUs bd color trigIn darkUs trigOut blk bitpos) s = .next (s.raise .errBusy) :=
  congrArg Host.Outcome.next (if_pos hplan)

theorem exec_cfglut_of_planActive (count : U16) (rep : U32) : exec (.cfglut count rep) s = .next (s.raise .errBusy) :=
  congrArg Host.Outcome.next (if_pos hplan)

theorem exec_imgblk_of_planActive (idx : U16) (block : List Byte) :
    exec (.imgblk idx block) s = .next (s.raise .errBusy) :=
  congrArg Host.Outcome.next (if_pos hplan)

theorem exec_supload_of_planActive (confirm : Bool) : exec (.supload confirm) s = .next (s.raise .errBusy) :=
  congrArg Host.Outcome.next (if_pos hplan)

/-! ## Session operations -/

theorem exec_connect_of_planActive : exec .connect s = .next (s.raise .errBusy) :=
  congrArg Host.Outcome.next (if_pos hplan)

theorem exec_disconnect_of_planActive : exec .disconnect s = .next (s.raise .errBusy) :=
  congrArg Host.Outcome.next (if_pos hplan)

theorem exec_illconnect_of_planActive : exec .illconnect s = .next (s.raise .errBusy) :=
  congrArg Host.Outcome.next (if_pos hplan)

/-- The plan is the first of the preconditions of R160: it comes before the question whether a session is open. -/
theorem sessionReady_of_planActive : sessionReady s = some .errBusy := if_pos hplan

theorem opSetmode_of_planActive (m : Byte) : opSetmode m s = s.raise .errBusy := by
  rw [opSetmode, sessionReady_of_planActive hplan]

theorem opStart_of_planActive : opStart s = s.raise .errBusy := by
  rw [opStart, sessionReady_of_planActive hplan]

theorem opStop_of_planActive : opStop s = s.raise .errBusy := by
  rw [opStop, sessionReady_of_planActive hplan]

theorem opPause_of_planActive : opPause s = s.raise .errBusy := by
  rw [opPause, sessionReady_of_planActive hplan]

theorem exec_setmode_of_planActive (m : Byte) : exec (.setmode m) s = .next (s.raise .errBusy) :=
  congrArg Host.Outcome.next (opSetmode_of_planActive hplan m)

theorem exec_start_of_planActive : exec .start s = .next (s.raise .errBusy) :=
  congrArg Host.Outcome.next (opStart_of_planActive hplan)

theorem exec_stop_of_planActive : exec .stop s = .next (s.raise .errBusy) :=
  congrArg Host.Outcome.next (opStop_of_planActive hplan)

theorem exec_pause_of_planActive : exec .pause s = .next (s.raise .errBusy) :=
  congrArg Host.Outcome.next (opPause_of_planActive hplan)

/-! ## Synchronizer -/

theorem exec_pstart_of_planActive (plan : PlanRec) : exec (.pstart plan) s = .next (s.raise .errBusy) :=
  Synchronizer.exec_pstart.trans (congrArg Host.Outcome.next (Synchronizer.opPstart_of_planActive hplan))

end

/-- Settles O48: each of the fifteen is refused by its own look at `PLAN_ACTIVE`, and the refusal is the two writes. -/
theorem busyDuringPlan : Obligations.BusyDuringPlan := by
  intro i s hplan hop
  have hexec : exec i s = .next (s.raise .errBusy) := by
    obtain ⟨dir, seq, cmd1, cmd2, payload, rfl⟩ | ⟨cls, rfl⟩ | rfl
      | ⟨index, expUs, bd, color, trigIn, darkUs, trigOut, blk, bitpos, rfl⟩ | ⟨count, rep, rfl⟩ | ⟨idx, block, rfl⟩
      | ⟨confirm, rfl⟩ | rfl | rfl | ⟨m, rfl⟩ | rfl | rfl | rfl | rfl | ⟨plan, rfl⟩ := hop
    · exact exec_fbuild_of_planActive hplan dir seq cmd1 cmd2 payload
    · exact exec_fsend_of_planActive hplan cls
    · exact exec_fcheck_of_planActive hplan
    · exact exec_defpat_of_planActive hplan index expUs bd color trigIn darkUs trigOut blk bitpos
    · exact exec_cfglut_of_planActive hplan count rep
    · exact exec_imgblk_of_planActive hplan idx block
    · exact exec_supload_of_planActive hplan confirm
    · exact exec_connect_of_planActive hplan
    · exact exec_disconnect_of_planActive hplan
    · exact exec_setmode_of_planActive hplan m
    · exact exec_start_of_planActive hplan
    · exact exec_stop_of_planActive hplan
    · exact exec_pause_of_planActive hplan
    · exact exec_illconnect_of_planActive hplan
    · exact exec_pstart_of_planActive hplan plan
  rw [hexec, raise_errBusy_eq]

end Sys2Proof.Exceptions
end

section
/-! Round trips of the encoders (R69 to R93): a host operation is read back from its op byte and record, a wire command
from its frames. -/

namespace Sys2Proof.RoundTrip

open Sys2Proof.Machine

/-! ## Operand records -/

@[simp] theorem dByte_cons (b : Byte) (rest : List Byte) : dByte (b :: rest) = some (b, rest) := rfl

theorem reads_pat : Reads dPat ePat := by
  intro p rest
  simp [ePat, dPat, reads_bytes _ _, reads_u32 _ _, reads_bit _ _]

theorem reads_activation : Reads dActivation eActivation := by
  intro a rest
  simp [eActivation, dActivation, reads_chan _ _, reads_u16 _ _]

theorem reads_plan : Reads dPlan ePlan := by
  intro p rest
  simp [ePlan, dPlan, reads_mode _ _, reads_disc _ _, reads_list reads_u32 _ _, reads_u32 _ _, reads_sel _ _,
    reads_bit _ _, reads_list (reads_list reads_activation) _ _]

/-! ## Host operations -/

theorem decode_of_decodeRecord {op : Byte} {bs rest : List Byte} {i : Instr}
    (h : decodeRecord op.toNat bs = some (some (i, rest))) : decode (op :: bs) = .ok (i, rest) := by
  simp only [decode, h]

/-- Settles O3: by the rows of R70, each record being read field by field as its encoder wrote it. -/
theorem hostOpsRoundTrip : Obligations.HostOpsRoundTrip := by
  intro c i rest hk
  cases i with
  | fbuild dir seq cmd1 cmd2 payload =>
    exact decode_of_decodeRecord (by simp [decodeRecord, reads_bytes _ _])
  | fsend cls => exact decode_of_decodeRecord (by simp [decodeRecord, reads_cls _ _])
  | fcheck => rfl
  | enc1 rasters => exact decode_of_decodeRecord (by simp [decodeRecord, reads_list reads_bytes _ _])
  | enc8 raster => exact decode_of_decodeRecord (by simp [decodeRecord, reads_bytes _ _])
  | dec1 block => exact decode_of_decodeRecord (by simp [decodeRecord, reads_bytes _ _])
  | dec8 block => exact decode_of_decodeRecord (by simp [decodeRecord, reads_bytes _ _])
  | sdefine pats rep mode confirm =>
    exact decode_of_decodeRecord (by
      simp [decodeRecord, reads_list reads_pat _ _, reads_repeat _ _, reads_mode _ _, reads_bit _ _])
  | padd a pat => exact decode_of_decodeRecord (by simp [decodeRecord, reads_u16 _ _, reads_pat _ _])
  | premove a => exact decode_of_decodeRecord (by simp [decodeRecord, reads_u16 _ _])
  | pmove src dst => exact decode_of_decodeRecord (by simp [decodeRecord, reads_u16 _ _])
  | pset a pat => exact decode_of_decodeRecord (by simp [decodeRecord, reads_u16 _ _, reads_pat _ _])
  | defpat index expUs bd color trigIn darkUs trigOut blk bitpos =>
    exact decode_of_decodeRecord (by simp [decodeRecord, reads_u16 _ _, reads_u32 _ _, reads_bit _ _])
  | cfglut count rep => exact decode_of_decodeRecord (by simp [decodeRecord, reads_u16 _ _, reads_u32 _ _])
  | imgblk idx block => exact decode_of_decodeRecord (by simp [decodeRecord, reads_u16 _ _, reads_bytes _ _])
  | supload confirm => exact decode_of_decodeRecord (by simp [decodeRecord, reads_bit _ _])
  | srepeat rep => exact decode_of_decodeRecord (by simp [decodeRecord, reads_repeat _ _])
  | connect => rfl
  | disconnect => rfl
  | setmode m => rfl
  | start => rfl
  | stop => rfl
  | pause => rfl
  | illconnect => rfl
  | regread n => rfl
  | pstart plan => exact decode_of_decodeRecord (by simp [decodeRecord, reads_plan _ _])
  | pstop => rfl
  | stread => rfl
  | _ => cases hk

end Sys2Proof.RoundTrip
end

section
/-! What the constraints R12 and R13 and the model's own (notes/assumptions/6.md) say of a well-formed configuration. -/

namespace Sys2Proof.Config

section

variable (c : Cfg)

theorem r13_of_cfg : c.toParams.r13 = true := by
  have h := c.ok
  simp only [Params.wf, Bool.and_eq_true] at h
  exact h.1.1

theorem r12_of_cfg : c.toParams.r12 = true := by
  have h := c.ok
  simp only [Params.wf, Bool.and_eq_true] at h
  exact h.1.2

theorem used_of_cfg : c.toParams.used = true := by
  have h := c.ok
  simp only [Params.wf, Bool.and_eq_true] at h
  exact h.2

theorem one_le_chunk : 1 ≤ c.chunk := by
  have h := r13_of_cfg c
  simp only [Params.r13, decide_eq_true_eq] at h
  omega

theorem chunk_le : c.chunk + 2 ≤ lMax := by
  have h := r13_of_cfg c
  simp only [Params.r13, decide_eq_true_eq] at h
  simp only [lMax] at h ⊢
  omega

theorem one_le_expMin : 1 ≤ c.expMin1 ∧ c.expMin1 ≤ c.expMin8 := by
  have h := r13_of_cfg c
  have hu := used_of_cfg c
  simp only [Params.r13, Params.used, decide_eq_true_eq] at h hu
  omega

theorem lutTail_le : 6 + c.lutTail.length ≤ lMax := by
  have h := used_of_cfg c
  simp only [Params.used, decide_eq_true_eq] at h
  omega

theorem playValues_ne : c.valStop ≠ c.valPause ∧ c.valStop ≠ c.valPlay ∧ c.valPause ≠ c.valPlay := by
  simpa only [Params.r12, decide_eq_true_eq] using r12_of_cfg c

end

end Sys2Proof.Config
end

section
/-! The frames of a command (R75, R76, R80, R106): how many they are, how long, and what they are as one byte string; and the
wire decoder on them. -/

namespace Sys2Proof.Frames

open Sys2Proof.Machine

/-! ## Counting pieces -/

theorem length_piecesOf {α : Type} {n : Nat} (hn : 0 < n) (f : Nat) (l : List α) (hf : l.length ≤ f) :
    (piecesOf n f l).length = (l.length + n - 1) / n := by
  induction f generalizing l with
  | zero =>
    obtain rfl := List.length_eq_zero_iff.1 (Nat.le_zero.1 hf)
    simp [piecesOf, Nat.div_eq_of_lt (Nat.sub_lt hn Nat.one_pos)]
  | succ f ih =>
    cases l with
    | nil => simp [piecesOf, Nat.div_eq_of_lt (Nat.sub_lt hn Nat.one_pos)]
    | cons x xs =>
      have hlen : ((x :: xs).drop n).length ≤ f := by simp at hf ⊢; omega
      rw [piecesOf, List.length_cons, ih _ hlen, List.length_drop, ← Nat.add_div_right _ hn]
      have hpos : 1 ≤ (x :: xs).length := by simp
      generalize (x :: xs).length = m at hpos ⊢
      by_cases hm : n ≤ m
      · congr 1; omega
      · have hone : (m + n - 1) / n = 1 := Nat.div_eq_of_lt_le (by omega) (by omega)
        have hzero : m - n = 0 := by omega
        rw [hzero, hone]
        exact Nat.div_eq_of_lt_le (by omega) (by omega)

/-- A byte string takes `ceil(length / n)` pieces. -/
theorem length_pieces {α : Type} {n : Nat} (hn : 0 < n) (l : List α) : (pieces n l).length = ceilDiv l.length n :=
  length_piecesOf hn _ l (Nat.le_refl _)

/-! ## Frames -/

@[simp] theorem length_frameHeader (o : ByteOrder) (dir seq cmd1 cmd2 : Byte) (len : Nat) :
    (frameHeader o dir seq cmd1 cmd2 len).length = 6 := by cases o <;> rfl

section

variable (o : ByteOrder) (dir seq cmd1 cmd2 : Byte) (p : List Byte)

theorem length_buildFrames : (buildFrames o dir seq cmd1 cmd2 p).length = frameCount p.length := by
  rw [buildFrames, List.length_cons, List.length_map, length_pieces (by decide), List.length_drop, frameCount]
  split
  case isTrue h => rw [Nat.sub_eq_zero_of_le h]; rfl
  case isFalse => rw [Nat.add_comm]

theorem length_of_mem_buildFrames {f : Frame} (h : f ∈ buildFrames o dir seq cmd1 cmd2 p) : f.length = 64 := by
  rw [buildFrames, List.mem_cons, List.mem_map] at h
  obtain rfl | ⟨q, -, rfl⟩ := h <;> exact length_fitTo 64 _

theorem frameCount_eq (len : Nat) : frameCount len = if len ≤ 58 then 1 else 1 + (len - 58 + 63) / 64 := rfl

theorem frameCount_le {len : Nat} (h : len ≤ 65533) : frameCount len ≤ 1025 := by
  rw [frameCount_eq]
  split <;> omega

theorem length_buildFrames_le (h : p.length ≤ 65533) : (buildFrames o dir seq cmd1 cmd2 p).length ≤ 1025 := by
  rw [length_buildFrames]; exact frameCount_le h

theorem buildFrames_ne_nil : buildFrames o dir seq cmd1 cmd2 p ≠ [] := List.cons_ne_nil _ _

/-- A payload within the first frame takes that frame alone. -/
theorem buildFrames_of_short (h : p.length ≤ 58) : ∃ f, buildFrames o dir seq cmd1 cmd2 p = [f] :=
  List.length_eq_one_iff.1 ((length_buildFrames o dir seq cmd1 cmd2 p).trans (if_pos h))

end

/-- Settles O7. -/
theorem frameCountLaw : Obligations.FrameCountLaw := fun o dir seq cmd1 cmd2 p =>
  ⟨length_buildFrames o dir seq cmd1 cmd2 p, fun _ => length_of_mem_buildFrames o dir seq cmd1 cmd2 p,
    length_buildFrames_le o dir seq cmd1 cmd2 p⟩

/-- The frames of a command one after the other: the header, the payload, zeros to the end of the last frame. -/
theorem flatten_buildFrames (o : ByteOrder) (dir seq cmd1 cmd2 : Byte) (p : List Byte) :
    (buildFrames o dir seq cmd1 cmd2 p).flatten
      = frameHeader o dir seq cmd1 cmd2 p.length ++ (p ++ zeros (64 * frameCount p.length - 6 - p.length)) := by
  have hhead := length_frameHeader o dir seq cmd1 cmd2 p.length
  have hfit : ∀ l : List Byte, ((pieces 64 l).map (fitTo 64)).flatten = l ++ zeros (64 * ((l.length + 63) / 64) - l.length) :=
    fun l => pieces_fit l l.length (Nat.le_refl _)
  rw [buildFrames, List.flatten_cons, frameBytes, hfit, List.length_drop]
  rw [frameCount_eq, p1Bytes]
  split
  case isTrue hshort =>
    have hrest : p.length - 58 = 0 := by omega
    have htake : p.take 58 = p := List.take_of_length_le hshort
    have hpad : 64 * 1 - 6 - p.length = 64 - (6 + p.length) := by omega
    have hmin : min (64 - (6 + p.length)) 64 = 64 - (6 + p.length) := Nat.min_eq_left (by omega)
    have hfull : 64 ≥ (frameHeader o dir seq cmd1 cmd2 p.length ++ p).length := by simp; omega
    rw [List.drop_of_length_le hshort, hrest, htake, fitTo, List.take_append, List.take_of_length_le hfull]
    rw [List.append_assoc, List.length_append, hhead, hpad, zeros, List.take_replicate, hmin]
    simp [zeros]
  case isFalse hlong =>
    have hfull : (frameHeader o dir seq cmd1 cmd2 p.length ++ p.take 58).length = 64 := by simp; omega
    have hpad : 64 * ((p.length - 58 + 63) / 64) - (p.length - 58)
        = 64 * (1 + (p.length - 58 + 63) / 64) - 6 - p.length := by omega
    rw [fitTo_self 64 _ hfull, hpad, List.append_assoc, ← List.append_assoc (p.take 58), List.take_append_drop]

/-! ## The wire decoder -/

theorem headerOpc_cmdBytes (o : ByteOrder) (opc : Opc) :
    ∃ b4 b5, cmdBytes o opc.cmd1 opc.cmd2 = [b4, b5] ∧ headerOpc o b4 b5 = opc := by
  cases o <;> exact ⟨_, _, rfl, rfl⟩

/-- The wire decoder on the frames of a command within the length limit: the length field says where the payload ends and
the padding is zero, so what is left to read is the command itself. -/
theorem decodeWire_stream (c : Cfg) (k : Cmd) (rest : List Byte) (hlen : k.payload.length ≤ lMax) :
    decodeWire c (k.stream c ++ rest) = (decodeCmd c k.dir k.seq k.opc k.payload).map (·, rest) := by
  obtain ⟨b4, b5, hcmd, hopc⟩ := headerOpc_cmdBytes c.cmdByteOrder k.opc
  have hfield : (BitVec.ofNat 16 (k.payload.length + 2)).toNat = k.payload.length + 2 := by
    rw [BitVec.toNat_ofNat]; simp only [lMax] at hlen; omega
  have hcount : k.payload.length + 6 ≤ 64 * frameCount k.payload.length := by
    rw [frameCount_eq]; split <;> omega
  rw [Cmd.stream, Cmd.frames, flatten_buildFrames, frameHeader, hcmd, le16]
  simp only [List.cons_append, List.nil_append, decodeWire, of16_le16, hfield, frameBytes, hopc, Nat.add_sub_cancel,
    List.append_assoc]
  generalize hbody : 64 * frameCount k.payload.length - 6 = body
  have hle : k.payload.length ≤ body := by omega
  have htake : (k.payload ++ (zeros (body - k.payload.length) ++ rest)).take body
      = k.payload ++ zeros (body - k.payload.length) := by
    rw [← List.append_assoc]; exact List.take_left' (by simp; omega)
  have hdrop : (k.payload ++ (zeros (body - k.payload.length) ++ rest)).drop body = rest := by
    rw [← List.append_assoc]; exact List.drop_left' (by simp; omega)
  rw [if_neg (by simp; omega), htake, hdrop, List.drop_left, List.take_left, if_pos (by simp [zeros])]

end Sys2Proof.Frames
end

section
/-! The wire decoder on each of the nine commands (R82 to R93). -/

namespace Sys2Proof.RoundTrip

open Sys2Proof.Machine

/-- Settles O1. -/
theorem hostWordsDecode : Obligations.HostWordsDecode := ⟨rfl, rfl, rfl, rfl, rfl, rfl, rfl⟩

/-! ## The packed fields of pattern define (R85, R86) -/

section

variable (trigIn : Bool) (color bd1 : BitVec 3) (spare : BitVec 1) (blk : BitVec 11) (bitpos : BitVec 5)

theorem optionsByte_spare : (optionsByte trigIn color bd1 spare).extractLsb' 0 1 = spare := by
  refine BitVec.eq_of_toNat_eq ?_
  rw [BitVec.extractLsb'_toNat, Encoding.toNat_optionsByte, Nat.shiftRight_zero]
  split <;> omega

theorem optionsByte_bd1 : (optionsByte trigIn color bd1 spare).extractLsb' 1 3 = bd1 := by
  refine BitVec.eq_of_toNat_eq ?_
  rw [BitVec.extractLsb'_toNat, Encoding.toNat_optionsByte, Nat.shiftRight_eq_div_pow]
  split <;> omega

theorem optionsByte_color : (optionsByte trigIn color bd1 spare).extractLsb' 4 3 = color := by
  refine BitVec.eq_of_toNat_eq ?_
  rw [BitVec.extractLsb'_toNat, Encoding.toNat_optionsByte, Nat.shiftRight_eq_div_pow]
  split <;> omega

theorem optionsByte_trigIn : (optionsByte trigIn color bd1 spare)[7] = trigIn := by
  rw [← BitVec.getLsbD_eq_getElem, ← BitVec.testBit_toNat, Nat.testBit_eq_decide_div_mod_eq, Encoding.toNat_optionsByte]
  cases trigIn
  · exact decide_eq_false (by simp; omega)
  · exact decide_eq_true (by simp; omega)

theorem blockWord_blk : (blockWord blk bitpos).extractLsb' 0 11 = blk := by
  refine BitVec.eq_of_toNat_eq ?_
  rw [BitVec.extractLsb'_toNat, Encoding.toNat_blockWord, Nat.shiftRight_zero]
  omega

theorem blockWord_bitpos : (blockWord blk bitpos).extractLsb' 11 5 = bitpos := by
  refine BitVec.eq_of_toNat_eq ?_
  rw [BitVec.extractLsb'_toNat, Encoding.toNat_blockWord, Nat.shiftRight_eq_div_pow]
  omega

end

/-! ## The commands -/

section

variable {c : Cfg} {i : Instr} {k : Cmd}

theorem encode_of_wireCmd (h : i.wireCmd c = some k) : encode c i = k.stream c := by
  cases i <;> cases h <;> rfl

theorem chunkOk_iff {data : List Byte} : c.chunkOk data = true ↔ 1 ≤ data.length ∧ data.length ≤ c.chunk := by
  simp only [Cfg.chunkOk, decide_eq_true_eq]

/-- Every command of R93 fits the length limit (R107): the longest are the LUT and a whole chunk. -/
theorem payload_le_of_wireCmd (h : i.wireCmd c = some k) (hw : i.wellFormed c = true) : k.payload.length ≤ lMax := by
  have hlut := Config.lutTail_le c
  have hchunk := Config.chunk_le c
  cases i with
  | wImgdata data =>
    obtain ⟨-, hle⟩ := chunkOk_iff.1 hw
    cases h
    simp [dataCmd, le16]
    omega
  | wLut count rep => 
    cases h
    simp [lutCmd, ctrlCmd, le16, le32]
    omega
  | wMode | wPlayctl | wDefpat | wImgsize | wErrq | wInsrc | wTrigmode => cases h; exact Nat.le_of_ble_eq_true rfl
  | _ => cases h

/-- The receiver of a command's header and payload reads that command: the opcode pair finds the row, and the payload's
fields are read as they were written. -/
theorem decodeCmd_of_wireCmd (hd : c.opcodesDistinct) (h : i.wireCmd c = some k) (hw : i.wellFormed c = true) :
    decodeCmd c k.dir k.seq k.opc k.payload = some i := by
  replace hd := List.nodup_reverse.2 hd
  simp only [Params.opcodes, List.reverse_cons, List.reverse_nil, List.nil_append, List.cons_append, List.nodup_cons,
    List.mem_cons, List.not_mem_nil, or_false, not_or] at hd
  cases i with
  | wMode m => cases h; simp [decodeCmd, modeCmd, ctrlCmd]
  | wPlayctl v =>
    obtain ⟨h1, h2, h3⟩ := Config.playValues_ne c
    cases h
    cases v <;> simp [decodeCmd, playCmd, ctrlCmd, PlayVal.byte, hd, h1.symm, h2.symm, h3.symm]
  | wDefpat index expUs bd1 color trigIn darkUs trigOut blk bitpos =>
    cases h
    simp [decodeCmd, defPatCmd, ctrlCmd, defPatPayload, le16, le24, hd, of16_le16, of24_le24, optionsByte_spare,
      optionsByte_bd1, optionsByte_color, optionsByte_trigIn, blockWord_blk, blockWord_bitpos]
  | wLut count rep => cases h; simp [decodeCmd, lutCmd, ctrlCmd, le16, le32, hd, of16_le16, of32_le32]
  | wImgsize idx size => cases h; simp [decodeCmd, sizeCmd, le16, le32, hd, of16_le16, of32_le32]
  | wImgdata data =>
    have hlen : (BitVec.ofNat 16 data.length).toNat = data.length := by
      have hchunk := Config.chunk_le c
      obtain ⟨-, hle⟩ := chunkOk_iff.1 hw
      simp only [lMax] at hchunk
      rw [BitVec.toNat_ofNat]
      omega
    replace hw : c.chunkOk data = true := hw
    cases h
    simp [decodeCmd, dataCmd, le16, hd, of16_le16, hlen, hw, -BitVec.toNat_ofNat]
  | wErrq => cases h; simp [decodeCmd, errqCmd, hd]
  | wInsrc => cases h; simp [decodeCmd, inSrcCmd, ctrlCmd, hd]
  | wTrigmode => cases h; simp [decodeCmd, trigModeCmd, ctrlCmd, hd]
  | _ => cases h

theorem exists_wireCmd (hk : i.kind = .wire) : ∃ k, i.wireCmd c = some k := by
  cases i <;> cases hk <;> exact ⟨_, rfl⟩

end

/-- Settles O4: the stream of a command is read back as its header and payload, and these as the command. -/
theorem wireCommandsRoundTrip : Obligations.WireCommandsRoundTrip := by
  intro c i rest hdistinct hkind hw
  obtain ⟨k, hcmd⟩ := exists_wireCmd (c := c) hkind
  rw [encode_of_wireCmd hcmd, Frames.decodeWire_stream c k rest (payload_le_of_wireCmd hcmd hw),
    decodeCmd_of_wireCmd hdistinct hcmd hw, Option.map_some]

end Sys2Proof.RoundTrip
end

section
/-! The `RLE-S` encoder (R97): how long a run and a literal are, one equation per record, and the round trip through the
record format of R96. -/

namespace Sys2Proof.Rle

open Sys2Proof.Machine

/-! ## Runs and literals -/

/-- A run of two, and a literal of one before it. -/
example : runLen [5] 9 [[5], [6]] = 1 ∧ litLen 9 [[4], [5], [5]] = 1 := by simp [runLen, litLen]

theorem runLen_le (x : List Byte) (n : Nat) (ys : List (List Byte)) : runLen x n ys ≤ n := by
  induction n generalizing ys with
  | zero => exact Nat.le_refl _
  | succ n ih =>
    cases ys with
    | nil => exact Nat.zero_le _
    | cons y ys =>
      rw [runLen]
      split
      · have := ih ys; omega
      · exact Nat.zero_le _

/-- The symbols a run counts are copies of its symbol. -/
theorem eq_replicate_append_drop (x : List Byte) (n : Nat) (ys : List (List Byte)) :
    ys = List.replicate (runLen x n ys) x ++ ys.drop (runLen x n ys) := by
  induction n generalizing ys with
  | zero => rfl
  | succ n ih =>
    cases ys with
    | nil => rfl
    | cons y ys =>
      rw [runLen]
      split
      case isTrue h =>
        subst h
        rw [Nat.add_comm, List.replicate_succ, List.drop_succ_cons, List.cons_append, ← ih ys]
      case isFalse => rfl

/-- A run goes on to the limit or to the next symbol that differs. -/
theorem runLen_replicate_append (x : List Byte) (n m : Nat) (rest : List (List Byte)) (hm : m ≤ n)
    (hend : m = n ∨ rest.head? ≠ some x) : runLen x n (List.replicate m x ++ rest) = m := by
  induction m generalizing n with
  | zero =>
    match n, rest with
    | 0, _ => rfl
    | _ + 1, [] => rfl
    | n + 1, y :: ys =>
      obtain h | h := hend
      · cases h
      · exact if_neg fun hy => h (congrArg some hy)
  | succ m ih =>
    obtain ⟨n, rfl⟩ := Nat.exists_eq_succ_of_ne_zero (by omega : n ≠ 0)
    have hend' : m = n ∨ rest.head? ≠ some x := hend.imp_left (by omega)
    rw [List.replicate_succ, List.cons_append, runLen, if_pos rfl, ih n (by omega) hend', Nat.add_comm]

theorem runLen_eq_zero_iff {x : List Byte} {n : Nat} {ys : List (List Byte)} :
    runLen x (n + 1) ys = 0 ↔ ys.head? ≠ some x := by
  cases ys with
  | nil => simp [runLen]
  | cons y ys => rw [runLen]; split <;> simp_all

theorem litLen_le (n : Nat) (xs : List (List Byte)) : litLen n xs ≤ n := by
  induction n generalizing xs with
  | zero => exact Nat.le_refl _
  | succ n ih =>
    cases xs with
    | nil => exact Nat.zero_le _
    | cons x xs =>
      rw [litLen]
      split
      · exact Nat.zero_le _
      · have := ih xs; omega

theorem litLen_le_length (n : Nat) (xs : List (List Byte)) : litLen n xs ≤ xs.length := by
  induction n generalizing xs with
  | zero => exact Nat.zero_le _
  | succ n ih =>
    cases xs with
    | nil => exact Nat.zero_le _
    | cons x xs =>
      rw [litLen, List.length_cons]
      split
      · exact Nat.zero_le _
      · have := ih xs; omega

/-- A literal goes on to the limit, to the end or to the next two equal symbols. -/
theorem litLen_append (n : Nat) (lits rest : List (List Byte)) (hn : lits.length ≤ n)
    (hne : ∀ i < lits.length, (lits ++ rest)[i]? ≠ (lits ++ rest)[i + 1]?)
    (hend : lits.length = n ∨ rest = [] ∨ ∃ y ys, rest = y :: y :: ys) : litLen n (lits ++ rest) = lits.length := by
  induction lits generalizing n with
  | nil =>
    obtain h | rfl | ⟨y, ys, rfl⟩ := hend
    · obtain rfl : 0 = n := h
      rfl
    · cases n <;> rfl
    · cases n
      · rfl
      · exact if_pos rfl
  | cons x lits ih =>
    obtain ⟨n, rfl⟩ := Nat.exists_eq_succ_of_ne_zero (by simp at hn; omega : n ≠ 0)
    have hhead : ¬ (lits ++ rest).head? = some x := by
      have h0 := hne 0 (by simp)
      rw [List.head?_eq_getElem?]
      exact fun h => h0 h.symm
    have hrec := ih n (by simpa using hn) (fun i hi => hne (i + 1) (by simpa using hi)) (by simpa using hend)
    rw [List.cons_append, litLen, if_neg hhead, hrec, List.length_cons, Nat.add_comm]

/-! ## The records -/

/-- The encoder with as many records allowed as there are symbols. -/
abbrev encSyms (syms : List (List Byte)) : List Byte := rleEncSyms syms.length syms

/-- More fuel than symbols changes nothing: every record takes at least one. -/
theorem rleEncSyms_of_le (f g : Nat) (syms : List (List Byte)) (hf : syms.length ≤ f) (hg : syms.length ≤ g) :
    rleEncSyms f syms = rleEncSyms g syms := by
  induction f generalizing g syms with
  | zero =>
    obtain rfl := List.length_eq_zero_iff.1 (Nat.le_zero.1 hf)
    cases g <;> rfl
  | succ f ih =>
    cases syms with
    | nil => cases g <;> rfl
    | cons x xs =>
      simp only [List.length_cons] at hf hg
      obtain ⟨g, rfl⟩ := Nat.exists_eq_succ_of_ne_zero (by omega : g ≠ 0)
      have hstep : ∀ n, 1 ≤ n → rleEncSyms f ((x :: xs).drop n) = rleEncSyms g ((x :: xs).drop n) := fun n hn =>
        ih g _ (by simp; omega) (by simp; omega)
      simp only [rleEncSyms]
      split
      case isTrue => rw [hstep _ (by omega)]
      case isFalse h =>
        have hhead : ¬ xs.head? = some x := runLen_eq_zero_iff.1 (by omega : runLen x 128 xs = 0)
        rw [hstep _ (by rw [litLen, if_neg hhead]; omega)]

/-- A run of two symbols or more (R97). -/
theorem encSyms_of_run (x : List Byte) (xs : List (List Byte)) (h : 1 ≤ runLen x 128 xs) :
    encSyms (x :: xs)
      = BitVec.ofNat 8 (0x7F + runLen x 128 xs) :: (x ++ encSyms (xs.drop (runLen x 128 xs))) := by
  have hcount : 0x7E + (1 + runLen x 128 xs) = 0x7F + runLen x 128 xs := by omega
  have htwo : 2 ≤ 1 + runLen x 128 xs := by omega
  rw [encSyms, List.length_cons, rleEncSyms, if_pos htwo, hcount, Nat.add_comm 1, List.drop_succ_cons]
  rw [rleEncSyms_of_le _ _ _ (by simp) (Nat.le_refl _)]

/-- A literal, where the first symbol is not repeated (R97). -/
theorem encSyms_of_literal (x : List Byte) (xs : List (List Byte)) (h : xs.head? ≠ some x) :
    encSyms (x :: xs) = BitVec.ofNat 8 (litLen 127 (x :: xs))
      :: (((x :: xs).take (litLen 127 (x :: xs))).flatten ++ encSyms ((x :: xs).drop (litLen 127 (x :: xs)))) := by
  have hone : ¬ 2 ≤ 1 + runLen x 128 xs := by have : runLen x 128 xs = 0 := runLen_eq_zero_iff.2 h; omega
  have hpos : 1 ≤ litLen 127 (x :: xs) := by rw [litLen, if_neg h]; omega
  rw [encSyms, List.length_cons, rleEncSyms, if_neg hone]
  dsimp only
  rw [rleEncSyms_of_le _ _ _ (by simp; omega) (Nat.le_refl _)]

theorem rleEnc_flatten (symSize : Nat) (hpos : 0 < symSize) (syms : List (List Byte))
    (h : ∀ y ∈ syms, y.length = symSize) : rleEnc syms.flatten symSize = encSyms syms := by
  rw [rleEnc, pieces_flatten symSize hpos syms h]

/-! ## The round trip -/

theorem length_flatten_of_uniform {α : Type} {n : Nat} (ls : List (List α)) (h : ∀ y ∈ ls, y.length = n) :
    ls.flatten.length = ls.length * n := by
  rw [List.length_flatten, List.map_congr_left h, List.map_const', List.sum_replicate, smul_eq_mul]

/-- What the encoder writes is a sequence of records for the symbols. -/
theorem rleRecords_encSyms (symSize : Nat) (syms : List (List Byte)) (h : ∀ y ∈ syms, y.length = symSize) :
    RleRecords symSize (encSyms syms) syms.flatten := by
  induction hn : syms.length using Nat.strong_induction_on generalizing syms with
  | _ n ih =>
    cases syms with
    | nil => exact .endMarker
    | cons x xs =>
      have hx : x.length = symSize := h x (by simp)
      by_cases hrun : 1 ≤ runLen x 128 xs
      · have hle := runLen_le x 128 xs
        have hn8 : (BitVec.ofNat 8 (0x7F + runLen x 128 xs)).toNat = 0x7F + runLen x 128 xs := by
          rw [BitVec.toNat_ofNat]; omega
        have hrest := ih _ (by simp at hn ⊢; omega) (xs.drop (runLen x 128 xs))
          (fun y hy => h y (by simp [List.mem_of_mem_drop hy])) rfl
        have hrec := RleRecords.repeated _ x _ _ (by rw [hn8]; omega) hx hrest
        have hcount : 0x7F + runLen x 128 xs - 0x7E = runLen x 128 xs + 1 := by omega
        rw [hn8, hcount, List.replicate_succ, List.flatten_cons, List.append_assoc, ← List.flatten_append,
          ← eq_replicate_append_drop] at hrec
        rwa [encSyms_of_run x xs hrun]
      · have hhead : xs.head? ≠ some x := runLen_eq_zero_iff.1 (by omega : runLen x 128 xs = 0)
        rw [encSyms_of_literal x xs hhead]
        have hle := litLen_le 127 (x :: xs)
        have hlen := litLen_le_length 127 (x :: xs)
        have hpos : 1 ≤ litLen 127 (x :: xs) := by rw [litLen, if_neg hhead]; omega
        generalize litLen 127 (x :: xs) = j at hle hlen hpos ⊢
        have hn8 : (BitVec.ofNat 8 j).toNat = j := by rw [BitVec.toNat_ofNat]; omega
        have hrest := ih _ (by simp at hn ⊢; omega) ((x :: xs).drop j) (fun y hy => h y (List.mem_of_mem_drop hy)) rfl
        have hdata : ((x :: xs).take j).flatten.length = j * symSize := by
          rw [length_flatten_of_uniform _ fun y hy => h y (List.mem_of_mem_take hy), List.length_take_of_le hlen]
        have hrec := RleRecords.literal _ ((x :: xs).take j).flatten _ _ (by rw [hn8]; omega) (by rw [hn8]; omega)
          (by rw [hn8]; exact hdata) hrest
        rwa [← List.flatten_append, List.take_append_drop] at hrec

/-- A byte string of `count` symbols is its pieces put together. -/
theorem exists_symbols {symSize count : Nat} (b : List Byte) (h : b.length = count * symSize) :
    ∃ syms : List (List Byte), b = syms.flatten ∧ syms.length = count ∧ ∀ y ∈ syms, y.length = symSize := by
  induction count generalizing b with
  | zero => exact ⟨[], List.length_eq_zero_iff.1 (by simpa using h), rfl, fun _ hy => nomatch hy⟩
  | succ count ih =>
    rw [Nat.succ_mul] at h
    obtain ⟨syms, hb, hlen, hsyms⟩ := ih (b.drop symSize) (by simp; omega)
    refine ⟨b.take symSize :: syms, ?_, by simp [hlen], fun y hy => ?_⟩
    · rw [List.flatten_cons, ← hb, List.take_append_drop]
    · obtain rfl | hy := List.mem_cons.1 hy
      · simp; omega
      · exact hsyms y hy

/-- Settles O12: the encoder writes records for its symbols, and the decoder reads records. -/
theorem rleRoundTrip : Obligations.RleRoundTrip := by
  intro b symSize count hsize hlen
  obtain ⟨syms, rfl, -, hsyms⟩ := exists_symbols b hlen
  have hpos : 0 < symSize := by omega
  refine (Encoding.rleDecodesRecords _ _ _ _).2 ⟨?_, hlen⟩
  rw [rleEnc_flatten symSize hpos syms hsyms]
  exact rleRecords_encSyms symSize syms hsyms

end Sys2Proof.Rle
end

section
/-! Pattern codec (R94, R95, R118 to R127): the pixel words bit by bit, packing and unpacking, the two codec functions as a
pair, and the ends of `ENC1`, `ENC8`, `DEC1` and `DEC8`. -/

namespace Sys2Proof.Codec

open Sys2Proof.Machine

/-! ## Lists of equal pieces -/

/-- Element `k` of piece `p` of pieces of `n` elements. -/
theorem getElem?_flatten_of_uniform {α : Type} {n : Nat} (ls : List (List α)) (h : ∀ y ∈ ls, y.length = n) (p k : Nat)
    (hk : k < n) : ls.flatten[n * p + k]? = ls[p]?.bind (·[k]?) := by
  induction ls generalizing p with
  | nil => rfl
  | cons y ls ih =>
    have hy : y.length = n := h y (by simp)
    cases p with
    | zero => rw [Nat.mul_zero, Nat.zero_add, List.flatten_cons, List.getElem?_append_left (by omega)]; rfl
    | succ p =>
      have hidx : n * (p + 1) + k - y.length = n * p + k := by rw [Nat.mul_succ]; omega
      rw [List.flatten_cons, List.getElem?_append_right (by rw [Nat.mul_succ]; omega), hidx,
        ih (fun z hz => h z (by simp [hz]))]
      rfl

/-! ## Pixel words (R95) -/

/-- The number a pixel word is: one binary digit per raster. -/
theorem toNat_pixelWord (vs : List Byte) (hlen : vs.length ≤ 24) (hbin : ∀ v ∈ vs, v = 0 ∨ v = 1) :
    (pixelWord vs).toNat < 2 ^ vs.length
      ∧ ∀ j, (pixelWord vs).toNat.testBit j = decide (vs.getD j 0 = 1) := by
  induction vs with
  | nil => exact ⟨by decide, fun j => by simp [pixelWord]⟩
  | cons v vs ih =>
    obtain ⟨hlt, hbit⟩ := ih (by simp at hlen; omega) fun w hw => hbin w (by simp [hw])
    have hpow : 2 ^ (vs.length + 1) ≤ 2 ^ 24 := Nat.pow_le_pow_right (by decide) (by simpa using hlen)
    have hv : v.toNat = 0 ∨ v.toNat = 1 := (hbin v (by simp)).imp (fun h => by rw [h]; rfl) fun h => by rw [h]; rfl
    have hword : (pixelWord (v :: vs)).toNat = v.toNat + 2 * (pixelWord vs).toNat := by
      rw [Nat.pow_succ] at hpow
      simp only [pixelWord, BitVec.toNat_add, BitVec.toNat_shiftLeft, BitVec.toNat_setWidth, Nat.shiftLeft_eq]
      omega
    refine ⟨by rw [hword, List.length_cons, Nat.pow_succ]; omega, fun j => ?_⟩
    cases j with
    | zero =>
      rw [hword, Nat.testBit_zero]
      obtain rfl | rfl := hbin v (by simp)
      · simp
      · simp
    | succ j =>
      have hhalf : (v.toNat + 2 * (pixelWord vs).toNat) / 2 = (pixelWord vs).toNat := by omega
      rw [hword, Nat.testBit_succ, hhalf, hbit j, List.getD_cons_succ]

theorem pixelWord_getLsbD (vs : List Byte) (hlen : vs.length ≤ 24) (hbin : ∀ v ∈ vs, v = 0 ∨ v = 1) (j : Nat) :
    (pixelWord vs).getLsbD j = decide (vs.getD j 0 = 1) := by
  rw [← BitVec.testBit_toNat]
  exact (toNat_pixelWord vs hlen hbin).2 j

theorem symbolWord_le24 (w : U24) : symbolWord (le24 w) = w := of24_le24 w

/-- Byte `k` of a word, bit by bit. -/
theorem le24_byte (w : U24) (k : Nat) (hk : k < 3) :
    ∃ x, (le24 w)[k]? = some x ∧ ∀ b < 8, x.getLsbD b = w.getLsbD (8 * k + b) := by
  interval_cases k
  · exact ⟨_, rfl, fun b hb => by simp [hb]⟩
  · exact ⟨_, rfl, fun b hb => by simp [hb]⟩
  · exact ⟨_, rfl, fun b hb => by simp [hb]⟩

/-- Bit `j` of a word is bit `j mod 8` of its byte `j / 8`. -/
theorem of24_getLsbD (x y z : Byte) (j : Nat) (hj : j < 24) :
    (of24 x y z).getLsbD j = ([x, y, z].getD (j / 8) 0).getLsbD (j % 8) := by
  simp only [of24, BitVec.getLsbD_append]
  by_cases h1 : j < 8
  · have hd : j / 8 = 0 := by omega
    have hm : j % 8 = j := by omega
    simp [h1, hd, hm, show j < 16 by omega]
  · by_cases h2 : j < 16
    · have hd : j / 8 = 1 := by omega
      have hm : j % 8 = j - 8 := by omega
      simp [h1, h2, hd, hm]
    · have hd : j / 8 = 2 := by omega
      have hm : j % 8 = j - 16 := by omega
      simp [h2, hd, hm]

/-! ## Batches (R94, R119) and `Unpack1` (R123) -/

/-- The rasters of a batch that `ENC1` takes (R118). -/
def Binary (count : Nat) (rs : List Raster) : Prop := ∀ r ∈ rs, r.length = count ∧ ∀ x ∈ r, x = 0 ∨ x = 1

/-- The symbols of a batch, each as its three bytes. -/
abbrev batchPieces (count : Nat) (rs : List Raster) : List (List Byte) :=
  (List.range count).map fun p => le24 (pixelWord (rs.map fun r => r.getD p 0))

theorem length_of_mem_batchPieces {count : Nat} {rs : List Raster} : ∀ y ∈ batchPieces count rs, y.length = 3 := by
  intro y hy
  obtain ⟨p, -, rfl⟩ := List.mem_map.1 hy
  rfl

theorem length_batchSymbols (count : Nat) (rs : List Raster) : (batchSymbols count rs).length = count * 3 :=
  (Rle.length_flatten_of_uniform (batchPieces count rs) length_of_mem_batchPieces).trans (by simp)

section

variable {count : Nat} {rs : List Raster}

theorem getD_binary {r : Raster} (h : ∀ x ∈ r, x = 0 ∨ x = 1) (p : Nat) : r.getD p 0 = 0 ∨ r.getD p 0 = 1 := by
  rw [List.getD_eq_getElem?_getD]
  rcases hp : r[p]? with - | x
  · exact .inl rfl
  · exact h x (List.mem_of_getElem? hp)

/-- Bit `j` of the word of pixel `p` is the pixel of raster `j`, and 0 where there is no raster `j`. -/
theorem batchWord_getLsbD (hlen : rs.length ≤ 24) (hbin : Binary count rs) (p j : Nat) :
    (pixelWord (rs.map fun r => r.getD p 0)).getLsbD j = decide ((rs.getD j []).getD p 0 = 1) := by
  have hvals : ∀ v ∈ rs.map (fun r => r.getD p 0), v = 0 ∨ v = 1 := by
    intro v hv
    obtain ⟨r, hr, rfl⟩ := List.mem_map.1 hv
    exact getD_binary (hbin r hr).2 p
  have hget : (rs.map fun r => r.getD p 0).getD j 0 = (rs.getD j []).getD p 0 := by
    simp only [List.getD_eq_getElem?_getD, List.getElem?_map]
    cases rs[j]? <;> rfl
  rw [pixelWord_getLsbD _ (by simpa using hlen) hvals, hget]

theorem batchSymbols_bit (hlen : rs.length ≤ 24) (hbin : Binary count rs) {p k b : Nat} (hp : p < count) (hk : k < 3)
    (hb : b < 8) :
    ∃ x, (batchSymbols count rs)[3 * p + k]? = some x
      ∧ x.getLsbD b = decide ((rs.getD (8 * k + b) []).getD p 0 = 1) := by
  obtain ⟨x, hx, hbits⟩ := le24_byte (pixelWord (rs.map fun r => r.getD p 0)) k hk
  refine ⟨x, ?_, by rw [hbits b hb, batchWord_getLsbD hlen hbin]⟩
  have hget := getElem?_flatten_of_uniform (batchPieces count rs) length_of_mem_batchPieces p k hk
  rw [List.getElem?_map, List.getElem?_range hp, Option.map_some, Option.bind_some, hx] at hget
  exact hget

/-- `Unpack1` of a batch: the pixels of raster `j`, and 0 where there is no raster `j`. -/
theorem unpack1_batchSymbols (hlen : rs.length ≤ 24) (hbin : Binary count rs) :
    unpack1 (batchSymbols count rs) = rs ++ List.replicate (24 - rs.length) (List.replicate count 0) := by
  have hpieces : pieces 3 (batchSymbols count rs) = batchPieces count rs :=
    pieces_flatten 3 (by decide) _ length_of_mem_batchPieces
  refine List.ext_getElem (by simp [unpack1]; omega) fun j hj _ => ?_
  have hj24 : j < 24 := by simpa [unpack1] using hj
  have hraster : (unpack1 (batchSymbols count rs))[j]
      = (List.range count).map fun p => if (rs.getD j []).getD p 0 = 1 then (1 : Byte) else 0 := by
    simp only [unpack1, hpieces, List.getElem_map, List.getElem_range, List.map_map]
    refine List.map_congr_left fun p _ => ?_
    simp only [Function.comp_apply, symbolWord_le24, batchWord_getLsbD hlen hbin, decide_eq_true_eq]
  refine hraster.trans ?_
  by_cases hpresent : j < rs.length
  · obtain ⟨hcount, hvals⟩ := hbin rs[j] (List.getElem_mem hpresent)
    rw [List.getElem_append_left hpresent]
    refine List.ext_getElem (by simp [hcount]) fun p _ hp => ?_
    have hpix := hvals rs[j][p] (List.getElem_mem hp)
    simp only [List.getElem_map, List.getElem_range, List.getD_eq_getElem _ _ hpresent, List.getD_eq_getElem _ _ hp]
    obtain h | h := hpix
    · simp [h]
    · simp [h]
  · rw [List.getElem_append_right (by omega), List.getElem_replicate]
    have hnone : rs.getD j [] = [] := List.getD_eq_default _ _ (by omega)
    rw [hnone]
    refine (List.map_const' ..).trans ?_
    rw [List.length_range]
    rfl

end

theorem unpack1_pixel {n : Nat} {b : List Byte} (hb : b.length = 3 * n) {j : Nat} (hj : j < 24) :
    ∃ r, (unpack1 b)[j]? = some r ∧ r.length = n
      ∧ ∀ p < n, r[p]? = some (if (b.getD (3 * p + j / 8) 0).getLsbD (j % 8) then 1 else 0) := by
  have hlen : (pieces 3 b).length = n := by
    rw [Frames.length_pieces (by decide), hb, ceilDiv]; omega
  refine ⟨_, by rw [unpack1, List.getElem?_map, List.getElem?_range hj, Option.map_some], by simpa using hlen, ?_⟩
  intro p hp
  have hpiece : (pieces 3 b)[p]? = some ((b.drop (3 * p)).take 3) :=
    Encoding.getElem?_piecesOf (by decide) _ _ _ (Nat.le_refl _) (hlen.symm ▸ hp)
  rw [List.getElem?_map, hpiece, Option.map_some, symbolWord, of24_getLsbD _ _ _ _ hj]
  have hbyte : ∀ k < 3, ((b.drop (3 * p)).take 3).getD k 0 = b.getD (3 * p + k) 0 := fun k hk =>
    Encoding.getD_take_drop b (3 * p) hk
  have hk : j / 8 < 3 := by omega
  rw [hbyte 0 (by decide), hbyte 1 (by decide), hbyte 2 (by decide)]
  generalize j / 8 = k at hk
  interval_cases k <;> rfl

/-- Settles O14. -/
theorem planeOrder : Obligations.PlaneOrder := by
  refine ⟨fun vs hlen hbin j _ => pixelWord_getLsbD vs hlen hbin j, fun c rs hlen hbin => ?_, fun _ _ => rfl,
    fun n b hb => ⟨by simp [unpack1], fun j hj => unpack1_pixel hb hj⟩⟩
  exact ⟨batchSymbols c.pixels rs, rfl, (length_batchSymbols _ _).trans (Nat.mul_comm _ _),
    fun p hp k hk b hb => batchSymbols_bit hlen hbin hp hk hb⟩

/-! ## The codec pair (R14, R127) -/

theorem codec_of_rleS {c : Cfg} (h : c.codec = .rleS) (b : List Byte) (symSize count : Nat) :
    codecEnc c b symSize = rleEnc b symSize ∧ codecDec c b symSize count = rleDec b symSize count := by
  simp only [codecEnc, codecDec, h, and_self]

/-- The round trip, by the reference codec's proof or by the law that an admitted vendor pair carries. -/
theorem codecDec_codecEnc (c : Cfg) {b : List Byte} {symSize count : Nat} (hsize : symSize = 1 ∨ symSize = 3)
    (hlen : b.length = count * symSize) : codecDec c (codecEnc c b symSize) symSize count = some b := by
  have hrle := Rle.rleRoundTrip b symSize count hsize hlen
  cases hc : c.codec with
  | rleS => simpa only [codecDec, codecEnc, hc] using hrle
  | vendor =>
    simp only [codecDec, codecEnc, hc]
    cases Config.vendorCodec with
    | none => exact hrle
    | some v => exact v.roundTrip b symSize count hsize hlen

/-! ## The operations -/

/-- The block that an operation decodes and the codec refuses. -/
example (s : State) (h : codecDec s.cfg [] 1 s.cfg.pixels = none) : exec (.dec8 []) s = .next (s.raise .errDecode) := by
  rw [exec, execDec8, opDec8, h]

section

variable {s : State} {rs : List Raster} {r : Raster} {block b : List Byte}

theorem binaryRaster_iff {c : Cfg} : binaryRaster c r = true ↔ r.length = c.pixels ∧ ∀ x ∈ r, x = 0 ∨ x = 1 := by
  simp only [binaryRaster, Bool.and_eq_true, decide_eq_true_eq, List.all_eq_true]

/-- What `ENC1` takes (R118). -/
theorem opEnc1_eq (rs : List Raster) (s : State) [Decidable (1 ≤ rs.length ∧ rs.length ≤ 24 ∧ Binary s.cfg.pixels rs)] :
    opEnc1 rs s = if 1 ≤ rs.length ∧ rs.length ≤ 24 ∧ Binary s.cfg.pixels rs then s.putBlock (encode1 s.cfg rs)
      else s.raise .cfgRaster := by
  have hall : rs.all (binaryRaster s.cfg) = false ↔ ¬ Binary s.cfg.pixels rs := by
    rw [← Bool.not_eq_true, List.all_eq_true]
    simp only [binaryRaster_iff, Binary]
  rw [opEnc1, batch]
  split
  case isTrue h =>
    refine (if_neg fun ⟨h1, h2, h3⟩ => ?_).symm
    obtain h | h | h := h
    · omega
    · omega
    · exact hall.1 h h3
  case isFalse h =>
    simp only [hall, not_or, not_not, Nat.not_lt] at h
    exact (if_pos h).symm

theorem exec_enc1_of_binary (h1 : 1 ≤ rs.length) (h2 : rs.length ≤ 24) (h : Binary s.cfg.pixels rs) :
    exec (.enc1 rs) s = .next (s.putBlock (encode1 s.cfg rs)) := by
  classical exact congrArg Host.Outcome.next ((opEnc1_eq rs s).trans (if_pos ⟨h1, h2, h⟩))

theorem exec_enc1_of_not (h : ¬ (1 ≤ rs.length ∧ rs.length ≤ 24 ∧ Binary s.cfg.pixels rs)) :
    exec (.enc1 rs) s = .next (s.raise .cfgRaster) := by
  classical exact congrArg Host.Outcome.next ((opEnc1_eq rs s).trans (if_neg h))

theorem exec_enc8_of_length (h : r.length = s.cfg.pixels) : exec (.enc8 r) s = .next (s.putBlock (encode8 s.cfg r)) :=
  congrArg Host.Outcome.next (if_neg (not_not.2 h))

theorem exec_enc8_of_not (h : r.length ≠ s.cfg.pixels) : exec (.enc8 r) s = .next (s.raise .cfgRaster) :=
  congrArg Host.Outcome.next (if_pos h)

theorem exec_dec1_of_some (h : codecDec s.cfg block 3 s.cfg.pixels = some b) :
    exec (.dec1 block) s = .next (s.putRasters (unpack1 b)) := by
  rw [exec, execDec1, opDec1, h]

theorem exec_dec8_of_some (h : codecDec s.cfg block 1 s.cfg.pixels = some b) :
    exec (.dec8 block) s = .next (s.putRasters [b]) := by
  rw [exec, execDec8, opDec8, h]

theorem exec_dec1_of_none (h : codecDec s.cfg block 3 s.cfg.pixels = none) :
    exec (.dec1 block) s = .next (s.raise .errDecode) := by
  rw [exec, execDec1, opDec1, h]

theorem exec_dec8_of_none (h : codecDec s.cfg block 1 s.cfg.pixels = none) :
    exec (.dec8 block) s = .next (s.raise .errDecode) := by
  rw [exec, execDec8, opDec8, h]

end

/-- Settles O15: the block that the encoder leaves in `BLKBUF` decodes to the symbols it was made of. -/
theorem decodeAfterEncode : Obligations.DecodeAfterEncode := by
  refine ⟨fun r s hlen => ?_, fun rs s h1 h2 hbin => ?_⟩
  · have hdec : codecDec s.cfg (encode8 s.cfg r) 1 s.cfg.pixels = some r := codecDec_codecEnc _ (.inl rfl) (by omega)
    exact ⟨_, _, exec_enc8_of_length hlen, exec_dec8_of_some hdec, rfl⟩
  · have hdec : codecDec s.cfg (encode1 s.cfg rs) 3 s.cfg.pixels = some (batchSymbols s.cfg.pixels rs) :=
      codecDec_codecEnc _ (.inr rfl) (length_batchSymbols _ _)
    exact ⟨_, _, exec_enc1_of_binary h1 h2 hbin, exec_dec1_of_some hdec, unpack1_batchSymbols h2 hbin⟩

/-! ## What the encoder writes -/

section

variable {symSize : Nat} (hpos : 0 < symSize)

include hpos

theorem rleEnc_run {r : Nat} {x : List Byte} {rest : List (List Byte)} (h2 : 2 ≤ r) (h129 : r ≤ 129)
    (hx : x.length = symSize) (hrest : ∀ y ∈ rest, y.length = symSize) (hend : r = 129 ∨ rest.head? ≠ some x) :
    rleEnc ((List.replicate r x ++ rest).flatten) symSize
      = BitVec.ofNat 8 (0x7E + r) :: (x ++ rleEnc rest.flatten symSize) := by
  obtain ⟨m, rfl⟩ := Nat.exists_eq_succ_of_ne_zero (by omega : r ≠ 0)
  have hrun : runLen x 128 (List.replicate m x ++ rest) = m :=
    Rle.runLen_replicate_append x 128 m rest (by omega) (hend.imp_left (by omega))
  have hsyms : ∀ y ∈ List.replicate (m + 1) x ++ rest, y.length = symSize := by
    intro y hy
    obtain hy | hy := List.mem_append.1 hy
    · rw [List.eq_of_mem_replicate hy, hx]
    · exact hrest y hy
  have hcount : 0x7F + m = 0x7E + (m + 1) := by omega
  rw [Rle.rleEnc_flatten symSize hpos _ hsyms, Rle.rleEnc_flatten symSize hpos _ hrest, List.replicate_succ,
    List.cons_append, Rle.encSyms_of_run x _ (by omega), hrun, hcount, List.drop_left' List.length_replicate]

theorem rleEnc_literal {lits rest : List (List Byte)} (h1 : 1 ≤ lits.length) (h127 : lits.length ≤ 127)
    (hsyms : ∀ y ∈ lits ++ rest, y.length = symSize)
    (hne : ∀ i < lits.length, (lits ++ rest)[i]? ≠ (lits ++ rest)[i + 1]?)
    (hend : lits.length = 127 ∨ rest = [] ∨ ∃ y ys, rest = y :: y :: ys) :
    rleEnc ((lits ++ rest).flatten) symSize
      = BitVec.ofNat 8 lits.length :: (lits.flatten ++ rleEnc rest.flatten symSize) := by
  have hlit := Rle.litLen_append 127 lits rest h127 hne hend
  rw [Rle.rleEnc_flatten symSize hpos _ hsyms,
    Rle.rleEnc_flatten symSize hpos rest fun y hy => hsyms y (List.mem_append_right _ hy)]
  obtain ⟨x, xs, rfl⟩ := List.exists_cons_of_length_pos h1
  have hhead : (xs ++ rest).head? ≠ some x := by
    have h0 := hne 0 (by simp)
    rw [List.head?_eq_getElem?]
    exact fun h => h0 h.symm
  rw [List.cons_append] at hlit ⊢
  have htake : (x :: (xs ++ rest)).take (x :: xs).length = x :: xs := List.take_left (l₁ := x :: xs)
  have hdrop : (x :: (xs ++ rest)).drop (x :: xs).length = rest := List.drop_left (l₁ := x :: xs)
  rw [Rle.encSyms_of_literal x _ hhead, hlit, htake, hdrop]

end

/-- Settles O16. -/
theorem codecResults : Obligations.CodecResults := by
  refine ⟨fun c b symSize count hc => codec_of_rleS hc b symSize count, fun symSize hpos => ⟨rfl, ?run, ?literal⟩,
    fun rs s ⟨h1, h2, hbin⟩ => exec_enc1_of_binary h1 h2 hbin, fun rs s h => exec_enc1_of_not h,
    fun r s => exec_enc8_of_length, fun r s => exec_enc8_of_not, fun block b s => exec_dec1_of_some,
    fun block b s => exec_dec8_of_some, fun block s => exec_dec1_of_none, fun block s => exec_dec8_of_none⟩
  case run => exact fun r x rest h2 h129 hx hrest hend => rleEnc_run hpos h2 h129 hx hrest hend
  case literal => exact fun lits rest h1 h127 hsyms hne hend => rleEnc_literal hpos h1 h127 hsyms hne hend

end Sys2Proof.Codec
end

section
/-! Procedures (R109 to R115, R149 to R153, R162 to R170), group of registers by group: what each action writes to the
framer, the session, the upload and the synchronizer registers, and what that makes of a whole procedure. -/

namespace Sys2Proof.Procedure

open Sys2Proof.Machine

/-! ## The frame buffer's shape -/

/-- `FRAMEBUF` as a command leaves it: at most 1025 frames of 64 bytes (R26, R59). -/
def FramesOk (fs : List Frame) : Prop := (∀ f ∈ fs, f.length = 64) ∧ fs.length ≤ 1025

theorem framesOk_buildFrames {o : ByteOrder} {dir seq cmd1 cmd2 : Byte} {p : List Byte} (h : p.length ≤ lMax) :
    FramesOk (buildFrames o dir seq cmd1 cmd2 p) :=
  ⟨fun _ => Frames.length_of_mem_buildFrames o dir seq cmd1 cmd2 p, Frames.length_buildFrames_le o dir seq cmd1 cmd2 p h⟩

theorem framesOk_frames {c : Cfg} {k : Cmd} (h : k.payload.length ≤ lMax) : FramesOk (k.frames c) := framesOk_buildFrames h

theorem payload_playCmd_le (c : Cfg) (v : PlayVal) : (playCmd c v).payload.length ≤ lMax := Nat.le_of_ble_eq_true rfl

/-! ## What an action writes -/

/-- The command an action sends, if it sends one. -/
def cmdOf (c : Cfg) : PAct → Option Cmd
  | .cmd k => some k
  | .stopPlay => some (playCmd c .stop)
  | _ => none

/-- What an action writes to the session registers, but for the `LAST_ERR` of `Check`. -/
def sesOf : PAct → SesRegs → SesRegs
  | .stopped => fun x => if x.sm = .idle then x else { x with sm := .stopped }
  | .modeSet m => fun x => { x with sm := .modeSet, mode := m, modeKnown := true }
  | .playing => fun x => { x with sm := .playing }
  | .illDark => fun x => { x with illOn := ⟨false, false, false, false⟩ }
  | .illLit ch => fun x => { x with illOn := x.illOn.light ch }
  | _ => fun x => x

/-- What an action writes to the upload registers, but for the packet count and percent of `Progress`. -/
def uplOf : PAct → UplRegs → UplRegs
  | .isup b => fun x => { x with isup := b }
  | .blocks bs => fun x => { x with blocks := bs }
  | .pktInit total => fun x => { x with pktTotal := total, pktDone := 0, pktPct := 0 }
  | _ => fun x => x

/-- The groups of registers that a transfer and its ending leave alone. -/
structure OnlySends (s t : State) : Prop where
  upl : t.upl = s.upl
  ses : t.ses = s.ses
  syn : t.syn = s.syn

theorem OnlySends.refl (s : State) : OnlySends s s := ⟨rfl, rfl, rfl⟩

theorem OnlySends.trans {s t u : State} (h : OnlySends s t) (k : OnlySends t u) : OnlySends s u :=
  ⟨k.upl.trans h.upl, k.ses.trans h.ses, k.syn.trans h.syn⟩

theorem push_onlySends (s : State) (e : Event) : OnlySends s (s.push e) := ⟨push_upl s e, push_ses s e, push_syn s e⟩

theorem onFailure_onlySends (ctx : Ctx) (b : Bool) (s : State) : OnlySends s (onFailure ctx b s).st := by
  rcases onFailure_spec ctx b s with ⟨w, e, -, -, h⟩ | ⟨-, h⟩ <;> rw [h]
  · exact push_onlySends s e
  · exact .refl s

theorem onFailure_frm (ctx : Ctx) (b : Bool) (s : State) : (onFailure ctx b s).st.frm = s.frm := by
  rcases onFailure_spec ctx b s with ⟨w, e, -, -, h⟩ | ⟨-, h⟩ <;> rw [h]
  · exact push_frm s e
  · rfl

theorem cmdEnd_onlySends (ctx : Ctx) (x : CmdOut × State) : OnlySends x.2 (cmdEnd ctx x).st := by
  rcases cmdEnd_cases ctx x with h | ⟨b, h⟩ <;> rw [h]
  · exact .refl _
  · exact onFailure_onlySends ctx b _

theorem cmdEnd_frm (ctx : Ctx) (x : CmdOut × State) : (cmdEnd ctx x).st.frm = x.2.frm := by
  rcases cmdEnd_cases ctx x with h | ⟨b, h⟩ <;> rw [h]
  · rfl
  · exact onFailure_frm ctx b _

theorem doCmd_onlySends (k : Cmd) (s : State) : OnlySends s (doCmd k s).2 := by
  have h := (doCmd_spec k s).only
  exact ⟨by rw [h]; rfl, by rw [h]; rfl, by rw [h]; rfl⟩

theorem doCmd_frameBuf (k : Cmd) (s : State) : (doCmd k s).2.frm.frameBuf = k.frames s.cfg := (doCmd_spec k s).buf

theorem waitStop_st (d : Nat) (r : Ran) : OnlySends r.st (r.waitStop d).st ∧ (r.waitStop d).st.frm = r.st.frm := by
  cases r with
  | ok s => exact ⟨.refl s, rfl⟩
  | warned w s => exact ⟨.refl s, rfl⟩
  | faulted s => exact ⟨⟨rfl, rfl, rfl⟩, rfl⟩

theorem illMsg_onlySends (ctx : Ctx) (m : IllMsg) (s : State) : OnlySends s (illMsg ctx m s).st := by
  have hsend : OnlySends s (illSend m s).2 := ⟨rfl, rfl, rfl⟩
  rcases illMsg_cases ctx m s with h | ⟨b, h⟩ <;> rw [h]
  · exact hsend
  · exact hsend.trans (onFailure_onlySends ctx b _)

theorem illMsg_frm (ctx : Ctx) (m : IllMsg) (s : State) : (illMsg ctx m s).st.frm = s.frm := by
  rcases illMsg_cases ctx m s with h | ⟨b, h⟩ <;> rw [h]
  · rfl
  · exact onFailure_frm ctx b _

theorem reportProgress_frm (s : State) : (reportProgress s).frm = s.frm := by
  unfold reportProgress
  dsimp only
  split
  · exact push_frm _ _
  · rfl

theorem reportProgress_ses (s : State) : (reportProgress s).ses = s.ses := by
  unfold reportProgress
  dsimp only
  split
  · exact push_ses _ _
  · rfl

theorem reportProgress_syn (s : State) : (reportProgress s).syn = s.syn := by
  unfold reportProgress
  dsimp only
  split
  · exact push_syn _ _
  · rfl

theorem reportProgress_upl (s : State) :
    (reportProgress s).upl
      = { s.upl with pktDone := (reportProgress s).upl.pktDone, pktPct := (reportProgress s).upl.pktPct } := by
  unfold reportProgress
  dsimp only
  split
  · rw [push_upl]; rfl
  · rfl

theorem checkReply_ses (s : State) :
    (checkReply s).st.ses = { s.ses with lastErr := (checkReply s).st.ses.lastErr } := by
  unfold checkReply
  split
  · rw [Ran.st, push_ses]
  · dsimp only
    split
    · rfl
    · rw [Ran.st, push_ses]; rfl

theorem checkReply_rest (s : State) :
    (checkReply s).st.frm = s.frm ∧ (checkReply s).st.upl = s.upl ∧ (checkReply s).st.syn = s.syn := by
  unfold checkReply
  split
  · exact ⟨push_frm s _, push_upl s _, push_syn s _⟩
  · dsimp only
    split
    · exact ⟨rfl, rfl, rfl⟩
    · exact ⟨push_frm _ _, push_upl _ _, push_syn _ _⟩

section

variable (ctx : Ctx) (a : PAct) (s : State)

/-- The framer is written by the command an action sends, and by nothing else. -/
theorem run_frm_of_none (h : cmdOf s.cfg a = none) : (a.run ctx s).st.frm = s.frm := by
  cases a with
  | cmd k => cases h
  | stopPlay => cases h
  | check => exact (checkReply_rest s).1
  | stopped => simp only [PAct.run, Ran.st]; split <;> rfl
  | ill m => exact illMsg_frm ctx m s
  | progress => exact reportProgress_frm s
  | push e => exact push_frm s e
  | _ => rfl

theorem run_frameBuf_of_some {k : Cmd} (h : cmdOf s.cfg a = some k) :
    (a.run ctx s).st.frm.frameBuf = k.frames s.cfg := by
  cases a with
  | cmd k =>
    cases h
    exact (congrArg FrmRegs.frameBuf (cmdEnd_frm ctx (doCmd k s))).trans (doCmd_frameBuf k s)
  | stopPlay =>
    cases h
    rw [PAct.run, (waitStop_st _ _).2, cmdEnd_frm]
    exact doCmd_frameBuf _ s
  | _ => cases h

theorem run_ses : (a.run ctx s).st.ses = { sesOf a s.ses with lastErr := (a.run ctx s).st.ses.lastErr } := by
  have hsame : ∀ t : State, t.ses = s.ses → t.ses = { s.ses with lastErr := t.ses.lastErr } := fun t h => by rw [h]
  cases a with
  | cmd k => exact hsame _ ((doCmd_onlySends k s).trans (cmdEnd_onlySends ctx _)).ses
  | stopPlay =>
    exact hsame _ (((doCmd_onlySends _ s).trans (cmdEnd_onlySends ctx _)).trans (waitStop_st _ _).1).ses
  | check => exact checkReply_ses s
  | stopped => simp only [PAct.run, Ran.st, sesOf]; split <;> rfl
  | ill m => exact hsame _ (illMsg_onlySends ctx m s).ses
  | progress => exact hsame _ (reportProgress_ses s)
  | push e => exact hsame _ (push_ses s e)
  | _ => rfl

theorem run_upl_of_ne (h : a ≠ .progress) : (a.run ctx s).st.upl = uplOf a s.upl := by
  cases a with
  | cmd k => exact ((doCmd_onlySends k s).trans (cmdEnd_onlySends ctx _)).upl
  | stopPlay => exact (((doCmd_onlySends _ s).trans (cmdEnd_onlySends ctx _)).trans (waitStop_st _ _).1).upl
  | check => exact (checkReply_rest s).2.1
  | stopped => simp only [PAct.run, Ran.st]; split <;> rfl
  | ill m => exact (illMsg_onlySends ctx m s).upl
  | progress => exact absurd rfl h
  | push e => exact push_upl s e
  | _ => rfl

theorem run_upl :
    (a.run ctx s).st.upl
      = { uplOf a s.upl with pktDone := (a.run ctx s).st.upl.pktDone, pktPct := (a.run ctx s).st.upl.pktPct } := by
  by_cases h : a = .progress
  · subst h
    exact reportProgress_upl s
  · rw [run_upl_of_ne ctx a s h]

theorem run_syn (h : ∀ p, a ≠ .phase p) : (a.run ctx s).st.syn = s.syn := by
  cases a with
  | cmd k => exact ((doCmd_onlySends k s).trans (cmdEnd_onlySends ctx _)).syn
  | stopPlay => exact (((doCmd_onlySends _ s).trans (cmdEnd_onlySends ctx _)).trans (waitStop_st _ _).1).syn
  | check => exact (checkReply_rest s).2.2
  | stopped => simp only [PAct.run, Ran.st]; split <;> rfl
  | ill m => exact (illMsg_onlySends ctx m s).syn
  | progress => exact reportProgress_syn s
  | push e => exact push_syn s e
  | phase p => exact absurd rfl (h p)
  | _ => rfl

theorem run_framesOk (hp : a.payloadOk) (h : FramesOk s.frm.frameBuf) : FramesOk (a.run ctx s).st.frm.frameBuf := by
  rcases hc : cmdOf s.cfg a with - | k
  · rwa [run_frm_of_none ctx a s hc]
  · rw [run_frameBuf_of_some ctx a s hc]
    cases a with
    | cmd j => cases hc; exact framesOk_frames hp
    | stopPlay => cases hc; exact framesOk_frames (payload_playCmd_le _ _)
    | _ => cases hc

/-- Only `ISUP <- 1` sets `ISUP`. -/
theorem run_isup (h : a ≠ .isup true) (hu : (a.run ctx s).st.upl.isup = true) : s.upl.isup = true := by
  rw [run_upl] at hu
  cases a with
  | isup b => cases b with
    | false => cases hu
    | true => exact absurd rfl h
  | _ => exact hu

end

/-! ## The commands of the procedures fit the length limit, and no procedure goes to `Idle` -/

/-- Every action of a procedure that the WORKER may be left with: its command fits the limit, it does not end the plan. -/
def Sound (as : List PAct) : Prop := ∀ a ∈ as, a.payloadOk ∧ a.stays

@[simp] theorem sound_nil : Sound [] := fun _ h => nomatch h

@[simp] theorem sound_cons {a : PAct} {as : List PAct} : Sound (a :: as) ↔ (a.payloadOk ∧ a.stays) ∧ Sound as :=
  List.forall_mem_cons

@[simp] theorem sound_append {as bs : List PAct} : Sound (as ++ bs) ↔ Sound as ∧ Sound bs := List.forall_mem_append

theorem sound_flatMap {α : Type} {xs : List α} {f : α → List PAct} (h : ∀ x ∈ xs, Sound (f x)) : Sound (xs.flatMap f) := by
  intro a ha
  obtain ⟨x, hx, ha⟩ := List.mem_flatMap.1 ha
  exact h x hx a ha

section

variable (c : Cfg)

theorem length_le_of_mem_piecesOf {α : Type} {n : Nat} (f : Nat) (l : List α) :
    ∀ q ∈ piecesOf n f l, q.length ≤ n := by
  induction f generalizing l with
  | zero => exact fun _ h => nomatch h
  | succ f ih =>
    cases l with
    | nil => exact fun _ h => nomatch h
    | cons x xs =>
      intro q hq
      obtain rfl | hq := List.mem_cons.1 hq
      · exact List.length_take_le _ _
      · exact ih _ q hq

theorem sound_stopProc : Sound (stopProc c) := by simp [stopProc, PAct.payloadOk, PAct.stays]

theorem sound_modeProc (m : Byte) : Sound (modeProc c m) := by
  have hmode : (modeCmd c m).payload.length ≤ lMax := Nat.le_of_ble_eq_true rfl
  simp [modeProc, sound_stopProc, hmode, PAct.payloadOk, PAct.stays]

theorem sound_errqProc : Sound (errqProc c) := by
  have herrq : (errqCmd c).payload.length ≤ lMax := Nat.le_of_ble_eq_true rfl
  simp [errqProc, herrq, PAct.payloadOk, PAct.stays]

theorem sound_startProc : Sound (startProc c) := by
  have hsrc : (inSrcCmd c).payload.length ≤ lMax := Nat.le_of_ble_eq_true rfl
  have htrig : (trigModeCmd c).payload.length ≤ lMax := Nat.le_of_ble_eq_true rfl
  simp [startProc, sound_errqProc, hsrc, htrig, payload_playCmd_le, PAct.payloadOk, PAct.stays]

theorem payload_lutCmd_le (count : U16) (rep : U32) : (lutCmd c count rep).payload.length ≤ lMax := by
  have h := Config.lutTail_le c
  simp [lutCmd, ctrlCmd, le16, le32]
  omega

theorem payload_dataCmd_le {data : List Byte} (h : data.length ≤ c.chunk) : (dataCmd c data).payload.length ≤ lMax := by
  have := Config.chunk_le c
  simp [dataCmd, le16]
  omega

theorem sound_blockActs (b : Block) : Sound (blockActs c b) := by
  have hsize : (sizeCmd c (b.idx.setWidth 16) b.size).payload.length ≤ lMax := Nat.le_of_ble_eq_true rfl
  refine sound_cons.2 ⟨⟨hsize, trivial⟩, sound_flatMap fun data hdata => ?_⟩
  have hdata' := payload_dataCmd_le c (length_le_of_mem_piecesOf _ _ data hdata)
  simp [hdata', PAct.payloadOk, PAct.stays]

theorem sound_defPatAct (i : Nat) (p : Pattern) : (defPatAct c i p).payloadOk ∧ (defPatAct c i p).stays :=
  ⟨Nat.le_of_ble_eq_true rfl, trivial⟩

theorem sound_uploadSingle (p : PatIn) : Sound (uploadSingle c p) := by
  have hblocks : Sound ((compile c [singlePattern c p]).flatMap (blockActs c)) :=
    sound_flatMap fun b _ => sound_blockActs c b
  refine sound_append.2 ⟨?_, hblocks⟩
  simp only [sound_cons, sound_nil, and_true]
  exact ⟨⟨trivial, trivial⟩, ⟨trivial, trivial⟩, sound_defPatAct c 0 _, payload_lutCmd_le c _ _, trivial⟩

theorem sound_uploadSeq (s : State) : Sound (uploadSeq s) := by
  have hpats : Sound (s.upl.seqPats.mapIdx (defPatAct s.cfg)) := by
    intro a ha
    obtain ⟨i, hi, rfl⟩ := List.mem_mapIdx.1 ha
    exact sound_defPatAct s.cfg _ _
  have hblocks : Sound ((compile s.cfg s.upl.seqPats).reverse.flatMap (blockActs s.cfg)) :=
    sound_flatMap fun b _ => sound_blockActs s.cfg b
  rw [uploadSeq]
  simp [hpats, hblocks, payload_lutCmd_le, PAct.payloadOk, PAct.stays]

theorem sound_illAllOff (s : State) : Sound (illAllOff s) := by
  rw [illAllOff]
  split <;> simp [PAct.payloadOk, PAct.stays]

theorem sound_illActivate (acts : List Activation) : Sound (illActivate c acts) :=
  sound_flatMap fun a _ => by simp [PAct.payloadOk, PAct.stays]

theorem sound_showActs (s : State) (p : PatIn) (acts : List Activation) (shown : U16) : Sound (showActs s p acts shown) := by
  simp [showActs, sound_stopProc, sound_illAllOff, sound_uploadSingle, sound_illActivate, sound_startProc, PAct.payloadOk,
    PAct.stays]

theorem sound_cleanup (s : State) : Sound (cleanup s) := by
  rw [cleanup]
  split <;> simp [sound_stopProc, sound_illAllOff, PAct.payloadOk, PAct.stays]

end

/-! ## A procedure of a host operation -/

/-- What a host operation's procedure has no action of: a change of `SYN_PHASE`. -/
def NoPhase (as : List PAct) : Prop := ∀ a ∈ as, ∀ p, a ≠ .phase p

section

variable (ctx : Ctx) (as : List PAct) (s : State)

theorem runProc_syn (h : NoPhase as) : (runProc ctx as s).st.syn = s.syn :=
  runActs_induct (fun t => t.syn = s.syn) ctx as _ (fun a ha t ht => (run_syn ctx a t (h a ha)).trans ht) rfl

theorem runProc_framesOk (h : Sound as) (hs : FramesOk s.frm.frameBuf) :
    FramesOk (runProc ctx as s).st.frm.frameBuf :=
  runActs_induct (fun t => FramesOk t.frm.frameBuf) ctx as _ (fun a ha t ht => run_framesOk ctx a t (h a ha).1 ht) hs

/-- An uploaded Sequence stays a defined one: a procedure that ends with `ISUP <- 1` runs on a defined Sequence. -/
theorem runProc_isup (h : s.upl.seqValid = true ∨ ∀ a ∈ as, a ≠ .isup true) (hs : s.upl.isup = true → s.upl.seqValid = true)
    (hu : (runProc ctx as s).st.upl.isup = true) : (runProc ctx as s).st.upl.seqValid = true := by
  rw [(runProc_acted ctx as s).seqValid]
  obtain h | h := h
  · exact h
  · exact hs (runActs_induct (fun t => t.upl.isup = true → s.upl.isup = true) ctx as _
      (fun a ha t ht hat => ht (run_isup ctx a t (h a ha) hat)) id hu)

/-- `SM` after a procedure with no action that writes it. -/
theorem runProc_sm (h : ∀ a ∈ as, ∀ x, (sesOf a x).sm = x.sm) : (runProc ctx as s).st.ses.sm = s.ses.sm :=
  runActs_induct (fun t => t.ses.sm = s.ses.sm) ctx as _
    (fun a ha t ht => by rw [run_ses]; exact (h a ha t.ses).trans ht) rfl

/-- In the warn context every action runs, so the session registers are the ones the actions write one after the other. -/
theorem runProc_warn_ses :
    (runProc .warn as s).st.ses
      = { as.foldl (fun x a => sesOf a x) s.ses with lastErr := (runProc .warn as s).st.ses.lastErr } := by
  have herr : ∀ (a : PAct) (x : SesRegs) (e : Byte),
      sesOf a { x with lastErr := e } = { sesOf a x with lastErr := e } := by
    intro a x e
    cases a with
    | stopped => simp only [sesOf]; split <;> rfl
    | _ => rfl
  have hfold : ∀ (bs : List PAct) (x : SesRegs) (e : Byte), bs.foldl (fun x a => sesOf a x) { x with lastErr := e }
      = { bs.foldl (fun x a => sesOf a x) x with lastErr := e } := by
    intro bs
    induction bs with
    | nil => exact fun _ _ => rfl
    | cons b bs ih => exact fun x e => by rw [List.foldl_cons, herr, ih, List.foldl_cons]
  suffices h : ∀ r : Run, r.fault = false → (runActs .warn as r).st.ses
      = { as.foldl (fun x a => sesOf a x) r.st.ses with lastErr := (runActs .warn as r).st.ses.lastErr } from h _ rfl
  induction as with
  | nil => exact fun _ _ => rfl
  | cons a as ih =>
    intro r hr
    have hrun : runActs .warn (a :: as) r = runActs .warn as (r.after (a.run .warn r.st)) := by
      rw [runActs, if_neg (by simp [hr])]
    have hnext : (r.after (a.run .warn r.st)).fault = false := by
      rcases hx : a.run .warn r.st with t | ⟨w, t⟩ | t
      · exact hr
      · exact hr
      · exact absurd hx (a.run_warn r.st t)
    rw [hrun, ih _ hnext, Run.after_st, run_ses .warn a r.st, hfold, List.foldl_cons]

end

end Sys2Proof.Procedure
end

section
/-! Checks of operands (R141, R142, R144, R177, R183): what each check refuses and what it lets pass, the order of the checks,
the block indexes and bit positions, the compressed blocks, the union of assignments. -/

namespace Sys2Proof.Validation

open Sys2Proof.Machine

/-! ## One pattern (R144) -/

theorem bdOk_iff {bd : Byte} : bdOk bd = true ↔ bd = 1 ∨ bd = 8 := by simp only [bdOk, decide_eq_true_eq]

section

variable {c : Cfg} {p : PatIn}

theorem badPixel_iff : p.raster.any (fun x => decide (x ≠ 0 ∧ x ≠ 1)) = true ↔ ¬ ∀ x ∈ p.raster, x = 0 ∨ x = 1 := by
  simp only [List.any_eq_true, decide_eq_true_eq, not_forall, not_or, exists_prop]

theorem recordOk_of_rasterFits (hbd : p.bd = 1 ∨ p.bd = 8) (h : rasterFits c p) : recordOk c p = none := by
  obtain ⟨hlen, hbin⟩ := h
  have hok : ¬ bdOk p.bd = false := by rw [bdOk_iff.2 hbd]; simp
  have hpix : ¬ p.raster.length ≠ c.pixels := not_not.2 hlen
  rw [recordOk, if_neg hok, if_neg hpix, if_neg]
  rintro ⟨hone, hbad⟩
  exact badPixel_iff.1 hbad (hbin hone)

theorem recordOk_of_not_rasterFits (hbd : p.bd = 1 ∨ p.bd = 8) (h : ¬ rasterFits c p) :
    recordOk c p = some .cfgRaster := by
  have hok : ¬ bdOk p.bd = false := by rw [bdOk_iff.2 hbd]; simp
  rw [recordOk, if_neg hok]
  split_ifs with hlen hbad
  · rfl
  · rfl
  · refine absurd ⟨not_not.1 hlen, fun hone => ?_⟩ h
    by_contra hx
    exact hbad ⟨hone, badPixel_iff.2 hx⟩

section

variable (hbd : p.bd = 1 ∨ p.bd = 8)

include hbd

theorem patternOk_of_not_rasterFits (h : ¬ rasterFits c p) : patternOk c p = some .cfgRaster := by
  rw [patternOk, recordOk_of_not_rasterFits hbd h]

theorem patternOk_of_rasterFits (h : rasterFits c p) :
    patternOk c p = if p.expUs.toNat < leastExposure c p.bd then some .cfgExpLow
      else if p.expUs.toNat > c.expMax then some .cfgExpHigh
      else if p.darkUs.toNat > 0xFFFFFF ∨ p.trigOut.toNat > 0xFF then some .cfgRange
      else none := by
  rw [patternOk, recordOk_of_rasterFits hbd h]
  rfl

theorem patternOk_of_low (h : rasterFits c p) (hlow : p.expUs.toNat < leastExposure c p.bd) :
    patternOk c p = some .cfgExpLow := by
  rw [patternOk_of_rasterFits hbd h, if_pos hlow]

theorem patternOk_of_high (h : rasterFits c p) (hlow : leastExposure c p.bd ≤ p.expUs.toNat)
    (hhigh : c.expMax < p.expUs.toNat) : patternOk c p = some .cfgExpHigh := by
  rw [patternOk_of_rasterFits hbd h, if_neg (Nat.not_lt.2 hlow), if_pos hhigh]

theorem patternOk_of_not_wireFits (h : rasterFits c p) (hlow : leastExposure c p.bd ≤ p.expUs.toNat)
    (hhigh : p.expUs.toNat ≤ c.expMax) (hwire : ¬ wireFits p) : patternOk c p = some .cfgRange := by
  have hbad : p.darkUs.toNat > 0xFFFFFF ∨ p.trigOut.toNat > 0xFF := by
    simpa only [wireFits, not_and_or, Nat.not_le] using hwire
  rw [patternOk_of_rasterFits hbd h, if_neg (Nat.not_lt.2 hlow), if_neg (Nat.not_lt.2 hhigh), if_pos hbad]

theorem patternOk_eq_none_iff : patternOk c p = none ↔ patFits c p := by
  constructor
  · intro h
    by_cases hr : rasterFits c p
    · rw [patternOk_of_rasterFits hbd hr] at h
      split_ifs at h with h1 h2 h3
      exact ⟨hr, Nat.not_lt.1 h1, Nat.not_lt.1 h2, by simpa only [wireFits, not_or, Nat.not_lt] using h3⟩
    · rw [patternOk_of_not_rasterFits hbd hr] at h
      cases h
  · rintro ⟨hr, hlow, hhigh, hwire⟩
    have hgood : ¬ (p.darkUs.toNat > 0xFFFFFF ∨ p.trigOut.toNat > 0xFF) := by
      simpa only [wireFits, not_or, Nat.not_lt] using hwire
    rw [patternOk_of_rasterFits hbd hr, if_neg (Nat.not_lt.2 hlow), if_neg (Nat.not_lt.2 hhigh), if_neg hgood]

end

end

/-! ## A list of patterns (R144) -/

theorem repeatBad_eq_false_iff {rep : Repeat} {count : Nat} : repeatBad rep count = false ↔ repeatFits rep count := by
  cases rep with
  | inf => exact iff_of_true rfl fun _ h => nomatch h
  | finite n =>
    rw [Upload.repeatBad_finite_eq_false_iff]
    exact ⟨fun h m hm => by cases hm; exact h, fun h => h n rfl⟩

section

variable {c : Cfg} {p0 : PatIn} {ps : List PatIn} {rep : Repeat} {confirm : Bool}

theorem validate_of_bad_depth (h : ∃ p ∈ p0 :: ps, p.bd ≠ 1 ∧ p.bd ≠ 8) :
    validate c (p0 :: ps) rep confirm = some .cfgRange := by
  refine if_pos (List.any_eq_true.2 ?_)
  obtain ⟨p, hp, h1, h8⟩ := h
  refine ⟨p, hp, ?_⟩
  rw [Bool.not_eq_true', ← Bool.not_eq_true, bdOk_iff]
  exact not_or.2 ⟨h1, h8⟩

theorem not_any_bad_depth (h : ∀ p ∈ p0 :: ps, p.bd = 1 ∨ p.bd = 8) :
    ¬ (p0 :: ps).any (fun p => !bdOk p.bd) = true := by
  rw [List.any_eq_true]
  rintro ⟨p, hp, hbad⟩
  rw [bdOk_iff.2 (h p hp)] at hbad
  cases hbad

theorem validate_of_mixed (hbd : ∀ p ∈ p0 :: ps, p.bd = 1 ∨ p.bd = 8) (h : ∃ p ∈ p0 :: ps, p.bd ≠ p0.bd) :
    validate c (p0 :: ps) rep confirm = some .cfgMixed := by
  obtain ⟨p, hp, hne⟩ := h
  exact (if_neg (not_any_bad_depth hbd)).trans (if_pos (List.any_eq_true.2 ⟨p, hp, decide_eq_true hne⟩))

theorem confirmFits_iff : ¬ (confirm = false ∧ (p0 :: ps).any (fun p => decide (p.expUs.toNat > c.expRec)) = true)
    ↔ confirmFits c (p0 :: ps) confirm := by
  rw [not_and_or, Bool.not_eq_false, List.any_eq_true]
  simp only [confirmFits, decide_eq_true_eq, not_exists, not_and, gt_iff_lt, Nat.not_lt]

section

variable (hbd : p0.bd = 1 ∨ p0.bd = 8) (hsame : ∀ p ∈ p0 :: ps, p.bd = p0.bd)

include hbd hsame

theorem depth_of_mem {p : PatIn} (hp : p ∈ p0 :: ps) : p.bd = 1 ∨ p.bd = 8 := by rw [hsame p hp]; exact hbd

/-- What is left of `Validate` for a list of one bit depth. -/
theorem validate_of_same_depth :
    validate c (p0 :: ps) rep confirm
      = if (p0 :: ps).length > c.ceil p0.bd then some .cfgCount
        else ((p0 :: ps).findSome? (patternOk c)).orElse fun _ =>
          if repeatBad rep (p0 :: ps).length then some .cfgRange
          else if confirm = false ∧ (p0 :: ps).any (fun p => decide (p.expUs.toNat > c.expRec)) = true then some .cfgConfirm
          else none := by
  have hmixed : ¬ (p0 :: ps).any (fun p => decide (p.bd ≠ p0.bd)) = true := by
    rw [List.any_eq_true]
    rintro ⟨p, hp, hne⟩
    exact of_decide_eq_true hne (hsame p hp)
  refine ((if_neg (not_any_bad_depth fun p => depth_of_mem hbd hsame)).trans (if_neg hmixed)).trans ?_
  cases (p0 :: ps).findSome? (patternOk c) <;> rfl

theorem validate_of_count (h : c.ceil p0.bd < (p0 :: ps).length) :
    validate c (p0 :: ps) rep confirm = some .cfgCount :=
  (validate_of_same_depth hbd hsame).trans (if_pos h)

/-- The first pattern that fails says the code. -/
theorem validate_of_pattern (hcount : (p0 :: ps).length ≤ c.ceil p0.bd) {i : Nat} {p : PatIn} {r : Res}
    (hp : (p0 :: ps)[i]? = some p) (hbefore : ∀ q ∈ (p0 :: ps).take i, patFits c q) (hr : patternOk c p = some r) :
    validate c (p0 :: ps) rep confirm = some r := by
  obtain ⟨hi, rfl⟩ := List.getElem?_eq_some_iff.1 hp
  have hfirst : (p0 :: ps).findSome? (patternOk c) = some r := by
    refine List.findSome?_eq_some_iff.2 ⟨(p0 :: ps).take i, (p0 :: ps)[i], (p0 :: ps).drop (i + 1), ?_, hr, fun q hq => ?_⟩
    · rw [List.getElem_cons_drop, List.take_append_drop]
    · exact (patternOk_eq_none_iff (depth_of_mem hbd hsame (List.mem_of_mem_take hq))).2 (hbefore q hq)
  rw [validate_of_same_depth hbd hsame, if_neg (Nat.not_lt.2 hcount), hfirst]
  rfl

theorem findSome?_eq_none_iff : (p0 :: ps).findSome? (patternOk c) = none ↔ ∀ p ∈ p0 :: ps, patFits c p := by
  rw [List.findSome?_eq_none_iff]
  exact forall₂_congr fun p hp => patternOk_eq_none_iff (depth_of_mem hbd hsame hp)

theorem validate_of_repeat (hcount : (p0 :: ps).length ≤ c.ceil p0.bd) (hfit : ∀ p ∈ p0 :: ps, patFits c p)
    (h : ¬ repeatFits rep (p0 :: ps).length) : validate c (p0 :: ps) rep confirm = some .cfgRange := by
  have hbad : repeatBad rep (p0 :: ps).length = true := by
    rw [← Bool.not_eq_false, repeatBad_eq_false_iff]; exact h
  rw [validate_of_same_depth hbd hsame, if_neg (Nat.not_lt.2 hcount), (findSome?_eq_none_iff hbd hsame).2 hfit]
  exact if_pos hbad

theorem validate_of_confirm (hcount : (p0 :: ps).length ≤ c.ceil p0.bd) (hfit : ∀ p ∈ p0 :: ps, patFits c p)
    (hrep : repeatFits rep (p0 :: ps).length) (h : ¬ confirmFits c (p0 :: ps) confirm) :
    validate c (p0 :: ps) rep confirm = some .cfgConfirm := by
  have hgood : ¬ repeatBad rep (p0 :: ps).length = true := by rw [repeatBad_eq_false_iff.2 hrep]; simp
  rw [← confirmFits_iff, not_not] at h
  rw [validate_of_same_depth hbd hsame, if_neg (Nat.not_lt.2 hcount), (findSome?_eq_none_iff hbd hsame).2 hfit]
  exact (if_neg hgood).trans (if_pos h)

theorem validate_eq_none_of_fits (hcount : (p0 :: ps).length ≤ c.ceil p0.bd) (hfit : ∀ p ∈ p0 :: ps, patFits c p)
    (hrep : repeatFits rep (p0 :: ps).length) (h : confirmFits c (p0 :: ps) confirm) :
    validate c (p0 :: ps) rep confirm = none := by
  have hgood : ¬ repeatBad rep (p0 :: ps).length = true := by rw [repeatBad_eq_false_iff.2 hrep]; simp
  rw [validate_of_same_depth hbd hsame, if_neg (Nat.not_lt.2 hcount), (findSome?_eq_none_iff hbd hsame).2 hfit]
  exact (if_neg hgood).trans (if_neg (confirmFits_iff.2 h))

end

/-- A list that passes is one on which every check before it found nothing. -/
theorem validate_eq_none_iff :
    validate c (p0 :: ps) rep confirm = none ↔
      (∀ p ∈ p0 :: ps, (p.bd = 1 ∨ p.bd = 8) ∧ p.bd = p0.bd) ∧ (p0 :: ps).length ≤ c.ceil p0.bd
        ∧ (∀ p ∈ p0 :: ps, patFits c p) ∧ repeatFits rep (p0 :: ps).length ∧ confirmFits c (p0 :: ps) confirm := by
  constructor
  · intro h
    have refuses : ∀ {r : Res}, validate c (p0 :: ps) rep confirm = some r → False := fun hr => by rw [h] at hr; cases hr
    have hdepth : ∀ p ∈ p0 :: ps, p.bd = 1 ∨ p.bd = 8 := by
      by_contra hbad
      simp only [not_forall, not_or] at hbad
      obtain ⟨p, hp, hne⟩ := hbad
      exact refuses (validate_of_bad_depth ⟨p, hp, hne⟩)
    have hsame : ∀ p ∈ p0 :: ps, p.bd = p0.bd := by
      by_contra hbad
      simp only [not_forall] at hbad
      obtain ⟨p, hp, hne⟩ := hbad
      exact refuses (validate_of_mixed hdepth ⟨p, hp, hne⟩)
    have hbd := hdepth p0 (by simp)
    have hcount : (p0 :: ps).length ≤ c.ceil p0.bd := Nat.not_lt.1 fun hc => refuses (validate_of_count hbd hsame hc)
    have hfit : ∀ p ∈ p0 :: ps, patFits c p := by
      rw [← findSome?_eq_none_iff hbd hsame]
      rcases hf : (p0 :: ps).findSome? (patternOk c) with - | r
      · rfl
      · rw [validate_of_same_depth hbd hsame, if_neg (Nat.not_lt.2 hcount), hf] at h
        cases h
    have hrep : repeatFits rep (p0 :: ps).length := by
      by_contra hbad
      exact refuses (validate_of_repeat hbd hsame hcount hfit hbad)
    have hconf : confirmFits c (p0 :: ps) confirm := by
      by_contra hbad
      exact refuses (validate_of_confirm hbd hsame hcount hfit hrep hbad)
    exact ⟨fun p hp => ⟨hdepth p hp, hsame p hp⟩, hcount, hfit, hrep, hconf⟩
  · rintro ⟨hbds, hcount, hfit, hrep, hconf⟩
    exact validate_eq_none_of_fits (hbds p0 (by simp)).1 (fun p hp => (hbds p hp).2) hcount hfit hrep hconf

end

/-- Settles O17. -/
theorem validateAccepts : Obligations.ValidateAccepts := by
  rintro c p0 ps _ rep confirm rfl
  refine ⟨rfl, validate_of_bad_depth, validate_of_mixed, fun hbd hsame => ⟨validate_of_count hbd hsame, fun hcount =>
    ⟨fun i p hp hbefore => ?pattern, fun hfit => ⟨validate_of_repeat hbd hsame hcount hfit,
      validate_of_confirm hbd hsame hcount hfit⟩⟩⟩, validate_eq_none_iff⟩
  have hdepth : p.bd = 1 ∨ p.bd = 8 := depth_of_mem hbd hsame (List.mem_of_getElem? hp)
  have hfirst : ∀ {r : Res}, patternOk c p = some r → validate c (p0 :: ps) rep confirm = some r := fun hr =>
    validate_of_pattern hbd hsame hcount hp hbefore hr
  exact ⟨fun h => hfirst (patternOk_of_not_rasterFits hdepth h), fun h hlow => hfirst (patternOk_of_low hdepth h hlow),
    fun h hlow hhigh => hfirst (patternOk_of_high hdepth h hlow hhigh),
    fun h hlow hhigh hwire => hfirst (patternOk_of_not_wireFits hdepth h hlow hhigh hwire)⟩

/-- A list that passes is within the larger ceiling. -/
theorem length_le_of_validate {c : Cfg} {pats : List PatIn} {rep : Repeat} {confirm : Bool}
    (h : validate c pats rep confirm = none) : pats.length ≤ max c.ceil1 c.ceil8 := by
  cases pats with
  | nil => cases h
  | cons p0 ps =>
    obtain ⟨-, hcount, -⟩ := validate_eq_none_iff.1 h
    refine hcount.trans ?_
    rw [Params.ceil]
    split <;> omega

/-! ## Assignment (R141) and compilation (R142) -/

theorem blkOf_of_lt {n : Nat} (h : n < 2048) : blkOf n = BitVec.ofNat 11 n := if_pos h

@[simp] theorem length_assign (c : Cfg) (pats : List Pattern) : (assign c pats).length = pats.length := by
  cases pats <;> simp [assign]

theorem getElem?_assign (c : Cfg) (p0 : Pattern) (ps : List Pattern) (i : Nat) :
    (assign c (p0 :: ps))[i]? = ((p0 :: ps)[i]?).map (assignOne c p0.bd i) := List.getElem?_mapIdx

/-- Settles O19. -/
theorem assignLaw : Obligations.AssignLaw := by
  intro c p0 ps
  refine ⟨rfl, length_assign c _, fun i p hp => ⟨fun h8 hi => ?eight, fun h8 hi => ?one⟩⟩
  case eight => rw [getElem?_assign, hp, Option.map_some, assignOne, if_pos h8, blkOf_of_lt hi]
  case one => rw [getElem?_assign, hp, Option.map_some, assignOne, if_neg h8, batch, blkOf_of_lt hi]

/-- Settles O20. -/
theorem compileLaw : Obligations.CompileLaw := by
  intro c p0 ps
  refine ⟨rfl, fun h8 => ?eight, fun h8 => ?one⟩
  case eight =>
    rw [compile, if_pos h8]
    refine ⟨List.length_mapIdx, fun b p hp hb => ?_⟩
    rw [List.getElem?_mapIdx, hp, Option.map_some, blkOf_of_lt hb]
  case one =>
    have hcount : (pieces 24 (p0 :: ps)).length = ((p0 :: ps).length + 23) / 24 := Frames.length_pieces (by decide) _
    rw [compile, if_neg h8, batch]
    refine ⟨by rw [List.length_mapIdx, hcount], fun b hb hb11 => ?_⟩
    have hpiece : (pieces 24 (p0 :: ps))[b]? = some (((p0 :: ps).drop (24 * b)).take 24) :=
      Encoding.getElem?_piecesOf (by decide) _ _ _ (Nat.le_refl _) (hcount.symm ▸ hb)
    rw [List.getElem?_mapIdx, hpiece, Option.map_some, blkOf_of_lt hb11]

/-! ## The union of the assignments (R183) -/

theorem unionFails_iff (acts : List Activation) :
    unionFails acts = true ↔ ∃ x ∈ acts, ∃ y ∈ acts, x.ch = y.ch ∧ x ≠ y := by
  simp only [unionFails, List.any_eq_true, decide_eq_true_eq]

theorem union_eq_none_iff (illum : List (List Activation)) :
    union illum = none ↔ ∃ x ∈ illum.flatten, ∃ y ∈ illum.flatten, x.ch = y.ch ∧ x ≠ y := by
  rw [← unionFails_iff, union]
  split
  case isTrue h => exact iff_of_true rfl h
  case isFalse h => exact iff_of_false (fun hn => nomatch hn) h

/-- The activation of a channel among some, if any. -/
abbrev onChannel (acts : List Activation) (ch : Chan) : Option Activation := acts.find? fun x => x.ch = ch

theorem ch_of_onChannel {acts : List Activation} {ch : Chan} {x : Activation} (h : onChannel acts ch = some x) :
    x.ch = ch := of_decide_eq_true (List.find?_some (p := fun x : Activation => decide (x.ch = ch)) h)

/-- Where no two activations of a channel differ, the one of a channel is the one found. -/
theorem onChannel_of_mem {acts : List Activation} (hagree : ¬ unionFails acts = true) {x : Activation} (hx : x ∈ acts) :
    onChannel acts x.ch = some x := by
  rcases hf : onChannel acts x.ch with - | y
  · exact absurd (decide_eq_true rfl) (List.find?_eq_none.1 hf x hx)
  · by_contra hne
    have hy : y ∈ acts := List.mem_of_find?_eq_some hf
    exact hagree ((unionFails_iff acts).2 ⟨y, hy, x, hx, ch_of_onChannel hf, fun h => hne (by rw [h])⟩)

theorem mem_channels (ch : Chan) : ch ∈ [Chan.a, Chan.b, Chan.c, Chan.d] := by cases ch <;> decide

/-- Settles O37: the union takes the activation of each channel, in the order of the channels. -/
theorem unionLaw : Obligations.UnionLaw := by
  refine fun illum => ⟨union_eq_none_iff illum, fun u hu => ?_⟩
  rw [union] at hu
  split at hu
  case isTrue => cases hu
  case isFalse hagree =>
    cases hu
    refine ⟨fun x => ⟨fun hx => ?_, fun hx => ?_⟩, ?_⟩
    · obtain ⟨ch, -, hch⟩ := List.mem_filterMap.1 hx
      exact List.mem_of_find?_eq_some hch
    · exact List.mem_filterMap.2 ⟨x.ch, mem_channels x.ch, onChannel_of_mem hagree hx⟩
    · rw [List.pairwise_filterMap]
      have hsorted : [Chan.a, Chan.b, Chan.c, Chan.d].Pairwise fun x y => x.letter.toNat < y.letter.toNat := by decide
      refine hsorted.imp fun hlt x hx y hy => ?_
      rwa [ch_of_onChannel hx, ch_of_onChannel hy]

/-! ## A plan (R177) -/

theorem planShapeBad_iff (plan : PlanRec) (count : Nat) : planShapeBad plan count = true ↔ ¬ planFits plan count := by
  have hsel : plan.sel.any (fun k => decide (k.toNat ≥ count)) = true ↔ ¬ ∀ k, plan.sel = some k → k.toNat < count := by
    cases plan.sel <;> simp
  simp only [planShapeBad, decide_eq_true_eq, planFits, hsel, not_and_or, Classical.not_imp, ne_eq]

theorem actsBad_iff (c : Cfg) (acts : List Activation) :
    actsBad c acts = true
      ↔ ¬ (acts.length ≤ 4 ∧ (acts.map Activation.ch).Nodup ∧ ∀ x ∈ acts, x.pct.toNat ≤ 100 ∧ x.nm ∈ menuOf c x.ch) := by
  rw [actsBad, Bool.or_eq_true, List.any_eq_true, decide_eq_true_eq]
  simp only [decide_eq_true_eq]
  constructor
  · rintro (⟨x, hx, h⟩ | h) ⟨hlen, hnodup, hall⟩
    · obtain ⟨hpct, hnm⟩ := hall x hx
      obtain h | h | h := h
      · omega
      · omega
      · exact h hnm
    · exact h hnodup
  · intro h
    by_contra hgood
    simp only [not_or, not_exists, not_and, not_not, Nat.not_lt, gt_iff_lt] at hgood
    obtain ⟨hacts, hnodup⟩ := hgood
    refine h ⟨?_, hnodup, fun x hx => ⟨(hacts x hx).2.1, (hacts x hx).2.2⟩⟩
    cases acts with
    | nil => exact Nat.zero_le _
    | cons x xs => exact (hacts x (by simp)).1

theorem lightFits_iff (c : Cfg) (plan : PlanRec) : plan.illum.any (actsBad c) = true ↔ ¬ lightFits c plan := by
  simp only [List.any_eq_true, actsBad_iff, lightFits, not_forall, exists_prop]

theorem union_eq_none_iff_not_lightAgrees (plan : PlanRec) : union plan.illum = none ↔ ¬ lightAgrees plan := by
  simp only [union_eq_none_iff, lightAgrees, not_forall, exists_prop, ne_eq]

section

variable {s : State} {plan : PlanRec}

theorem planValidate_of_some {r : Res} (h : validate s.cfg s.patsIn s.upl.seqRepeat plan.confirm = some r) :
    planValidate s plan = some r := by
  rw [planValidate, h]

/-- What is left of `PlanValidate` on a Sequence that passes, its checks as the propositions they decide. -/
theorem planValidate_of_none (h : validate s.cfg s.patsIn s.upl.seqRepeat plan.confirm = none)
    [Decidable (planFits plan s.upl.seqPats.length)] [Decidable (lightFits s.cfg plan)] [Decidable (lightAgrees plan)] :
    planValidate s plan
      = if plan.mode = .continuous ∧ plan.sel = none then some .cfgEmpty
        else if ¬ planFits plan s.upl.seqPats.length then some .cfgPlan
        else if ¬ lightFits s.cfg plan then some .cfgIllum
        else if plan.mode = .cyclic ∧ ¬ lightAgrees plan then some .cfgIllum
        else none := by
  rw [planValidate, h]
  refine if_congr Iff.rfl rfl (if_congr (planShapeBad_iff _ _) rfl (if_congr (lightFits_iff _ _) rfl ?_))
  exact if_congr (and_congr_right fun _ => union_eq_none_iff_not_lightAgrees plan) rfl rfl

/-- The plans that pass. -/
theorem planValidate_eq_none_iff :
    planValidate s plan = none ↔
      validate s.cfg s.patsIn s.upl.seqRepeat plan.confirm = none ∧ ¬ (plan.mode = .continuous ∧ plan.sel = none)
        ∧ planFits plan s.upl.seqPats.length ∧ lightFits s.cfg plan ∧ (plan.mode = .cyclic → lightAgrees plan) := by
  classical
  rcases hv : validate s.cfg s.patsIn s.upl.seqRepeat plan.confirm with - | r
  · rw [planValidate_of_none hv]
    split_ifs with h1 h2 h3 h4
    · exact iff_of_false (fun h => nomatch h) fun h => h.2.1 h1
    · exact iff_of_false (fun h => nomatch h) fun ⟨_, _, _, _, hagree⟩ => h4.2 (hagree h4.1)
    · exact iff_of_true rfl ⟨rfl, h1, h2, h3, fun hm => by_contra fun ha => h4 ⟨hm, ha⟩⟩
    · exact iff_of_false (fun h => nomatch h) fun ⟨_, _, _, hlight, _⟩ => h3 hlight
    · exact iff_of_false (fun h => nomatch h) fun ⟨_, _, hfit, _⟩ => h2 hfit
  · rw [planValidate_of_some hv]
    exact iff_of_false (fun h => nomatch h) fun h => nomatch h.1

end

/-- Settles O36. -/
theorem planValidateAccepts : Obligations.PlanValidateAccepts := by
  classical
  intro s plan
  refine ⟨fun r hr => planValidate_of_some hr, fun hv => ⟨fun hm hs => ?empty, fun hsel =>
    ⟨fun hfit => ?shape, fun hfit hlight => ?light, fun hfit hlight hm hagree => ?conflict⟩⟩, planValidate_eq_none_iff⟩
  case empty => rw [planValidate_of_none hv, if_pos ⟨hm, hs⟩]
  case shape => rw [planValidate_of_none hv, if_neg hsel, if_pos hfit]
  case light => rw [planValidate_of_none hv, if_neg hsel, if_neg (not_not.2 hfit), if_pos hlight]
  case conflict =>
    rw [planValidate_of_none hv, if_neg hsel, if_neg (not_not.2 hfit), if_neg (not_not.2 hlight), if_pos ⟨hm, hagree⟩]

end Sys2Proof.Validation
end

section
/-! Procedures in the warn context (R113 to R115) from their first action to their last: the frames and settle waits of each,
its code, and the registers it leaves. -/

namespace Sys2Proof.WarnProc

open Sys2Proof.Machine Sys2Proof.Procedure

/-! ## One action after the other -/

theorem runActs_warn_cons (a : PAct) (as : List PAct) {r : Run} (h : r.fault = false) :
    runActs .warn (a :: as) r = runActs .warn as (r.after (a.run .warn r.st)) := by
  rw [runActs, if_neg (by simp [h])]

theorem runActs_warn_one (a : PAct) {r : Run} (h : r.fault = false) : runActs .warn [a] r = r.after (a.run .warn r.st) :=
  runActs_warn_cons a [] h

/-- In the warn context the settle wait of `StopProc` is the procedure's own, whether or not the Stop succeeded. -/
theorem run_warn_stopPlay (s : State) : PAct.run .warn .stopPlay s = PAct.run .warn (.cmd (playCmd s.cfg .stop)) s := by
  have hnever := PAct.run_warn (.cmd (playCmd s.cfg .stop)) s
  simp only [PAct.run] at hnever ⊢
  rcases hx : cmdEnd .warn (doCmd (playCmd s.cfg .stop) s) with t | ⟨w, t⟩ | t
  · rfl
  · rfl
  · exact absurd hx (hnever t)

/-- A run in the warn context that began at `s` has run the commands `ks`, and `ms` are the frames and settle waits of its
transactions. -/
def Marked (s : State) (ks : List Sending) (ms : List Mark) (r : Run) : Prop :=
  ∃ segs, Warned s ks segs r ∧ marks segs.flatten = ms

section

variable {s : State} {ks : List Sending} {ms : List Mark} {r : Run}

theorem Marked.start (s : State) : Marked s [] [] { st := s, warn := none, fault := false } :=
  ⟨[], Warned.start s, rfl⟩

theorem Marked.fault (h : Marked s ks ms r) : r.fault = false := by
  obtain ⟨segs, hw, -⟩ := h
  exact hw.fault

theorem Marked.cfg (h : Marked s ks ms r) : r.st.cfg = s.cfg := by
  obtain ⟨segs, hw, -⟩ := h
  exact hw.cfg

/-- A command of one frame. -/
theorem Marked.cmd (h : Marked s ks ms r) (k : Cmd) (hshort : k.payload.length ≤ 58) :
    Marked s (ks ++ [⟨k, false⟩]) (ms ++ outMarks s.cfg k) (runActs .warn [.cmd k] r) := by
  obtain ⟨segs, hw, rfl⟩ := h
  obtain ⟨seg, ht, hw'⟩ := hw.cmd k
  obtain ⟨f, hf⟩ := Frames.buildFrames_of_short s.cfg.cmdByteOrder k.dir k.seq k.opc.cmd1 k.opc.cmd2 k.payload hshort
  have hframes : k.frames s.cfg = [f] := hf
  rw [hframes] at ht
  refine ⟨segs ++ [seg], ?_, ?_⟩
  · rw [runActs_warn_one _ hw.fault]; exact hw'
  · rw [List.flatten_append, marks_append, List.flatten_singleton, ht.one, outMarks, hframes]
    rfl

/-- `Check` after a command. -/
theorem Marked.check {k : Cmd} (h : Marked s (ks ++ [⟨k, false⟩]) ms r) :
    Marked s (ks ++ [⟨k, true⟩]) ms (runActs .warn [.check] r) := by
  obtain ⟨segs, hw, rfl⟩ := h
  have hne : segs ≠ [] := by
    rintro rfl
    have := hw.len
    simp at this
  rw [← List.dropLast_append_getLast hne] at hw ⊢
  exact ⟨_, by rw [runActs_warn_one _ hw.fault]; exact hw.check, rfl⟩

/-- A settle wait after a command. -/
theorem Marked.settle {k : Sending} (h : Marked s (ks ++ [k]) ms r) (d : Nat) :
    Marked s (ks ++ [k]) (ms ++ [.settle d]) (runActs .warn [.settle d] r) := by
  obtain ⟨segs, hw, rfl⟩ := h
  have hne : segs ≠ [] := by
    rintro rfl
    have := hw.len
    simp at this
  rw [← List.dropLast_append_getLast hne] at hw ⊢
  obtain ⟨t0, t1, hw'⟩ := hw.settle d
  refine ⟨_, by rw [runActs_warn_one _ hw.fault]; exact hw', ?_⟩
  simp only [List.flatten_append, List.flatten_singleton, marks_append, List.append_assoc]
  rfl

/-- An action that writes session or upload registers only. -/
theorem Marked.reg (h : Marked s ks ms r) {a : PAct} {t : State} (ha : a.run .warn r.st = .ok t) (hc : t.cfg = r.st.cfg)
    (hf : t.frm = r.st.frm) (hs : t.sts = r.st.sts) (he : t.ses.lastErr = r.st.ses.lastErr) (hp : t.ports = r.st.ports) :
    Marked s ks ms (runActs .warn [a] r) := by
  obtain ⟨segs, hw, rfl⟩ := h
  exact ⟨segs, by rw [runActs_warn_one _ hw.fault, ha]; exact hw.reg t hc hf hs he hp, rfl⟩

/-- `StopProc` (R167). -/
theorem Marked.stopProc (h : Marked s ks ms r) :
    Marked s (ks ++ [⟨playCmd s.cfg .stop, false⟩])
      (ms ++ outMarks s.cfg (playCmd s.cfg .stop) ++ [.settle s.cfg.settleStopMs]) (runActs .warn (stopProc s.cfg) r) := by
  have hstop : Marked s (ks ++ [⟨playCmd s.cfg .stop, false⟩]) (ms ++ outMarks s.cfg (playCmd s.cfg .stop))
      (runActs .warn [.stopPlay] r) := by
    have hcmd := h.cmd (playCmd s.cfg .stop) (Nat.le_of_ble_eq_true rfl)
    rw [runActs_warn_one _ h.fault] at hcmd ⊢
    rwa [run_warn_stopPlay, h.cfg]
  have hwait := hstop.settle s.cfg.settleStopMs
  have hend := hwait.reg (a := .stopped) rfl (by split <;> rfl) (by split <;> rfl) (by split <;> rfl) (by split <;> rfl)
    (by split <;> rfl)
  rwa [← runActs_append, ← runActs_append] at hend

/-- `ERRQ` (R114). -/
theorem Marked.errqProc (h : Marked s ks ms r) :
    Marked s (ks ++ [⟨errqCmd s.cfg, true⟩]) (ms ++ outMarks s.cfg (errqCmd s.cfg)) (runActs .warn (errqProc s.cfg) r) := by
  have hend := (h.cmd (errqCmd s.cfg) (Nat.le_of_ble_eq_true rfl)).check
  rwa [← runActs_append] at hend

end

/-- `ModeProc` (R162). -/
theorem marked_modeProc (m : Byte) (s : State) :
    Marked s (modeSendings s.cfg m)
      (outMarks s.cfg (playCmd s.cfg .stop) ++ [.settle s.cfg.settleStopMs] ++ outMarks s.cfg (modeCmd s.cfg m)
        ++ [.settle s.cfg.settleModeMs] ++ outMarks s.cfg (playCmd s.cfg .stop) ++ [.settle s.cfg.settleStopMs])
      (runProc .warn (modeProc s.cfg m) s) := by
  have h0 := (Marked.start s).reg (a := .isup false) rfl rfl rfl rfl rfl rfl
  have h1 := (h0.stopProc.cmd (modeCmd s.cfg m) (Nat.le_of_ble_eq_true rfl)).settle s.cfg.settleModeMs
  have h2 := h1.stopProc.reg (a := .modeSet m) rfl rfl rfl rfl rfl rfl
  rw [← runActs_append, ← runActs_append, ← runActs_append, ← runActs_append, ← runActs_append] at h2
  simpa [modeSendings, modeProc, runProc] using h2

/-- `StartProc` (R169). -/
theorem marked_startProc (s : State) :
    Marked s (startSendings s.cfg)
      (outMarks s.cfg (inSrcCmd s.cfg) ++ outMarks s.cfg (errqCmd s.cfg) ++ outMarks s.cfg (trigModeCmd s.cfg)
        ++ outMarks s.cfg (errqCmd s.cfg) ++ outMarks s.cfg (playCmd s.cfg .play) ++ outMarks s.cfg (errqCmd s.cfg))
      (runProc .warn (startProc s.cfg) s) := by
  have h1 := ((Marked.start s).cmd (inSrcCmd s.cfg) (Nat.le_of_ble_eq_true rfl)).errqProc
  have h2 := (h1.cmd (trigModeCmd s.cfg) (Nat.le_of_ble_eq_true rfl)).errqProc
  have h3 := (h2.cmd (playCmd s.cfg .play) (Nat.le_of_ble_eq_true rfl)).errqProc.reg (a := .playing) rfl rfl rfl rfl rfl rfl
  rw [← runActs_append, ← runActs_append, ← runActs_append, ← runActs_append, ← runActs_append, ← runActs_append] at h3
  simpa [startSendings, startProc, runProc] using h3

/-! ## The registers after a procedure in the warn context -/

section

variable {s : State}

/-- The frame buffer holds the frames of the last command, and nothing is in flight. -/
theorem runProc_warn_frm {as bs : List PAct} {a : PAct} {k : Cmd} (ha : cmdOf s.cfg a = some k)
    (hbs : ∀ b ∈ bs, cmdOf s.cfg b = none) :
    (runProc .warn (as ++ a :: bs) s).st.frm.frameBuf = k.frames s.cfg
      ∧ (runProc .warn (as ++ a :: bs) s).st.frm.inflight = false := by
  have hfault : (runProc .warn as s).fault = false := runProc_warn as s
  have hcfg : (runProc .warn as s).st.cfg = s.cfg := (runProc_acted .warn as s).cfg
  have hidle : ∀ t, cmdOf t.cfg a = some k → (a.run .warn t).st.frm.inflight = false := by
    intro t ht
    have hcmd : ∀ j : Cmd, (PAct.run .warn (.cmd j) t).st.frm.inflight = false := fun j =>
      (congrArg FrmRegs.inflight (cmdEnd_frm .warn (doCmd j t))).trans (doCmd_spec j t).idle
    cases a with
    | cmd j => exact hcmd j
    | stopPlay => rw [run_warn_stopPlay]; exact hcmd _
    | _ => cases ht
  have hrun : runProc .warn (as ++ a :: bs) s
      = runActs .warn bs ((runProc .warn as s).after (a.run .warn (runProc .warn as s).st)) := by
    rw [← runActs_warn_cons _ _ hfault]
    exact runActs_append ..
  rw [hrun]
  refine runActs_induct (fun t => (t.frm.frameBuf = k.frames s.cfg ∧ t.frm.inflight = false) ∧ t.cfg = s.cfg) .warn bs _
    (fun b hb t ⟨ht, hc⟩ => ?_) ?_ |>.1
  · exact ⟨by rw [run_frm_of_none .warn b t (by rw [hc]; exact hbs b hb)]; exact ht, (b.run_acted .warn t).cfg.trans hc⟩
  · rw [Run.after_st]
    refine ⟨⟨?_, hidle _ (by rw [← ha]; exact congrArg (cmdOf · a) hcfg)⟩, (a.run_acted .warn _).cfg.trans hcfg⟩
    have hbuf := run_frameBuf_of_some .warn a (runProc .warn as s).st (k := k) (by rw [hcfg]; exact ha)
    rwa [hcfg] at hbuf

/-- The upload registers after a procedure that uploads no packet. -/
theorem runProc_warn_upl {as : List PAct} (h : ∀ a ∈ as, a ≠ .progress) :
    (runProc .warn as s).st.upl = as.foldl (fun x a => uplOf a x) s.upl := by
  suffices hr : ∀ r : Run, r.fault = false →
      (runActs .warn as r).st.upl = as.foldl (fun x a => uplOf a x) r.st.upl from hr _ rfl
  induction as with
  | nil => exact fun _ _ => rfl
  | cons a as ih =>
    intro r hr
    have hnext : (r.after (a.run .warn r.st)).fault = false := by
      rcases hx : a.run .warn r.st with t | ⟨w, t⟩ | t
      · exact hr
      · exact hr
      · exact absurd hx (a.run_warn r.st t)
    rw [runActs_warn_cons _ _ hr, ih (fun b hb => h b (by simp [hb])) _ hnext, Run.after_st,
      run_upl_of_ne .warn a r.st (h a (by simp)), List.foldl_cons]

theorem checkReply_only_writes_lastErr (ctx : Ctx) (a : PAct) (t : State) (h : a ≠ .check) :
    (a.run ctx t).st.ses.lastErr = t.ses.lastErr := by
  cases a with
  | cmd k => exact congrArg SesRegs.lastErr ((doCmd_onlySends k t).trans (cmdEnd_onlySends ctx _)).ses
  | stopPlay =>
    exact congrArg SesRegs.lastErr (((doCmd_onlySends _ t).trans (cmdEnd_onlySends ctx _)).trans (waitStop_st _ _).1).ses
  | check => exact absurd rfl h
  | stopped => simp only [PAct.run, Ran.st]; split <;> rfl
  | ill m => exact congrArg SesRegs.lastErr (illMsg_onlySends ctx m t).ses
  | progress => exact congrArg SesRegs.lastErr (reportProgress_ses t)
  | push e => exact congrArg SesRegs.lastErr (push_ses t e)
  | _ => rfl

theorem runProc_lastErr (ctx : Ctx) {as : List PAct} (h : ∀ a ∈ as, a ≠ .check) :
    (runProc ctx as s).st.ses.lastErr = s.ses.lastErr :=
  runActs_induct (fun t => t.ses.lastErr = s.ses.lastErr) ctx as _
    (fun a ha t ht => (checkReply_only_writes_lastErr ctx a t (h a ha)).trans ht) rfl

/-- The session registers after a procedure in the warn context without a `Check`. -/
theorem runProc_warn_ses_of_noCheck {as : List PAct} (h : ∀ a ∈ as, a ≠ .check) :
    (runProc .warn as s).st.ses = { as.foldl (fun x a => sesOf a x) s.ses with lastErr := s.ses.lastErr } := by
  rw [runProc_warn_ses, runProc_lastErr .warn h]

end

/-! ## Warnings and replies of a finished procedure -/

section

variable {c : Cfg} {ks : List Sending} {segs : List (List PortEvent)}

/-- Where no error byte is looked at, the warnings are those of the failed transactions. -/
theorem warningsMet_of_unchecked (hlen : segs.length = ks.length) (h : ∀ k ∈ ks, k.checked = false) :
    warningsMet c ks segs = segs.flatten.filterMap PortEvent.warning? := by
  have hsegs : segs.flatten = (ks.zip segs).flatMap Prod.snd := by
    rw [List.flatMap_def, List.map_snd_zip hlen.le]
  rw [hsegs, warningsMet, List.filterMap_flatMap]
  refine List.flatMap_congr fun x hx => ?_
  rw [Sending.warnings, h _ (List.of_mem_zip hx).1]
  simp

/-- The first warning of a command and its `Check` is never that of a missing reply: where no reply came, the command has
failed and warned before. -/
theorem head_warnings {k : Sending} {evs : List PortEvent} (h : ranCommand c k.cmd evs) {w : Byte}
    (hw : (k.warnings c evs).head? = some w) : w = 0x10 ∨ w = 0x11 ∨ w = 0x12 := by
  have hevent : ∀ v ∈ evs.filterMap PortEvent.warning?, v = 0x11 ∨ v = 0x12 := by
    intro v hv
    obtain ⟨e, -, he⟩ := List.mem_filterMap.1 hv
    unfold PortEvent.warning? at he
    split at he
    · cases he; split <;> simp
    · cases he
  rw [Sending.warnings] at hw
  rcases h with ⟨-, ⟨b, hb, -⟩, hok⟩ | ⟨-, -, v, hv⟩
  · rw [warnings_nil.2 hok, List.nil_append, hb] at hw
    split at hw
    · rw [checkWarnings] at hw
      split at hw
      · cases hw
      · cases hw; exact .inl rfl
    · cases hw
  · rw [hv] at hw
    obtain rfl : v = w := Option.some.inj hw
    exact .inr (hevent v (by rw [hv]; simp))

theorem head_warningsMet (hran : ∀ x ∈ ks.zip segs, ranCommand c x.1.cmd x.2) {w : Byte}
    (hw : (warningsMet c ks segs).head? = some w) : w = 0x10 ∨ w = 0x11 ∨ w = 0x12 := by
  rw [warningsMet, List.head?_flatMap] at hw
  obtain ⟨x, hx, hw⟩ := List.exists_of_findSome?_eq_some hw
  exact head_warnings (hran x hx) hw

end

/-- The code of a host operation that ran a procedure in the warn context: `OK` or the first warning. -/
theorem code_of_marked {s : State} {ks : List Sending} {ms : List Mark} {r : Run} (h : Marked s ks ms r) :
    r.code = .ok ∨ r.code = .warnDevErr ∨ r.code = .warnTimeout ∨ r.code = .warnIo := by
  obtain ⟨segs, hw, -⟩ := h
  rw [Run.code, if_neg (by simp [hw.fault])]
  rcases hr : r.warn with - | w
  · exact .inl rfl
  · refine .inr ?_
    have hhead := head_warningsMet hw.ran (w := w.byte) (by rw [← hw.warn, hr]; rfl)
    cases w <;> simp [Res.byte] at hhead <;> simp

/-- A procedure with a single command, its warnings not looked at further (R113). -/
theorem warnCommand_of_warned {s : State} {k : Cmd} {segs : List (List PortEvent)} {r : Run}
    (h : Warned s [⟨k, false⟩] segs r) (hbuf : r.st.frm.frameBuf = k.frames s.cfg) (hidle : r.st.frm.inflight = false) :
    warnCommand s r.conclude (k.frames s.cfg) := by
  obtain ⟨seg, rfl⟩ := List.length_eq_one_iff.1 h.len
  have hran : ranCommand s.cfg k seg := h.ran (⟨k, false⟩, seg) (by simp)
  have hdid : s.did r.conclude seg := by
    have hd := h.did
    rw [List.flatten_singleton] at hd
    exact hd
  have hmet : warningsMet s.cfg [⟨k, false⟩] [seg] = seg.filterMap PortEvent.warning? := by
    simpa using warningsMet_of_unchecked (c := s.cfg) (ks := [⟨k, false⟩]) (segs := [seg]) rfl (by simp)
  have hwarn := h.warn
  rw [hmet] at hwarn
  have hlast : r.conclude.host.lastResult = (seg.filterMap PortEvent.warning?).headD 0x00 := by
    have : r.code.byte = (seg.filterMap PortEvent.warning?).headD 0x00 := by
      rw [Run.code, if_neg (by simp [h.fault]), List.headD_eq_head?_getD, ← hwarn]
      cases r.warn <;> rfl
    exact this
  have hsts' : r.conclude.sts = (s.warnedOf (seg.filterMap PortEvent.warning?)).sts := by
    rw [← hmet]; exact h.sts
  have hv : r.conclude.frm.rplv = (replyOf seg).isSome := h.rplv
  have hb : r.conclude.frm.rplBuf = (replyOf seg).getD s.frm.rplBuf := h.rplBuf
  refine ⟨⟨seg, hdid, ?_, hbuf, hidle, ?_⟩, fun b outs ins hg => ?_⟩
  · exact hran.elim (fun h => h.1 ▸ List.prefix_rfl) fun h => h.1
  · rcases hran with ⟨hframes, ⟨b, hreply, -⟩, hok⟩ | ⟨-, hnone, w, hw⟩
    · rw [warnings_nil.2 hok] at hlast hsts'
      exact .inl ⟨hlast, hframes, by rw [hv, hreply]; rfl, hsts', hok⟩
    · rw [hw] at hlast hsts'
      obtain ⟨e, he, hew⟩ := List.mem_filterMap.1 (hw ▸ List.mem_singleton.2 rfl : w ∈ seg.filterMap PortEvent.warning?)
      have hlast' : r.conclude.host.lastResult = w := hlast
      unfold PortEvent.warning? at hew
      split at hew
      case isFalse => cases hew
      case isTrue hfail =>
        refine .inr ⟨e, he, hfail, ?_, by rw [hv, hnone]; rfl, by rw [hb, hnone]; rfl, ?_⟩
        · rw [hlast']; exact (Option.some.inj hew).symm
        · rw [hsts', hlast']; rfl
  · obtain ⟨ha, -, -⟩ := h.grants [b] [] 0 outs ins rfl (by simpa [cmdFrames] using hg)
    have hreply : replyOf seg = some b := by simpa using ha
    rcases hran with ⟨-, -, hok⟩ | ⟨-, hnone, -⟩
    · rw [hlast, warnings_nil.2 hok]; rfl
    · rw [hreply] at hnone; cases hnone

end Sys2Proof.WarnProc
end

section
/-! Session and single upload commands (R137, R139, R145, R160 to R169): `SETMODE`, `START`, `STOP`, `PAUSE`, `DEFPAT` and
`CFGLUT`, their refusals and what they leave whatever the devices answer. -/

namespace Sys2Proof.WarnOps

open Sys2Proof.Machine Sys2Proof.Procedure Sys2Proof.WarnProc

/-! ## Preconditions -/

section

variable {s : State}

theorem sessionReady_of_session (hplan : s.syn.planActive = false) (hsess : s.ses.sessValid = true) :
    sessionReady s = none := by
  rw [sessionReady, if_neg (Bool.eq_false_iff.1 hplan), if_neg (ne_false_of_eq_true hsess)]

theorem sessionReady_of_no_session (hplan : s.syn.planActive = false) (hsess : s.ses.sessValid = false) :
    sessionReady s = some .errNotConnected := by
  rw [sessionReady, if_neg (Bool.eq_false_iff.1 hplan), if_pos hsess]

theorem uplReady_of_ready (h : s.uploadReady) : uplReady s = none := by
  obtain ⟨hsess, hrest⟩ := h
  rw [uplReady, if_neg (ne_false_of_eq_true hsess), if_pos hrest]

theorem uplReady_of_refusal {r : Res} (h : s.uploadRefusal r) : uplReady s = some r := by
  obtain ⟨hsess, rfl⟩ | ⟨hsess, hnot, rfl⟩ := h
  · rw [uplReady, if_pos hsess]
  · rw [uplReady, if_neg (ne_false_of_eq_true hsess), if_neg fun h => hnot ⟨hsess, h⟩]

theorem uplReady_cases (s : State) : uplReady s = none ∨ uplReady s = some .errNotConnected ∨ uplReady s = some .errState := by
  rw [uplReady]
  split_ifs
  · exact .inr (.inl rfl)
  · exact .inl rfl
  · exact .inr (.inr rfl)

end

/-! ## What a host operation's procedure leaves alone -/

/-- The groups of registers that no procedure of a host operation writes. -/
structure Aside (s t : State) : Prop where
  cfg : t.cfg = s.cfg
  cod : t.cod = s.cod
  syn : t.syn = s.syn
  work : t.work = s.work
  ubf : t.host.ubf = s.host.ubf

theorem aside_conclude (ctx : Ctx) {as : List PAct} (s : State) (h : NoPhase as) : Aside s (runProc ctx as s).conclude := by
  have ha := runProc_acted ctx as s
  exact ⟨ha.cfg, ha.cod, runProc_syn ctx as s h, ha.work, (congrArg HostRegs.ubf ha.host : (runProc ctx as s).st.host.ubf = _)⟩

/-! ## `SETMODE` (R161, R162) -/

theorem exec_setmode_of_session {s : State} (m : Byte) (hplan : s.syn.planActive = false) (hsess : s.ses.sessValid = true) :
    exec (.setmode m) s = .next (runProc .warn (modeProc s.cfg m) s).conclude := by
  rw [exec, execSetmode, opSetmode, sessionReady_of_session hplan hsess]

theorem modeProc_registers (m : Byte) (s : State) :
    (runProc .warn (modeProc s.cfg m) s).st.ses = { s.ses with sm := .modeSet, mode := m, modeKnown := true }
      ∧ (runProc .warn (modeProc s.cfg m) s).st.upl = { s.upl with isup := false }
      ∧ (runProc .warn (modeProc s.cfg m) s).st.frm.frameBuf = (playCmd s.cfg .stop).frames s.cfg
      ∧ (runProc .warn (modeProc s.cfg m) s).st.frm.inflight = false := by
  have hlist : modeProc s.cfg m = [.isup false, .stopPlay, .settle s.cfg.settleStopMs, .stopped, .cmd (modeCmd s.cfg m),
      .settle s.cfg.settleModeMs] ++ .stopPlay :: [.settle s.cfg.settleStopMs, .stopped, .modeSet m] := by
    simp [modeProc, stopProc]
  refine ⟨?_, ?_, ?_⟩
  · rw [runProc_warn_ses_of_noCheck (by simp [modeProc, stopProc])]
    simp only [modeProc, stopProc, List.cons_append, List.nil_append, List.foldl_cons, List.foldl_nil, sesOf]
    split <;> rfl
  · rw [runProc_warn_upl (by simp [modeProc, stopProc])]
    simp [modeProc, stopProc, uplOf]
  · rw [hlist]
    exact runProc_warn_frm rfl (by simp [cmdOf])

theorem noPhase_modeProc (c : Cfg) (m : Byte) : NoPhase (modeProc c m) := by
  simp [NoPhase, modeProc, stopProc]

/-- The replies of three answered one-frame commands. -/
theorem length_modeFrames (c : Cfg) (m : Byte) :
    (cmdFrames c ((modeSendings c m).map Sending.cmd)).length = 3 := by
  have hone : ∀ k : Cmd, k.payload.length ≤ 58 → (k.frames c).length = 1 := fun k hk =>
    (Frames.length_buildFrames ..).trans (if_pos hk)
  have hstop := hone (playCmd c .stop) (Nat.le_of_ble_eq_true rfl)
  have hmode := hone (modeCmd c m) (Nat.le_of_ble_eq_true rfl)
  simp [cmdFrames, modeSendings, hstop, hmode]

/-- What `SETMODE` leaves: its choreography, its code and events, and the registers. -/
theorem setmode_result (m : Byte) (s : State) :
    ∃ evs, s.did (runProc .warn (modeProc s.cfg m) s).conclude evs
      ∧ marks evs = outMarks s.cfg (playCmd s.cfg .stop) ++ [.settle s.cfg.settleStopMs]
          ++ outMarks s.cfg (modeCmd s.cfg m) ++ [.settle s.cfg.settleModeMs]
          ++ outMarks s.cfg (playCmd s.cfg .stop) ++ [.settle s.cfg.settleStopMs]
      ∧ warnCommands s (runProc .warn (modeProc s.cfg m) s).conclude (modeSendings s.cfg m) evs := by
  obtain ⟨segs, hw, hmarks⟩ := marked_modeProc m s
  exact ⟨segs.flatten, hw.did, hmarks, hw.conclude⟩

/-- Settles O30. -/
theorem setmodeChoreography : Obligations.SetmodeChoreography := by
  intro m s hplan
  refine ⟨fun hsess => ?_, fun hsess => ?_⟩
  · rw [exec, execSetmode, opSetmode, sessionReady_of_no_session hplan hsess]
    rfl
  obtain ⟨evs, hdid, hmarks, hcmds⟩ := setmode_result m s
  obtain ⟨hses, hupl, hbuf, hidle⟩ := modeProc_registers m s
  obtain ⟨hcfg, hcod, hsyn, hwork, hubf⟩ := aside_conclude .warn s (noPhase_modeProc s.cfg m)
  refine ⟨_, evs, exec_setmode_of_session m hplan hsess, hdid, hmarks, hses, hupl, hidle, hbuf, hcmds, ?_⟩
  obtain ⟨segs, rfl, hlen, hran, ⟨ws, rfl, hcode, hsts⟩, -, hrplv, hbufs, hzero, hgrants⟩ := hcmds
  have hunchecked : ∀ k ∈ modeSendings s.cfg m, k.checked = false := by simp [modeSendings]
  have hmet := warningsMet_of_unchecked (c := s.cfg) hlen hunchecked
  rw [warningsMet] at hmet
  rw [hmet] at hcode hsts
  have hnone : ∀ x ∈ (modeSendings s.cfg m).zip segs, ¬ x.1.checked = true := fun x hx hc => by
    rw [hunchecked _ (List.of_mem_zip hx).1] at hc; cases hc
  refine ⟨hcode, hsts, hzero.trans (and_iff_left fun x hx hc => absurd hc (hnone x hx)), ?_, hcfg, hcod, hsyn, hwork, hubf⟩
  intro b1 b2 b3 outs ins hg
  obtain ⟨hreplies, hok⟩ := hgrants [b1, b2, b3] outs ins rfl (by rw [length_modeFrames]; exact hg)
  obtain ⟨hlast, hfifo⟩ := hok fun x hx hc => by
    rw [hunchecked _ (List.of_mem_zip hx).1] at hc; cases hc
  obtain ⟨g1, g2, g3, rfl⟩ := List.length_eq_three.1 (show segs.length = 3 from hlen)
  simp only [List.map_cons, List.map_nil, List.cons.injEq] at hreplies
  obtain ⟨-, -, h3, -⟩ := hreplies
  refine ⟨hlast, hfifo, ?_, ?_⟩
  · rw [hrplv]; simp [h3]
  · rw [hbufs]; simp [h3]

/-! ## `START` (R163, R164, R169) -/

theorem startProc_list (c : Cfg) :
    startProc c = [.cmd (inSrcCmd c), .cmd (errqCmd c), .check, .cmd (trigModeCmd c), .cmd (errqCmd c), .check,
      .cmd (playCmd c .play)] ++ .cmd (errqCmd c) :: [.check, .playing] := rfl

theorem startProc_registers (s : State) :
    (runProc .warn (startProc s.cfg) s).st.ses
        = { s.ses with sm := .playing, lastErr := (runProc .warn (startProc s.cfg) s).st.ses.lastErr }
      ∧ (runProc .warn (startProc s.cfg) s).st.upl = s.upl
      ∧ (runProc .warn (startProc s.cfg) s).st.frm.frameBuf = (errqCmd s.cfg).frames s.cfg
      ∧ (runProc .warn (startProc s.cfg) s).st.frm.inflight = false := by
  refine ⟨?_, ?_, ?_⟩
  · rw [runProc_warn_ses]; rfl
  · rw [runProc_warn_upl (by simp [startProc_list])]; rfl
  · rw [startProc_list]
    exact runProc_warn_frm rfl (by simp [cmdOf])

theorem noPhase_startProc (c : Cfg) : NoPhase (startProc c) := by simp [NoPhase, startProc_list]

theorem length_startFrames (c : Cfg) : (cmdFrames c ((startSendings c).map Sending.cmd)).length = 6 := by
  have hone : ∀ k : Cmd, k.payload.length ≤ 58 → (k.frames c).length = 1 := fun k hk =>
    (Frames.length_buildFrames ..).trans (if_pos hk)
  have h1 := hone (inSrcCmd c) (Nat.le_of_ble_eq_true rfl)
  have h2 := hone (errqCmd c) (Nat.le_of_ble_eq_true rfl)
  have h3 := hone (trigModeCmd c) (Nat.le_of_ble_eq_true rfl)
  have h4 := hone (playCmd c .play) (Nat.le_of_ble_eq_true rfl)
  simp [cmdFrames, startSendings, h1, h2, h3, h4]

theorem exec_start_of_session {s : State} (hplan : s.syn.planActive = false) (hsess : s.ses.sessValid = true)
    (hsm : s.ses.sm = .modeSet ∨ s.ses.sm = .stopped ∨ s.ses.sm = .paused) :
    exec .start s = .next (runProc .warn (startProc s.cfg) s).conclude := by
  rw [exec, execStart, opStart, sessionReady_of_session hplan hsess]
  exact congrArg Host.Outcome.next (if_pos hsm)

/-- The warnings of an answered command are those of `Check`. -/
theorem warnings_of_reply {c : Cfg} {k : Sending} {evs : List PortEvent} (h : ranCommand c k.cmd evs) {b : Frame}
    (hb : replyOf evs = some b) : k.warnings c evs = if k.checked then checkWarnings c (some b) else [] := by
  rcases h with ⟨-, -, hok⟩ | ⟨-, hnone, -⟩
  · rw [Sending.warnings, warnings_nil.2 hok, hb]; rfl
  · rw [hnone] at hb; cases hb

/-- `START` whose six commands are answered. -/
theorem start_answered {s t : State} {evs : List PortEvent} (h : warnCommands s t (startSendings s.cfg) evs)
    {b1 b2 b3 b4 b5 b6 : Frame} {outs : List OutAns} {ins : List InAns}
    (hg : s.ports.grants 6 [b1, b2, b3, b4, b5, b6] outs ins) :
    ∃ ws, ws = [b2, b4, b6].flatMap (fun b => checkWarnings s.cfg (some b)) ∧ t.host.lastResult = ws.headD 0x00
      ∧ t.sts = (s.warnedOf ws).sts ∧ t.ses.lastErr = b6.getD s.cfg.errOff 0 ∧ t.frm.rplv = true ∧ t.frm.rplBuf = b6 := by
  obtain ⟨segs, rfl, hlen, hran, ⟨ws, hws, hcode, hsts⟩, herr, hrplv, hbufs, -, hgrants⟩ := h
  obtain ⟨hreplies, -⟩ := hgrants [b1, b2, b3, b4, b5, b6] outs ins rfl (by rw [length_startFrames]; exact hg)
  obtain ⟨g1, g2, g3, g4, g5, g6, rfl⟩ : ∃ g1 g2 g3 g4 g5 g6, segs = [g1, g2, g3, g4, g5, g6] := by
    match segs, hlen with
    | [g1, g2, g3, g4, g5, g6], _ => exact ⟨g1, g2, g3, g4, g5, g6, rfl⟩
  simp only [List.map_cons, List.map_nil, List.cons.injEq, and_true] at hreplies
  obtain ⟨h1, h2, h3, h4, h5, h6⟩ := hreplies
  simp only [startSendings, List.zip_cons_cons, List.zip_nil_right, List.forall_mem_cons] at hran
  obtain ⟨r1, r2, r3, r4, r5, r6, -⟩ := hran
  refine ⟨ws, ?_, hcode, hsts, ?_, ?_, ?_⟩
  · rw [hws]
    simp only [startSendings, List.zip_cons_cons, List.zip_nil_right, List.flatMap_cons, List.flatMap_nil]
    rw [warnings_of_reply r1 h1, warnings_of_reply r2 h2, warnings_of_reply r3 h3, warnings_of_reply r4 h4,
      warnings_of_reply r5 h5, warnings_of_reply r6 h6]
    rfl
  · rw [herr]; simp [startSendings, Sending.errAfter, h6]
  · rw [hrplv]; simp [h6]
  · rw [hbufs]; simp [h6]

/-- The code of `START`: `OK` with no event and a zero error byte, or one of three warnings. -/
theorem start_code {s t : State} {evs : List PortEvent} (h : warnCommands s t (startSendings s.cfg) evs) :
    t.host.lastResult = 0x00 ∧ t.sts = s.sts ∧ t.ses.lastErr = 0x00 ∨ t.host.lastResult = 0x10
      ∨ t.host.lastResult = 0x11 ∨ t.host.lastResult = 0x12 := by
  obtain ⟨segs, rfl, hlen, hran, ⟨ws, rfl, hcode, hsts⟩, herr, -, -, hzero, -⟩ := h
  rcases hw : (((startSendings s.cfg).zip segs).flatMap fun x => x.1.warnings s.cfg x.2) with - | ⟨w, ws⟩
  · rw [hw] at hcode hsts
    refine .inl ⟨hcode, hsts, ?_⟩
    obtain ⟨-, hbytes⟩ := hzero.1 hcode
    obtain ⟨g1, g2, g3, g4, g5, g6, rfl⟩ : ∃ g1 g2 g3 g4 g5 g6, segs = [g1, g2, g3, g4, g5, g6] := by
      match segs, hlen with
      | [g1, g2, g3, g4, g5, g6], _ => exact ⟨g1, g2, g3, g4, g5, g6, rfl⟩
    obtain ⟨b, hb, h0⟩ := hbytes (⟨errqCmd s.cfg, true⟩, g6) (by simp [startSendings]) rfl
    rw [herr]
    simpa [startSendings, Sending.errAfter, hb] using h0
  · rw [hw] at hcode
    exact .inr (hcode ▸ head_warningsMet hran (by rw [warningsMet, hw]; rfl))

/-- Settles O31. -/
theorem startResult : Obligations.StartResult := by
  intro s hplan
  refine ⟨fun hsess => ?notConnected, fun hsess hsm => ?started, fun hsess hsm => ?badState⟩
  case notConnected =>
    rw [exec, execStart, opStart, sessionReady_of_no_session hplan hsess]
    rfl
  case badState =>
    have hno : ¬ (s.ses.sm = .modeSet ∨ s.ses.sm = .stopped ∨ s.ses.sm = .paused) := by
      obtain h | h := hsm <;> simp [h]
    rw [exec, execStart, opStart, sessionReady_of_session hplan hsess]
    exact congrArg Host.Outcome.next (if_neg hno)
  case started =>
    obtain ⟨segs, hw, hmarks⟩ := marked_startProc s
    obtain ⟨hses, hupl, hbuf, hidle⟩ := startProc_registers s
    obtain ⟨hcfg, hcod, hsyn, hwork, hubf⟩ := aside_conclude .warn s (noPhase_startProc s.cfg)
    exact ⟨_, segs.flatten, exec_start_of_session hplan hsess hsm, hw.did, hmarks, hses, hupl, hidle, hbuf, hw.conclude,
      start_code hw.conclude, fun _ _ _ _ _ _ _ _ hg => start_answered hw.conclude hg, hcfg, hcod, hsyn, hwork, hubf⟩

/-! ## `STOP` and `PAUSE` (R166 to R168) -/

theorem marked_stopProc (s : State) :
    Marked s [⟨playCmd s.cfg .stop, false⟩] (outMarks s.cfg (playCmd s.cfg .stop) ++ [.settle s.cfg.settleStopMs])
      (runProc .warn (stopProc s.cfg) s) := (Marked.start s).stopProc

theorem stopProc_registers (s : State) :
    (runProc .warn (stopProc s.cfg) s).st.ses = { s.ses with sm := if s.ses.sm = .idle then .idle else .stopped }
      ∧ (runProc .warn (stopProc s.cfg) s).st.upl = s.upl
      ∧ (runProc .warn (stopProc s.cfg) s).st.frm.frameBuf = (playCmd s.cfg .stop).frames s.cfg
      ∧ (runProc .warn (stopProc s.cfg) s).st.frm.inflight = false := by
  refine ⟨?_, ?_, runProc_warn_frm (as := []) (a := .stopPlay) rfl (by simp [cmdOf])⟩
  · rw [runProc_warn_ses_of_noCheck (by simp [stopProc])]
    simp only [stopProc, List.foldl_cons, List.foldl_nil, sesOf]
    split
    case isTrue h => rw [← h]
    case isFalse => rfl
  · rw [runProc_warn_upl (by simp [stopProc])]; rfl

theorem marked_pause (s : State) :
    Marked s [⟨playCmd s.cfg .pause, false⟩] (outMarks s.cfg (playCmd s.cfg .pause))
      (runProc .warn [.cmd (playCmd s.cfg .pause)] s) :=
  (Marked.start s).cmd (playCmd s.cfg .pause) (Nat.le_of_ble_eq_true rfl)

/-- Settles O32. -/
theorem stopPauseResults : Obligations.StopPauseResults := by
  intro s hplan
  refine ⟨fun hsess => ⟨?_, ?_⟩, fun hsess => ⟨?stop, fun hsm => ?pause, fun hsm => ?badState⟩⟩
  · rw [exec, execStop, opStop, sessionReady_of_no_session hplan hsess]
    rfl
  · rw [exec, execPause, opPause, sessionReady_of_no_session hplan hsess]
    rfl
  case stop =>
    obtain ⟨segs, hw, hmarks⟩ := marked_stopProc s
    obtain ⟨hses, hupl, hbuf, hidle⟩ := stopProc_registers s
    obtain ⟨hcfg, hcod, hsyn, hwork, hubf⟩ := aside_conclude .warn s (as := stopProc s.cfg) (by simp [NoPhase, stopProc])
    refine ⟨(runProc .warn (stopProc s.cfg) s).conclude, segs.flatten, ?_, hw.did, hmarks,
      warnCommand_of_warned hw hbuf hidle, hses, hupl, hcfg, hcod, hsyn, hwork, hubf⟩
    rw [exec, execStop, opStop, sessionReady_of_session hplan hsess]
  case pause =>
    obtain ⟨segs, hw, hmarks⟩ := marked_pause s
    obtain ⟨hbuf, hidle⟩ := runProc_warn_frm (s := s) (as := []) (a := .cmd (playCmd s.cfg .pause)) (bs := []) rfl (by simp)
    obtain ⟨hcfg, hcod, hsyn, hwork, hubf⟩ := aside_conclude .warn s (as := [.cmd (playCmd s.cfg .pause)]) (by simp [NoPhase])
    have hses : (runProc .warn [.cmd (playCmd s.cfg .pause)] s).st.ses = s.ses := by
      rw [runProc_warn_ses_of_noCheck (by simp)]; rfl
    have hupl : (runProc .warn [.cmd (playCmd s.cfg .pause)] s).st.upl = s.upl := by
      rw [runProc_warn_upl (by simp)]; rfl
    refine ⟨(runProc .warn [.cmd (playCmd s.cfg .pause)] s).st.setPaused.raise
      (runProc .warn [.cmd (playCmd s.cfg .pause)] s).code, segs.flatten, ?_, hw.did, hmarks,
      warnCommand_of_warned hw hbuf hidle, ?_, hupl, hcfg, hcod, hsyn, hwork, hubf⟩
    · rw [exec, execPause, opPause, sessionReady_of_session hplan hsess]
      exact congrArg Host.Outcome.next (if_pos hsm)
    · exact congrArg (fun x : SesRegs => { x with sm := .paused }) hses
  case badState =>
    rw [exec, execPause, opPause, sessionReady_of_session hplan hsess]
    exact congrArg Host.Outcome.next (if_neg hsm)

/-! ## `DEFPAT` and `CFGLUT` (R137, R139) -/

theorem defpatFits_iff {bd color : Byte} {darkUs trigOut : U32} {blk : U16} {bitpos : Byte} :
    defpatFits bd color darkUs trigOut blk bitpos
      ↔ ¬ (bdOk bd = false ∨ color.toNat > 7 ∨ darkUs.toNat > 0xFFFFFF ∨ trigOut.toNat > 0xFF ∨ blk.toNat > 0x7FF
        ∨ bitpos.toNat > 31) := by
  have hbd : ¬ bdOk bd = false ↔ (bd = 1 ∨ bd = 8) := by rw [Bool.not_eq_false, Validation.bdOk_iff]
  rw [not_or, hbd]
  simp only [defpatFits, not_or, gt_iff_lt, Nat.not_lt]

section

variable {index : U16} {expUs : U32} {bd color : Byte} {trigIn : Bool} {darkUs trigOut : U32} {blk : U16} {bitpos : Byte}
  {s : State}

/-- The refusals of `DEFPAT` by its operands, in their order. -/
theorem defpatCheck_of_fits {c : Cfg} (h : defpatFits bd color darkUs trigOut blk bitpos) :
    defpatCheck c expUs bd color darkUs trigOut blk bitpos
      = if expUs.toNat < leastExposure c bd then some .cfgExpLow
        else if expUs.toNat > c.expMax then some .cfgExpHigh else none := if_neg (defpatFits_iff.1 h)

theorem defpatCheck_of_not_fits {c : Cfg} (h : ¬ defpatFits bd color darkUs trigOut blk bitpos) :
    defpatCheck c expUs bd color darkUs trigOut blk bitpos = some .cfgRange :=
  if_pos (not_not.1 fun hn => h (defpatFits_iff.2 hn))

theorem exec_defpat_of_refused {r : Res} (hplan : s.syn.planActive = false)
    (h : ((defpatCheck s.cfg expUs bd color darkUs trigOut blk bitpos).orElse fun _ => uplReady s) = some r) :
    exec (.defpat index expUs bd color trigIn darkUs trigOut blk bitpos) s = .next (s.raise r) := by
  rw [exec, execDefpat, opDefpat, if_neg (Bool.eq_false_iff.1 hplan), h]

/-- A single upload command of a host operation: `ISUP <- 0` and the command (R137, R139). -/
theorem upload_command (k : Cmd) (s : State) :
    warnCommand s (runProc .warn [.isup false, .cmd k] s).conclude (k.frames s.cfg)
      ∧ (runProc .warn [.isup false, .cmd k] s).conclude.upl = { s.upl with isup := false }
      ∧ (runProc .warn [.isup false, .cmd k] s).conclude.ses = s.ses
      ∧ Aside s (runProc .warn [.isup false, .cmd k] s).conclude := by
  obtain ⟨segs, hw0, -⟩ := (Marked.start s).reg (a := .isup false) rfl rfl rfl rfl rfl rfl
  obtain ⟨seg, -, hw⟩ := hw0.cmd k
  obtain rfl := List.length_eq_zero_iff.1 hw0.len
  obtain ⟨hbuf, hidle⟩ := runProc_warn_frm (s := s) (as := [.isup false]) (a := .cmd k) (bs := []) rfl (by simp)
  refine ⟨warnCommand_of_warned hw hbuf hidle, ?_, ?_, aside_conclude .warn s (by simp [NoPhase])⟩
  · exact runProc_warn_upl (by simp)
  · exact runProc_warn_ses_of_noCheck (by simp)

end

/-- Settles O26. -/
theorem defpatCfglutResults : Obligations.DefpatCfglutResults := by
  refine ⟨?defpat, ?cfglut, ?defpatRefused, ?cfglutRefused⟩
  case defpat =>
    intro index expUs bd color trigIn darkUs trigOut blk bitpos s hplan hfits hlow hhigh hready
    obtain ⟨hcmd, hupl, hses, hcfg, hcod, hsyn, hwork, hubf⟩ := upload_command (defPatCmd s.cfg index (expUs.setWidth 24)
      (bdField bd) (color.setWidth 3) trigIn (darkUs.setWidth 24) (trigOut.setWidth 8) (blk.setWidth 11)
      (bitpos.setWidth 5)) s
    refine ⟨_, ?_, hcmd, hupl, hcfg, hcod, hses, hsyn, hwork, hubf⟩
    rw [exec, execDefpat, opDefpat, if_neg (Bool.eq_false_iff.1 hplan), defpatCheck_of_fits hfits,
      if_neg (Nat.not_lt.2 hlow), if_neg (Nat.not_lt.2 hhigh), Option.orElse_none, uplReady_of_ready hready]
  case cfglut =>
    intro count rep s hplan hcount hready
    obtain ⟨hcmd, hupl, hses, hcfg, hcod, hsyn, hwork, hubf⟩ := upload_command (lutCmd s.cfg count rep) s
    refine ⟨_, ?_, hcmd, hupl, hcfg, hcod, hses, hsyn, hwork, hubf⟩
    rw [exec, execCfglut, opCfglut, if_neg (Bool.eq_false_iff.1 hplan), if_neg hcount, uplReady_of_ready hready]
  case defpatRefused =>
    intro index expUs bd color trigIn darkUs trigOut blk bitpos s r hplan hr
    refine exec_defpat_of_refused hplan ?_
    obtain ⟨hbad, rfl⟩ | ⟨hfits, hr⟩ := hr
    · rw [defpatCheck_of_not_fits hbad]; rfl
    rw [defpatCheck_of_fits hfits]
    obtain ⟨hlow, rfl⟩ | ⟨hlow, hr⟩ := hr
    · rw [if_pos hlow]; rfl
    rw [if_neg (Nat.not_lt.2 hlow)]
    obtain ⟨hhigh, rfl⟩ | ⟨hhigh, hr⟩ := hr
    · rw [if_pos hhigh]; rfl
    · rw [if_neg (Nat.not_lt.2 hhigh), Option.orElse_none, uplReady_of_refusal hr]
  case cfglutRefused =>
    intro count rep s r hplan hr
    obtain ⟨hcount, rfl⟩ | ⟨hcount, hr⟩ := hr
    · rw [exec, execCfglut, opCfglut, if_neg (Bool.eq_false_iff.1 hplan), if_pos hcount]
      rfl
    · rw [exec, execCfglut, opCfglut, if_neg (Bool.eq_false_iff.1 hplan), if_neg hcount, uplReady_of_refusal hr]
      rfl

end Sys2Proof.WarnOps
end

section
/-! A procedure in the fault context whose actions are commands and their `Progress` (R113, R149 to R151): all of its frames
and no failure, or a first part of them up to the first failure; what it leaves. -/

namespace Sys2Proof.FaultProc

open Sys2Proof.Machine Sys2Proof.Procedure

/-! ## The actions of an upload's body -/

/-- An action of the body of an upload: a command, or `Progress` after a packet. -/
def Transmits : PAct → Prop
  | .cmd _ => True
  | .progress => True
  | _ => False

/-- The command of an action of the body. -/
def sentBy : PAct → Option Cmd
  | .cmd k => some k
  | _ => none

/-- The commands of a body, in order. -/
def cmdsOf (as : List PAct) : List Cmd := as.filterMap sentBy

@[simp] theorem cmdsOf_nil : cmdsOf [] = [] := rfl
@[simp] theorem cmdsOf_cmd (k : Cmd) (as : List PAct) : cmdsOf (.cmd k :: as) = k :: cmdsOf as := rfl
@[simp] theorem cmdsOf_progress (as : List PAct) : cmdsOf (.progress :: as) = cmdsOf as := rfl

theorem cmdsOf_append (as bs : List PAct) : cmdsOf (as ++ bs) = cmdsOf as ++ cmdsOf bs := List.filterMap_append

theorem cmdFrames_append (c : Cfg) (ks js : List Cmd) : cmdFrames c (ks ++ js) = cmdFrames c ks ++ cmdFrames c js :=
  List.flatMap_append

/-! ## Where a run stands -/

section

variable (s : State) (as : List PAct) (r : Run) (evs : List PortEvent)

/-- The run has done all of `as`, nothing failing. -/
structure Whole : Prop where
  fault : r.fault = false
  frames : framesOut evs = cmdFrames s.cfg (cmdsOf as)
  clean : ∀ e ∈ evs, e.failed = false
  replied : cmdsOf as ≠ [] → r.st.frm.rplv = true ∧ r.st.frm.inflight = false
  done : s.upl.pktDone = 0 → as.count .progress < 2 ^ 32 → r.st.upl.pktDone = BitVec.ofNat 32 (as.count .progress)

/-- The run stopped at a failure. -/
structure Cut : Prop where
  fault : r.fault = true
  frames : framesOut evs <+: cmdFrames s.cfg (cmdsOf as)
  last : ∃ before e, evs = before ++ [e] ∧ e.failed = true ∧ ∀ x ∈ before, x.failed = false
  dropped : r.st.frm.rplv = false ∧ r.st.frm.inflight = false

/-- A run in the fault context that began at `s` has come through `as`, or has stopped inside. -/
structure Transmitted : Prop where
  warn : r.warn = none
  acted : Acted s r.st
  ses : r.st.ses = s.ses
  syn : r.st.syn = s.syn
  upl : r.st.upl = { s.upl with pktDone := r.st.upl.pktDone, pktPct := r.st.upl.pktPct }
  did : ∃ evs, s.did r.st evs ∧ (Whole s as r evs ∨ Cut s as r evs)
  grants : ∀ (bs later : List Frame) (n : Nat) (outs : List OutAns) (ins : List InAns), bs.length = (cmdsOf as).length →
    s.ports.grants ((cmdFrames s.cfg (cmdsOf as)).length + n) (bs ++ later) outs ins →
      r.fault = false ∧ r.st.ports.usbOutAns = List.replicate n .ok ++ outs
        ∧ r.st.ports.usbInAns = later.map .reply ++ ins

end

section

variable {s : State} {as : List PAct} {r : Run}

theorem Transmitted.start (s : State) : Transmitted s [] { st := s, warn := none, fault := false } where
  warn := rfl
  acted := .refl s
  ses := rfl
  syn := rfl
  upl := rfl
  did := ⟨[], rfl, .inl ⟨rfl, rfl, (fun _ h => nomatch h), fun h => absurd rfl h, fun h _ => h⟩⟩
  grants := fun bs later n outs ins hb h => by
    obtain rfl := List.length_eq_zero_iff.1 hb
    exact ⟨rfl, by simpa [cmdFrames] using h.1, h.2.1⟩

/-- The answers granted to a body and one more action, split between them. -/
theorem grants_snoc {p : Ports} {c : Cfg} {a : PAct} {bs later : List Frame} {n : Nat} {outs : List OutAns}
    {ins : List InAns} (hb : bs.length = (cmdsOf (as ++ [a])).length)
    (hg : p.grants ((cmdFrames c (cmdsOf (as ++ [a]))).length + n) (bs ++ later) outs ins) :
    ∃ cs ds, bs = cs ++ ds ∧ cs.length = (cmdsOf as).length ∧ ds.length = (cmdsOf [a]).length
      ∧ p.grants ((cmdFrames c (cmdsOf as)).length + ((cmdFrames c (cmdsOf [a])).length + n)) (cs ++ (ds ++ later)) outs ins := by
  rw [cmdsOf_append, List.length_append] at hb
  refine ⟨bs.take (cmdsOf as).length, bs.drop (cmdsOf as).length, (List.take_append_drop _ _).symm, ?_, ?_, ?_⟩
  · rw [List.length_take]; omega
  · rw [List.length_drop]; omega
  · rwa [← List.append_assoc, List.take_append_drop, ← Nat.add_assoc, ← List.length_append, ← cmdFrames_append,
      ← cmdsOf_append]

/-- A run that has stopped does nothing more. -/
theorem Transmitted.stopped (h : Transmitted s as r) (hf : r.fault = true) (a : PAct) : Transmitted s (as ++ [a]) r where
  warn := h.warn
  acted := h.acted
  ses := h.ses
  syn := h.syn
  upl := h.upl
  did := by
    obtain ⟨evs, hd, hw | hc⟩ := h.did
    · rw [hw.fault] at hf; cases hf
    · refine ⟨evs, hd, .inr ⟨hf, ?_, hc.last, hc.dropped⟩⟩
      rw [cmdsOf_append, cmdFrames_append]
      exact hc.frames.trans (List.prefix_append _ _)
  grants := fun bs later n outs ins hb hg => by
    obtain ⟨cs, ds, -, hcs, -, hg⟩ := grants_snoc hb hg
    have := (h.grants cs (ds ++ later) _ outs ins hcs hg).1
    rw [hf] at this; cases this

theorem Transmitted.clean (h : Transmitted s as r) (hf : r.fault = false) : ∃ evs, s.did r.st evs ∧ Whole s as r evs := by
  obtain ⟨evs, hd, hw | hc⟩ := h.did
  · exact ⟨evs, hd, hw⟩
  · rw [hc.fault] at hf; cases hf

/-- `Progress` counts one packet. -/
theorem reportProgress_pktDone (t : State) : (reportProgress t).upl.pktDone = Config.u32Of (t.upl.pktDone.toNat + 1) := by
  unfold reportProgress
  dsimp only
  split
  · rw [push_upl]; rfl
  · rfl

theorem reportProgress_ports (t : State) : (reportProgress t).ports = t.ports := by
  unfold reportProgress
  dsimp only
  split
  · rw [push_ports]; rfl
  · rfl

theorem Transmitted.progress (h : Transmitted s as r) (hf : r.fault = false) :
    Transmitted s (as ++ [.progress]) (r.after (.ok (reportProgress r.st))) where
  warn := h.warn
  acted := h.acted.trans (reportProgress_acted r.st)
  ses := (reportProgress_ses r.st).trans h.ses
  syn := (reportProgress_syn r.st).trans h.syn
  upl := (reportProgress_upl r.st).trans (by rw [h.upl]; rfl)
  did := by
    obtain ⟨evs, hd, hw⟩ := h.clean hf
    refine ⟨evs, (congrArg Ports.trace (reportProgress_ports r.st)).trans hd, .inl ⟨hf, ?_, hw.clean, ?_, ?_⟩⟩
    · rw [cmdsOf_append]; simpa using hw.frames
    · rw [cmdsOf_append]
      simp only [cmdsOf_progress, cmdsOf_nil, List.append_nil, Run.after]
      rw [reportProgress_frm]
      exact hw.replied
    · intro h0 hlt
      rw [List.count_append, List.count_singleton_self] at hlt ⊢
      rw [Run.after, reportProgress_pktDone, hw.done h0 (by omega), BitVec.toNat_ofNat, Nat.mod_eq_of_lt (by omega),
        Config.u32Of, if_pos hlt]
  grants := fun bs later n outs ins hb hg => by
    rw [cmdsOf_append] at hb hg
    simp only [cmdsOf_progress, cmdsOf_nil, List.append_nil] at hb hg
    rw [Run.after, reportProgress_ports]
    exact h.grants bs later n outs ins hb hg

/-- The end of a command in the fault context. -/
theorem cmdEnd_fault (x : CmdOut × State) : cmdEnd .fault x = if x.1 = .ok then .ok x.2 else .faulted x.2 := by
  obtain ⟨- | - | -, t⟩ := x <;> rfl

theorem Transmitted.cmd (h : Transmitted s as r) (hf : r.fault = false) (k : Cmd) :
    Transmitted s (as ++ [.cmd k]) (r.after (cmdEnd .fault (doCmd k r.st))) := by
  obtain ⟨evs, hd, hw⟩ := h.clean hf
  obtain ⟨seg, hseg, ht⟩ := doCmd_did k r.st
  have hs := doCmd_spec k r.st
  have hsends := doCmd_onlySends k r.st
  rw [h.acted.cfg] at ht
  obtain ⟨hpre, hall⟩ := ht.frames
  obtain ⟨hclean, hfail⟩ := ht.failed
  have hst : (r.after (cmdEnd .fault (doCmd k r.st))).st = (doCmd k r.st).2 := by
    rw [Run.after_st, cmdEnd_fault]; split <;> rfl
  have hframes : framesOut (evs ++ seg) = cmdFrames s.cfg (cmdsOf as) ++ framesOut seg := by
    rw [framesOut_append, hw.frames]
  have hcmds : cmdFrames s.cfg (cmdsOf (as ++ [.cmd k])) = cmdFrames s.cfg (cmdsOf as) ++ k.frames s.cfg := by
    rw [cmdsOf_append, cmdFrames_append]; simp [cmdFrames]
  have hcount : (as ++ [PAct.cmd k]).count .progress = as.count .progress := by
    rw [List.count_append, List.count_singleton]; simp
  refine ⟨?warn, ?acted, ?ses, ?syn, ?upl, ⟨evs ++ seg, ?did, ?how⟩, ?grants⟩
  case warn => rw [cmdEnd_fault]; split <;> exact h.warn
  case acted => rw [hst]; exact h.acted.trans (doCmd_acted k r.st)
  case ses => rw [hst, hsends.ses, h.ses]
  case syn => rw [hst, hsends.syn, h.syn]
  case upl => rw [hst, hsends.upl]; exact h.upl
  case did =>
    have hd' := hd
    rw [State.did] at hd' hseg ⊢
    rw [hst, hseg, hd', List.reverse_append, List.append_assoc]
  case how =>
    by_cases ho : (doCmd k r.st).1 = .ok
    · refine .inl ⟨?_, ?_, ?_, fun _ => ?_, ?_⟩
      · rw [cmdEnd_fault, if_pos ho]; exact hf
      · rw [hframes, hcmds, hall (by rw [ho]; exact nofun)]
      · exact List.forall_mem_append.2 ⟨hw.clean, hclean ho⟩
      · rw [hst]; exact ⟨(hs.ok ho).1, hs.idle⟩
      · rw [hst, hsends.upl, hcount]; exact hw.done
    · obtain ⟨before, e, rfl, he, -, hb⟩ := hfail ho
      refine .inr ⟨?_, ?_, ⟨evs ++ before, e, (List.append_assoc ..).symm, he, List.forall_mem_append.2 ⟨hw.clean, hb⟩⟩, ?_⟩
      · rw [cmdEnd_fault, if_neg ho]; rfl
      · rw [hframes, hcmds]; exact (List.prefix_append_right_inj _).2 hpre
      · rw [hst]; exact ⟨(hs.failed ho).1, hs.idle⟩
  case grants =>
    intro bs later n outs ins hb hg
    obtain ⟨cs, ds, rfl, hcs, hds, hg⟩ := grants_snoc hb hg
    obtain ⟨b, rfl⟩ := List.length_eq_one_iff.1 (show ds.length = 1 from hds)
    obtain ⟨-, houts, hins⟩ := h.grants cs _ _ outs ins hcs hg
    have hone : (cmdFrames s.cfg (cmdsOf [.cmd k])).length = (k.frames s.cfg).length := by simp [cmdFrames]
    rw [hone, List.replicate_add, List.append_assoc] at houts
    have hans := doCmd_answered k r.st b (List.replicate n .ok ++ outs) (later.map .reply ++ ins)
      ⟨by rw [houts, h.acted.cfg], by simpa using hins, fun x hx => hg.2.2 x (by rw [List.mem_singleton.1 hx]; simp)⟩
    refine ⟨?_, ?_, ?_⟩
    · rw [hans]; exact hf
    · rw [hst, hans]; rfl
    · rw [hst, hans]; rfl

theorem Transmitted.snoc (h : Transmitted s as r) {a : PAct} (ha : Transmits a) :
    Transmitted s (as ++ [a]) (runActs .fault [a] r) := by
  rw [runActs]
  by_cases hf : r.fault = true
  · rw [if_pos hf]; exact h.stopped hf a
  · rw [if_neg hf]
    have hf := Bool.eq_false_iff.2 hf
    cases a with
    | cmd k => exact h.cmd hf k
    | progress => exact h.progress hf
    | _ => exact ha.elim

theorem Transmitted.append (h : Transmitted s as r) {bs : List PAct} (hbs : ∀ b ∈ bs, Transmits b) :
    Transmitted s (as ++ bs) (runActs .fault bs r) := by
  induction bs generalizing as r with
  | nil => simpa [runActs] using h
  | cons b bs ih =>
    have := ih (h.snoc (hbs b (.head _))) fun x hx => hbs x (.tail _ hx)
    rwa [← runActs_append, List.append_assoc] at this

theorem runProc_transmitted (s : State) (h : ∀ a ∈ as, Transmits a) : Transmitted s as (runProc .fault as s) :=
  (Transmitted.start s).append h

end

/-! ## Uploads -/

theorem transmits_blockActs (c : Cfg) (b : Block) : ∀ a ∈ blockActs c b, Transmits a := by
  intro a ha
  obtain rfl | ha := List.mem_cons.1 ha
  · trivial
  obtain ⟨data, -, ha⟩ := List.mem_flatMap.1 ha
  obtain rfl | ha := List.mem_cons.1 ha
  · trivial
  · obtain rfl := List.mem_singleton.1 ha
    trivial

theorem cmdsOf_blockActs (c : Cfg) (b : Block) : cmdsOf (blockActs c b) = blockCmds c b := by
  have hchunks : ∀ qs : List (List Byte),
      cmdsOf (qs.flatMap fun data => [PAct.cmd (dataCmd c data), .progress]) = qs.map (dataCmd c) := by
    intro qs
    induction qs with
    | nil => rfl
    | cons q qs ih => simpa [cmdsOf_append] using ih
  rw [blockActs, cmdsOf_cmd, hchunks, blockCmds]

theorem count_progress_blockActs (c : Cfg) (b : Block) : (blockActs c b).count .progress = chunkCount c b.bytes := by
  have hchunks : ∀ qs : List (List Byte),
      (qs.flatMap fun data => [PAct.cmd (dataCmd c data), .progress]).count .progress = qs.length := by
    intro qs
    induction qs with
    | nil => rfl
    | cons q qs ih => simp [ih]
  rw [blockActs, List.count_cons, hchunks, Frames.length_pieces]
  · simp [chunkCount]
  · exact Config.one_le_chunk c

/-- The body of the full upload (R153): the pattern defines, the LUT, the blocks in descending index. -/
def uploadBody (s : State) : List PAct :=
  s.upl.seqPats.mapIdx (defPatAct s.cfg)
    ++ [.cmd (lutCmd s.cfg (BitVec.ofNat 16 s.upl.seqPats.length) (repeatCount s.upl.seqRepeat s.upl.seqPats.length))]
    ++ (compile s.cfg s.upl.seqPats).reverse.flatMap (blockActs s.cfg)

theorem uploadSeq_eq (s : State) :
    uploadSeq s = [.isup false, .blocks (compile s.cfg s.upl.seqPats), .pktInit (packetTotal s.cfg (compile s.cfg s.upl.seqPats))]
      ++ uploadBody s ++ [.isup true] := by
  simp [uploadSeq, uploadBody, List.append_assoc]

theorem transmits_uploadBody (s : State) : ∀ a ∈ uploadBody s, Transmits a := by
  refine List.forall_mem_append.2 ⟨List.forall_mem_append.2 ⟨?_, by simp [Transmits]⟩, ?_⟩
  · intro a ha
    obtain ⟨i, hi, rfl⟩ := List.mem_mapIdx.1 ha
    trivial
  · intro a ha
    obtain ⟨b, -, ha⟩ := List.mem_flatMap.1 ha
    exact transmits_blockActs s.cfg b a ha

theorem cmdsOf_uploadBody (s : State) : cmdsOf (uploadBody s) = uploadCmds s.cfg s.upl.seqPats s.upl.seqRepeat := by
  have hpats : cmdsOf (s.upl.seqPats.mapIdx (defPatAct s.cfg))
      = s.upl.seqPats.mapIdx fun i p => defPatCmd s.cfg (BitVec.ofNat 16 i) (p.expUs.setWidth 24) (bdField p.bd)
        s.cfg.colorMask p.trigIn (p.darkUs.setWidth 24) (p.trigOut.setWidth 8) p.blk p.bitpos := by
    have hmap : s.upl.seqPats.mapIdx (defPatAct s.cfg) = (s.upl.seqPats.mapIdx fun i p => defPatCmd s.cfg (BitVec.ofNat 16 i)
        (p.expUs.setWidth 24) (bdField p.bd) s.cfg.colorMask p.trigIn (p.darkUs.setWidth 24) (p.trigOut.setWidth 8) p.blk
        p.bitpos).map .cmd := List.ext_getElem (by simp) (by simp [defPatAct])
    rw [hmap, cmdsOf, List.filterMap_map]
    exact List.filterMap_some
  have hblocks : ∀ bs : List Block, cmdsOf (bs.flatMap (blockActs s.cfg)) = bs.flatMap (blockCmds s.cfg) := by
    intro bs
    induction bs with
    | nil => rfl
    | cons b bs ih => rw [List.flatMap_cons, List.flatMap_cons, cmdsOf_append, cmdsOf_blockActs, ih]
  rw [uploadBody, cmdsOf_append, cmdsOf_append, hpats, hblocks, uploadCmds]
  rfl

/-! ## The end of an upload -/

/-- A body whose run is the end of a host operation meets `faultCommands`. -/
theorem faultCommands_of_transmitted {s s' t : State} {as : List PAct} {r : Run} {ks : List Cmd} (h : Transmitted s' as r)
    (hne : ks ≠ []) (hks : cmdsOf as = ks) (hcfg : s'.cfg = s.cfg) (hports : s'.ports = s.ports)
    (hcode : t.host.lastResult = if r.fault then 0x20 else 0x00) (htrace : t.ports.trace = r.st.ports.trace)
    (hfrm : t.frm = r.st.frm) : faultCommands s t ks := by
  subst hks
  refine ⟨?_, fun bs outs ins hb hg => ?_⟩
  · obtain ⟨evs, hd, hend⟩ := h.did
    have hdid : s.did t evs := by
      rw [State.did] at hd ⊢
      rw [htrace, hd, hports]
    obtain hw | hc := hend
    · have hrep := hw.replied hne
      have hframes := hcfg ▸ hw.frames
      refine ⟨evs, hdid, by rw [hframes], by rw [hfrm]; exact hrep.2, .inl ⟨?_, hframes, by rw [hfrm]; exact hrep.1, hw.clean⟩⟩
      rw [hcode, hw.fault]; rfl
    · refine ⟨evs, hdid, hcfg ▸ hc.frames, by rw [hfrm]; exact hc.dropped.2, .inr ⟨?_, by rw [hfrm]; exact hc.dropped.1, hc.last⟩⟩
      rw [hcode, hc.fault]; rfl
  · rw [← hports, ← hcfg] at hg
    rw [hcode, (h.grants bs [] 0 outs ins hb (by simpa using hg)).1]; rfl

end Sys2Proof.FaultProc
end

section
/-! `IMGBLK` and `SUPLOAD` (R140, R143, R149 to R153): what they leave, their refusals. -/

namespace Sys2Proof.Uploads

open Sys2Proof.Machine Sys2Proof.Procedure Sys2Proof.WarnOps Sys2Proof.FaultProc

/-- The code of a run in the fault context without a warning. -/
theorem code_of_transmitted {s : State} {as : List PAct} {r : Run} (h : Transmitted s as r) :
    r.code.byte = if r.fault then 0x20 else 0x00 := by
  rw [Run.code, h.warn]
  split <;> rfl

theorem ubf_of_transmitted {s s' : State} {as : List PAct} {r : Run} (h : Transmitted s' as r) (hs : s'.host = s.host) :
    r.st.host.ubf = s.host.ubf := congrArg HostRegs.ubf (h.acted.host.trans hs)

/-! ## `IMGBLK` -/

/-- The state in which the transactions of `IMGBLK` begin. -/
def imgblkStart (block : List Byte) (s : State) : State :=
  s.setUpl { s.upl with isup := false, pktTotal := Config.u32Of (chunkCount s.cfg block), pktDone := 0, pktPct := 0 }

/-- The run of `IMGBLK`. -/
def imgblkRun (idx : U16) (block : List Byte) (s : State) : Run :=
  runProc .fault ([.isup false, .pktInit (Config.u32Of (chunkCount s.cfg block))]
    ++ blockActs s.cfg ⟨idx.setWidth 11, block⟩) s

theorem imgblk_transmitted (idx : U16) (block : List Byte) (s : State) :
    Transmitted (imgblkStart block s) (blockActs s.cfg ⟨idx.setWidth 11, block⟩) (imgblkRun idx block s) :=
  runProc_transmitted (imgblkStart block s) (transmits_blockActs s.cfg _)

theorem exec_imgblk_of_ready {idx : U16} {block : List Byte} {s : State} (hplan : s.syn.planActive = false)
    (hfits : ¬ (idx.toNat > 0x7FF ∨ block.length = 0 ∨ block.length > 0xFFFFFFFF)) (hready : s.uploadReady) :
    exec (.imgblk idx block) s = .next (imgblkRun idx block s).conclude := by
  rw [exec, execImgblk, opImgblk, if_neg (Bool.eq_false_iff.1 hplan), if_neg hfits, uplReady_of_ready hready]
  rfl

theorem chunkCount_le (c : Cfg) (block : List Byte) : chunkCount c block ≤ block.length := by
  have hc := Config.one_le_chunk c
  have hmul := Nat.mul_le_mul_right block.length hc
  rw [chunkCount, ceilDiv, Nat.div_le_iff_le_mul_add_pred (by omega)]
  omega

theorem u32Of_of_lt {n : Nat} (h : n < 2 ^ 32) : Config.u32Of n = BitVec.ofNat 32 n := if_pos h

/-- The operand check of `IMGBLK` (R140). -/
theorem imgblk_fits_iff {idx : U16} {block : List Byte} :
    (idx.toNat > 0x7FF ∨ block.length = 0 ∨ block.length > 0xFFFFFFFF)
      ↔ ¬ (idx.toNat ≤ 0x7FF ∧ block ≠ [] ∧ block.length ≤ 0xFFFFFFFF) := by
  rw [List.length_eq_zero_iff]
  by_cases hb : block = []
  · simp [hb]
  · simp only [hb, ne_eq, not_false_eq_true, false_or, true_and]; omega

/-- Settles O27. -/
theorem imgblkResult : Obligations.ImgblkResult := by
  refine ⟨?sent, ?refused⟩
  case sent =>
    intro idx block s hplan hidx hne hlen hready
    have hrun := imgblk_transmitted idx block s
    have hcode := code_of_transmitted hrun
    have hcount := count_progress_blockActs s.cfg ⟨idx.setWidth 11, block⟩
    have hlt : chunkCount s.cfg block < 2 ^ 32 := by have := chunkCount_le s.cfg block; omega
    refine ⟨(imgblkRun idx block s).conclude,
      exec_imgblk_of_ready hplan (fun h => imgblk_fits_iff.1 h ⟨hidx, hne, hlen⟩) hready, ?_, ?_, ?_, hrun.acted.cfg,
      hrun.acted.cod, hrun.ses, hrun.syn, hrun.acted.work, ubf_of_transmitted hrun rfl⟩
    · exact faultCommands_of_transmitted hrun (List.cons_ne_nil _ _) (cmdsOf_blockActs _ _) rfl rfl hcode rfl rfl
    · rw [show BitVec.ofNat 32 ((block.length + s.cfg.chunk - 1) / s.cfg.chunk) = Config.u32Of (chunkCount s.cfg block)
        from (u32Of_of_lt hlt).symm]
      exact hrun.upl
    · intro hok
      have hfault : (imgblkRun idx block s).fault = false := by
        refine Bool.eq_false_iff.2 fun h => ?_
        rw [h] at hcode
        exact absurd (hcode.symm.trans hok) (by decide)
      obtain ⟨evs, -, hw⟩ := hrun.clean hfault
      have htotal := congrArg UplRegs.pktTotal hrun.upl
      refine (hw.done rfl (by rw [hcount]; exact hlt)).trans ?_
      rw [hcount]
      exact (u32Of_of_lt hlt).symm.trans htotal.symm
  case refused =>
    intro idx block s r hplan hr
    rw [exec, execImgblk, opImgblk, if_neg (Bool.eq_false_iff.1 hplan)]
    obtain ⟨hbad, rfl⟩ | ⟨hidx, hne, hlen, hr⟩ := hr
    · have hbad' : idx.toNat > 0x7FF ∨ block.length = 0 ∨ block.length > 0xFFFFFFFF := by
        rwa [List.length_eq_zero_iff]
      rw [if_pos hbad']
      rfl
    · rw [if_neg (fun h => imgblk_fits_iff.1 h ⟨hidx, hne, hlen⟩), uplReady_of_refusal hr]
      rfl

/-! ## `SUPLOAD` -/

/-- The state in which the transactions of the full upload begin. -/
def suploadStart (s : State) : State :=
  s.setUpl { s.upl with
    isup := false, blocks := compile s.cfg s.upl.seqPats, pktTotal := packetTotal s.cfg (compile s.cfg s.upl.seqPats)
    pktDone := 0, pktPct := 0 }

/-- The last action of a full upload, `ISUP <- 1`, is reached where nothing failed. -/
theorem runProc_uploadSeq (s : State) :
    runProc .fault (uploadSeq s) s
      = if (runProc .fault (uploadBody s) (suploadStart s)).fault then runProc .fault (uploadBody s) (suploadStart s)
        else { runProc .fault (uploadBody s) (suploadStart s) with
          st := (runProc .fault (uploadBody s) (suploadStart s)).st.setUpl
            { (runProc .fault (uploadBody s) (suploadStart s)).st.upl with isup := true } } := by
  rw [uploadSeq_eq, runProc, runActs_append]
  rfl

/-- What the full upload leaves, whatever the devices answer. -/
theorem uploadSeq_result (s : State) :
    faultCommands s (runProc .fault (uploadSeq s) s).conclude (uploadCmds s.cfg s.upl.seqPats s.upl.seqRepeat)
      ∧ (runProc .fault (uploadSeq s) s).conclude.upl
        = { (suploadStart s).upl with
          isup := decide ((runProc .fault (uploadSeq s) s).conclude.host.lastResult = 0x00)
          pktDone := (runProc .fault (uploadSeq s) s).conclude.upl.pktDone
          pktPct := (runProc .fault (uploadSeq s) s).conclude.upl.pktPct }
      ∧ (runProc .fault (uploadSeq s) s).conclude.ses = s.ses
      ∧ Aside s (runProc .fault (uploadSeq s) s).conclude := by
  have hrun := runProc_transmitted (suploadStart s) (transmits_uploadBody s)
  have hcode := code_of_transmitted hrun
  have hne : uploadCmds s.cfg s.upl.seqPats s.upl.seqRepeat ≠ [] := by simp [uploadCmds]
  rw [runProc_uploadSeq]
  generalize runProc .fault (uploadBody s) (suploadStart s) = r at hrun hcode ⊢
  have hend := faultCommands_of_transmitted (t := (if r.fault then r else
    { r with st := r.st.setUpl { r.st.upl with isup := true } }).conclude) hrun hne (cmdsOf_uploadBody s) rfl rfl
    (by rw [← hcode]; split <;> rfl) (by split <;> rfl) (by split <;> rfl)
  refine ⟨hend, ?_, ?_, ⟨?_, ?_, ?_, ?_, ?_⟩⟩
  · by_cases hf : r.fault = true
    · rw [if_pos hf] at hcode ⊢
      have hno : r.conclude.host.lastResult ≠ 0x00 := by rw [show r.conclude.host.lastResult = 0x20 from hcode]; decide
      rw [decide_eq_false hno]
      exact hrun.upl
    · rw [if_neg hf] at hcode ⊢
      rw [decide_eq_true (show ({ r with st := r.st.setUpl { r.st.upl with isup := true } } : Run).conclude.host.lastResult
        = 0x00 from hcode)]
      exact congrArg (fun x : UplRegs => { x with isup := true }) hrun.upl
  · split <;> exact hrun.ses
  · split <;> exact hrun.acted.cfg
  · split <;> exact hrun.acted.cod
  · split <;> exact hrun.syn
  · split <;> exact hrun.acted.work
  · have hubf := ubf_of_transmitted (s := s) hrun rfl
    split <;> exact hubf

section

variable {s : State} {confirm : Bool}

theorem exec_supload_of_valid (hplan : s.syn.planActive = false) (hseq : s.upl.seqValid = true)
    (hval : validate s.cfg s.patsIn s.upl.seqRepeat confirm = none) (hisup : s.upl.isup = false) (hready : s.uploadReady) :
    exec (.supload confirm) s = .next (runProc .fault (uploadSeq s) s).conclude := by
  rw [exec, execSupload, opSupload, if_neg (Bool.eq_false_iff.1 hplan), if_neg (ne_false_of_eq_true hseq), hval]
  dsimp only
  rw [if_neg (Bool.eq_false_iff.1 hisup), uplReady_of_ready hready]

end

/-- Settles O28. -/
theorem suploadResult : Obligations.SuploadResult := by
  refine ⟨?sent, ?kept, ?refused⟩
  case sent =>
    intro confirm s hplan hseq hisup hval hready
    obtain ⟨hcmds, hupl, hses, hcfg, hcod, hsyn, hwork, hubf⟩ := uploadSeq_result s
    exact ⟨_, exec_supload_of_valid hplan hseq hval hisup hready, hcmds, hupl, hcfg, hcod, hses, hsyn, hwork, hubf⟩
  case kept =>
    intro confirm s hplan hseq hisup hval
    rw [exec, execSupload, opSupload, if_neg (Bool.eq_false_iff.1 hplan), if_neg (ne_false_of_eq_true hseq), hval]
    exact congrArg Host.Outcome.next (if_pos hisup)
  case refused =>
    intro confirm s r hplan hr
    rw [exec, execSupload, opSupload, if_neg (Bool.eq_false_iff.1 hplan)]
    obtain ⟨hno, rfl⟩ | ⟨hseq, hval | ⟨hval, hisup, hr⟩⟩ := hr
    · rw [if_pos hno]; rfl
    · rw [if_neg (ne_false_of_eq_true hseq), hval]; rfl
    · rw [if_neg (ne_false_of_eq_true hseq), hval]
      dsimp only
      rw [if_neg (Bool.eq_false_iff.1 hisup), uplReady_of_refusal hr]
      rfl

end Sys2Proof.Uploads
end

section
/-! `FSEND` (R59, R108, R109), the wire commands (R82 to R93, R112) and the pseudo-operations (R74). -/

namespace Sys2Proof.Sending

open Sys2Proof.Machine Sys2Proof.WarnOps Sys2Proof.FaultProc Sys2Proof.Uploads

/-! ## `FSEND` -/

section

variable {cls : Cls} {s : State}

theorem exec_fsend_of_loaded (hplan : s.syn.planActive = false) (hsess : s.ses.sessValid = true) (hbuf : s.frm.frameBuf ≠ []) :
    exec (.fsend cls) s = .next (fsendEnd cls (sendFrames cls s.frm.frameBuf
      ((s.setUpl { s.upl with isup := false }).loadFrames s.frm.frameBuf))) := by
  rw [exec, execFsend, opFsend, if_neg (Bool.eq_false_iff.1 hplan), if_neg (ne_false_of_eq_true hsess), if_neg hbuf]
  rfl

/-- The failure of `FSEND` by its class: a control command's is a warning with its event, a bulk one's a fault. -/
theorem fsendEnd_control (w : Res) (t : State) (x : CmdOut) (h : x = .timeout ∧ w = .warnTimeout ∨ x = .ioError ∧ w = .warnIo) :
    fsendEnd .control (x, t) = (t.setSts (t.push (.warning w.byte)).sts).finish w .none := by
  obtain ⟨rfl, rfl⟩ | ⟨rfl, rfl⟩ := h <;> exact congrArg (State.finish · _ _) (push_spec _ _).1

theorem fsendEnd_bulk (t : State) (x : CmdOut) (h : x ≠ .ok) : fsendEnd .bulk (x, t) = t.finish .faultIo .none := by
  cases x with
  | ok => exact absurd rfl h
  | timeout => rfl
  | ioError => rfl

end

/-- Settles O9. -/
theorem fsendAnswered : Obligations.FsendAnswered := by
  intro cls s b outs ins hplan hsess hbuf hg
  rw [exec_fsend_of_loaded hplan hsess hbuf,
    sendFrames_answered cls s.frm.frameBuf ((s.setUpl { s.upl with isup := false }).loadFrames s.frm.frameBuf) b outs ins hg]
  rfl

/-- Settles O10. -/
theorem fsendFailed : Obligations.FsendFailed := by
  refine ⟨?cut, ?noReply, fun cls s hplan => ⟨fun hsess => ?noSession, fun hsess hbuf => ?empty⟩⟩
  case cut =>
    intro cls s sent f later outs hplan hsess hbuf hout
    rw [exec_fsend_of_loaded hplan hsess (by simp [hbuf])]
    have hcut := sendFrames_cut cls sent f later ((s.setUpl { s.upl with isup := false }).loadFrames s.frm.frameBuf) outs hout
    rw [← hbuf] at hcut
    rw [hcut]
    cases cls with
    | control =>
      rw [fsendEnd_control .warnIo _ _ (.inr ⟨rfl, rfl⟩)]
      refine congrArg Host.Outcome.next (congrArg (State.finish · _ _) ?_)
      exact State.ext_groups rfl rfl rfl rfl rfl rfl rfl (push_sts_congr _ rfl rfl) rfl rfl
    | bulk => rw [fsendEnd_bulk _ _ (by simp)]; rfl
  case noReply =>
    intro cls s outs ins a w hplan hsess hbuf ha hout hin
    rw [exec_fsend_of_loaded hplan hsess hbuf]
    have hend : ∃ (o : CmdOut) (r : Res), w = r.byte ∧ (o = .timeout ∧ r = .warnTimeout ∨ o = .ioError ∧ r = .warnIo) ∧
        sendFrames cls s.frm.frameBuf ((s.setUpl { s.upl with isup := false }).loadFrames s.frm.frameBuf)
          = (o, ((s.setUpl { s.upl with isup := false }).setFrm { s.frm with inflight := false, rplv := false }).setPorts
            { s.ports with
              usbOutAns := outs, usbInAns := ins
              trace := .usbIn (replyTimeout s.cfg cls) a
                :: ((s.frm.frameBuf.map fun g => PortEvent.usbOut g .ok).reverse ++ s.ports.trace) }) := by
      obtain ⟨rfl, rfl⟩ | ⟨rfl, rfl⟩ := ha
      · exact ⟨_, .warnTimeout, rfl, .inl ⟨rfl, rfl⟩, sendFrames_noReply cls s.frm.frameBuf
          ((s.setUpl { s.upl with isup := false }).loadFrames s.frm.frameBuf) outs ins hout hin⟩
      · exact ⟨_, .warnIo, rfl, .inr ⟨rfl, rfl⟩, sendFrames_ioReply cls s.frm.frameBuf
          ((s.setUpl { s.upl with isup := false }).loadFrames s.frm.frameBuf) outs ins hout hin⟩
    obtain ⟨o, r, rfl, ho, hend⟩ := hend
    rw [hend]
    cases cls with
    | control =>
      rw [fsendEnd_control r _ _ ho]
      exact ⟨_, rfl, rfl, rfl, rfl, rfl, rfl, rfl, rfl, rfl, rfl, rfl, fun _ => ⟨rfl, push_sts_congr _ rfl rfl⟩,
        fun h => nomatch h⟩
    | bulk =>
      rw [fsendEnd_bulk _ _ (by rintro rfl; simp at ho)]
      exact ⟨_, rfl, rfl, rfl, rfl, rfl, rfl, rfl, rfl, rfl, rfl, rfl, fun h => (nomatch h), fun _ => ⟨rfl, rfl⟩⟩
  case noSession =>
    rw [exec, execFsend, opFsend, if_neg (Bool.eq_false_iff.1 hplan), if_pos hsess]
    rfl
  case empty =>
    rw [exec, execFsend, opFsend, if_neg (Bool.eq_false_iff.1 hplan), if_neg (ne_false_of_eq_true hsess), if_pos hbuf]
    rfl

/-! ## Wire commands -/

/-- A wire command is the one that `Instr.wireCmd` names, issued. -/
theorem exec_wire {i : Instr} {s : State} {k : Cmd} (hk : i.wireCmd s.cfg = some k) (hw : i.wellFormed s.cfg = true) :
    exec i s = issue k s := by
  cases i with
  | wImgdata data =>
    cases hk
    exact if_pos hw
  | wMode | wPlayctl | wDefpat | wLut | wImgsize | wErrq | wInsrc | wTrigmode => cases hk; rfl
  | _ => cases hk

/-- Settles O58. -/
theorem wireCommandResults : Obligations.WireCommandResults := by
  refine ⟨fun i s k b outs ins hk hw hg => ?_, fun data s hbad => ?_⟩
  · rw [exec_wire hk hw, issue, doCmd_answered k s b outs ins hg]
    rfl
  · rw [exec, execWImgdata, if_neg]
    rw [RoundTrip.chunkOk_iff]
    obtain rfl | hlong := hbad
    · simp
    · omega

/-! ## Pseudo-operations -/

theorem unlessError_of_error {f : State → State} {s : State} (h : 0x20 ≤ s.host.lastResult.toNat) : unlessError f s = s :=
  if_pos h

theorem unlessError_of_lt {f : State → State} {s : State} (h : s.host.lastResult.toNat < 0x20) : unlessError f s = f s :=
  if_neg (Nat.not_le.2 h)

/-- Settles O59. -/
theorem pseudoOpsExpand : Obligations.PseudoOpsExpand := by
  refine ⟨?xfer, ?errquery, fun s => rfl, ?load⟩
  case xfer =>
    intro dir seq cmd1 cmd2 payload cls s t ht
    obtain rfl : opFbuild dir seq cmd1 cmd2 payload s = t := by cases ht; rfl
    exact ⟨fun h => congrArg Host.Outcome.next (if_pos h), fun h => congrArg Host.Outcome.next (if_neg h)⟩
  case errquery =>
    intro s t u ht hu
    obtain rfl : opFbuild s.cfg.dirR s.cfg.seqErrq s.cfg.opcErrq.cmd1 s.cfg.opcErrq.cmd2 [] s = t := by cases ht; rfl
    obtain rfl : opFsend .control _ = u := by cases hu; rfl
    refine ⟨fun h => ?_, fun h k => ?_, fun h k => ?_⟩
    · exact congrArg Host.Outcome.next ((unlessError_of_error (f := opFcheck)
        ((unlessError_of_error (f := opFsend .control) h).symm ▸ h)).trans (unlessError_of_error h))
    · exact congrArg Host.Outcome.next ((congrArg (unlessError opFcheck) (unlessError_of_lt h)).trans (unlessError_of_error k))
    · exact congrArg Host.Outcome.next ((congrArg (unlessError opFcheck) (unlessError_of_lt h)).trans (unlessError_of_lt k))
  case load =>
    intro pats rep mode confirm s t ht
    obtain rfl : opSdefine pats rep mode confirm s = t := by cases ht; rfl
    exact ⟨fun h => congrArg Host.Outcome.next (if_pos h), fun h => congrArg Host.Outcome.next (if_neg h)⟩

/-- A `FSEND` that is answered, as a function of the state. -/
theorem opFsend_answered {cls : Cls} {s : State} {b : Frame} {outs : List OutAns} {ins : List InAns}
    (hplan : s.syn.planActive = false) (hsess : s.ses.sessValid = true) (hbuf : s.frm.frameBuf ≠ [])
    (hg : s.ports.grants s.frm.frameBuf.length [b] outs ins) :
    opFsend cls s = State.finish
      { s with
        frm := { s.frm with inflight := false, rplBuf := b, rplv := true }
        upl := { s.upl with isup := false }
        ports := s.ports.answered (replyTimeout s.cfg cls) s.frm.frameBuf b outs ins } .ok (.reply b) := by
  have h := fsendAnswered cls s b outs ins hplan hsess hbuf hg
  injection h

/-- The upload that began in another state with the same ports and configuration. -/
theorem faultCommands_congr {s u t : State} {ks : List Cmd} (hcfg : u.cfg = s.cfg) (htrace : u.ports.trace = s.ports.trace)
    (hout : u.ports.usbOutAns = s.ports.usbOutAns) (hin : u.ports.usbInAns = s.ports.usbInAns)
    (h : faultCommands u t ks) : faultCommands s t ks := by
  obtain ⟨⟨evs, hdid, hframes⟩, hok⟩ := h
  rw [hcfg] at hframes hok
  refine ⟨⟨evs, ?_, hframes⟩, fun bs outs ins hb hg => hok bs outs ins hb ?_⟩
  · rw [State.did] at hdid ⊢
    rw [hdid, htrace]
  · rwa [Ports.grants, hout, hin]

/-- `FBUILD` and an answered `FSEND` of what it built. -/
theorem opFsend_of_opFbuild {dir seq cmd1 cmd2 : Byte} {payload : List Byte} {cls : Cls} {s : State} {b : Frame}
    {fs : List Frame} {outs : List OutAns} {ins : List InAns} (hplan : s.syn.planActive = false)
    (hsess : s.ses.sessValid = true) (hlen : payload.length ≤ 65533)
    (hfs : fs = buildFrames s.cfg.cmdByteOrder dir seq cmd1 cmd2 payload) (hg : s.ports.grants fs.length [b] outs ins) :
    (opFbuild dir seq cmd1 cmd2 payload s).host.lastResult = Res.ok.byte
      ∧ opFsend cls (opFbuild dir seq cmd1 cmd2 payload s) = State.finish
        { s with
          frm := { frameBuf := fs, inflight := false, rplBuf := b, rplv := true }
          upl := { s.upl with isup := false }
          ports := s.ports.answered (replyTimeout s.cfg cls) fs b outs ins } .ok (.reply b) := by
  subst hfs
  rw [Framer.opFbuild_of_le_lMax hplan hlen]
  exact ⟨rfl, opFsend_answered
    (s := (s.setFrm { s.frm with frameBuf := buildFrames s.cfg.cmdByteOrder dir seq cmd1 cmd2 payload }).finish .ok
      (.frames (buildFrames s.cfg.cmdByteOrder dir seq cmd1 cmd2 payload)))
    hplan hsess (Frames.buildFrames_ne_nil _ _ _ _ _ _) hg⟩

/-- `FCHECK` of a valid reply with a zero error byte. -/
theorem opFcheck_of_answered {t : State} (hplan : t.syn.planActive = false) (hrplv : t.frm.rplv = true)
    (hzero : t.errByte = 0) : opFcheck t = (t.setSes { t.ses with lastErr := 0 }).finish .ok (.errByte 0) := by
  rw [Framer.opFcheck_of_not_planActive hplan, Framer.checkReply_of_errByte_eq_zero hrplv hzero]
  rfl

/-- The state after an accepted `SDEFINE`. -/
def definedSeq (pats : List PatIn) (rep : Repeat) (mode : PMode) (s : State) : State :=
  (s.setUpl { s.upl with
    seqPats := assign s.cfg (pats.map freshPattern), seqRepeat := rep, seqMode := mode, seqValid := true
    seqGen := s.upl.seqGen + 1, isup := false, blocks := [] }).finish .ok (.handle (s.upl.seqGen + 1))

/-- The fields HOST gives a pattern survive `Assign`. -/
theorem map_toPatIn_assign (c : Cfg) (pats : List PatIn) :
    (assign c (pats.map freshPattern)).map Pattern.toPatIn = pats := by
  have hone : ∀ bd i p, (assignOne c bd i (freshPattern p)).toPatIn = p := by
    intro bd i p
    rw [assignOne]
    split <;> rfl
  cases pats with
  | nil => rfl
  | cons p0 ps =>
    refine List.ext_getElem? fun i => ?_
    rw [List.map_cons, List.getElem?_map, Validation.getElem?_assign, ← List.map_cons, List.getElem?_map, Option.map_map,
      Option.map_map]
    exact (congrArg (Option.map · _) (funext fun p => hone _ i p)).trans Option.map_id'

/-- Settles O60. -/
theorem pseudoOpsComplete : Obligations.PseudoOpsComplete := by
  refine ⟨?xfer, ?errquery, ?potf, ?load⟩
  case xfer =>
    intro dir seq cmd1 cmd2 payload cls s b fs outs ins hplan hsess hlen hfs hg
    obtain ⟨hok, hsend⟩ := opFsend_of_opFbuild (cls := cls) hplan hsess hlen hfs hg
    rw [exec, execXfer, opXfer, andThen, if_pos hok, hsend]
    rfl
  case errquery =>
    intro s b fs outs ins hplan hsess hfs hg hzero
    obtain ⟨hok, hsend⟩ := opFsend_of_opFbuild (dir := s.cfg.dirR) (seq := s.cfg.seqErrq) (cmd1 := s.cfg.opcErrq.cmd1)
      (cmd2 := s.cfg.opcErrq.cmd2) (payload := []) (cls := .control) hplan hsess (Nat.zero_le _) hfs hg
    rw [exec, execErrquery, opErrquery, unlessError_of_lt (f := opFsend .control) (by rw [hok]; decide), hsend,
      unlessError_of_lt (Nat.le_of_ble_eq_true rfl)]
    exact congrArg Host.Outcome.next (opFcheck_of_answered hplan rfl hzero)
  case potf =>
    intro s hplan hsess
    obtain ⟨evs, hdid, hmarks, hcmds⟩ := setmode_result s.cfg.valModePotf s
    obtain ⟨hses, hupl, hbuf, hidle⟩ := modeProc_registers s.cfg.valModePotf s
    obtain ⟨hcfg, hcod, hsyn, hwork, hubf⟩ := aside_conclude .warn s (noPhase_modeProc s.cfg s.cfg.valModePotf)
    exact ⟨_, evs, exec_setmode_of_session s.cfg.valModePotf hplan hsess, hdid, hmarks, hcmds, hidle, hbuf, hupl, hcfg, hcod,
      hsyn, hses, hwork, hubf⟩
  case load =>
    intro pats rep mode confirm s hplan hval hready
    have hdef : opSdefine pats rep mode confirm s = definedSeq pats rep mode s :=
      Upload.opSdefine_of_validate_eq_none hplan hval
    obtain ⟨hcmds, hupl, hses, hcfg, hcod, hsyn, hwork, hubf⟩ := uploadSeq_result (definedSeq pats rep mode s)
    have hval' : validate s.cfg (definedSeq pats rep mode s).patsIn rep confirm = none := by
      rw [State.patsIn, show (definedSeq pats rep mode s).upl.seqPats = assign s.cfg (pats.map freshPattern) from rfl,
        map_toPatIn_assign, hval]
    have hexec := exec_supload_of_valid (s := definedSeq pats rep mode s) (confirm := confirm) hplan rfl hval' rfl hready
    have hload : exec (.load pats rep mode confirm) s = exec (.supload confirm) (definedSeq pats rep mode s) := by
      change Host.Outcome.next (opLoad pats rep mode confirm s) = _
      rw [opLoad, hdef]
      exact congrArg Host.Outcome.next (if_pos rfl)
    exact ⟨_, hload.trans hexec, faultCommands_congr rfl rfl rfl rfl hcmds, congrArg UplRegs.seqPats hupl,
      congrArg UplRegs.seqRepeat hupl, congrArg UplRegs.seqMode hupl, congrArg UplRegs.seqValid hupl,
      congrArg UplRegs.seqGen hupl, congrArg UplRegs.isup hupl, congrArg UplRegs.blocks hupl, hcfg, hcod, hses, hsyn, hwork,
      hubf⟩

end Sys2Proof.Sending
end

section
/-! The bits of the status words (R50, with the codes of R32, R38 and R45). -/

namespace Sys2Proof.StatusBits

open Sys2Proof.Machine

/-! ## Bits of a field -/

theorem getLsbD_field {n : Nat} (v : BitVec n) (lo : Nat) {k : Nat} (hk : k < 32) :
    (field v lo).getLsbD k = (decide (lo ≤ k) && v.getLsbD (k - lo)) := by
  have hlt : decide (k - lo < 32) = true := decide_eq_true (by omega)
  rw [field, BitVec.getLsbD_shiftLeft, BitVec.getLsbD_setWidth, hlt, decide_eq_true hk, Bool.true_and, Bool.true_and,
    ← decide_not]
  simp only [Nat.not_lt]

theorem getLsbD_bit (b : Bool) (i : Nat) : (bit b).getLsbD i = (decide (i = 0) && b) := by
  cases i <;> cases b <;> simp [bit]

theorem discCode_eq (x : Disc) : discCode x = bit (decide (x = .precisePulse)) := by cases x <;> rfl

theorem getLsbD_u16Of {n : Nat} (h : n < 2 ^ 16) (i : Nat) : (Config.u16Of n).getLsbD i = n.testBit i := by
  rw [Config.u16Of, if_pos h, BitVec.getLsbD_ofNat]
  by_cases hi : i < 16
  · simp [hi]
  · rw [Nat.testBit_lt_two_pow (h.trans_le (Nat.pow_le_pow_right (by omega) (Nat.not_lt.1 hi))), Bool.and_false]

theorem seqBd8_eq (s : State) : s.seqBd8 = (s.upl.seqPats.head?.map fun p => decide (p.bd = 8)).getD false := by
  rw [State.seqBd8]
  cases s.upl.seqPats <;> rfl

section

variable (s : State) {k : Nat} (hk : k < 32)

include hk

theorem getLsbD_sessionWord : (sessionWord s).getLsbD k =
    (if k = 0 then s.ses.sessValid else if k = 1 then s.ses.illValid else if k < 5 then s.ses.sm.code.getLsbD (k - 2)
      else if k = 5 then s.ses.modeKnown else if k < 8 then false else if k < 16 then s.ses.mode.getLsbD (k - 8)
      else if k < 24 then s.ses.lastErr.getLsbD (k - 16) else if k = 24 then s.ses.illOn.a
      else if k = 25 then s.ses.illOn.b else if k = 26 then s.ses.illOn.c else if k = 27 then s.ses.illOn.d else false) := by
  simp only [sessionWord, BitVec.getLsbD_or, getLsbD_field _ _ hk, getLsbD_bit]
  interval_cases k <;> simp [BitVec.getLsbD_of_ge]

theorem getLsbD_seqStatWord (hlen : s.upl.seqPats.length < 2 ^ 16) : (seqStatWord s).getLsbD k =
    (if k = 0 then s.upl.seqValid else if k = 1 then s.upl.isup else if k = 2 then s.seqBd8
      else if k < 5 then (modeCode s.upl.seqMode).getLsbD (k - 3) else if k = 5 then decide (s.upl.seqRepeat = .inf)
      else if k < 16 then false else s.upl.seqPats.length.testBit (k - 16)) := by
  simp only [seqStatWord, BitVec.getLsbD_or, getLsbD_field _ _ hk, getLsbD_bit, getLsbD_u16Of hlen]
  interval_cases k <;> simp [BitVec.getLsbD_of_ge]

theorem getLsbD_synStatWord : (synStatWord s).getLsbD k =
    (if k = 0 then s.syn.planActive else if k = 1 then s.syn.cancel
      else if k < 4 then (modeCode s.syn.plan.mode).getLsbD (k - 2)
      else if k = 4 then decide (s.syn.plan.disc = .precisePulse) else if k = 5 then s.syn.extActive
      else if k < 10 then s.syn.phase.code.getLsbD (k - 6) else if k = 10 then s.syn.extBlank else if k < 16 then false
      else if k < 24 then s.syn.lastFault.getLsbD (k - 16) else false) := by
  simp only [synStatWord, BitVec.getLsbD_or, getLsbD_field _ _ hk, getLsbD_bit, discCode_eq]
  interval_cases k <;> simp [BitVec.getLsbD_of_ge]

theorem getLsbD_indexWord : (field s.syn.index 0).getLsbD k = (if k < 16 then s.syn.index.getLsbD k else false) := by
  rw [getLsbD_field _ _ hk]
  split
  · simp
  · simp [BitVec.getLsbD_of_ge _ _ (Nat.not_lt.1 ‹_›)]

theorem getLsbD_hostStatWord : (hostStatWord s).getLsbD k =
    (if k < 8 then s.host.lastResult.getLsbD k else if k < 16 then s.upl.pktPct.getLsbD (k - 8)
      else if k = 16 then s.frm.rplv else if k = 17 then s.sts.ovf else if k = 18 then s.host.ubf
      else if k = 19 then s.frm.inflight else false) := by
  simp only [hostStatWord, BitVec.getLsbD_or, getLsbD_field _ _ hk, getLsbD_bit]
  interval_cases k <;> simp [BitVec.getLsbD_of_ge]

theorem getLsbD_countsWord (hbuf : s.frm.frameBuf.length < 2 ^ 16) (hfifo : s.sts.fifo.length < 2 ^ 16) :
    (countsWord s).getLsbD k = (if k < 16 then s.frm.frameBuf.length.testBit k else s.sts.fifo.length.testBit (k - 16)) := by
  rw [countsWord, BitVec.getLsbD_or, getLsbD_field _ _ hk, getLsbD_field _ _ hk, State.fcount, getLsbD_u16Of hbuf,
    getLsbD_u16Of hfifo]
  by_cases h : k < 16
  · simp [h]
  · have hhigh : s.frm.frameBuf.length.testBit k = false :=
      Nat.testBit_lt_two_pow (hbuf.trans_le (Nat.pow_le_pow_right (by omega) (Nat.not_lt.1 h)))
    simp [h, hhigh, Nat.not_lt.1 h]

theorem getLsbD_blkSize (hlen : s.cod.blkBuf.length < 2 ^ 32) : s.blkSize.getLsbD k = s.cod.blkBuf.length.testBit k := by
  rw [State.blkSize, Config.u32Of, if_pos hlen, BitVec.getLsbD_ofNat, decide_eq_true hk, Bool.true_and]

end

/-- Settles O35. -/
theorem statusWordBits : Obligations.StatusWordBits := by
  intro s k hk
  refine ⟨⟨_, rfl, ?session⟩, fun hlen => ⟨_, rfl, ?seqStat⟩, rfl, rfl, ⟨_, rfl, ?synStat⟩, rfl,
    ⟨_, rfl, getLsbD_indexWord s hk⟩, ⟨_, rfl, getLsbD_hostStatWord s hk⟩,
    fun hbuf hfifo => ⟨_, rfl, getLsbD_countsWord s hk hbuf hfifo⟩, fun hlen => ⟨_, rfl, getLsbD_blkSize s hk hlen⟩,
    fun n hn => Session.statusWord_eq_none_of_le hn⟩
  case session =>
    rw [getLsbD_sessionWord s hk]
    cases s.ses.sm <;> rfl
  case seqStat =>
    rw [getLsbD_seqStatWord s hk hlen, seqBd8_eq]
    cases s.upl.seqMode <;> rfl
  case synStat =>
    rw [getLsbD_synStatWord s hk]
    cases s.syn.plan.mode <;> cases s.syn.phase <;> rfl

end Sys2Proof.StatusBits
end

section
/-! Turns (R64, R237), mutations of the Sequence (R132 to R136), the sessions' openings (R157, R159, R173), and what reset
leaves (R52). -/

namespace Sys2Proof.Turns

open Sys2Proof.Machine

/-! ## Turns -/

theorem hostTurn_of_decode {s : State} {i : Instr} {rest : List Byte} (h : decode s.ports.hop = .ok (i, rest)) :
    hostTurn s = exec i (s.setHop rest) := by rw [hostTurn, h]

/-- Settles O5. -/
theorem stepRunsDecoded : Obligations.StepRunsDecoded := by
  intro s ts i rest hturn hdec
  rw [Encoding.step_of_host_turn hturn, hostTurn_of_decode (s := s.setPorts { s.ports with turns := ts }) hdec]
  rfl

theorem step_of_resetIn_turn {s : State} {n : Nat} {ts : List Turn} (h : s.ports.turns = .resetIn n :: ts) :
    step s = hostTurnCut n (s.setPorts { s.ports with turns := ts }) := by
  rw [step, BlockReset.takeTurn_of_turns_eq_cons h, doTurn]

/-- Transactions that happen one after the other. -/
theorem foldl_log_trace (evs : List PortEvent) (p : Ports) : (evs.foldl Ports.log p).trace = evs.reverse ++ p.trace := by
  induction evs generalizing p with
  | nil => rfl
  | cons e evs ih => rw [List.foldl_cons, ih, Ports.log_trace, List.reverse_cons, List.append_assoc]; rfl

theorem firstNew_of_did {s u : State} {evs : List PortEvent} (h : s.did u evs) (n : Nat) : firstNew s u n = evs.take n := by
  rw [firstNew, show u.ports.trace = evs.reverse ++ s.ports.trace from h, List.length_append, Nat.add_sub_cancel,
    List.take_left', List.reverse_reverse]
  rfl

/-! ## Mutations of the Sequence -/

theorem take_append_drop_eq_insertIdx {α : Type} (x : α) :
    ∀ (l : List α) (i : Nat), i ≤ l.length → l.take i ++ [x] ++ l.drop i = l.insertIdx i x
  | l, 0, _ => rfl
  | [], i + 1, h => absurd h (Nat.not_succ_le_zero i)
  | a :: l, i + 1, h => by
    rw [List.insertIdx_succ_cons, ← take_append_drop_eq_insertIdx x l i (Nat.le_of_succ_le_succ h)]
    rfl

/-- Settles O23. -/
theorem mutationResults : Obligations.MutationResults := by
  intro s hplan hseq
  have hno := Bool.eq_false_iff.1 hplan
  have hvalid := ne_false_of_eq_true hseq
  refine ⟨fun a pat ha hroom hok => ?padd, fun a ha => ?premove, fun src dst p hp hdst => ?pmove, fun rep hrep => ?srepeat,
    fun a pat ha hok => ?pset⟩
  case padd =>
    rw [exec, execPadd, opPadd, if_neg hno, if_neg hvalid, if_neg (Nat.not_lt.2 ha), if_neg (Nat.not_le.2 hroom), hok]
    rfl
  case premove =>
    rw [exec, execPremove, opPremove, if_neg hno, if_neg hvalid, if_neg (Nat.not_le.2 ha), ← List.eraseIdx_eq_take_drop_succ]
    rfl
  case pmove =>
    have hsrc : src.toNat < s.upl.seqPats.length := (List.getElem?_eq_some_iff.1 hp).1
    have hlen : dst.toNat ≤ (s.upl.seqPats.eraseIdx src.toNat).length := by
      rw [List.length_eraseIdx_of_lt hsrc]; omega
    rw [exec, execPmove, opPmove, if_neg hno, if_neg hvalid, hp]
    dsimp only
    rw [if_neg (Nat.not_le.2 hdst), ← List.eraseIdx_eq_take_drop_succ, take_append_drop_eq_insertIdx p _ _ hlen]
    rfl
  case srepeat =>
    rw [exec, execSrepeat, opSrepeat, if_neg hno, if_neg hvalid, if_neg hrep]
    rfl
  case pset =>
    rw [exec, execPset, opPset, if_neg hno, if_neg hvalid, if_neg (Nat.not_le.2 ha), hok, List.append_assoc,
      List.singleton_append, List.set_eq_take_append_cons_drop, if_pos ha]
    rfl

/-- Settles O24. -/
theorem mutationRefusals : Obligations.MutationRefusals := by
  intro s hplan
  have hno := Bool.eq_false_iff.1 hplan
  refine ⟨fun hseq i hi => ?noSeq, fun hseq => ?_⟩
  case noSeq =>
    obtain ⟨a, p, rfl⟩ | ⟨a, rfl⟩ | ⟨a, b, rfl⟩ | ⟨a, p, rfl⟩ | ⟨r, rfl⟩ := hi
    · rw [exec, execPadd, opPadd, if_neg hno, if_pos hseq]; rfl
    · rw [exec, execPremove, opPremove, if_neg hno, if_pos hseq]; rfl
    · rw [exec, execPmove, opPmove, if_neg hno, if_pos hseq]; rfl
    · rw [exec, execPset, opPset, if_neg hno, if_pos hseq]; rfl
    · rw [exec, execSrepeat, opSrepeat, if_neg hno, if_pos hseq]; rfl
  have hvalid := ne_false_of_eq_true hseq
  refine ⟨fun a pat ha => ?paddRange, fun a pat ha hfull => ?paddFull, fun a pat r ha hroom hbad => ?paddBad,
    fun a ha => ?premove, fun a b hab => ?pmove, fun a pat ha => ?psetRange, fun a pat r ha hbad => ?psetBad, ?srepeat⟩
  case paddRange => rw [exec, execPadd, opPadd, if_neg hno, if_neg hvalid, if_pos ha]; rfl
  case paddFull =>
    rw [exec, execPadd, opPadd, if_neg hno, if_neg hvalid, if_neg (Nat.not_lt.2 ha), if_pos hfull]; rfl
  case paddBad =>
    rw [exec, execPadd, opPadd, if_neg hno, if_neg hvalid, if_neg (Nat.not_lt.2 ha), if_neg (Nat.not_le.2 hroom), hbad]; rfl
  case premove => rw [exec, execPremove, opPremove, if_neg hno, if_neg hvalid, if_pos ha]; rfl
  case pmove =>
    rw [exec, execPmove, opPmove, if_neg hno, if_neg hvalid]
    rcases hp : s.upl.seqPats[a.toNat]? with - | p
    · rfl
    · have ha := (List.getElem?_eq_some_iff.1 hp).1
      exact congrArg Host.Outcome.next (if_pos (hab.resolve_left (Nat.not_le.2 ha)))
  case psetRange => rw [exec, execPset, opPset, if_neg hno, if_neg hvalid, if_pos ha]; rfl
  case psetBad => rw [exec, execPset, opPset, if_neg hno, if_neg hvalid, if_neg (Nat.not_le.2 ha), hbad]; rfl
  case srepeat => rw [exec, execSrepeat, opSrepeat, if_neg hno, if_neg hvalid, if_pos rfl]; rfl

/-! ## Opening the sessions -/

/-- Settles O29. -/
theorem connectDisconnect : Obligations.ConnectDisconnect := by
  intro s hplan
  have hno := Bool.eq_false_iff.1 hplan
  refine ⟨fun a as hans => ?_, ?_⟩
  · have hprobe : projProbe s.forgetSession = (a, s.forgetSession.setPorts
        { s.ports with probeAns := as, trace := .probe a :: s.ports.trace }) := by
      simp [projProbe, State.forgetSession, drawAns, hans, State.log, Ports.log, PortEvent.consume, popAns]
    rw [exec, execConnect, opConnect, if_neg hno, hprobe]
    cases a <;> rfl
  · rw [exec, execDisconnect, opDisconnect, if_neg hno]
    rfl

/-- The answer of a controller that is attached (R173). -/
theorem illSend_of_answer {s : State} {a : IllAns} {as : List IllAns} (m : IllMsg) (hill : s.cfg.illPresent = true)
    (hans : s.ports.illAns = a :: as) :
    illSend m s = (a, s.setPorts { s.ports with
      illAns := as, trace := .ill m (m.line s.cfg.illKw) s.cfg.illTimeoutMs a :: s.ports.trace }) := by
  simp [illSend, hill, drawAns, hans, State.log, Ports.log, PortEvent.consume, popAns]

theorem illSend_of_absent {s : State} (m : IllMsg) (hill : s.cfg.illPresent = false) :
    illSend m s = (.timeout, s.log (.ill m (m.line s.cfg.illKw) s.cfg.illTimeoutMs .timeout)) := by
  simp [illSend, hill]

/-- The controller answered the version query (R173). -/
def versionRead (line : List Byte) (as : List IllAns) (s : State) : State :=
  (s.setSes { s.ses with illValid := true, illOn := ⟨false, false, false, false⟩ }).setPorts { s.ports with
    illAns := as, trace := .ill .version (IllMsg.line s.cfg.illKw .version) s.cfg.illTimeoutMs (.ok line) :: s.ports.trace }

theorem opIllconnect_of_version {s : State} {line : List Byte} {as : List IllAns} (hplan : s.syn.planActive = false)
    (hill : s.cfg.illPresent = true) (hans : s.ports.illAns = .ok line :: as) :
    opIllconnect s = illWavelengths line (versionRead line as s) := by
  rw [opIllconnect, if_neg (Bool.eq_false_iff.1 hplan),
    illSend_of_answer (s := s.setSes { s.ses with illOn := ⟨false, false, false, false⟩ }) .version hill hans]
  rfl

/-- The end of the wavelength query by its answer (R173, R113). -/
theorem illWavelengths_of_failed {s : State} {info : List Byte} {a : IllAns} {w : Res} {as : List IllAns}
    (hill : s.cfg.illPresent = true) (ha : a = .timeout ∧ w = .warnTimeout ∨ a = .ioError ∧ w = .warnIo)
    (hans : s.ports.illAns = a :: as) :
    illWavelengths info s = ((s.setSts (s.push (.warning w.byte)).sts).setPorts { s.ports with
      illAns := as
      trace := .ill .wavelengths (IllMsg.line s.cfg.illKw .wavelengths) s.cfg.illTimeoutMs a :: s.ports.trace }).finish w
        (.info info) := by
  have hpush : ∀ (t : State) (e : Event), t.sts = s.sts → t.cfg = s.cfg → t.push e = t.setSts (s.push e).sts :=
    fun t e hs hc => (push_spec t e).1.trans (congrArg t.setSts (push_sts_congr e hs hc))
  rw [illWavelengths, illMsg, illSend_of_answer .wavelengths hill hans]
  obtain ⟨rfl, rfl⟩ | ⟨rfl, rfl⟩ := ha <;> exact congrArg (State.finish · _ _) (hpush _ _ rfl rfl)

/-- Settles O33. -/
theorem illconnectResult : Obligations.IllconnectResult := by
  intro s hplan
  have hno := Bool.eq_false_iff.1 hplan
  refine ⟨fun line l2 as hill hans => ?both, fun a as hill ha hans => ?versionFails,
    fun line a w as hill ha hans => ?wavelengthsFail, fun hill => ?absent⟩
  case both =>
    rw [exec, execIllconnect, opIllconnect_of_version hplan hill hans, illWavelengths, illMsg,
      illSend_of_answer (s := versionRead line (.ok l2 :: as) s) .wavelengths hill rfl]
    rfl
  case versionFails =>
    rw [exec, execIllconnect, opIllconnect, if_neg hno,
      illSend_of_answer (s := s.setSes { s.ses with illOn := ⟨false, false, false, false⟩ }) .version hill hans]
    obtain rfl | rfl := ha <;> rfl
  case wavelengthsFail =>
    rw [exec, execIllconnect, opIllconnect_of_version hplan hill hans,
      illWavelengths_of_failed (s := versionRead line (a :: as) s) hill ha rfl, push_sts_congr (s := s) (t :=
          versionRead line (a :: as) s) _ rfl rfl]
    rfl
  case absent =>
    rw [exec, execIllconnect, opIllconnect, if_neg hno,
      illSend_of_absent (s := s.setSes { s.ses with illOn := ⟨false, false, false, false⟩ }) .version hill]
    exact ⟨_, rfl, rfl, rfl, rfl, rfl, rfl, rfl, rfl, rfl, rfl⟩

/-! ## Reset -/

theorem shapeInv_resetWith (c : Cfg) (p : Ports) : (State.resetWith c p).ShapeInv :=
  ⟨(fun _ h => nomatch h), Nat.zero_le _, length_zeros 64, Nat.zero_le _, Nat.zero_le _, Nat.zero_le _, fun _ h => nomatch h⟩

theorem planInv_resetWith (c : Cfg) (p : Ports) : (State.resetWith c p).PlanInv :=
  ⟨fun _ => ⟨rfl, rfl, rfl, rfl, rfl⟩, fun h => (nomatch h), fun h => nomatch h⟩

/-- Settles O57. -/
theorem resetIsSound : Obligations.ResetIsSound :=
  ⟨fun c p => ⟨shapeInv_resetWith c p, planInv_resetWith c p⟩, shapeInv_resetWith _ _, planInv_resetWith _ _⟩

end Sys2Proof.Turns
end

section
/-! The port transactions of a host operation one by one (R16, R248): each is logged, in order, at a clock no earlier than
the one before. What a block reset inside the operation leaves of them (R237) rests on this. -/

namespace Sys2Proof.PortHistory

open Sys2Proof.Machine Sys2Proof.Procedure

/-- `q` is `p` after some transactions, each logged on time. -/
inductive Logged (p : Ports) : Ports → Prop
  | refl : Logged p p
  | log {q : Ports} (h : Logged p q) (e : PortEvent) (he : e.onTime q) : Logged p (q.log e)

theorem Logged.trans {p q r : Ports} (h : Logged p q) (k : Logged q r) : Logged p r := by
  induction k with
  | refl => exact h
  | log _ e he ih => exact ih.log e he

theorem Logged.one {p : Ports} (e : PortEvent) (he : e.onTime p) : Logged p (p.log e) := .log .refl e he

theorem Logged.grows {p q : Ports} (h : Logged p q) : p.Grows q := by
  induction h with
  | refl => exact .refl p
  | log _ e he ih => exact ih.trans (Ports.log_grows _ e he)

/-- The transactions in order, and the clock after a first part of them. -/
theorem Logged.replay {p q : Ports} (h : Logged p q) :
    ∃ evs : List PortEvent, q = evs.foldl Ports.log p ∧ ∀ n, p.clk.toNat ≤ ((evs.take n).foldl Ports.log p).clk.toNat := by
  induction h with
  | refl => exact ⟨[], rfl, fun n => by rw [List.take_nil]; exact Nat.le_refl _⟩
  | @log q hq e he ih =>
    obtain ⟨evs, hevs, hclk⟩ := ih
    refine ⟨evs ++ [e], by rw [List.foldl_append, ← hevs]; rfl, fun n => ?_⟩
    by_cases hn : n ≤ evs.length
    · rw [List.take_append_of_le_length hn]; exact hclk n
    · rw [List.take_of_length_le (by simp; omega), List.foldl_append, ← hevs]
      exact (hq.log e he).grows.clk

/-- The clock after some transactions depends on the clock before them and no other part of the ports. -/
theorem clk_foldl_log_congr (evs : List PortEvent) {p q : Ports} (h : p.clk = q.clk) :
    (evs.foldl Ports.log p).clk = (evs.foldl Ports.log q).clk := by
  induction evs generalizing p q with
  | nil => exact h
  | cons e evs ih =>
    refine ih ?_
    cases e with
    | sleep ms => exact congrArg (clockAdd · ms) h
    | clk t | settled d t => rfl
    | probe a | usbOut f a | usbIn t a | ill m l t a | trg a b => exact h

/-! ## What the operations log -/

theorem usbIn_logged (cls : Cls) (s : State) : Logged s.ports (usbIn cls s).2.ports := .one _ trivial

theorem recvReply_logged (cls : Cls) (s : State) : Logged s.ports (recvReply cls s).2.ports := by
  have h := usbIn_logged cls s
  rw [recvReply]
  generalize usbIn cls s = x at h ⊢
  obtain ⟨b | - | -, t⟩ := x <;> exact h

theorem sendFrames_logged (cls : Cls) (fs : List Frame) (s : State) : Logged s.ports (sendFrames cls fs s).2.ports := by
  induction fs generalizing s with
  | nil => exact recvReply_logged cls s
  | cons f fs ih =>
    have h : Logged s.ports (usbOut f s).2.ports := .one _ trivial
    rw [sendFrames]
    generalize usbOut f s = x at h ⊢
    obtain ⟨- | -, t⟩ := x
    · exact h.trans (ih t)
    · exact h

theorem send_logged (cls : Cls) (s : State) : Logged s.ports (send cls s).2.ports :=
  sendFrames_logged cls s.frm.frameBuf (s.loadFrames s.frm.frameBuf)

theorem doCmd_logged (k : Cmd) (s : State) : Logged s.ports (doCmd k s).2.ports :=
  send_logged k.cls (s.setFrm { s.frm with frameBuf := k.frames s.cfg })

theorem settleFor_logged (d : Nat) (s : State) : Logged s.ports (settleFor d s).ports :=
  (Logged.one (.clk s.nextClk) s.nextClk_le).log _ ((clockAdd_le _ _).trans (clockMax_le_left _ _))

theorem onFailure_ports (ctx : Ctx) (b : Bool) (s : State) : (onFailure ctx b s).st.ports = s.ports := by
  cases ctx with
  | warn => cases b <;> exact push_ports s _
  | fault | stop d => rfl

theorem cmdEnd_logged {p : Ports} (ctx : Ctx) (x : CmdOut × State) (h : Logged p x.2.ports) :
    Logged p (cmdEnd ctx x).st.ports := by
  obtain ⟨- | - | -, t⟩ := x
  · exact h
  · exact (onFailure_ports ctx true t).symm ▸ h
  · exact (onFailure_ports ctx false t).symm ▸ h

theorem waitStop_logged {p : Ports} (d : Nat) (r : Ran) (h : Logged p r.st.ports) : Logged p (r.waitStop d).st.ports := by
  cases r with
  | ok t | warned w t => exact h
  | faulted t => exact h.trans (settleFor_logged d t)

theorem illMsg_logged (ctx : Ctx) (m : IllMsg) (s : State) : Logged s.ports (illMsg ctx m s).st.ports := by
  have h : Logged s.ports (illSend m s).2.ports := .one _ trivial
  rw [illMsg]
  generalize illSend m s = x at h ⊢
  obtain ⟨line | - | -, t⟩ := x
  · exact h
  · exact (onFailure_ports ctx true t).symm ▸ h
  · exact (onFailure_ports ctx false t).symm ▸ h

theorem checkReply_ports (s : State) : (checkReply s).st.ports = s.ports := by
  rw [checkReply]
  split
  · exact push_ports s _
  · dsimp only
    split
    · rfl
    · exact push_ports _ _

theorem reportProgress_ports (s : State) : (reportProgress s).ports = s.ports := by
  rw [reportProgress]
  dsimp only
  split
  · exact push_ports _ _
  · rfl

/-- An action of a procedure logs its transactions and touches the ports in no other way. -/
theorem run_logged (ctx : Ctx) (a : PAct) (s : State) : Logged s.ports (a.run ctx s).st.ports := by
  cases a with
  | cmd k => exact cmdEnd_logged ctx _ (doCmd_logged k s)
  | stopPlay => exact waitStop_logged _ _ (cmdEnd_logged ctx _ (doCmd_logged _ s))
  | check => exact (checkReply_ports s).symm ▸ .refl
  | settle d => exact settleFor_logged d s
  | stopped => rw [PAct.run]; split <;> exact .refl
  | progress => exact (reportProgress_ports s).symm ▸ .refl
  | ill m => exact illMsg_logged ctx m s
  | push e => exact (push_ports s e).symm ▸ .refl
  | modeSet m | playing | isup b | blocks bs | pktInit n | phase p | illDark | illLit ch => exact .refl

theorem runProc_logged (ctx : Ctx) (as : List PAct) (s : State) : Logged s.ports (runProc ctx as s).st.ports :=
  runActs_induct (fun t => Logged s.ports t.ports) ctx as _ (fun a _ t ht => ht.trans (run_logged ctx a t)) .refl

end Sys2Proof.PortHistory
end

section
/-! The 28 host operations, each by how it can end (R215, R219): a refusal that writes its code alone, `ERR_UNDEFINED`, a
result with registers that keep their sizes, or the start of a plan. -/

namespace Sys2Proof.HostOps

open Sys2Proof.Machine Sys2Proof.Procedure Sys2Proof.WarnProc Sys2Proof.WarnOps Sys2Proof.FaultProc Sys2Proof.Uploads
  Sys2Proof.PortHistory

/-! ## How a host operation can end -/

/-- What a host operation keeps of the state it worked on. -/
structure Worked (s u : State) : Prop where
  cfg : u.cfg = s.cfg
  ubf : u.host.ubf = s.host.ubf
  work : u.work = s.work
  syn : u.syn = { s.syn with cancel := u.syn.cancel }
  frames : FramesOk s.frm.frameBuf → FramesOk u.frm.frameBuf
  inflight : s.frm.inflight = false → u.frm.inflight = false
  reply : s.frm.rplBuf.length = 64 → u.frm.rplBuf.length = 64
  fifo : s.sts.fifo.length ≤ s.cfg.statusDepth → u.sts.fifo.length ≤ s.cfg.statusDepth
  rasters : s.cod.rastOut.length ≤ 24 → u.cod.rastOut.length ≤ 24
  pats : s.upl.seqPats.length ≤ max s.cfg.ceil1 s.cfg.ceil8 → u.upl.seqPats.length ≤ max s.cfg.ceil1 s.cfg.ceil8
  isup : (s.upl.isup = true → s.upl.seqValid = true) → u.upl.isup = true → u.upl.seqValid = true
  logged : Logged s.ports u.ports

/-- What a host operation under a running plan leaves alone besides. -/
structure Quiet (s u : State) : Prop where
  frm : u.frm = s.frm
  upl : u.upl = s.upl
  ses : u.ses = s.ses
  trace : u.ports.trace = s.ports.trace

/-- The ends of the host operation `i` in `s`. -/
inductive HostEnd (i : Instr) (s : State) : State → Prop
  | refused (r : Res) (hr : r ∈ resultCodes i) (hrefusal : r ∈ refusalCodes) : HostEnd i s (s.raise r)
  | undefined (hr : .errUndefined ∈ resultCodes i) : HostEnd i s s.raiseUndefined
  | ended (u : State) (r : Res) (rec : HRec) (hr : r ∈ .ok :: resultCodes i) (hno : r ∉ refusalCodes)
      (hsm : smMove i s.ses.sm u.ses.sm) (hw : Worked s u) (hq : s.syn.planActive = true → Quiet s u) :
      HostEnd i s (u.finish r rec)
  | begun (plan : PlanRec) (hi : i = .pstart plan) (hplan : s.syn.planActive = false) (hseq : s.upl.seqValid = true)
      (hval : planValidate s plan = none) (hsess : s.ses.sessValid = true) : HostEnd i s (s.beginPlan plan)

/-- A row of the code table, read off it. -/
example : Res.errBusy ∈ resultCodes .connect := by simp [resultCodes]

theorem Worked.refl (s : State) : Worked s s :=
  ⟨rfl, rfl, rfl, rfl, id, id, id, id, id, id, id, .refl⟩

theorem Quiet.refl (s : State) : Quiet s s := ⟨rfl, rfl, rfl, rfl⟩

section

variable {i : Instr} {s x u : State} {r : Res} {rec : HRec}

theorem smMove_self (i : Instr) (a : SessState) : smMove i a a := by
  cases i with
  | connect | disconnect | setmode | start | stop | pause => exact .inr rfl
  | _ => rfl

/-- An operation that a running plan refuses. -/
theorem HostEnd.busy (hb : .errBusy ∈ resultCodes i) (h : s.syn.planActive = false → HostEnd i s x) :
    HostEnd i s (if s.syn.planActive then s.raise .errBusy else x) := by
  split
  · exact .refused .errBusy hb (by decide)
  · exact h (Bool.eq_false_iff.2 ‹_›)

/-- An operation whose behaviour is undefined while a plan runs. -/
theorem HostEnd.undef (hb : .errUndefined ∈ resultCodes i) (h : s.syn.planActive = false → HostEnd i s x) :
    HostEnd i s (if s.syn.planActive then s.raiseUndefined else x) := by
  split
  · exact .undefined hb
  · exact h (Bool.eq_false_iff.2 ‹_›)

/-- A check that refuses. -/
theorem HostEnd.guard {p : Prop} [Decidable p] (hr : r ∈ resultCodes i ∧ r ∈ refusalCodes) (h : ¬ p → HostEnd i s x) :
    HostEnd i s (if p then s.raise r else x) := by
  split
  · exact .refused r hr.1 hr.2
  · exact h ‹_›

/-- A result while no plan runs. -/
theorem HostEnd.result (hplan : s.syn.planActive = false) (hr : r ∈ .ok :: resultCodes i ∧ r ∉ refusalCodes)
    (hsm : smMove i s.ses.sm u.ses.sm) (hw : Worked s u) : HostEnd i s (u.finish r rec) :=
  .ended u r rec hr.1 hr.2 hsm hw fun h => by rw [hplan] at h; cases h

end

/-! ## The codes of the checks -/

theorem refusal_of_validation : ∀ r ∈ validationCodes, r ∈ refusalCodes := by decide

section

variable {c : Cfg} {p : PatIn} {r : Res}

theorem recordOk_code (h : recordOk c p = some r) : r = .cfgRange ∨ r = .cfgRaster := by
  rw [recordOk] at h
  split_ifs at h <;> cases h
  · exact .inl rfl
  · exact .inr rfl
  · exact .inr rfl

theorem patternOk_code (h : patternOk c p = some r) : r ∈ validationCodes := by
  rw [patternOk] at h
  rcases hrec : recordOk c p with - | r'
  · rw [hrec] at h
    dsimp only at h
    split_ifs at h <;> cases h <;> decide
  · rw [hrec] at h
    cases h
    obtain rfl | rfl := recordOk_code hrec <;> decide

theorem validate_code {pats : List PatIn} {rep : Repeat} {confirm : Bool} (h : validate c pats rep confirm = some r) :
    r ∈ validationCodes := by
  cases pats with
  | nil => cases h; decide
  | cons p0 ps =>
    simp only [validate] at h
    rcases hp : (p0 :: ps).findSome? (patternOk c) with - | r'
    · rw [hp] at h
      dsimp only at h
      split_ifs at h <;> cases h <;> decide
    · obtain ⟨q, -, hq⟩ := List.exists_of_findSome?_eq_some hp
      rw [hp] at h
      dsimp only at h
      split_ifs at h <;> cases h
      · decide
      · decide
      · decide
      · exact patternOk_code hq

theorem planValidate_code {s : State} {plan : PlanRec} (h : planValidate s plan = some r) :
    r ∈ validationCodes ∨ r = .cfgPlan ∨ r = .cfgIllum := by
  rw [planValidate] at h
  rcases hv : validate s.cfg s.patsIn s.upl.seqRepeat plan.confirm with - | r'
  · rw [hv] at h
    dsimp only at h
    split_ifs at h <;> cases h
    · exact .inl (by decide)
    · exact .inr (.inl rfl)
    · exact .inr (.inr rfl)
    · exact .inr (.inr rfl)
  · rw [hv] at h
    cases h
    exact .inl (validate_code hv)

theorem defpatCheck_code {expUs : U32} {bd color : Byte} {darkUs trigOut : U32} {blk : U16} {bitpos : Byte}
    (h : defpatCheck c expUs bd color darkUs trigOut blk bitpos = some r) : r = .cfgRange ∨ r = .cfgExpLow ∨ r = .cfgExpHigh := by
  rw [defpatCheck] at h
  split_ifs at h <;> cases h <;> simp

theorem uplReady_code {s : State} (h : uplReady s = some r) : r = .errNotConnected ∨ r = .errState := by
  obtain hn | hn | hn := uplReady_cases s <;> rw [hn] at h <;> cases h
  · exact .inl rfl
  · exact .inr rfl

theorem sessionReady_code {s : State} (h : sessionReady s = some r) : r = .errBusy ∨ r = .errNotConnected := by
  rw [sessionReady] at h
  split_ifs at h <;> cases h
  · exact .inl rfl
  · exact .inr rfl

theorem planActive_of_sessionReady {s : State} (h : sessionReady s = none) : s.syn.planActive = false := by
  rw [sessionReady] at h
  split_ifs at h with hp
  exact Bool.eq_false_iff.2 hp

end

/-! ## The codes of a run -/

/-- A warning that is not of `Check` is a failed transfer's (R113). -/
theorem run_warned_code {ctx : Ctx} {a : PAct} {s t : State} {w : Res} (ha : a ≠ .check) (h : a.run ctx s = .warned w t) :
    w = .warnTimeout ∨ w = .warnIo := by
  have hfail : ∀ b u, onFailure ctx b u = .warned w t → w = .warnTimeout ∨ w = .warnIo := by
    intro b u hu
    obtain ⟨v, e, hv, -, hx⟩ | ⟨-, hx⟩ := onFailure_spec ctx b u <;> rw [hx] at hu <;> cases hu
    exact hv
  have hend : ∀ x, cmdEnd ctx x = .warned w t → w = .warnTimeout ∨ w = .warnIo := by
    intro x hx
    obtain hc | ⟨b, hc⟩ := cmdEnd_cases ctx x <;> rw [hc] at hx
    · cases hx
    · exact hfail _ _ hx
  cases a with
  | cmd k => exact hend _ h
  | stopPlay => exact hend _ ((Ran.waitStop_warned _ _ _ _).1 h)
  | check => exact absurd rfl ha
  | ill m =>
    obtain hc | ⟨b, hc⟩ := illMsg_cases ctx m s <;> rw [PAct.run, hc] at h
    · cases h
    · exact hfail _ _ h
  | _ => cases h

theorem runActs_warned_code {ctx : Ctx} {as : List PAct} (hno : ∀ a ∈ as, a ≠ .check) (r : Run)
    (hr : ∀ w, r.warn = some w → w = .warnTimeout ∨ w = .warnIo) :
    ∀ w, (runActs ctx as r).warn = some w → w = .warnTimeout ∨ w = .warnIo := by
  induction as generalizing r with
  | nil => exact hr
  | cons a as ih =>
    rw [runActs]
    split
    · exact hr
    refine ih (fun b hb => hno b (.tail _ hb)) _ ?_
    rcases hx : a.run ctx r.st with t | ⟨v, t⟩ | t
    · exact hr
    · intro w hw
      rcases hv : r.warn with - | v'
      · rw [Run.after, hv] at hw
        cases hw
        exact run_warned_code (hno a (.head _)) hx
      · rw [Run.after, hv] at hw
        exact hr w (hv.trans hw)
    · exact hr

/-- The code of a procedure without `Check` in the warn context. -/
theorem code_of_noCheck {as : List PAct} (hno : ∀ a ∈ as, a ≠ .check) (s : State) :
    (runProc .warn as s).code = .ok ∨ (runProc .warn as s).code = .warnTimeout ∨ (runProc .warn as s).code = .warnIo := by
  have hw := runActs_warned_code (ctx := .warn) hno { st := s, warn := none, fault := false } (fun w h => nomatch h)
  rw [Run.code, if_neg (Bool.eq_false_iff.1 (runProc_warn as s))]
  rcases hx : (runProc .warn as s).warn with - | w
  · exact .inl rfl
  · exact .inr (hw w hx)

theorem code_cases_of_transmitted {s : State} {as : List PAct} {r : Run} (h : Transmitted s as r) :
    r.code = .ok ∨ r.code = .faultIo := by
  rw [Run.code, h.warn]
  split
  · exact .inr rfl
  · exact .inl rfl

/-! ## What the runs keep -/

section

variable {s u : State}

theorem Worked.of_acted (h : Acted s u) (hlogged : Logged s.ports u.ports) (hsyn : u.syn = s.syn)
    (hframes : FramesOk s.frm.frameBuf → FramesOk u.frm.frameBuf)
    (hisup : (s.upl.isup = true → s.upl.seqValid = true) → u.upl.isup = true → u.upl.seqValid = true) : Worked s u where
  cfg := h.cfg
  ubf := congrArg HostRegs.ubf h.host
  work := h.work
  syn := by rw [hsyn]
  frames := hframes
  inflight := h.inflight
  reply := h.reply
  fifo := h.fifo
  rasters := fun hr => by rwa [h.cod]
  pats := fun hp => by rwa [h.seqPats]
  isup := hisup
  logged := hlogged

theorem worked_runProc (ctx : Ctx) {as : List PAct} (hsound : Sound as) (hphase : NoPhase as)
    (hisup : s.upl.seqValid = true ∨ ∀ a ∈ as, a ≠ .isup true) : Worked s (runProc ctx as s).st :=
  .of_acted (runProc_acted ctx as s) (runProc_logged ctx as s) (runProc_syn ctx as s hphase) (runProc_framesOk ctx as s hsound)
    (runProc_isup ctx as s hisup)

/-- A `Push` after the work. -/
theorem Worked.push (h : Worked s u) (e : Event) : Worked s (u.push e) where
  cfg := (push_cfg u e).trans h.cfg
  ubf := by rw [push_host]; exact h.ubf
  work := (push_work u e).trans h.work
  syn := by rw [push_syn]; exact h.syn
  frames := by rw [push_frm]; exact h.frames
  inflight := by rw [push_frm]; exact h.inflight
  reply := by rw [push_frm]; exact h.reply
  fifo := fun hs => by
    have := (push_spec u e).2
    rw [h.cfg] at this
    exact this (h.fifo hs)
  rasters := by rw [push_cod]; exact h.rasters
  pats := by rw [push_upl]; exact h.pats
  isup := by rw [push_upl]; exact h.isup
  logged := by rw [push_ports]; exact h.logged

/-- A write of the session registers after the work. -/
theorem Worked.setSes (h : Worked s u) (x : SesRegs) : Worked s (u.setSes x) :=
  ⟨h.cfg, h.ubf, h.work, h.syn, h.frames, h.inflight, h.reply, h.fifo, h.rasters, h.pats, h.isup, h.logged⟩

/-- A send after `ISUP <- 0` (R108, R109). -/
theorem worked_send (cls : Cls) (s : State) : Worked s (send cls (s.setUpl { s.upl with isup := false })).2
    ∧ (send cls (s.setUpl { s.upl with isup := false })).2.ses = s.ses := by
  have hs := send_spec cls (s.setUpl { s.upl with isup := false })
  have ha := hs.acted
  have honly := hs.only
  have hses : (send cls (s.setUpl { s.upl with isup := false })).2.ses = s.ses := by rw [honly]; rfl
  have hisup : (send cls (s.setUpl { s.upl with isup := false })).2.upl.isup = false := by rw [honly]; rfl
  have hsyn : (send cls (s.setUpl { s.upl with isup := false })).2.syn = s.syn := by rw [honly]; rfl
  refine ⟨⟨ha.cfg, congrArg HostRegs.ubf ha.host, ha.work, by rw [hsyn], fun hf => ?_, ha.inflight, ha.reply, ha.fifo,
    fun hr => ?_, fun hp => ?_, fun _ h => ?_,
    send_logged cls (s.setUpl { s.upl with isup := false })⟩, hses⟩
  · rw [hs.buf]; exact hf
  · rw [ha.cod]; exact hr
  · rw [ha.seqPats]; exact hp
  · rw [hisup] at h; cases h

end

/-! ## The operations -/

section

variable (s : State)

theorem hostEnd_fbuild (dir seq cmd1 cmd2 : Byte) (payload : List Byte) :
    HostEnd (.fbuild dir seq cmd1 cmd2 payload) s (opFbuild dir seq cmd1 cmd2 payload s) := by
  refine .busy (by simp [resultCodes]) fun hplan => .guard ⟨by simp [resultCodes], by decide⟩ fun hlen => ?_
  exact .result (u := s.setFrm { s.frm with frameBuf := _ }) hplan ⟨by simp, by decide⟩ rfl
    ⟨rfl, rfl, rfl, rfl, fun _ => framesOk_buildFrames (Nat.not_lt.1 hlen), id, id, id, id, id, id, .refl⟩

theorem hostEnd_fsend (cls : Cls) : HostEnd (.fsend cls) s (opFsend cls s) := by
  refine .busy (by simp [resultCodes]) fun hplan => .guard ⟨by simp [resultCodes], by decide⟩ fun _ =>
    .guard ⟨by simp [resultCodes], by decide⟩ fun _ => ?_
  obtain ⟨hw, hses⟩ := worked_send cls s
  have hsm : ∀ e, ((send cls (s.setUpl { s.upl with isup := false })).2.push e).ses.sm = s.ses.sm := fun e => by
    rw [push_ses, hses]
  generalize send cls (s.setUpl { s.upl with isup := false }) = x at hw hses hsm ⊢
  obtain ⟨o, t⟩ := x
  cases o with
  | ok => exact .result hplan ⟨by simp, by decide⟩ (congrArg SesRegs.sm hses) hw
  | timeout =>
    cases cls with
    | control => exact .result hplan ⟨by simp [resultCodes], by decide⟩ (hsm _) (hw.push _)
    | bulk => exact .result hplan ⟨by simp [resultCodes], by decide⟩ (congrArg SesRegs.sm hses) hw
  | ioError =>
    cases cls with
    | control => exact .result hplan ⟨by simp [resultCodes], by decide⟩ (hsm _) (hw.push _)
    | bulk => exact .result hplan ⟨by simp [resultCodes], by decide⟩ (congrArg SesRegs.sm hses) hw

theorem hostEnd_fcheck : HostEnd .fcheck s (opFcheck s) := by
  refine .busy (by simp [resultCodes]) fun hplan => ?_
  rcases hrplv : s.frm.rplv with - | -
  · rw [Framer.checkReply_of_noReply hrplv]
    exact .result hplan ⟨by simp [resultCodes], by decide⟩ (congrArg SesRegs.sm (push_ses s _)) ((Worked.refl s).push _)
  by_cases hzero : s.errByte = 0
  · rw [Framer.checkReply_of_errByte_eq_zero hrplv hzero]
    exact .result hplan ⟨by simp, by decide⟩ rfl ((Worked.refl s).setSes _)
  · rw [Framer.checkReply_of_errByte_ne_zero hrplv hzero, ← Framer.push_setSes]
    exact .result hplan ⟨by simp [resultCodes], by decide⟩ (show _ = s.ses.sm by rw [push_ses]; rfl)
      (((Worked.refl s).setSes _).push _)

/-- The codec operations look at no plan and touch the codec registers alone. -/
theorem hostEnd_codec {i : Instr} (x : CodRegs) (rec : HRec) (hi : ∀ a, smMove i a a)
    (hx : s.cod.rastOut.length ≤ 24 → x.rastOut.length ≤ 24) : HostEnd i s ((s.setCod x).finish .ok rec) :=
  .ended (s.setCod x) .ok rec (List.mem_cons_self ..) (by decide) (hi _)
    ⟨rfl, rfl, rfl, rfl, id, id, id, id, hx, id, id, .refl⟩ fun _ => ⟨rfl, rfl, rfl, rfl⟩

theorem hostEnd_enc1 (rasters : List Raster) : HostEnd (.enc1 rasters) s (opEnc1 rasters s) :=
  .guard ⟨by simp [resultCodes], by decide⟩ fun _ => hostEnd_codec s _ _ (smMove_self _) id

theorem hostEnd_enc8 (raster : Raster) : HostEnd (.enc8 raster) s (opEnc8 raster s) :=
  .guard ⟨by simp [resultCodes], by decide⟩ fun _ => hostEnd_codec s _ _ (smMove_self _) id

theorem hostEnd_dec1 (block : List Byte) : HostEnd (.dec1 block) s (opDec1 block s) := by
  rw [opDec1]
  rcases codecDec s.cfg block 3 s.cfg.pixels with - | b
  · exact .refused .errDecode (by simp [resultCodes]) (by decide)
  · exact hostEnd_codec s _ _ (smMove_self _) fun _ => by simp [unpack1]

theorem hostEnd_dec8 (block : List Byte) : HostEnd (.dec8 block) s (opDec8 block s) := by
  rw [opDec8]
  rcases codecDec s.cfg block 1 s.cfg.pixels with - | b
  · exact .refused .errDecode (by simp [resultCodes]) (by decide)
  · exact hostEnd_codec s _ _ (smMove_self _) fun _ => by simp

/-- A change of the Sequence with no plan running. -/
theorem hostEnd_setUpl {i : Instr} {x : UplRegs} {rec : HRec} (hplan : s.syn.planActive = false)
    (hi : ∀ a, smMove i a a)
    (hpats : s.upl.seqPats.length ≤ max s.cfg.ceil1 s.cfg.ceil8 → x.seqPats.length ≤ max s.cfg.ceil1 s.cfg.ceil8)
    (hisup : x.isup = false) : HostEnd i s ((s.setUpl x).finish .ok rec) :=
  .result hplan ⟨List.mem_cons_self .., by decide⟩ (hi _)
    ⟨rfl, rfl, rfl, rfl, id, id, id, id, id, hpats, (fun _ h => by rw [State.setUpl_upl, hisup] at h; cases h), .refl⟩

theorem hostEnd_sdefine (pats : List PatIn) (rep : Repeat) (mode : PMode) (confirm : Bool) :
    HostEnd (.sdefine pats rep mode confirm) s (opSdefine pats rep mode confirm s) := by
  refine .undef (by simp [resultCodes]) fun hplan => ?_
  rcases hv : validate s.cfg pats rep confirm with - | r
  · refine hostEnd_setUpl s hplan (smMove_self _) (fun _ => ?_) rfl
    have := Validation.length_le_of_validate hv
    simpa using this
  · have hr := validate_code hv
    exact .refused r (List.mem_cons_of_mem _ hr) (refusal_of_validation r hr)

theorem hostEnd_padd (at_ : U16) (pat : PatIn) : HostEnd (.padd at_ pat) s (opPadd at_ pat s) := by
  refine .undef (by simp [resultCodes]) fun hplan => .guard ⟨by simp [resultCodes], by decide⟩ fun _ =>
    .guard ⟨by simp [resultCodes], by decide⟩ fun hat => .guard ⟨by simp [resultCodes], by decide⟩ fun hroom => ?_
  rcases hrec : recordOk s.cfg pat with - | r
  · refine hostEnd_setUpl s hplan (smMove_self _) (fun _ => ?_) rfl
    simp
    omega
  · obtain rfl | rfl := recordOk_code hrec <;> exact .refused _ (by simp [resultCodes]) (by decide)

theorem hostEnd_premove (at_ : U16) : HostEnd (.premove at_) s (opPremove at_ s) := by
  refine .undef (by simp [resultCodes]) fun hplan => .guard ⟨by simp [resultCodes], by decide⟩ fun _ =>
    .guard ⟨by simp [resultCodes], by decide⟩ fun hat => hostEnd_setUpl s hplan (smMove_self _) (fun h => ?_) rfl
  simp
  omega

theorem hostEnd_pmove (src dst : U16) : HostEnd (.pmove src dst) s (opPmove src dst s) := by
  refine .undef (by simp [resultCodes]) fun hplan => .guard ⟨by simp [resultCodes], by decide⟩ fun _ => ?_
  rcases hp : s.upl.seqPats[src.toNat]? with - | p
  · exact .refused .cfgRange (by simp [resultCodes]) (by decide)
  · have hsrc := (List.getElem?_eq_some_iff.1 hp).1
    refine .guard ⟨by simp [resultCodes], by decide⟩ fun hdst => hostEnd_setUpl s hplan (smMove_self _) (fun h => ?_) rfl
    simp
    omega

theorem hostEnd_srepeat (rep : Repeat) : HostEnd (.srepeat rep) s (opSrepeat rep s) :=
  .undef (by simp [resultCodes]) fun hplan => .guard ⟨by simp [resultCodes], by decide⟩ fun _ =>
    .guard ⟨by simp [resultCodes], by decide⟩ fun _ => hostEnd_setUpl s hplan (smMove_self _) id rfl

theorem hostEnd_pset (at_ : U16) (pat : PatIn) : HostEnd (.pset at_ pat) s (opPset at_ pat s) := by
  refine .undef (by simp [resultCodes]) fun hplan => .guard ⟨by simp [resultCodes], by decide⟩ fun _ =>
    .guard ⟨by simp [resultCodes], by decide⟩ fun hat => ?_
  rcases hrec : recordOk s.cfg pat with - | r
  · refine hostEnd_setUpl s hplan (smMove_self _) (fun h => ?_) rfl
    simp
    omega
  · obtain rfl | rfl := recordOk_code hrec <;> exact .refused _ (by simp [resultCodes]) (by decide)

/-- A procedure in the warn context without `Check` that is the end of a host operation. -/
theorem hostEnd_warnProc {i : Instr} {as : List PAct} (hplan : s.syn.planActive = false)
    (hcodes : .warnTimeout ∈ resultCodes i ∧ .warnIo ∈ resultCodes i) (hno : ∀ a ∈ as, a ≠ .check)
    (hsm : smMove i s.ses.sm (runProc .warn as s).st.ses.sm) (hw : Worked s (runProc .warn as s).st) :
    HostEnd i s (runProc .warn as s).conclude := by
  refine .result hplan ?_ hsm hw
  obtain h | h | h := code_of_noCheck hno s <;> rw [h]
  · exact ⟨List.mem_cons_self .., by decide⟩
  · exact ⟨List.mem_cons_of_mem _ hcodes.1, by decide⟩
  · exact ⟨List.mem_cons_of_mem _ hcodes.2, by decide⟩

/-- A single upload command (R137, R139). -/
theorem hostEnd_upload {i : Instr} (k : Cmd) (hk : k.payload.length ≤ lMax) (hplan : s.syn.planActive = false)
    (hcodes : .warnTimeout ∈ resultCodes i ∧ .warnIo ∈ resultCodes i) (hi : ∀ a, smMove i a a) :
    HostEnd i s (runProc .warn [.isup false, .cmd k] s).conclude := by
  refine hostEnd_warnProc s hplan hcodes (by simp) ?_ (worked_runProc .warn (by simp [hk, PAct.payloadOk, PAct.stays])
    (by simp [NoPhase]) (.inr (by simp)))
  rw [runProc_sm .warn _ s (by simp [sesOf])]
  exact hi _

theorem hostEnd_defpat (index : U16) (expUs : U32) (bd color : Byte) (trigIn : Bool) (darkUs trigOut : U32) (blk : U16)
    (bitpos : Byte) :
    HostEnd (.defpat index expUs bd color trigIn darkUs trigOut blk bitpos) s
      (opDefpat index expUs bd color trigIn darkUs trigOut blk bitpos s) := by
  refine .busy (by simp [resultCodes]) fun hplan => ?_
  rcases hc : defpatCheck s.cfg expUs bd color darkUs trigOut blk bitpos with - | r
  · rw [Option.orElse_none]
    rcases hu : uplReady s with - | r
    · exact hostEnd_upload s _ (Nat.le_of_ble_eq_true rfl) hplan ⟨by simp [resultCodes], by simp [resultCodes]⟩
        (smMove_self _)
    · obtain rfl | rfl := uplReady_code hu <;> exact .refused _ (by simp [resultCodes]) (by decide)
  · obtain rfl | rfl | rfl := defpatCheck_code hc <;> exact .refused _ (by simp [resultCodes]) (by decide)

theorem hostEnd_cfglut (count : U16) (rep : U32) : HostEnd (.cfglut count rep) s (opCfglut count rep s) := by
  refine .busy (by simp [resultCodes]) fun hplan => .guard ⟨by simp [resultCodes], by decide⟩ fun _ => ?_
  rcases hu : uplReady s with - | r
  · exact hostEnd_upload s _ (payload_lutCmd_le s.cfg _ _) hplan ⟨by simp [resultCodes], by simp [resultCodes]⟩
      (smMove_self _)
  · obtain rfl | rfl := uplReady_code hu <;> exact .refused _ (by simp [resultCodes]) (by decide)

theorem hostEnd_imgblk (idx : U16) (block : List Byte) : HostEnd (.imgblk idx block) s (opImgblk idx block s) := by
  refine .busy (by simp [resultCodes]) fun hplan => .guard ⟨by simp [resultCodes], by decide⟩ fun _ => ?_
  rcases hu : uplReady s with - | r
  · have hrun := imgblk_transmitted idx block s
    have hsound : Sound ([.isup false, .pktInit (Config.u32Of (chunkCount s.cfg block))]
        ++ blockActs s.cfg ⟨idx.setWidth 11, block⟩) := by
      simp [sound_blockActs, PAct.payloadOk, PAct.stays]
    have hisup : (imgblkRun idx block s).st.upl.isup = false := congrArg UplRegs.isup hrun.upl
    have hw : Worked s (imgblkRun idx block s).st := .of_acted (runProc_acted .fault _ s)
      (runProc_logged .fault _ s) hrun.syn
      (runProc_framesOk .fault _ s hsound) fun _ h => by rw [hisup] at h; cases h
    have hend : HostEnd (.imgblk idx block) s (imgblkRun idx block s).conclude := by
      refine .result hplan ?_ (congrArg SesRegs.sm hrun.ses) hw
      obtain h | h := code_cases_of_transmitted hrun <;> rw [h] <;> exact ⟨by simp [resultCodes], by decide⟩
    exact hend
  · obtain rfl | rfl := uplReady_code hu <;> exact .refused _ (by simp [resultCodes]) (by decide)

theorem code_of_uploadSeq : (runProc .fault (uploadSeq s) s).code = .ok ∨ (runProc .fault (uploadSeq s) s).code = .faultIo := by
  have hcode := code_cases_of_transmitted (runProc_transmitted (suploadStart s) (transmits_uploadBody s))
  rw [runProc_uploadSeq]
  split <;> exact hcode

theorem hostEnd_supload (confirm : Bool) : HostEnd (.supload confirm) s (opSupload confirm s) := by
  refine .busy (by simp [resultCodes]) fun hplan => .guard ⟨by simp [resultCodes], by decide⟩ fun hseq => ?_
  rcases hv : validate s.cfg s.patsIn s.upl.seqRepeat confirm with - | r
  · dsimp only
    split
    · exact .result hplan ⟨List.mem_cons_self .., by decide⟩ (smMove_self _ _) (.refl s)
    rcases hu : uplReady s with - | r
    · obtain ⟨-, -, hses, haside⟩ := uploadSeq_result s
      have hw : Worked s (runProc .fault (uploadSeq s) s).st := .of_acted (runProc_acted .fault _ s)
        (runProc_logged .fault _ s) haside.syn
        (runProc_framesOk .fault _ s (sound_uploadSeq s))
        (runProc_isup .fault _ s (.inl (Bool.eq_true_of_not_eq_false hseq)))
      refine .result hplan ?_ (congrArg SesRegs.sm hses) hw
      obtain h | h := code_of_uploadSeq s <;> rw [h] <;> exact ⟨by simp [resultCodes], by decide⟩
    · obtain rfl | rfl := uplReady_code hu <;> exact .refused _ (by simp [resultCodes]) (by decide)
  · have hr := validate_code hv
    refine .refused r ?_ (refusal_of_validation r hr)
    simp [resultCodes, hr]

theorem hostEnd_connect : HostEnd .connect s (opConnect s) := by
  refine .busy (by simp [resultCodes]) fun hplan => ?_
  have hw : ∀ b x, Worked s ((s.forgetSession.log (.probe b)).setSes x) := fun b x =>
    ⟨rfl, rfl, rfl, rfl, id, id, id, id, id, id, (fun _ h => nomatch h), .one _ trivial⟩
  rw [show projProbe s.forgetSession = ((projProbe s.forgetSession).1,
    s.forgetSession.log (.probe (projProbe s.forgetSession).1)) from rfl]
  cases (projProbe s.forgetSession).1 with
  | found => exact .result hplan ⟨by simp, by decide⟩ (.inl rfl) (hw _ _)
  | none => exact .result hplan ⟨by simp [resultCodes], by decide⟩ (.inl rfl) (hw _ _)

theorem hostEnd_disconnect : HostEnd .disconnect s (opDisconnect s) :=
  .busy (by simp [resultCodes]) fun hplan => .result hplan ⟨by simp, by decide⟩ (.inl rfl)
    ⟨rfl, rfl, rfl, rfl, id, id, id, id, id, id, (fun _ h => nomatch h), .refl⟩

/-- The preconditions of R160. -/
theorem hostEnd_session {i : Instr} {x : State} (hb : .errBusy ∈ resultCodes i ∧ .errNotConnected ∈ resultCodes i)
    (h : s.syn.planActive = false → HostEnd i s x) :
    HostEnd i s (match sessionReady s with
      | some r => s.raise r
      | none => x) := by
  rcases hs : sessionReady s with - | r
  · exact h (planActive_of_sessionReady hs)
  · obtain rfl | rfl := sessionReady_code hs
    · exact .refused _ hb.1 (by decide)
    · exact .refused _ hb.2 (by decide)

theorem hostEnd_setmode (m : Byte) : HostEnd (.setmode m) s (opSetmode m s) := by
  refine hostEnd_session s ⟨by simp [resultCodes], by simp [resultCodes]⟩ fun hplan => ?_
  obtain ⟨hses, -⟩ := modeProc_registers m s
  exact hostEnd_warnProc s hplan ⟨by simp [resultCodes], by simp [resultCodes]⟩ (by simp [modeProc, stopProc])
    (.inl (congrArg SesRegs.sm hses))
    (worked_runProc .warn (sound_modeProc s.cfg m) (noPhase_modeProc s.cfg m) (.inr (by simp [modeProc, stopProc])))

theorem hostEnd_start : HostEnd .start s (opStart s) := by
  refine hostEnd_session s ⟨by simp [resultCodes], by simp [resultCodes]⟩ fun hplan => ?_
  obtain ⟨hses, -⟩ := startProc_registers s
  split
  · refine .result hplan ?_ (.inl ⟨‹_›, congrArg SesRegs.sm hses⟩)
      (worked_runProc .warn (sound_startProc s.cfg) (noPhase_startProc s.cfg) (.inr (by simp [startProc_list])))
    obtain h | h | h | h := code_of_marked (marked_startProc s) <;> rw [h] <;> exact ⟨by simp [resultCodes], by decide⟩
  · exact .refused .errState (by simp [resultCodes]) (by decide)

theorem hostEnd_stop : HostEnd .stop s (opStop s) := by
  refine hostEnd_session s ⟨by simp [resultCodes], by simp [resultCodes]⟩ fun hplan => ?_
  obtain ⟨hses, -⟩ := stopProc_registers s
  refine hostEnd_warnProc s hplan ⟨by simp [resultCodes], by simp [resultCodes]⟩ (by simp [stopProc]) ?_
    (worked_runProc .warn (sound_stopProc s.cfg) (by simp [NoPhase, stopProc]) (.inr (by simp [stopProc])))
  rw [hses]
  by_cases hidle : s.ses.sm = .idle
  · exact .inr (by simp [hidle])
  · exact .inl ⟨hidle, by simp [hidle]⟩

theorem hostEnd_pause : HostEnd .pause s (opPause s) := by
  refine hostEnd_session s ⟨by simp [resultCodes], by simp [resultCodes]⟩ fun hplan => ?_
  split
  · have hw : Worked s (runProc .warn [.cmd (playCmd s.cfg .pause)] s).st :=
      worked_runProc .warn (by simp [payload_playCmd_le, PAct.payloadOk, PAct.stays]) (by simp [NoPhase]) (.inr (by simp))
    refine .result (u := (runProc .warn [.cmd (playCmd s.cfg .pause)] s).st.setPaused) hplan ?_ (.inl ⟨‹_›, rfl⟩) (hw.setSes _)
    obtain h | h | h := code_of_noCheck (as := [.cmd (playCmd s.cfg .pause)]) (by simp) s <;> rw [h] <;>
      exact ⟨by simp [resultCodes], by decide⟩
  · exact .refused .errState (by simp [resultCodes]) (by decide)

theorem hostEnd_illconnect : HostEnd .illconnect s (opIllconnect s) := by
  refine .busy (by simp [resultCodes]) fun hplan => ?_
  have hsent : ∀ m (t : State), Worked s t → Worked s (illSend m t).2 := by
    intro m t ht
    exact ⟨ht.cfg, ht.ubf, ht.work, ht.syn, ht.frames, ht.inflight, ht.reply, ht.fifo, ht.rasters, ht.pats, ht.isup,
      ht.logged.log _ trivial⟩
  have hfirst := hsent .version _ ((Worked.refl s).setSes { s.ses with illOn := ⟨false, false, false, false⟩ })
  have hsm : (illSend .version (s.setSes { s.ses with illOn := ⟨false, false, false, false⟩ })).2.ses.sm = s.ses.sm := rfl
  generalize illSend .version (s.setSes { s.ses with illOn := ⟨false, false, false, false⟩ }) = x at hfirst hsm ⊢
  obtain ⟨line | - | -, t⟩ := x
  · have hsecond := hsent .wavelengths _ (hfirst.setSes { t.ses with illValid := true })
    have hsm2 : (illSend .wavelengths (t.setSes { t.ses with illValid := true })).2.ses.sm = s.ses.sm := hsm
    dsimp only
    rw [illWavelengths]
    obtain hm | ⟨b, hm⟩ := illMsg_cases .warn .wavelengths (t.setSes { t.ses with illValid := true }) <;> rw [hm]
    · exact .result hplan ⟨by simp, by decide⟩ hsm2 hsecond
    · obtain ⟨w, e, hw, -, hx⟩ | ⟨hx, -⟩ := onFailure_spec .warn b
        (illSend .wavelengths (t.setSes { t.ses with illValid := true })).2
      · rw [hx]
        refine .result hplan ?_ ((congrArg SesRegs.sm (push_ses _ _)).trans hsm2) (hsecond.push e)
        obtain rfl | rfl := hw <;> exact ⟨by simp [resultCodes], by decide⟩
      · exact absurd rfl hx
  · exact .result hplan ⟨by simp [resultCodes], by decide⟩ hsm (hfirst.setSes _)
  · exact .result hplan ⟨by simp [resultCodes], by decide⟩ hsm (hfirst.setSes _)

theorem hostEnd_regread (n : Byte) : HostEnd (.regread n) s (opRegread n s) := by
  rw [opRegread]
  rcases statusWord s n.toNat with - | w
  · exact .refused .cfgRange (by simp [resultCodes]) (by decide)
  · exact .ended s .ok _ (by simp) (by decide) (smMove_self _ _) (.refl s) fun _ => .refl s

theorem hostEnd_pstart (plan : PlanRec) : HostEnd (.pstart plan) s (opPstart plan s) := by
  refine .busy (by simp [resultCodes]) fun hplan => .guard ⟨by simp [resultCodes], by decide⟩ fun hseq => ?_
  rcases hv : planValidate s plan with - | r
  · refine .guard ⟨by simp [resultCodes], by decide⟩ fun hsess => .guard ⟨by simp [resultCodes], by decide⟩ fun _ => ?_
    exact .begun plan rfl hplan (Bool.eq_true_of_not_eq_false hseq) hv (Bool.eq_true_of_not_eq_false hsess)
  · obtain hr | rfl | rfl := planValidate_code hv
    · exact .refused r (by simp [resultCodes, hr]) (refusal_of_validation r hr)
    · exact .refused _ (by simp [resultCodes]) (by decide)
    · exact .refused _ (by simp [resultCodes]) (by decide)

theorem hostEnd_pstop : HostEnd .pstop s (opPstop s) := by
  rw [opPstop]
  split
  · exact .ended (s.setSyn { s.syn with cancel := true }) .ok _ (by simp) (by decide) (smMove_self _ _)
      ⟨rfl, rfl, rfl, rfl, id, id, id, id, id, id, id, .refl⟩ fun _ => ⟨rfl, rfl, rfl, rfl⟩
  · exact .ended s .ok _ (by simp) (by decide) (smMove_self _ _) (.refl s) fun _ => .refl s

theorem hostEnd_stread : HostEnd .stread s (opStread s) := by
  rw [opStread]
  rcases hf : s.sts.fifo with - | ⟨e, es⟩
  · exact .ended s .ok _ (by simp) (by decide) (smMove_self _ _) (.refl s) fun _ => .refl s
  · refine .ended (s.setSts { fifo := es, ovf := if es = [] then false else s.sts.ovf }) .ok _ (by simp) (by decide)
      (smMove_self _ _) ⟨rfl, rfl, rfl, rfl, id, id, id, fun h => ?_, id, id, id, .refl⟩ fun _ => ⟨rfl, rfl, rfl, rfl⟩
    rw [hf] at h
    exact Nat.le_of_succ_le h

end

/-- Every host operation answers a next state, and ends in one of the four ways. -/
theorem exec_host_cases (i : Instr) (s : State) (hi : i.kind = .hostOp) : ∃ t, exec i s = .next t ∧ HostEnd i s t := by
  cases i with
  | fbuild dir seq cmd1 cmd2 payload => exact ⟨_, rfl, hostEnd_fbuild s dir seq cmd1 cmd2 payload⟩
  | fsend cls => exact ⟨_, rfl, hostEnd_fsend s cls⟩
  | fcheck => exact ⟨_, rfl, hostEnd_fcheck s⟩
  | enc1 rasters => exact ⟨_, rfl, hostEnd_enc1 s rasters⟩
  | enc8 raster => exact ⟨_, rfl, hostEnd_enc8 s raster⟩
  | dec1 block => exact ⟨_, rfl, hostEnd_dec1 s block⟩
  | dec8 block => exact ⟨_, rfl, hostEnd_dec8 s block⟩
  | sdefine pats rep mode confirm => exact ⟨_, rfl, hostEnd_sdefine s pats rep mode confirm⟩
  | padd at_ pat => exact ⟨_, rfl, hostEnd_padd s at_ pat⟩
  | premove at_ => exact ⟨_, rfl, hostEnd_premove s at_⟩
  | pmove src dst => exact ⟨_, rfl, hostEnd_pmove s src dst⟩
  | pset at_ pat => exact ⟨_, rfl, hostEnd_pset s at_ pat⟩
  | srepeat rep => exact ⟨_, rfl, hostEnd_srepeat s rep⟩
  | defpat index expUs bd color trigIn darkUs trigOut blk bitpos =>
    exact ⟨_, rfl, hostEnd_defpat s index expUs bd color trigIn darkUs trigOut blk bitpos⟩
  | cfglut count rep => exact ⟨_, rfl, hostEnd_cfglut s count rep⟩
  | imgblk idx block => exact ⟨_, rfl, hostEnd_imgblk s idx block⟩
  | supload confirm => exact ⟨_, rfl, hostEnd_supload s confirm⟩
  | connect => exact ⟨_, rfl, hostEnd_connect s⟩
  | disconnect => exact ⟨_, rfl, hostEnd_disconnect s⟩
  | setmode m => exact ⟨_, rfl, hostEnd_setmode s m⟩
  | start => exact ⟨_, rfl, hostEnd_start s⟩
  | stop => exact ⟨_, rfl, hostEnd_stop s⟩
  | pause => exact ⟨_, rfl, hostEnd_pause s⟩
  | illconnect => exact ⟨_, rfl, hostEnd_illconnect s⟩
  | regread n => exact ⟨_, rfl, hostEnd_regread s n⟩
  | pstart plan => exact ⟨_, rfl, hostEnd_pstart s plan⟩
  | pstop => exact ⟨_, rfl, hostEnd_pstop s⟩
  | stread => exact ⟨_, rfl, hostEnd_stread s⟩
  | _ => cases hi

/-- The end of the host operation that answered `t`. -/
theorem hostEnd_of_exec {i : Instr} {s t : State} (hi : i.kind = .hostOp) (h : exec i s = .next t) : HostEnd i s t := by
  obtain ⟨u, hu, hend⟩ := exec_host_cases i s hi
  obtain rfl : u = t := by injection hu.symm.trans h
  exact hend

/-! ## The rules for all host operations -/

theorem byte_of_refusal : ∀ r : Res, r ∉ refusalCodes → r.byte ∉ refusalCodes.map Res.byte := by
  intro r
  cases r <;> decide

/-- Settles O46. -/
theorem returnCodes : Obligations.ReturnCodes := by
  refine ⟨by decide, fun i s _ hi => ?_⟩
  obtain ⟨t, ht, hend⟩ := exec_host_cases i s hi
  cases hend with
  | refused r hr => exact ⟨_, _, ht, rfl, List.mem_map_of_mem (List.mem_cons_of_mem _ hr)⟩
  | undefined hr => exact ⟨_, _, ht, rfl, List.mem_map_of_mem (List.mem_cons_of_mem _ hr)⟩
  | ended u r rec hr => exact ⟨_, _, ht, rfl, List.mem_map_of_mem hr⟩
  | begun plan => exact ⟨_, _, ht, rfl, List.mem_map_of_mem (List.mem_cons_self ..)⟩

/-- Settles O47. -/
theorem refusalsChangeNothing : Obligations.RefusalsChangeNothing := by
  intro i s t _ hi hexec hcode
  cases hostEnd_of_exec hi hexec with
  | refused r => exact ⟨s.host.ubf, rfl, .inl rfl⟩
  | undefined => exact ⟨true, rfl, .inr rfl⟩
  | ended u r rec hr hno => exact absurd hcode (byte_of_refusal r hno)
  | begun plan => exact absurd hcode (byte_of_refusal .ok (by decide))

/-- Settles O49. -/
theorem hostSilentDuringPlan : Obligations.HostSilentDuringPlan := by
  intro i s t _ hi hplan hexec
  cases hostEnd_of_exec hi hexec with
  | refused r => exact ⟨rfl, rfl, rfl, rfl, rfl, rfl, rfl⟩
  | undefined => exact ⟨rfl, rfl, rfl, rfl, rfl, rfl, rfl⟩
  | ended u r rec _ _ _ hw hq =>
    obtain ⟨hfrm, hupl, hses, htrace⟩ := hq hplan
    exact ⟨htrace, hfrm, hupl, hses, hw.work, hw.cfg, hw.syn⟩
  | begun plan _ hno => rw [hplan] at hno; cases hno

theorem beginPlan_ses (s : State) (plan : PlanRec) : (s.beginPlan plan).ses = s.ses := by
  rw [State.beginPlan]
  split <;> rfl

/-- Settles O50. -/
theorem sessionTransitions : Obligations.SessionTransitions := by
  intro i s t _ hi hexec
  cases hostEnd_of_exec hi hexec with
  | refused r => exact smMove_self i _
  | undefined => exact smMove_self i _
  | ended u r rec _ _ hsm => exact hsm
  | begun plan =>
    rw [beginPlan_ses]
    exact smMove_self i _

end Sys2Proof.HostOps
end

section
/-! One action of the WORKER (R64, R181 to R205): what it keeps of the registers, which actions it leaves to do. -/

namespace Sys2Proof.WorkerAct

open Sys2Proof.Machine Sys2Proof.Procedure

/-! ## Actions of a procedure -/

section

variable (ctx : Ctx) (x : PAct) (rest : List WAct) (s : State)

/-- An action of a procedure is a command, whose frames are loaded, or it runs whole. -/
theorem workAct_act :
    (∃ k c, cmdOf s.cfg x = some k
        ∧ workAct (.act ctx x) rest s = .ok ((s.loadFrames (k.frames s.cfg)).setWork (.out c k.cls 0 :: rest)))
      ∨ cmdOf s.cfg x = none ∧ workAct (.act ctx x) rest s = .ok (resume rest (x.run ctx s)) := by
  cases x with
  | cmd k => exact .inl ⟨k, ctx, rfl, rfl⟩
  | stopPlay => exact .inl ⟨playCmd s.cfg .stop, ctx.ofStop s.cfg.settleStopMs, rfl, rfl⟩
  | _ => exact .inr ⟨rfl, rfl⟩

/-- After an action of a procedure the rest follows, or the trap. -/
theorem resume_eq (r : Ran) : ∃ w, resume rest r = r.st.setWork w ∧ (w = rest ∨ w = [.endPlan .fault]) := by
  cases r with
  | ok t => exact ⟨rest, rfl, .inl rfl⟩
  | warned w t => exact ⟨rest, rfl, .inl rfl⟩
  | faulted t => exact ⟨_, rfl, .inr rfl⟩

/-- The work of a failed Stop: its settle wait, then the trap (R167). -/
def stopTrap (d : Nat) : List WAct := [.act .fault (.settle d), .endPlan .fault]

/-- After a command the rest follows, or the trap, or a settle wait and the trap. -/
theorem resumeCmd_eq (r : Ran) :
    ∃ w, resumeCmd ctx rest r = r.st.setWork w ∧ (w = rest ∨ w = [.endPlan .fault] ∨ ∃ d, w = stopTrap d) := by
  have hplain : ∃ w, resume rest r = r.st.setWork w ∧ (w = rest ∨ w = [.endPlan .fault] ∨ ∃ d, w = stopTrap d) := by
    obtain ⟨w, hw, h⟩ := resume_eq rest r
    exact ⟨w, hw, h.imp_right .inl⟩
  cases ctx with
  | warn => exact hplain
  | fault => exact hplain
  | stop d =>
    cases r with
    | ok t => exact hplain
    | warned w t => exact hplain
    | faulted t => exact ⟨_, rfl, .inr (.inr ⟨d, rfl⟩)⟩

/-- One frame of a command: the command goes on, or its failure follows (R109). -/
theorem workOut_cases (cls : Cls) (k : Nat) :
    (∃ p b, s.ports.Grows p ∧ (b = .out ctx cls (k + 1) ∨ b = .inp ctx cls)
        ∧ workOut ctx cls k rest s = (s.setPorts p).setWork (b :: rest))
      ∨ ∃ p, s.ports.Grows p ∧ workOut ctx cls k rest s = resumeCmd ctx rest (onFailure ctx false (s.setPorts p).dropReply) := by
  rw [workOut]
  rcases s.frm.frameBuf[k]? with - | f
  · exact .inl ⟨s.ports, _, .refl _, .inr rfl, rfl⟩
  obtain ⟨o, ho⟩ : ∃ o, usbOut f s = (o, s.setPorts (s.ports.log (.usbOut f o))) := ⟨_, rfl⟩
  have hgrows := Ports.log_grows s.ports (.usbOut f o) trivial
  dsimp only
  rw [ho]
  cases o with
  | ok =>
    refine .inl ⟨_, _, hgrows, ?_, rfl⟩
    split
    · exact .inl rfl
    · exact .inr rfl
  | ioError => exact .inr ⟨_, hgrows, rfl⟩

end

/-! ## What an action keeps -/

/-- What the action `a` of the WORKER keeps: the configuration, HOST's registers, the codec, the Sequence, the session and
the plan; `FRAMEBUF` but for a command's load; sizes and history. -/
structure Kept (a : WAct) (s t : State) : Prop where
  cfg : t.cfg = s.cfg
  host : t.host = s.host
  cod : t.cod = s.cod
  seqValid : t.upl.seqValid = s.upl.seqValid
  seqPats : t.upl.seqPats = s.upl.seqPats
  sessValid : t.ses.sessValid = s.ses.sessValid
  plan : t.syn.plan = s.syn.plan
  frames : t.frm.frameBuf = s.frm.frameBuf ∨ ∃ ctx x k, a = .act ctx x ∧ cmdOf s.cfg x = some k
    ∧ t.frm.frameBuf = k.frames s.cfg
  reply : s.frm.rplBuf.length = 64 → t.frm.rplBuf.length = 64
  fifo : s.sts.fifo.length ≤ s.cfg.statusDepth → t.sts.fifo.length ≤ s.cfg.statusDepth
  grows : s.ports.Grows t.ports

section

variable {a : WAct} {s t : State}

/-- A control point of a worker procedure writes its own registers and the work. -/
theorem Kept.control {y : SynRegs} {p : Ports} {w : List WAct} (hplan : y.plan = s.syn.plan) (hp : s.ports.Grows p) :
    Kept a s (((s.setSyn y).setPorts p).setWork w) :=
  ⟨rfl, rfl, rfl, rfl, rfl, rfl, hplan, .inl rfl, id, id, hp⟩

/-- A control point that makes no transaction. -/
theorem Kept.regs {y : SynRegs} (hplan : y.plan = s.syn.plan) : Kept a s (s.setSyn y) :=
  ⟨rfl, rfl, rfl, rfl, rfl, rfl, hplan, .inl rfl, id, id, .refl _⟩

theorem Kept.work (w : List WAct) : Kept a s (s.setWork w) := .control (y := s.syn) rfl (.refl _)

theorem Kept.of_acted (h : Acted s t) (hbuf : t.frm.frameBuf = s.frm.frameBuf) : Kept a s t :=
  ⟨h.cfg, h.host, h.cod, h.seqValid, h.seqPats, h.sessValid, by rw [h.syn], .inl hbuf, h.reply, h.fifo, h.grows⟩

theorem Kept.setWork (h : Kept a s t) (w : List WAct) : Kept a s (t.setWork w) :=
  ⟨h.cfg, h.host, h.cod, h.seqValid, h.seqPats, h.sessValid, h.plan, h.frames, h.reply, h.fifo, h.grows⟩

theorem Kept.push (h : Kept a s t) (e : Event) : Kept a s (t.push e) where
  cfg := (push_cfg t e).trans h.cfg
  host := (push_host t e).trans h.host
  cod := (push_cod t e).trans h.cod
  seqValid := by rw [push_upl]; exact h.seqValid
  seqPats := by rw [push_upl]; exact h.seqPats
  sessValid := by rw [push_ses]; exact h.sessValid
  plan := by rw [push_syn]; exact h.plan
  frames := by rw [push_frm]; exact h.frames
  reply := by rw [push_frm]; exact h.reply
  fifo := fun hs => by
    have := (push_spec t e).2
    rw [h.cfg] at this
    exact this (h.fifo hs)
  grows := by rw [push_ports]; exact h.grows

theorem Kept.setSyn (h : Kept a s t) {y : SynRegs} (hy : y.plan = s.syn.plan) : Kept a s (t.setSyn y) :=
  ⟨h.cfg, h.host, h.cod, h.seqValid, h.seqPats, h.sessValid, hy, h.frames, h.reply, h.fifo, h.grows⟩

theorem kept_act (ctx : Ctx) (x : PAct) (rest : List WAct) (h : workAct (.act ctx x) rest s = .ok t) :
    Kept (.act ctx x) s t := by
  obtain ⟨k, c, hk, hw⟩ | ⟨hk, hw⟩ := workAct_act ctx x rest s
  · obtain rfl : _ = t := by injection hw.symm.trans h
    exact ⟨rfl, rfl, rfl, rfl, rfl, rfl, rfl, .inr ⟨ctx, x, k, rfl, hk, rfl⟩, id, id, .refl _⟩
  · obtain rfl : _ = t := by injection hw.symm.trans h
    obtain ⟨w, hr, -⟩ := resume_eq rest (x.run ctx s)
    rw [hr]
    exact (Kept.of_acted (x.run_acted ctx s) (by rw [run_frm_of_none ctx x s hk])).setWork w

theorem kept_out (ctx : Ctx) (cls : Cls) (k : Nat) (rest : List WAct) : Kept a s (workOut ctx cls k rest s) := by
  obtain ⟨p, b, hp, -, hw⟩ | ⟨p, hp, hw⟩ := workOut_cases ctx rest s cls k <;> rw [hw]
  · exact .control (y := s.syn) rfl hp
  · obtain ⟨w, hr, -⟩ := resumeCmd_eq ctx rest (onFailure ctx false (s.setPorts p).dropReply)
    have hdrop : Kept a s (s.setPorts p).dropReply := ⟨rfl, rfl, rfl, rfl, rfl, rfl, rfl, .inl rfl, id, id, hp⟩
    rw [hr]
    obtain ⟨w', e, -, -, hx⟩ | ⟨-, hx⟩ := onFailure_spec ctx false (s.setPorts p).dropReply <;> rw [hx]
    · exact (hdrop.push e).setWork w
    · exact hdrop.setWork w

theorem kept_inp (ctx : Ctx) (cls : Cls) (rest : List WAct) : Kept a s (workInp ctx cls rest s) := by
  have hspec := recvReply_spec cls s
  have hrecv : Kept a s (recvReply cls s).2 := .of_acted hspec.acted hspec.buf
  obtain ⟨w, hr, -⟩ := resumeCmd_eq ctx rest (cmdEnd ctx (recvReply cls s))
  rw [workInp, hr]
  obtain hx | ⟨b, hx⟩ := cmdEnd_cases ctx (recvReply cls s) <;> rw [hx]
  · exact hrecv.setWork w
  · obtain ⟨w', e, -, -, hx⟩ | ⟨-, hx⟩ := onFailure_spec ctx b (recvReply cls s).2 <;> rw [hx]
    · exact (hrecv.push e).setWork w
    · exact hrecv.setWork w

theorem now_grows (s : State) : s.ports.Grows (now s).2.ports := Ports.log_grows _ _ s.nextClk_le

theorem kept_waitTick (t0 : U64) (d : Option Nat) (rest : List WAct) : Kept a s (waitTick t0 d rest s) := by
  have hsleep : ∀ ms w, Kept a s (((now s).2.log (.sleep ms)).setWork w) := fun ms w =>
    .control (y := s.syn) rfl ((now_grows s).trans (Ports.log_grows _ _ trivial))
  rw [waitTick]
  split
  · exact .work _
  · cases d with
    | none => exact hsleep _ _
    | some n =>
      dsimp only
      split
      · exact .control (y := s.syn) rfl (now_grows s)
      · exact hsleep _ _

theorem kept_cyclicSample (last : Nat) (el : U64) (rest : List WAct) (h : cyclicSample last el rest s = .ok t) :
    Kept a s t := by
  rw [cyclicSample] at h
  split at h
  · cases h
  dsimp only at h
  split at h <;> cases h
  · exact ((Kept.regs (by rfl)).push _).setWork _
  · refine Kept.setWork ?_ _
    split
    · exact .work s.work
    · exact (Kept.regs (by rfl)).push _

theorem kept_extPoll (on : Bool) (cnt : U32) (rest : List WAct) : Kept a s (extPoll on cnt rest s) := by
  rw [extPoll]
  split
  · exact .work _
  split
  · exact .work _
  split
  · dsimp only
    refine Kept.setWork ?_ _
    split <;> exact .regs rfl
  · exact .work _

/-- What one worker action keeps. -/
theorem workAct_kept (rest : List WAct) (h : workAct a rest s = .ok t) : Kept a s t := by
  cases a with
  | act ctx x => exact kept_act ctx x rest h
  | out ctx cls k => cases h; exact kept_out ctx cls k rest
  | inp ctx cls => cases h; exact kept_inp ctx cls rest
  | setup =>
    simp only [workAct] at h
    split at h <;> cases h <;> exact (Kept.regs (by rfl)).setWork _
  | runMode =>
    simp only [workAct] at h
    rcases hm : modeWork s with e | w <;> rw [hm] at h <;> cases h
    exact .work w
  | pos c i => cases h; exact (Kept.regs (by rfl)).setWork rest
  | nowPlan => cases h; exact .control rfl (now_grows s)
  | nowStep plan => cases h; exact .control rfl (now_grows s)
  | showStep k =>
    simp only [workAct, showStep] at h
    split at h <;> cases h
    exact .work _
  | showBlank =>
    simp only [workAct, showBlank] at h
    split at h <;> cases h
    exact .work _
  | checkCancel =>
    cases h
    split <;> exact .work _
  | waitStart d => cases h; exact .control (y := s.syn) rfl (now_grows s)
  | waitTick t0 d => cases h; exact kept_waitTick t0 d rest
  | waitRest d => cases h; exact .control (y := s.syn) rfl (now_grows s)
  | pulsedCycle c first =>
    cases h
    rw [pulsedCycle]
    split <;> exact .work _
  | pulsedPat c k first =>
    cases h
    rw [pulsedPat]
    split <;> exact .work _
  | pulsedWait k =>
    simp only [workAct, pulsedWait] at h
    split at h <;> cases h
    exact .work _
  | cyclicUpload => cases h; exact .work _
  | cyclicLight =>
    simp only [workAct] at h
    split at h <;> cases h
    exact .work _
  | cyclicPoll last =>
    have hk := kept_cyclicSample (a := .cyclicPoll last) last _ rest h
    exact ⟨hk.cfg, hk.host, hk.cod, hk.seqValid, hk.seqPats, hk.sessValid, hk.plan,
      hk.frames.imp_right (fun ⟨_, _, _, hx, _⟩ => nomatch hx), hk.reply, hk.fifo, (now_grows s).trans hk.grows⟩
  | extFirst => cases h; exact .control rfl (Ports.log_grows _ _ trivial)
  | extNext => cases h; exact .control (y := s.syn) rfl (Ports.log_grows _ _ trivial)
  | extPoll on cnt => cases h; exact kept_extPoll on cnt rest
  | extPrev on cnt => cases h; exact (Kept.regs (by rfl)).setWork rest
  | extActive b => cases h; exact (Kept.regs (by rfl)).setWork rest
  | extBlank b => cases h; exact (Kept.regs (by rfl)).setWork rest
  | endPlan e => cases h; exact .work _
  | finishPlan e =>
    cases h
    have hfault : Kept (.finishPlan e) s (s.setSyn { s.syn with lastFault := e.byte }) := .regs rfl
    exact ((hfault.push e.event).setSyn (by rw [push_syn]; rfl)).setWork []

end

/-! ## What is left to do has commands within the length limit -/

/-- Every action of the work has a command that fits (R107). -/
def Fit (w : List WAct) : Prop := ∀ a ∈ w, a.payloadOk

@[simp] theorem fit_nil : Fit [] := fun _ h => nomatch h

@[simp] theorem fit_cons {a : WAct} {w : List WAct} : Fit (a :: w) ↔ a.payloadOk ∧ Fit w := List.forall_mem_cons

@[simp] theorem fit_append {v w : List WAct} : Fit (v ++ w) ↔ Fit v ∧ Fit w := List.forall_mem_append

/-- Work without a command. -/
example : Fit [.act .fault (.phase .s6), .endPlan .done] := by simp [WAct.payloadOk, PAct.payloadOk]

theorem fit_inCtx {ctx : Ctx} {as : List PAct} (h : Sound as) : Fit (inCtx ctx as) := by
  intro a ha
  obtain ⟨x, hx, rfl⟩ := List.mem_map.1 ha
  exact (h x hx).1

theorem fit_stopDark (s : State) : Fit (stopDark s) :=
  fit_inCtx (by simp [sound_stopProc, sound_illAllOff, PAct.payloadOk, PAct.stays])

theorem fit_stopTrap (d : Nat) : Fit (stopTrap d) := by simp [stopTrap, WAct.payloadOk, PAct.payloadOk]

section

variable {a : WAct} {rest : List WAct} {s t : State}

theorem fit_resume {r : Ran} (h : Fit rest) : Fit (resume rest r).work := by
  obtain ⟨w, hr, rfl | rfl⟩ := resume_eq rest r <;> rw [hr]
  · exact h
  · simp [WAct.payloadOk]

theorem fit_resumeCmd {ctx : Ctx} {r : Ran} (h : Fit rest) : Fit (resumeCmd ctx rest r).work := by
  obtain ⟨w, hr, rfl | rfl | ⟨d, rfl⟩⟩ := resumeCmd_eq ctx rest r <;> rw [hr]
  · exact h
  · simp [WAct.payloadOk]
  · exact fit_stopTrap d

theorem fit_modeWork {w : List WAct} (h : modeWork s = .ok w) : Fit w := by
  rw [modeWork] at h
  split at h
  · split at h <;> cases h
    simp [WAct.payloadOk, PAct.payloadOk]
  · cases h; simp [WAct.payloadOk]
  · cases h
    simp [fit_stopDark, fit_inCtx (sound_startProc s.cfg), WAct.payloadOk, PAct.payloadOk]
  · cases h
    simp [fit_stopDark, WAct.payloadOk]

/-- The actions left after one action have commands within the length limit. -/
theorem workAct_fit (hrest : Fit rest) (h : workAct a rest s = .ok t) : Fit t.work := by
  cases a with
  | act ctx x =>
    obtain ⟨k, c, -, hw⟩ | ⟨-, hw⟩ := workAct_act ctx x rest s
    · obtain rfl : _ = t := by injection hw.symm.trans h
      simp [hrest, WAct.payloadOk]
    · obtain rfl : _ = t := by injection hw.symm.trans h
      exact fit_resume hrest
  | out ctx cls k =>
    cases h
    obtain ⟨p, b, -, hb, hw⟩ | ⟨p, -, hw⟩ := workOut_cases ctx rest s cls k <;> rw [hw]
    · obtain rfl | rfl := hb <;> simp [hrest, WAct.payloadOk]
    · exact fit_resumeCmd hrest
  | inp ctx cls => cases h; exact fit_resumeCmd hrest
  | setup =>
    simp only [workAct] at h
    split at h <;> cases h
    · simp [fit_inCtx (sound_modeProc s.cfg s.cfg.valModePotf), WAct.payloadOk]
    · simp [WAct.payloadOk]
  | runMode =>
    simp only [workAct] at h
    rcases hm : modeWork s with e | w <;> rw [hm] at h <;> cases h
    exact fit_modeWork hm
  | pos c i => cases h; exact hrest
  | nowPlan => cases h; exact hrest
  | nowStep plan => cases h; exact hrest
  | showStep k =>
    simp only [workAct, showStep] at h
    split at h <;> cases h
    simp [hrest, fit_inCtx (sound_showActs s _ _ _)]
  | showBlank =>
    simp only [workAct, showBlank] at h
    split at h <;> cases h
    simp [hrest, fit_inCtx (sound_showActs s _ _ _)]
  | checkCancel =>
    cases h
    split
    · simp [State.trap, WAct.payloadOk]
    · exact hrest
  | waitStart d => cases h; simp [hrest, WAct.payloadOk]
  | waitTick t0 d =>
    cases h
    rw [waitTick]
    split
    · simp [State.trap, WAct.payloadOk]
    cases d with
    | none => simp [hrest, WAct.payloadOk]
    | some n =>
      dsimp only
      split
      · exact hrest
      · simp [hrest, WAct.payloadOk]
  | waitRest d => cases h; simp [hrest, WAct.payloadOk]
  | pulsedCycle c first =>
    cases h
    rw [pulsedCycle]
    split <;> simp [WAct.payloadOk]
  | pulsedPat c k first =>
    cases h
    rw [pulsedPat]
    split <;> simp [WAct.payloadOk, PAct.payloadOk]
  | pulsedWait k =>
    simp only [workAct, pulsedWait] at h
    split at h <;> cases h
    cases s.syn.plan.disc <;> simp [hrest, WAct.payloadOk]
  | cyclicUpload =>
    cases h
    split <;> simp [hrest, fit_inCtx (sound_uploadSeq s)]
  | cyclicLight =>
    simp only [workAct] at h
    split at h <;> cases h
    simp [hrest, fit_inCtx (sound_illActivate s.cfg _)]
  | cyclicPoll last =>
    simp only [workAct, cyclicSample] at h
    split at h
    · cases h
    split at h <;> cases h <;> simp [hrest, WAct.payloadOk]
  | extFirst => cases h; simp [extLoop, WAct.payloadOk, PAct.payloadOk]
  | extNext => cases h; simp [extLoop, WAct.payloadOk, PAct.payloadOk]
  | extPoll on cnt =>
    cases h
    rw [extPoll]
    split
    · split <;> simp [showCurrent, hrest, WAct.payloadOk, PAct.payloadOk]
    split
    · simp [fit_stopDark, hrest, WAct.payloadOk]
    split
    · simp [showCurrent, hrest, WAct.payloadOk, PAct.payloadOk]
    · simp [hrest, WAct.payloadOk]
  | extPrev on cnt => cases h; exact hrest
  | extActive b => cases h; exact hrest
  | extBlank b => cases h; exact hrest
  | endPlan e => cases h; simp [fit_inCtx (sound_cleanup s), WAct.payloadOk]
  | finishPlan e => cases h; exact fit_nil

end

end Sys2Proof.WorkerAct
end

section
/-! The plan invariant under one action of the WORKER (R64, R67, R203): the action finds what it asks for, and what it
leaves to do fits the Sequence and the plan. -/

namespace Sys2Proof.WorkerPlan

open Sys2Proof.Machine Sys2Proof.Procedure Sys2Proof.WorkerAct

/-! ## The shape of the work -/

/-- The work ends with an action that is followed by more work of its own. -/
def Goes (w : List WAct) : Prop := ∃ init a, w = init ++ [a] ∧ a.goesOn

theorem goes_one {a : WAct} (h : a.goesOn) : Goes [a] := ⟨[], a, rfl, h⟩

theorem Goes.append {w : List WAct} (h : Goes w) (v : List WAct) : Goes (v ++ w) := by
  obtain ⟨init, a, rfl, ha⟩ := h
  exact ⟨v ++ init, a, (List.append_assoc ..).symm, ha⟩

theorem Goes.cons {w : List WAct} (h : Goes w) (b : WAct) : Goes (b :: w) := h.append [b]

/-- What follows an action that does not go on is no empty work. -/
theorem Goes.tail {a : WAct} {rest : List WAct} (h : Goes (a :: rest)) (ha : ¬ a.goesOn) : Goes rest := by
  obtain ⟨init, b, hw, hb⟩ := h
  cases init with
  | nil => cases hw; exact absurd hb ha
  | cons x init => cases hw; exact ⟨init, b, rfl, hb⟩

/-- An action that goes on may stand for another one. -/
theorem Goes.replace {a b : WAct} {rest : List WAct} (h : Goes (a :: rest)) (hb : b.goesOn) : Goes (b :: rest) := by
  obtain ⟨init, x, hw, hx⟩ := h
  cases init with
  | nil => cases hw; exact goes_one hb
  | cons y init => cases hw; exact ⟨b :: init, x, rfl, hx⟩

/-- The work fits the Sequence and the plan of `s`, and goes on. -/
def WorkOk (s : State) (w : List WAct) : Prop := (∀ a ∈ w, a.fits s) ∧ Goes w

theorem fits_congr {s t : State} (hpats : t.upl.seqPats = s.upl.seqPats) (hplan : t.syn.plan = s.syn.plan) (a : WAct) :
    a.fits t ↔ a.fits s := by
  cases a <;> simp only [WAct.fits, hpats, hplan]

theorem WorkOk.congr {s t : State} {w : List WAct} (h : WorkOk s w) (hpats : t.upl.seqPats = s.upl.seqPats)
    (hplan : t.syn.plan = s.syn.plan) : WorkOk t w :=
  ⟨fun a ha => (fits_congr hpats hplan a).2 (h.1 a ha), h.2⟩

section

variable {s : State} {w : List WAct}

theorem WorkOk.cons (h : WorkOk s w) {a : WAct} (ha : a.fits s) : WorkOk s (a :: w) :=
  ⟨List.forall_mem_cons.2 ⟨ha, h.1⟩, h.2.cons a⟩

theorem WorkOk.append (h : WorkOk s w) {v : List WAct} (hv : ∀ a ∈ v, a.fits s) : WorkOk s (v ++ w) :=
  ⟨List.forall_mem_append.2 ⟨hv, h.1⟩, h.2.append v⟩

@[simp] theorem workOk_cons_cons {a b : WAct} : WorkOk s (a :: b :: w) ↔ a.fits s ∧ WorkOk s (b :: w) := by
  refine ⟨fun h => ⟨h.1 a (.head _), fun c hc => h.1 c (.tail _ hc), ?_⟩, fun h => h.2.cons h.1⟩
  obtain ⟨-, init, c, hw, hc⟩ := h
  cases init with
  | nil => simp at hw
  | cons x init =>
    rw [List.cons_append, List.cons.injEq] at hw
    exact ⟨init, c, hw.2, hc⟩

theorem workOk_one {a : WAct} (hf : a.fits s) (hg : a.goesOn) : WorkOk s [a] :=
  ⟨List.forall_mem_singleton.2 hf, goes_one hg⟩

@[simp] theorem workOk_one_iff {a : WAct} : WorkOk s [a] ↔ a.fits s ∧ a.goesOn := by
  refine ⟨fun h => ⟨h.1 a (.head _), ?_⟩, fun h => workOk_one h.1 h.2⟩
  obtain ⟨-, init, c, hw, hc⟩ := h
  obtain rfl : a = c := List.singleton_inj.1 (List.append_inj' (s₁ := []) hw rfl).2
  exact hc

theorem WorkOk.tail {a : WAct} (h : WorkOk s (a :: w)) (ha : ¬ a.goesOn) : WorkOk s w :=
  ⟨fun b hb => h.1 b (.tail _ hb), h.2.tail ha⟩

/-- An action that goes on may stand for another one. -/
theorem WorkOk.replace {a b : WAct} (h : WorkOk s (a :: w)) (hf : b.fits s) (hg : b.goesOn) : WorkOk s (b :: w) :=
  ⟨List.forall_mem_cons.2 ⟨hf, fun c hc => h.1 c (.tail _ hc)⟩, h.2.replace hg⟩

theorem workOk_endPlan (e : PlanEnd) : WorkOk s [.endPlan e] := workOk_one trivial trivial

theorem workOk_stopTrap (d : Nat) : WorkOk s (stopTrap d) := (workOk_endPlan .fault).cons trivial

/-- The actions of a sound procedure do not end the plan. -/
theorem fits_inCtx {ctx : Ctx} {as : List PAct} (h : Sound as) : ∀ a ∈ inCtx ctx as, a.fits s := by
  intro a ha
  obtain ⟨x, hx, rfl⟩ := List.mem_map.1 ha
  exact (h x hx).2

theorem fits_stopDark : ∀ a ∈ stopDark s, a.fits s :=
  fits_inCtx (by simp [sound_stopProc, sound_illAllOff, PAct.payloadOk, PAct.stays])

end

/-! ## Keeping the run invariant -/

section

variable {s t : State}

theorem runOk_workOk (h : s.RunOk) : WorkOk s s.work := by
  obtain ⟨-, -, -, -, hfits, hgoes, -⟩ := h
  exact ⟨hfits, hgoes⟩

theorem runOk_planFits (h : s.RunOk) : s.PlanFits := by
  obtain ⟨-, -, -, hfits, -⟩ := h
  exact hfits

theorem runOk_phase (h : s.RunOk) : s.syn.phase ≠ .idle := by
  obtain ⟨-, -, hphase, -⟩ := h
  exact hphase

/-- The rest of the work after an action that does not go on. -/
theorem rest_ok {a : WAct} {rest : List WAct} (h : s.RunOk) (hs : s.work = a :: rest) (ha : ¬ a.goesOn) : WorkOk s rest :=
  (hs ▸ runOk_workOk h : WorkOk s (a :: rest)).tail ha

theorem head_fits {a : WAct} {rest : List WAct} (h : s.RunOk) (hs : s.work = a :: rest) : a.fits s :=
  (hs ▸ runOk_workOk h : WorkOk s (a :: rest)).1 a (.head _)

theorem runOk_index (h : s.RunOk) : s.syn.index.toNat < s.upl.seqPats.length := (runOk_planFits h).1

/-- Outside a command nothing is in flight. -/
theorem inflight_of_runOk (h : s.RunOk) {a : WAct} {rest : List WAct} (hwork : s.work = a :: rest) (ha : ¬ a.inCommand) :
    s.frm.inflight = false := by
  obtain ⟨-, -, -, -, -, -, hfl⟩ := h
  refine Bool.eq_false_iff.2 fun hf => ?_
  obtain ⟨b, rest', hw, hb⟩ := hfl hf
  rw [hwork] at hw
  cases hw
  exact ha hb

/-- The run invariant after an action, from what the action keeps and the four things it may move. -/
theorem runOk_step {a : WAct} (h : s.RunOk) (hk : Kept a s t) (hphase : t.syn.phase ≠ .idle)
    (hindex : t.syn.index.toNat < s.upl.seqPats.length) (hwork : WorkOk s t.work)
    (hfl : t.frm.inflight = true → ∃ b rest, t.work = b :: rest ∧ b.inCommand) : t.RunOk := by
  obtain ⟨hseq, hsess, -, ⟨-, hillum, hdur, hsel, hunion, hperiod⟩, -⟩ := h
  have hwork' := hwork.congr hk.seqPats hk.plan
  refine ⟨hk.seqValid.trans hseq, hk.sessValid.trans hsess, hphase, ⟨?_, ?_, ?_, ?_, ?_, ?_⟩, hwork'.1, hwork'.2, hfl⟩
  · rw [hk.seqPats]; exact hindex
  · rw [hk.seqPats, hk.plan]; exact hillum
  · rw [hk.seqPats, hk.plan]; exact hdur
  · rw [hk.seqPats, hk.plan]; exact hsel
  · rw [hk.plan]; exact hunion
  · rw [period, hk.seqPats]; exact hperiod

/-- What an action is done with: the state, what it keeps, and that the plan goes on. -/
def KeepsRunning (a : WAct) (rest : List WAct) (s : State) : Prop :=
  ∃ t, workAct a rest s = .ok t ∧ t.syn.planActive = true ∧ t.RunOk

section

variable {a : WAct} {rest : List WAct} (h : s.RunOk) (hactive : s.syn.planActive = true) (hs : s.work = a :: rest)

include h hactive hs

/-- A control point outside a command: it moves no phase to `Idle` and leaves the framer alone. -/
theorem control_goes (ha : ¬ a.inCommand) (ht : workAct a rest s = .ok t) (hfrm : t.frm = s.frm)
    (hact : t.syn.planActive = s.syn.planActive) (hphase : t.syn.phase ≠ .idle)
    (hindex : t.syn.index.toNat < s.upl.seqPats.length) (hwork : WorkOk s t.work) : KeepsRunning a rest s := by
  refine ⟨t, ht, hact.trans hactive, runOk_step h (workAct_kept rest ht) hphase hindex hwork fun hf => ?_⟩
  rw [hfrm, inflight_of_runOk h hs ha] at hf
  cases hf

/-- A control point that leaves phase and index alone. -/
theorem control_goes_of_syn (ha : ¬ a.inCommand) (ht : workAct a rest s = .ok t) (hfrm : t.frm = s.frm)
    (hact : t.syn.planActive = s.syn.planActive) (hphase : t.syn.phase = s.syn.phase) (hindex : t.syn.index = s.syn.index)
    (hwork : WorkOk s t.work) : KeepsRunning a rest s :=
  control_goes h hactive hs ha ht hfrm hact (by rw [hphase]; exact runOk_phase h)
    (by rw [hindex]; exact runOk_index h) hwork

end

/-- The work that follows an action of a procedure or a command. -/
theorem resumed_ok {rest w : List WAct} (hrest : WorkOk s rest) (hw : w = rest ∨ w = [.endPlan .fault] ∨ ∃ d, w = stopTrap d) :
    WorkOk s w := by
  obtain rfl | rfl | ⟨d, rfl⟩ := hw
  · exact hrest
  · exact workOk_endPlan .fault
  · exact workOk_stopTrap d

theorem act_goes {ctx : Ctx} {x : PAct} {rest : List WAct} (h : s.RunOk) (hactive : s.syn.planActive = true)
    (hs : s.work = .act ctx x :: rest) : KeepsRunning (.act ctx x) rest s := by
  have hrest : WorkOk s rest := rest_ok h hs (fun hg => hg)
  have hstays : x.stays := head_fits h hs
  obtain ⟨k, c, hk, hw⟩ | ⟨-, hw⟩ := workAct_act ctx x rest s
  · exact ⟨_, hw, hactive, runOk_step h (workAct_kept rest hw) (runOk_phase (s := s) h) (runOk_index (s := s) h)
      (hrest.cons trivial) fun _ => ⟨_, _, rfl, trivial⟩⟩
  · obtain ⟨w, hr, hw'⟩ := resume_eq rest (x.run ctx s)
    rw [hr] at hw
    have hacted := x.run_acted ctx s
    have hactive' : (x.run ctx s).st.syn.planActive = true := by rw [hacted.syn]; exact hactive
    have hphase : (x.run ctx s).st.syn.phase ≠ .idle := by
      by_cases hp : ∃ p, x = .phase p
      · obtain ⟨p, rfl⟩ := hp
        exact hstays
      · rw [run_syn ctx x s fun p hx => hp ⟨p, hx⟩]
        exact runOk_phase h
    refine ⟨_, hw, hactive', runOk_step h (workAct_kept rest hw) hphase ?_ (resumed_ok hrest (hw'.imp_right .inl)) fun hf => ?_⟩
    · rw [State.setWork_syn, hacted.syn]; exact runOk_index h
    · rw [State.setWork_frm, hacted.inflight (inflight_of_runOk h hs fun hx => hx)] at hf
      cases hf

/-- A failure in the middle of a command, or its reply, leaves nothing in flight. -/
theorem resumeCmd_goes {a : WAct} {rest : List WAct} {ctx : Ctx} {r : Ran} (h : s.RunOk) (hactive : s.syn.planActive = true)
    (hs : s.work = a :: rest) (ha : ¬ a.goesOn) (ht : workAct a rest s = .ok (resumeCmd ctx rest r))
    (hsyn : r.st.syn = s.syn) (hidle : r.st.frm.inflight = false) : KeepsRunning a rest s := by
  obtain ⟨w, hr, hw⟩ := resumeCmd_eq ctx rest r
  rw [hr] at ht
  refine ⟨_, ht, ?_, runOk_step h (workAct_kept rest ht) ?_ ?_ (resumed_ok (rest_ok h hs ha) hw) fun hf => ?_⟩
  · rw [State.setWork_syn, hsyn]; exact hactive
  · rw [State.setWork_syn, hsyn]; exact runOk_phase h
  · rw [State.setWork_syn, hsyn]; exact runOk_index h
  · rw [State.setWork_frm, hidle] at hf
    cases hf

theorem out_goes {ctx : Ctx} {cls : Cls} {k : Nat} {rest : List WAct} (h : s.RunOk) (hactive : s.syn.planActive = true)
    (hs : s.work = .out ctx cls k :: rest) : KeepsRunning (.out ctx cls k) rest s := by
  obtain ⟨p, b, -, hb, hw⟩ | ⟨p, -, hw⟩ := workOut_cases ctx rest s cls k
  · have ht : workAct (.out ctx cls k) rest s = .ok ((s.setPorts p).setWork (b :: rest)) := congrArg Except.ok hw
    have hrest : WorkOk s rest := rest_ok h hs (fun hg => hg)
    have hbok : b.fits s ∧ b.inCommand := by obtain rfl | rfl := hb <;> exact ⟨trivial, trivial⟩
    exact ⟨_, ht, hactive, runOk_step (s := s) h (workAct_kept rest ht) (runOk_phase (s := s) h) (runOk_index (s :=
        s) h) (hrest.cons hbok.1)
      fun _ => ⟨_, _, rfl, hbok.2⟩⟩
  · refine resumeCmd_goes h hactive hs (fun hg => hg) (congrArg Except.ok hw) ?_ ?_
    · exact (onFailure_onlySends ctx false _).syn
    · rw [onFailure_frm]; rfl

theorem inp_goes {ctx : Ctx} {cls : Cls} {rest : List WAct} (h : s.RunOk) (hactive : s.syn.planActive = true)
    (hs : s.work = .inp ctx cls :: rest) : KeepsRunning (.inp ctx cls) rest s := by
  have hspec := recvReply_spec cls s
  have honly := hspec.only
  refine resumeCmd_goes h hactive hs (fun hg => hg) (rfl : workAct (.inp ctx cls) rest s = _) ?_ ?_
  · rw [(cmdEnd_onlySends ctx _).syn, honly]; rfl
  · rw [cmdEnd_frm]; exact hspec.idle

/-! ## Procedures of the plan's mode -/

/-- `modeWork` finds the selection it asks for, and its work fits. -/
theorem modeWork_ok (h : s.RunOk) : ∃ w, modeWork s = .ok w ∧ WorkOk s w := by
  obtain ⟨-, -, -, ⟨hindex, -, -, hsel, -⟩, -⟩ := h
  have hpos : 0 < s.upl.seqPats.length := Nat.zero_lt_of_lt hindex
  rw [modeWork]
  rcases hm : s.syn.plan.mode with - | - | - | -
  · obtain ⟨k, hk, hlt⟩ := hsel hm
    rw [hk]
    exact ⟨_, rfl, by simp [WAct.fits, PAct.stays, WAct.goesOn, hlt]⟩
  · have htrack : WorkOk s [.nowStep true, .pos 0 0, .act .fault (.push (.display 0)), .act .fault (.phase .run),
        .checkCancel, .cyclicPoll 0] := by simp [WAct.fits, PAct.stays, WAct.goesOn, hpos]
    have hplay := htrack.append (fits_inCtx (ctx := .fault) (sound_startProc s.cfg))
    have hlight : ∀ a ∈ [.act .fault (.phase .s3), .cyclicUpload, .act .fault (.phase .s4), .cyclicLight,
        .act .fault (.phase .s5)], WAct.fits s a := by simp [WAct.fits, PAct.stays, hm]
    exact ⟨_, rfl, by simpa [List.append_assoc] using (hplay.append hlight).append fits_stopDark⟩
  · exact ⟨_, rfl, workOk_one hm trivial⟩
  · exact ⟨_, rfl, ((workOk_one (a := .extFirst) trivial trivial).append fits_stopDark).cons hpos⟩

theorem extLoop_ok (s u : State) (on : Bool) (cnt : U32) : WorkOk s (extLoop on cnt u) := by
  simp [extLoop, WAct.fits, PAct.stays, WAct.goesOn]

/-- The index after a step of `RunExt` is an index (R200). -/
theorem advanceIndex_lt (hpos : 0 < s.upl.seqPats.length) : s.advanceIndex.syn.index.toNat < s.upl.seqPats.length := by
  have hlt := Nat.mod_lt (s.syn.index.toNat + 1) hpos
  refine lt_of_le_of_lt ?_ hlt
  rw [State.advanceIndex, State.setSyn_syn, BitVec.toNat_ofNat]
  exact Nat.mod_le _ _

theorem extPoll_goes {on : Bool} {cnt : U32} {rest : List WAct} (h : s.RunOk) (hactive : s.syn.planActive = true)
    (hs : s.work = .extPoll on cnt :: rest) : KeepsRunning (.extPoll on cnt) rest s := by
  have hindex := runOk_index h
  have hphase := runOk_phase h
  have hprev : WorkOk s (.extPrev on cnt :: rest) := (rest_ok h hs fun hg => hg).cons trivial
  have hin : ¬ (WAct.extPoll on cnt).inCommand := fun hx => hx
  have ht : workAct (.extPoll on cnt) rest s = .ok (extPoll on cnt rest s) := rfl
  by_cases hrise : s.syn.extPrevOnoff = false ∧ on = true
  · rw [extPoll, if_pos hrise] at ht
    refine control_goes_of_syn h hactive hs hin ht rfl rfl rfl rfl ((hprev.cons (a := .extActive true) trivial).append ?_)
    split <;> simp [showCurrent, WAct.fits, PAct.stays, hindex]
  by_cases hfall : s.syn.extPrevOnoff = true ∧ on = false
  · rw [extPoll, if_neg hrise, if_pos hfall] at ht
    exact control_goes_of_syn h hactive hs hin ht rfl rfl rfl rfl (((hprev.cons (a := .extBlank false) trivial).cons
      (a := .extActive false) trivial).append fits_stopDark)
  by_cases hnext : on = true ∧ s.syn.extActive = true ∧ cnt.toNat > s.syn.extPrevCnt.toNat
  · rw [extPoll, if_neg hrise, if_neg hfall, if_pos hnext] at ht
    dsimp only at ht
    by_cases hblank : s.syn.extBlank = true
    · rw [if_pos hblank] at ht
      exact control_goes_of_syn h hactive hs hin ht rfl rfl rfl rfl (hprev.append (by
        simp [showCurrent, WAct.fits, PAct.stays, hindex]))
    · rw [if_neg hblank] at ht
      have hadv := advanceIndex_lt (Nat.zero_lt_of_lt hindex)
      exact control_goes h hactive hs hin ht rfl rfl hphase hadv (hprev.append (by
        simpa [showCurrent, WAct.fits, PAct.stays] using hadv))
  · rw [extPoll, if_neg hrise, if_neg hfall, if_neg hnext] at ht
    exact control_goes_of_syn h hactive hs hin ht rfl rfl rfl rfl hprev

theorem cyclicPoll_goes {last : Nat} {rest : List WAct} (h : s.RunOk) (hactive : s.syn.planActive = true)
    (hs : s.work = .cyclicPoll last :: rest) : KeepsRunning (.cyclicPoll last) rest s := by
  have hin : ¬ (WAct.cyclicPoll last).inCommand := fun hx => hx
  have hperiod : period (now s).2 ≠ 0 := by
    obtain ⟨-, -, -, ⟨-, -, -, -, -, hp⟩, -⟩ := h
    exact Nat.ne_of_gt hp
  have hall : WorkOk s (.cyclicPoll last :: rest) := hs ▸ runOk_workOk h
  have hpoll : ∀ ex, WorkOk s (.waitStart (some s.cfg.pollMs) :: .checkCancel :: .cyclicPoll ex :: rest) := fun ex =>
    (WorkOk.cons (a := .checkCancel) (hall.replace (b := .cyclicPoll ex) trivial trivial)
      trivial).cons trivial
  have ht : workAct (.cyclicPoll last) rest s = cyclicSample last
    (BitVec.ofNat 64 ((now s).1.toNat - s.syn.tStep.toNat)) rest (now s).2 := rfl
  generalize BitVec.ofNat 64 ((now s).1.toNat - s.syn.tStep.toNat) = el at ht
  rw [cyclicSample, if_neg hperiod] at ht
  dsimp only at ht
  rcases hc : cyclesReached (now s).2.syn.cycles (1000 * el.toNat / period (now s).2) with - | n
  · rw [hc] at ht
    dsimp only at ht
    split at ht
    · exact control_goes_of_syn h hactive hs hin ht rfl rfl rfl rfl (hpoll _)
    · exact control_goes_of_syn h hactive hs hin ht (push_frm _ _) (by rw [State.setWork_syn, push_syn]; rfl)
        (by rw [State.setWork_syn, push_syn]; rfl) (by rw [State.setWork_syn, push_syn]; rfl) (hpoll _)
  · rw [hc] at ht
    exact control_goes_of_syn h hactive hs hin ht (push_frm _ _) (by rw [State.setWork_syn, push_syn]; rfl)
      (by rw [State.setWork_syn, push_syn]; rfl) (by rw [State.setWork_syn, push_syn]; rfl) (workOk_endPlan .done)

theorem waitTick_goes {t0 : U64} {d : Option Nat} {rest : List WAct} (h : s.RunOk) (hactive : s.syn.planActive = true)
    (hs : s.work = .waitTick t0 d :: rest) : KeepsRunning (.waitTick t0 d) rest s := by
  have hin : ¬ (WAct.waitTick t0 d).inCommand := fun hx => hx
  have hrest : WorkOk s rest := rest_ok h hs fun hg => hg
  have ht : workAct (.waitTick t0 d) rest s = .ok (waitTick t0 d rest s) := rfl
  rw [waitTick] at ht
  split at ht
  · exact control_goes_of_syn h hactive hs hin ht rfl rfl rfl rfl (workOk_endPlan _)
  cases d with
  | none => exact control_goes_of_syn h hactive hs hin ht rfl rfl rfl rfl (hrest.cons trivial)
  | some n =>
    dsimp only at ht
    split at ht
    · exact control_goes_of_syn h hactive hs hin ht rfl rfl rfl rfl hrest
    · exact control_goes_of_syn h hactive hs hin ht rfl rfl rfl rfl (hrest.cons trivial)

theorem pulsedPat_goes {c : U32} {k : Nat} {first : Bool} {rest : List WAct} (h : s.RunOk) (hactive : s.syn.planActive = true)
    (hs : s.work = .pulsedPat c k first :: rest) : KeepsRunning (.pulsedPat c k first) rest s := by
  have hin : ¬ (WAct.pulsedPat c k first).inCommand := fun hx => hx
  have hmode : s.syn.plan.mode = .pulsed := head_fits h hs
  have ht : workAct (.pulsedPat c k first) rest s = .ok (pulsedPat c k first s) := rfl
  rw [pulsedPat] at ht
  split at ht
  · rename_i hk
    have hpos : (BitVec.ofNat 16 k).toNat < s.upl.seqPats.length := by
      rw [BitVec.toNat_ofNat]; exact (Nat.mod_le _ _).trans_lt hk
    refine control_goes_of_syn h hactive hs hin ht rfl rfl rfl rfl ?_
    simpa [WAct.fits, PAct.stays, WAct.goesOn, hk, hmode] using hpos
  · exact control_goes_of_syn h hactive hs hin ht rfl rfl rfl rfl (workOk_one hmode trivial)

/-! ## Every action but the last -/

/-- An action of a running plan, but for the last one, finds what it asks for and keeps the run invariant. -/
theorem workAct_goes {a : WAct} {rest : List WAct} (h : s.RunOk) (hactive : s.syn.planActive = true) (hs : s.work = a :: rest)
    (hlast : ∀ e, a ≠ .finishPlan e) : KeepsRunning a rest s := by
  have hfits := head_fits h hs
  have hrest := rest_ok h hs
  have hphase := runOk_phase h
  cases a with
  | act ctx x => exact act_goes h hactive hs
  | out ctx cls k => exact out_goes h hactive hs
  | inp ctx cls => exact inp_goes h hactive hs
  | setup =>
    by_cases hm : s.ses.modeKnown = false ∨ s.ses.mode ≠ s.cfg.valModePotf
    · have ht : workAct .setup rest s = .ok ((s.setSyn { s.syn with phase := .setup }).setWork
          (inCtx .fault (modeProc s.cfg s.cfg.valModePotf) ++ [.runMode])) := if_pos hm
      exact control_goes h hactive hs (fun hx => hx) ht rfl rfl (show Phase.setup ≠ .idle by decide) (runOk_index (s := s) h)
        ((workOk_one (a := .runMode) trivial trivial).append (fits_inCtx (sound_modeProc s.cfg _)))
    · have ht : workAct .setup rest s = .ok ((s.setSyn { s.syn with phase := .setup }).setWork [.runMode]) := if_neg hm
      exact control_goes h hactive hs (fun hx => hx) ht rfl rfl (show Phase.setup ≠ .idle by decide) (runOk_index (s := s) h)
        (workOk_one trivial trivial)
  | runMode =>
    obtain ⟨w, hm, hw⟩ := modeWork_ok h
    have ht : workAct .runMode rest s = .ok (s.setWork w) := by rw [workAct, hm]; rfl
    exact control_goes_of_syn h hactive hs (fun hx => hx) ht rfl rfl rfl rfl hw
  | pos c i => exact control_goes h hactive hs (fun hx => hx) rfl rfl rfl hphase hfits (hrest fun hg => hg)
  | nowPlan => exact control_goes_of_syn h hactive hs (fun hx => hx) rfl rfl rfl rfl rfl (hrest fun hg => hg)
  | nowStep plan => exact control_goes_of_syn h hactive hs (fun hx => hx) rfl rfl rfl rfl rfl (hrest fun hg => hg)
  | showStep k =>
    have hk : k < s.syn.plan.illum.length := by
      obtain ⟨-, hillum, -⟩ := runOk_planFits h
      rw [hillum]; exact hfits
    have ht : workAct (.showStep k) rest s = .ok (s.setWork (inCtx .fault (showActs s (s.upl.seqPats[k]'hfits).toPatIn
        (s.syn.plan.illum[k]'hk) (BitVec.ofNat 16 k)) ++ rest)) := by
      rw [workAct, showStep, List.getElem?_eq_getElem hfits, List.getElem?_eq_getElem hk]
    exact control_goes_of_syn h hactive hs (fun hx => hx) ht rfl rfl rfl rfl
      ((hrest fun hg => hg).append (fits_inCtx (sound_showActs s _ _ _)))
  | showBlank =>
    obtain ⟨p, ps, hp⟩ := List.exists_cons_of_length_pos (Nat.zero_lt_of_lt (runOk_index h))
    have ht : workAct .showBlank rest s
        = .ok (s.setWork (inCtx .fault (showActs s (blankPattern s.cfg p.bd) [] 0xFFFF) ++ rest)) := by
      rw [workAct, showBlank, hp]
    exact control_goes_of_syn h hactive hs (fun hx => hx) ht rfl rfl rfl rfl
      ((hrest fun hg => hg).append (fits_inCtx (sound_showActs s _ _ _)))
  | checkCancel =>
    by_cases hc : s.syn.cancel = true
    · have ht : workAct .checkCancel rest s = .ok (s.trap .cancelled) := congrArg Except.ok (if_pos hc)
      exact control_goes_of_syn h hactive hs (fun hx => hx) ht rfl rfl rfl rfl (workOk_endPlan _)
    · have ht : workAct .checkCancel rest s = .ok (s.setWork rest) := congrArg Except.ok (if_neg hc)
      exact control_goes_of_syn h hactive hs (fun hx => hx) ht rfl rfl rfl rfl (hrest fun hg => hg)
  | waitStart d =>
    exact control_goes_of_syn h hactive hs (fun hx => hx) rfl rfl rfl rfl rfl ((hrest fun hg => hg).cons trivial)
  | waitTick t0 d => exact waitTick_goes h hactive hs
  | waitRest d =>
    exact control_goes_of_syn h hactive hs (fun hx => hx) rfl rfl rfl rfl rfl ((hrest fun hg => hg).cons trivial)
  | pulsedCycle c first =>
    by_cases hc : s.syn.cycles = .finite c
    · have ht : workAct (.pulsedCycle c first) rest s = .ok (s.setWork [.endPlan .done]) := congrArg Except.ok (if_pos hc)
      exact control_goes_of_syn h hactive hs (fun hx => hx) ht rfl rfl rfl rfl (workOk_endPlan _)
    · have ht : workAct (.pulsedCycle c first) rest s = .ok (s.setWork [.pulsedPat c 0 first]) := congrArg Except.ok (if_neg hc)
      exact control_goes_of_syn h hactive hs (fun hx => hx) ht rfl rfl rfl rfl (workOk_one hfits trivial)
  | pulsedPat c k first => exact pulsedPat_goes h hactive hs
  | pulsedWait k =>
    obtain ⟨hk, hmode⟩ := hfits
    have hdur : k < s.syn.plan.durMs.length := by
      obtain ⟨-, -, hdur, -⟩ := runOk_planFits h
      rw [hdur hmode]; exact hk
    have ht : ∃ b : WAct, b.fits s ∧ workAct (.pulsedWait k) rest s = .ok (s.setWork (b :: rest)) := by
      rw [workAct, pulsedWait, List.getElem?_eq_getElem hdur]
      cases s.syn.plan.disc with
      | precisePulse => exact ⟨.waitStart (some _), trivial, rfl⟩
      | preciseTotal => exact ⟨.waitRest _, trivial, rfl⟩
    obtain ⟨b, hb, ht⟩ := ht
    exact control_goes_of_syn h hactive hs (fun hx => hx) ht rfl rfl rfl rfl ((hrest fun hg => hg).cons hb)
  | cyclicUpload =>
    refine control_goes_of_syn h hactive hs (fun hx => hx) (rfl : workAct .cyclicUpload rest s = .ok _) rfl rfl rfl rfl
      ((hrest fun hg => hg).append ?_)
    split
    · exact fun _ hx => nomatch hx
    · exact fits_inCtx (sound_uploadSeq s)
  | cyclicLight =>
    have hunion : union s.syn.plan.illum ≠ none := by
      obtain ⟨-, -, -, -, hunion, -⟩ := runOk_planFits h
      exact hunion hfits
    obtain ⟨acts, hacts⟩ := Option.ne_none_iff_exists'.1 hunion
    have ht : workAct .cyclicLight rest s = .ok (s.setWork (inCtx .fault (illActivate s.cfg acts) ++ rest)) := by
      rw [workAct, hacts]
    exact control_goes_of_syn h hactive hs (fun hx => hx) ht rfl rfl rfl rfl
      ((hrest fun hg => hg).append (fits_inCtx (sound_illActivate s.cfg acts)))
  | cyclicPoll last => exact cyclicPoll_goes h hactive hs
  | extFirst =>
    exact control_goes_of_syn h hactive hs (fun hx => hx) rfl rfl rfl rfl rfl ((extLoop_ok s _ _ _).cons trivial)
  | extNext => exact control_goes_of_syn h hactive hs (fun hx => hx) rfl rfl rfl rfl rfl (extLoop_ok s _ _ _)
  | extPoll on cnt => exact extPoll_goes h hactive hs
  | extPrev on cnt => exact control_goes_of_syn h hactive hs (fun hx => hx) rfl rfl rfl rfl rfl (hrest fun hg => hg)
  | extActive b => exact control_goes_of_syn h hactive hs (fun hx => hx) rfl rfl rfl rfl rfl (hrest fun hg => hg)
  | extBlank b => exact control_goes_of_syn h hactive hs (fun hx => hx) rfl rfl rfl rfl rfl (hrest fun hg => hg)
  | endPlan e =>
    exact control_goes_of_syn h hactive hs (fun hx => hx) rfl rfl rfl rfl rfl
      ((workOk_one (a := .finishPlan e) trivial trivial).append (fits_inCtx (sound_cleanup s)))
  | finishPlan e => exact absurd rfl (hlast e)

/-- The last action of a plan returns to idle (R203). -/
theorem finishPlan_idle {e : PlanEnd} {rest : List WAct} (h : s.RunOk) (hs : s.work = .finishPlan e :: rest) :
    (s.returnIdle e).syn.planActive = false ∧ (s.returnIdle e).IdleOk := by
  refine ⟨rfl, rfl, rfl, ?_, rfl, rfl⟩
  exact (congrArg FrmRegs.inflight (push_frm _ _)).trans (inflight_of_runOk h hs fun hx => hx)

/-! ## The plan invariant -/

/-- One action of a running plan does not fault and keeps the plan invariant. -/
theorem workAct_planInv {a : WAct} {rest : List WAct} (h : s.PlanInv) (hactive : s.syn.planActive = true)
    (hs : s.work = a :: rest) : ∃ t, workAct a rest s = .ok t ∧ t.PlanInv := by
  obtain ⟨-, hrun, -⟩ := h
  have hrunOk := hrun hactive
  by_cases hlast : ∃ e, a = .finishPlan e
  · obtain ⟨e, rfl⟩ := hlast
    obtain ⟨hoff, hidle⟩ := finishPlan_idle hrunOk hs
    have hk := workAct_kept (a := .finishPlan e) (t := s.returnIdle e) rest rfl
    obtain ⟨hseq, -⟩ := hrunOk
    exact ⟨_, rfl, fun _ => hidle, fun hon => absurd hoff (hon ▸ nofun), fun _ => hk.seqValid.trans hseq⟩
  · obtain ⟨t, ht, hon, hok⟩ := workAct_goes hrunOk hactive hs fun e he => hlast ⟨e, he⟩
    have hok' := hok
    obtain ⟨hseq, -⟩ := hok'
    exact ⟨t, ht, fun hoff => (by rw [hon] at hoff; cases hoff), fun _ => hok, fun _ => hseq⟩

/-- A state with work left has a plan running. -/
theorem planActive_of_work {a : WAct} {rest : List WAct} (h : s.PlanInv) (hs : s.work = a :: rest) :
    s.syn.planActive = true := by
  obtain ⟨hidle, -⟩ := h
  refine Bool.eq_true_of_not_eq_false fun hoff => ?_
  obtain ⟨hwork, -⟩ := hidle hoff
  rw [hwork] at hs
  cases hs

theorem runRegs_planInv (n : Nat) (h : s.PlanInv) : ∃ t, runRegs n s = .ok t ∧ t.PlanInv := by
  induction n generalizing s with
  | zero => exact ⟨s, rfl, h⟩
  | succ n ih =>
    rw [runRegs]
    rcases hs : s.work with - | ⟨a, rest⟩
    · exact ⟨s, rfl, h⟩
    dsimp only
    split
    · exact ⟨s, rfl, h⟩
    obtain ⟨t, ht, hinv⟩ := workAct_planInv h (planActive_of_work h hs) hs
    rw [ht]
    exact ih hinv

/-- A step of the WORKER does not fault and keeps the plan invariant. -/
theorem workerStep_planInv (h : s.PlanInv) : ∃ t, workerStep s = .ok t ∧ t.PlanInv := by
  rw [workerStep]
  rcases hs : s.work with - | ⟨a, rest⟩
  · exact ⟨s, rfl, h⟩
  dsimp only
  split
  · obtain ⟨t, ht, hinv⟩ := workAct_planInv h (planActive_of_work h hs) hs
    rw [ht]
    exact runRegs_planInv regBurst hinv
  · exact runRegs_planInv regBurst h

end

end Sys2Proof.WorkerPlan
end

section
/-! A turn of HOST (R64, R212): the operation that `HOP` holds is one of the 28, and what its end does to the state, to the
sizes of the registers and to the plan. -/

namespace Sys2Proof.HostTurns

open Sys2Proof.Machine Sys2Proof.Procedure Sys2Proof.WarnProc Sys2Proof.HostOps Sys2Proof.PortHistory

/-! ## What `HOP` can hold -/

/-- A decoder of operations that answers a host operation or nothing. -/
def HostOnly (x : Option (Instr × List Byte)) : Prop := ∀ i rest, x = some (i, rest) → i.kind = .hostOp

theorem HostOnly.pure {i : Instr} (hi : i.kind = .hostOp) (rest : List Byte) : HostOnly (some (i, rest)) := by
  rintro i' rest' ⟨⟩
  exact hi

theorem HostOnly.bind {α : Type} {x : Option α} {f : α → Option (Instr × List Byte)} (h : ∀ a, HostOnly (f a)) :
    HostOnly (x >>= f) := by
  intro i rest hx
  obtain ⟨a, -, ha⟩ := Option.bind_eq_some_iff.1 hx
  exact h a i rest ha

/-- No record of R70 is a wire command or a pseudo-operation. -/
theorem decodeRecord_hostOnly {op : Nat} {bs : List Byte} {x : Option (Instr × List Byte)}
    (h : decodeRecord op bs = some x) : HostOnly x := by
  unfold decodeRecord at h
  split at h <;> cases h <;> repeat' refine .bind fun ⟨_, _⟩ => ?_
  all_goals exact .pure rfl _

/-- HOST's operations are the 28 of R70. -/
theorem decode_kind {bs rest : List Byte} {i : Instr} (h : decode bs = .ok (i, rest)) : i.kind = .hostOp := by
  cases bs with
  | nil => cases h
  | cons op bs =>
    rw [decode] at h
    rcases hd : decodeRecord op.toNat bs with - | - | ⟨i', rest'⟩ <;> rw [hd] at h <;> cases h
    exact decodeRecord_hostOnly hd _ _ rfl

/-! ## A turn of HOST -/

/-- What a turn of HOST that takes an operation off `HOP` does to the state. -/
inductive HostMoved (s : State) : State → Prop
  | undefined : HostMoved s s.raiseUndefined
  | ended (u : State) (r : Res) (rec : HRec) (hw : Worked s u) (hq : s.syn.planActive = true → Quiet s u) :
      HostMoved s (u.finish r rec)
  | begun (plan : PlanRec) (hplan : s.syn.planActive = false) (hseq : s.upl.seqValid = true)
      (hval : planValidate s plan = none) (hsess : s.ses.sessValid = true) : HostMoved s (s.beginPlan plan)

theorem hostMoved_of_end {i : Instr} {s t : State} (h : HostEnd i s t) : HostMoved s t := by
  cases h with
  | refused r => exact .ended s r .none (.refl s) fun _ => .refl s
  | undefined => exact .undefined
  | ended u r rec _ _ _ hw hq => exact .ended u r rec hw hq
  | begun plan _ hplan hseq hval hsess => exact .begun plan hplan hseq hval hsess

/-- A turn of HOST leaves the state alone or takes an operation off `HOP`. -/
theorem hostTurn_cases {s t : State} (h : hostTurn s = .next t) : t = s ∨ ∃ bs, HostMoved (s.setHop bs) t := by
  rw [hostTurn] at h
  split at h
  · rename_i i rest hd
    exact .inr ⟨rest, hostMoved_of_end (hostEnd_of_exec (decode_kind hd) h)⟩
  · cases h; exact .inl rfl
  · cases h; exact .inr ⟨_, .ended _ _ _ (.refl _) fun _ => .refl _⟩
  · cases h

theorem hostTurn_ne_fault (s : State) (e : Fault) : hostTurn s ≠ .fault e := by
  rw [hostTurn]
  split
  · rename_i i rest hd
    obtain ⟨t, ht, -⟩ := exec_host_cases i (s.setHop rest) (decode_kind hd)
    rw [ht]
    exact nofun
  all_goals exact nofun

section

variable {s t : State}

theorem beginPlan_ports (s : State) (plan : PlanRec) :
    (s.beginPlan plan).ports = { s.ports with hres := some ⟨Res.ok.byte, .none⟩ } := by
  rw [State.beginPlan]
  split <;> rfl

/-- The configuration stays, the transactions are logged, `UBF` is not cleared. -/
theorem HostMoved.history (h : HostMoved s t) :
    t.cfg = s.cfg ∧ (s.host.ubf = true → t.host.ubf = true)
      ∧ ∃ q r, Logged s.ports q ∧ t.ports = { q with hres := r } := by
  cases h with
  | undefined => exact ⟨rfl, fun _ => rfl, _, _, .refl, rfl⟩
  | ended u r rec hw => exact ⟨hw.cfg, fun hu => hw.ubf.trans hu, _, _, hw.logged, rfl⟩
  | begun plan =>
    refine ⟨?_, ?_, _, _, .refl, beginPlan_ports s plan⟩
    · rw [State.beginPlan]; split <;> rfl
    · rw [State.beginPlan]; split <;> exact id

/-! ## The sizes of the registers -/

theorem HostMoved.shapeInv (h : HostMoved s t) (hs : s.ShapeInv) (ht : t.defined) : t.ShapeInv := by
  obtain ⟨hframe, hcount, hreply, hfifo, hpats, hrast, hfit⟩ := hs
  cases h with
  | undefined => cases ht
  | ended u r rec hw =>
    obtain ⟨hframe', hcount'⟩ := hw.frames ⟨hframe, hcount⟩
    have hfifo' : u.sts.fifo.length ≤ u.cfg.statusDepth := by rw [hw.cfg]; exact hw.fifo hfifo
    have hpats' : u.upl.seqPats.length ≤ max u.cfg.ceil1 u.cfg.ceil8 := by rw [hw.cfg]; exact hw.pats hpats
    have hfit' : ∀ a ∈ u.work, a.payloadOk := by rw [hw.work]; exact hfit
    exact ⟨hframe', hcount', hw.reply hreply, hfifo', hpats', hw.rasters hrast, hfit'⟩
  | begun plan =>
    have hwork : ∀ a ∈ [WAct.setup], a.payloadOk := by simp [WAct.payloadOk]
    rw [State.beginPlan]
    split <;> exact ⟨hframe, hcount, hreply, hfifo, hpats, hrast, hwork⟩

/-! ## The plan -/

/-- A validated Sequence has a first pattern, with an exposure. -/
theorem patterns_of_validate {c : Cfg} {pats : List PatIn} {rep : Repeat} {confirm : Bool}
    (h : validate c pats rep confirm = none) : pats ≠ [] ∧ ∀ p ∈ pats, 0 < p.expUs.toNat := by
  cases pats with
  | nil => cases h
  | cons p ps =>
    obtain ⟨-, -, hfit, -⟩ := Validation.validate_eq_none_iff.1 h
    refine ⟨nofun, fun q hq => ?_⟩
    obtain ⟨-, hexp, -⟩ := hfit q hq
    obtain ⟨h1, h8⟩ := Config.one_le_expMin c
    rw [leastExposure] at hexp
    split at hexp <;> omega

/-- The period of a validated Sequence is not zero (R195). -/
theorem period_pos {confirm : Bool} (h : validate s.cfg s.patsIn s.upl.seqRepeat confirm = none) : 0 < period s := by
  obtain ⟨hne, hexp⟩ := patterns_of_validate h
  have hpats : s.upl.seqPats ≠ [] := fun hnil => hne (by rw [State.patsIn, hnil]; rfl)
  obtain ⟨p, ps, hp⟩ := List.exists_cons_of_ne_nil hpats
  have hp0 : 0 < p.expUs.toNat := hexp p.toPatIn (List.mem_map_of_mem (by rw [hp]; exact .head _))
  rw [period, hp, List.map_cons, List.sum_cons]
  omega

theorem seqPats_pos {confirm : Bool} (h : validate s.cfg s.patsIn s.upl.seqRepeat confirm = none) :
    0 < s.upl.seqPats.length := by
  obtain ⟨hne, -⟩ := patterns_of_validate h
  exact List.length_pos_iff.2 fun hnil => hne (by rw [State.patsIn, hnil]; rfl)

/-- The plan that `PSTART` takes fits the Sequence (R176, R177). -/
theorem beginPlan_runOk {plan : PlanRec} (hidle : s.IdleOk) (hseq : s.upl.seqValid = true)
    (hval : planValidate s plan = none) (hsess : s.ses.sessValid = true) :
    (s.beginPlan plan).RunOk ∧ (s.beginPlan plan).syn.planActive = true := by
  obtain ⟨-, -, hinflight, -⟩ := hidle
  obtain ⟨hvalid, hsel, ⟨hsel', hdur, hillum⟩, -, hagree⟩ := Validation.planValidate_eq_none_iff.1 hval
  have hselect : plan.mode = .continuous → ∃ k, plan.sel = some k ∧ k.toNat < s.upl.seqPats.length := fun hm => by
    obtain ⟨k, hk⟩ := Option.ne_none_iff_exists'.1 fun hnone => hsel ⟨hm, hnone⟩
    exact ⟨k, hk, hsel' hm k hk⟩
  have hunion : plan.mode = .cyclic → union plan.illum ≠ none := fun hm hnone =>
    (Validation.union_eq_none_iff_not_lightAgrees plan).1 hnone (hagree hm)
  rw [State.beginPlan]
  split <;>
    exact ⟨⟨hseq, hsess, nofun, ⟨seqPats_pos hvalid, hillum, hdur, hselect, hunion, period_pos hvalid⟩,
      List.forall_mem_singleton.2 trivial, ⟨[], .setup, rfl, trivial⟩, fun hf => absurd hinflight (hf ▸ nofun)⟩, rfl⟩

/-- The run invariant looks at the upload, session and framer registers, the work and the synchronizer but for `CANCEL`. -/
theorem runOk_congr {u : State} (h : s.RunOk) (hupl : u.upl = s.upl) (hses : u.ses = s.ses) (hfrm : u.frm = s.frm)
    (hwork : u.work = s.work) (hsyn : u.syn = { s.syn with cancel := u.syn.cancel }) : u.RunOk := by
  have hplan : u.syn.plan = s.syn.plan := by rw [hsyn]
  obtain ⟨hseq, hsess, hphase, ⟨hindex, hfit⟩, hwfits, hgoes, hflight⟩ := h
  refine ⟨by rwa [hupl], by rwa [hses], by rwa [hsyn], ⟨by rwa [hupl, hsyn], ?_⟩, fun a ha => ?_, by rwa [hwork], ?_⟩
  · rw [period, hupl, hplan]; exact hfit
  · rw [hwork] at ha
    exact (WorkerPlan.fits_congr (by rw [hupl]) hplan a).2 (hwfits a ha)
  · rwa [hfrm, hwork]

theorem HostMoved.planInv (h : HostMoved s t) (hs : s.PlanInv) (ht : t.defined) : t.PlanInv := by
  obtain ⟨hidle, hrun, hisup⟩ := hs
  cases h with
  | undefined => cases ht
  | ended u r rec hw hq =>
    have hactive : u.syn.planActive = s.syn.planActive := by rw [hw.syn]
    refine ⟨fun hoff => ?_, fun hon => ?_, hw.isup hisup⟩
    · obtain ⟨hwork, hphase, hinflight, hact, hblank⟩ := hidle (hactive.symm.trans hoff)
      have hsyn := hw.syn
      exact ⟨hw.work.trans hwork, (congrArg SynRegs.phase hsyn).trans hphase, hw.inflight hinflight,
        (congrArg SynRegs.extActive hsyn).trans hact, (congrArg SynRegs.extBlank hsyn).trans hblank⟩
    · have hon' := hactive.symm.trans hon
      obtain ⟨hfrm, hupl, hses, -⟩ := hq hon'
      exact runOk_congr (u := u.finish r rec) (hrun hon') hupl hses hfrm hw.work hw.syn
  | begun plan hplan hseq hval hsess =>
    obtain ⟨hok, hon⟩ := beginPlan_runOk (hidle hplan) hseq hval hsess
    have hok' := hok
    obtain ⟨hvalid, -⟩ := hok'
    exact ⟨fun hoff => absurd hon (hoff ▸ nofun), fun _ => hok, fun _ => hvalid⟩

end

end Sys2Proof.HostTurns
end

section
/-! The rules about every step (R20, R25, R237, R239, R248): a turn of HOST, a step of the WORKER, a block reset. -/

namespace Sys2Proof.Steps

open Sys2Proof.Machine Sys2Proof.Procedure Sys2Proof.WorkerAct Sys2Proof.WarnProc Sys2Proof.HostTurns Sys2Proof.PortHistory
  Sys2Proof.Turns

/-! ## A step of the WORKER -/

section

variable {s t : State}

theorem runRegs_induct {P : State → Prop}
    (hact : ∀ a rest u v, u.work = a :: rest → workAct a rest u = .ok v → P u → P v) (n : Nat) (hs : P s)
    (h : runRegs n s = .ok t) : P t := by
  induction n generalizing s with
  | zero => cases h; exact hs
  | succ n ih =>
    rw [runRegs] at h
    split at h
    · cases h; exact hs
    · rename_i a rest hw
      split at h
      · cases h; exact hs
      · split at h
        · rename_i u hu
          exact ih (hact a rest s u hw hu hs) h
        · cases h

/-- What every action of the WORKER preserves, a step of it preserves. -/
theorem workerStep_induct {P : State → Prop}
    (hact : ∀ a rest u v, u.work = a :: rest → workAct a rest u = .ok v → P u → P v) (hs : P s)
    (h : workerStep s = .ok t) : P t := by
  rw [workerStep] at h
  split at h
  · cases h; exact hs
  · rename_i a rest hw
    split at h
    · split at h
      · rename_i u hu
        exact runRegs_induct hact _ (hact a rest s u hw hu hs) h
      · cases h
    · exact runRegs_induct hact _ hs h

/-- A step of the WORKER keeps the configuration and HOST's registers, and only adds transactions. -/
theorem workerStep_kept (h : workerStep s = .ok t) : t.cfg = s.cfg ∧ t.host = s.host ∧ s.ports.Grows t.ports := by
  refine workerStep_induct (P := fun u => u.cfg = s.cfg ∧ u.host = s.host ∧ s.ports.Grows u.ports) ?_
    ⟨rfl, rfl, .refl _⟩ h
  rintro a rest u v - hv ⟨hcfg, hhost, hgrows⟩
  have hk := workAct_kept rest hv
  exact ⟨hk.cfg.trans hcfg, hk.host.trans hhost, hgrows.trans hk.grows⟩

/-- The command that an action loads fits the frame buffer (R107). -/
theorem framesOk_cmdOf {c : Cfg} {x : PAct} {k : Cmd} (hx : x.payloadOk) (hk : cmdOf c x = some k) : FramesOk (k.frames c) := by
  cases x with
  | cmd j => cases hk; exact framesOk_frames hx
  | stopPlay => cases hk; exact framesOk_frames (payload_playCmd_le c _)
  | _ => cases hk

theorem workAct_shapeInv {a : WAct} {rest : List WAct} (hw : s.work = a :: rest) (h : workAct a rest s = .ok t)
    (hs : s.ShapeInv) : t.ShapeInv := by
  obtain ⟨hframe, hcount, hreply, hfifo, hpats, hrast, hfit⟩ := hs
  rw [hw] at hfit
  have hk := workAct_kept rest h
  have hframes : FramesOk t.frm.frameBuf := by
    obtain hsame | ⟨ctx, x, k, rfl, hx, hload⟩ := hk.frames
    · rw [hsame]; exact ⟨hframe, hcount⟩
    · rw [hload]; exact framesOk_cmdOf (hfit _ (.head _)) hx
  have hfit' := workAct_fit (fun b hb => hfit b (.tail _ hb)) h
  exact ⟨hframes.1, hframes.2, hk.reply hreply, by rw [hk.cfg]; exact hk.fifo hfifo, by rw [hk.cfg, hk.seqPats]; exact hpats,
    by rw [hk.cod]; exact hrast, hfit'⟩

theorem workerTurn_cases (h : workerTurn s = .next t) : t = s ∨ workerStep s = .ok t := by
  rw [workerTurn] at h
  split at h
  · split at h
    · cases h; exact .inr ‹_›
    · cases h
  · cases h; exact .inl rfl

theorem workerTurn_kept (h : workerTurn s = .next t) : t.cfg = s.cfg ∧ t.host = s.host ∧ s.ports.Grows t.ports := by
  obtain rfl | h := workerTurn_cases h
  · exact ⟨rfl, rfl, .refl _⟩
  · exact workerStep_kept h

theorem workerTurn_shapeInv (h : workerTurn s = .next t) (hs : s.ShapeInv) : t.ShapeInv := by
  obtain rfl | h := workerTurn_cases h
  · exact hs
  · exact workerStep_induct (P := State.ShapeInv) (fun a rest u v hw hv => workAct_shapeInv hw hv) hs h

theorem workerTurn_planInv (h : workerTurn s = .next t) (hs : s.PlanInv) : t.PlanInv := by
  obtain rfl | h := workerTurn_cases h
  · exact hs
  · obtain ⟨u, hu, hinv⟩ := WorkerPlan.workerStep_planInv hs
    obtain rfl : u = t := by injection hu.symm.trans h
    exact hinv

/-! ## A turn of HOST -/

/-- What a turn of HOST keeps, and the transactions it logs. -/
theorem hostTurn_history (h : hostTurn s = .next t) :
    t.cfg = s.cfg ∧ (s.host.ubf = true → t.host.ubf = true)
      ∧ ∃ bs q r, Logged { s.ports with hop := bs } q ∧ t.ports = { q with hres := r } := by
  obtain rfl | ⟨bs, h⟩ := hostTurn_cases h
  · exact ⟨rfl, id, t.ports.hop, t.ports, t.ports.hres, .refl, rfl⟩
  · obtain ⟨hcfg, hubf, q, r, hq, hp⟩ := h.history
    exact ⟨hcfg, hubf, bs, q, r, hq, hp⟩

theorem hostTurn_shapeInv (h : hostTurn s = .next t) (hs : s.ShapeInv) (ht : t.defined) : t.ShapeInv := by
  obtain rfl | ⟨bs, h⟩ := hostTurn_cases h
  · exact hs
  · exact h.shapeInv hs ht

theorem hostTurn_planInv (h : hostTurn s = .next t) (hs : s.PlanInv) (ht : t.defined) : t.PlanInv := by
  obtain rfl | ⟨bs, h⟩ := hostTurn_cases h
  · exact hs
  · exact h.planInv hs ht

/-! ## A step -/

/-- The ports after a turn was taken off the queue, or drawn: no transaction happened. -/
def TurnTaken (p q : Ports) : Prop := q.trace = p.trace ∧ q.clk = p.clk

/-- The four turns of a step. -/
inductive Stepped (s t : State) : Prop
  | host (p : Ports) (hp : TurnTaken s.ports p) (h : hostTurn (s.setPorts p) = .next t)
  | worker (p : Ports) (hp : TurnTaken s.ports p) (h : workerTurn (s.setPorts p) = .next t)
  | reset (ts : List Turn) (hts : s.ports.turns = .reset :: ts)
      (ht : t = (s.setPorts { s.ports with turns := ts }).blockReset)
  | resetIn (n : Nat) (ts : List Turn) (hts : s.ports.turns = .resetIn n :: ts) (u : State)
      (hu : hostTurn (s.setPorts { s.ports with turns := ts }) = .next u)
      (ht : t = (u.setPorts ((firstNew (s.setPorts { s.ports with turns := ts }) u n).foldl Ports.log
        { s.ports with turns := ts, hop := u.ports.hop })).blockReset)

theorem step_cases (h : step s = .next t) : Stepped s t := by
  rcases hts : s.ports.turns with - | ⟨turn, ts⟩
  · rw [step, State.takeTurn, hts] at h
    dsimp only at h
    split at h
    · exact .worker { s.ports with draws := s.ports.draws + 1 } ⟨rfl, rfl⟩ h
    · exact .host { s.ports with draws := s.ports.draws + 1 } ⟨rfl, rfl⟩ h
  · rw [step, BlockReset.takeTurn_of_turns_eq_cons hts] at h
    cases turn with
    | host => exact .host { s.ports with turns := ts } ⟨rfl, rfl⟩ h
    | worker => exact .worker { s.ports with turns := ts } ⟨rfl, rfl⟩ h
    | reset => cases h; exact .reset ts hts rfl
    | resetIn n =>
      rw [doTurn, hostTurnCut] at h
      split at h
      · cases h; exact .resetIn n ts hts _ ‹_› rfl
      all_goals cases h

/-- What a block reset inside an operation leaves of its transactions, and the clock after them. -/
theorem cut_ports {n : Nat} (h : hostTurn s = .next t) {evs : List PortEvent} (hevs : s.did t evs) :
    firstNew s t n = evs.take n
      ∧ s.ports.clk.toNat ≤ ((evs.take n).foldl Ports.log { s.ports with hop := t.ports.hop }).clk.toNat := by
  refine ⟨firstNew_of_did hevs n, ?_⟩
  obtain ⟨-, -, bs, q, r, hlog, hp⟩ := hostTurn_history h
  obtain ⟨evs', hq, hclk⟩ := hlog.replay
  have hsame : evs = evs' := by
    rw [State.did, hp, show ({ q with hres := r } : Ports).trace = q.trace from rfl, hq, foldl_log_trace] at hevs
    exact List.reverse_injective (List.append_cancel_right hevs.symm)
  rw [hsame]
  exact (hclk n).trans (Nat.le_of_eq (congrArg BitVec.toNat (clk_foldl_log_congr _ rfl)))

/-- HOST's operation with a block reset after `n` of its transactions (R237). -/
theorem hostTurnCut_of_hostTurn (n : Nat) (h : hostTurn s = .next t) {evs : List PortEvent} (hevs : s.did t evs) :
    hostTurnCut n s = .next (State.resetWith s.cfg
      { (evs.take n).foldl Ports.log { s.ports with hop := t.ports.hop } with hres := none }) := by
  obtain ⟨hcfg, -⟩ := hostTurn_history h
  rw [hostTurnCut, h, ← firstNew_of_did hevs n, ← hcfg]
  rfl

theorem did_of_grows (h : s.ports.Grows t.ports) : ∃ evs, s.did t evs := by
  obtain ⟨evs, hevs⟩ := h.trace
  exact ⟨evs.reverse, by rw [State.did, List.reverse_reverse]; exact hevs⟩

theorem did_of_hostTurn (h : hostTurn s = .next t) : ∃ evs, s.did t evs := by
  obtain ⟨-, -, bs, q, r, hlog, hp⟩ := hostTurn_history h
  obtain ⟨evs, hevs⟩ := hlog.grows.trace
  exact ⟨evs.reverse, by rw [State.did, List.reverse_reverse, hp]; exact hevs⟩

end

/-! ## The rules -/

/-- Settles O52. -/
theorem resetInsideOperation : Obligations.ResetInsideOperation := by
  intro s n ts i rest u evs hturn hdec hexec hdid
  have hhost : hostTurn (s.setPorts { s.ports with turns := ts }) = .next u :=
    (hostTurn_of_decode (s := s.setPorts { s.ports with turns := ts }) hdec).trans hexec
  refine ⟨{ (evs.take n).foldl Ports.log { s.ports with turns := ts, hop := u.ports.hop } with hres := none }, ?_, ?_, rfl⟩
  · exact (step_of_resetIn_turn hturn).trans (hostTurnCut_of_hostTurn n hhost hdid)
  · exact foldl_log_trace _ _

/-- Settles O53. -/
theorem stepsOnlyAddHistory : Obligations.StepsOnlyAddHistory := by
  intro s t h
  cases step_cases h with
  | host p hp h =>
    obtain ⟨hcfg, hubf, bs, q, r, hlog, hports⟩ := hostTurn_history h
    obtain ⟨evs, hevs⟩ := did_of_hostTurn h
    refine ⟨fun _ => ⟨hcfg, ?_, evs, hevs.trans (congrArg (evs.reverse ++ ·) hp.1)⟩, fun hu ht => ?_⟩
    · rw [hports, ← hp.2]; exact hlog.grows.clk
    · exact absurd (hubf hu) (ht ▸ nofun)
  | worker p hp h =>
    obtain ⟨hcfg, hhost, hgrows⟩ := workerTurn_kept h
    obtain ⟨evs, hevs⟩ := did_of_grows hgrows
    refine ⟨fun _ => ⟨hcfg, ?_, evs, hevs.trans (congrArg (evs.reverse ++ ·) hp.1)⟩, fun hu ht => ?_⟩
    · rw [← hp.2]; exact hgrows.clk
    · rw [hhost] at ht
      exact absurd hu (ht ▸ nofun)
  | reset ts hts ht =>
    subst ht
    exact ⟨fun _ => ⟨rfl, Nat.le_refl _, [], rfl⟩, fun _ _ => ⟨ts, .inl hts⟩⟩
  | resetIn n ts hts u hu ht =>
    subst ht
    obtain ⟨hcfg, -⟩ := hostTurn_history hu
    obtain ⟨evs, hevs⟩ := did_of_hostTurn hu
    obtain ⟨hfirst, hclk⟩ := cut_ports (n := n) hu hevs
    rw [hfirst]
    exact ⟨fun _ => ⟨hcfg, hclk, evs.take n, foldl_log_trace _ _⟩, fun _ _ => ⟨ts, .inr ⟨n, hts⟩⟩⟩

/-- A step to a state with `UBF = 0` from one with `UBF = 1` is a block reset (R25), and any other one starts where the
invariants are known. -/
theorem invariant_of_step {P : State → Prop} (hreset : ∀ c p, P (State.resetWith c p))
    (hports : ∀ (s : State) (p : Ports), P s → P (s.setPorts p))
    (hhost : ∀ s t : State, hostTurn s = .next t → P s → t.defined → P t)
    (hworker : ∀ s t : State, workerTurn s = .next t → P s → P t) {s t : State} (hs : s.defined → P s)
    (h : step s = .next t) (ht : t.defined) : P t := by
  cases step_cases h with
  | host p hp h =>
    have hdef : s.defined := Bool.eq_false_iff.2 fun hu => by
      obtain ⟨-, hubf, -⟩ := hostTurn_history h
      exact absurd (hubf hu) ((show t.host.ubf = false from ht) ▸ nofun)
    exact hhost _ t h (hports s p (hs hdef)) ht
  | worker p hp h =>
    obtain ⟨-, hsame, -⟩ := workerTurn_kept h
    have hdef : s.defined := (congrArg HostRegs.ubf hsame).symm.trans ht
    exact hworker _ t h (hports s p (hs hdef))
  | reset ts _ ht => rw [ht]; exact hreset _ _
  | resetIn n ts _ u _ ht => rw [ht]; exact hreset _ _

/-- Settles O54, by the case of the turn. -/
theorem shapeKept : Obligations.ShapeKept := fun _ _ =>
  invariant_of_step shapeInv_resetWith (fun _ _ h => h) (fun _ _ => hostTurn_shapeInv) fun _ _ => workerTurn_shapeInv

/-- Settles O55, by the case of the turn. -/
theorem planKept : Obligations.PlanKept := fun _ _ =>
  invariant_of_step planInv_resetWith (fun _ _ h => h) (fun _ _ => hostTurn_planInv) fun _ _ => workerTurn_planInv

theorem workerTurn_ne_fault {s : State} (hs : s.PlanInv) (e : Fault) : workerTurn s ≠ .fault e := by
  rw [workerTurn]
  split
  · obtain ⟨t, ht, -⟩ := WorkerPlan.workerStep_planInv hs
    rw [ht]
    exact nofun
  · exact nofun

theorem doTurn_ne_fault {s : State} (hs : s.PlanInv) (turn : Turn) (e : Fault) : doTurn (turn, s) ≠ .fault e := by
  cases turn with
  | host => exact hostTurn_ne_fault s e
  | worker => exact workerTurn_ne_fault hs e
  | reset => exact nofun
  | resetIn n =>
    rw [doTurn, hostTurnCut]
    split
    · exact nofun
    · rename_i e' he
      exact absurd he (hostTurn_ne_fault s e')
    · exact nofun

/-- Settles O56. -/
theorem stepsNeverFault : Obligations.StepsNeverFault := by
  intro s _ hs e
  have hports : s.takeTurn.2.PlanInv := by
    rw [State.takeTurn]
    split <;> exact hs
  exact doTurn_ne_fault hports s.takeTurn.1 e

end Sys2Proof.Steps
end

section
/-! The procedures that the WORKER runs, as the spec lists them (R148, R153, R162, R167, R169, R183, R184), and the laws of
its waits and polls (R185 to R205). -/

namespace Sys2Proof.WorkerLaws

open Sys2Proof.Machine Sys2Proof.Procedure

/-! ## The spec's lists -/

theorem uploadSeq_eq_seqList (s : State) : uploadSeq s = seqList s.cfg s.upl.seqPats s.upl.seqRepeat := rfl

/-- The one block of a single pattern has index 0 and the pattern's encoding (R148). -/
theorem uploadSingle_eq_singleList (c : Cfg) (p : PatIn) :
    uploadSingle c p = singleList c p (if p.bd = 8 then encode8 c p.raster else encode1 c [p.raster]) := by
  by_cases hbd : p.bd = 8
  · have hq : singlePattern c p = { freshPattern p with blk := blkOf 0, bitpos := c.bitpos8 } := if_pos hbd
    have hbs : compile c [singlePattern c p] = [⟨0, encode8 c p.raster⟩] := by
      rw [hq]; exact if_pos hbd
    rw [uploadSingle, hbs, hq, if_pos hbd, singleList, if_pos hbd, List.flatMap_singleton]
    rfl
  · have hq : singlePattern c p = { freshPattern p with blk := blkOf 0, bitpos := 0 } := if_neg hbd
    have hbs : compile c [singlePattern c p] = [⟨0, encode1 c [p.raster]⟩] := by
      rw [hq]; exact if_neg hbd
    rw [uploadSingle, hbs, hq, if_neg hbd, singleList, if_neg hbd, List.flatMap_singleton]
    rfl

theorem showActs_eq_showList (s : State) (p : PatIn) (acts : List Activation) (shown : U16) :
    showActs s p acts shown = showList s p acts shown := by
  rw [showActs, showList, uploadSingle_eq_singleList]
  simp [stopProc, stopList, illAllOff, darkList, illActivate, lightList, startProc, startList, errqProc]

/-! ## Waits -/

section

variable (s : State) (rest : List WAct)

theorem waitTick_of_cancel (h : s.syn.cancel = true) (t0 : U64) (d : Option Nat) :
    waitTick t0 d rest s = { s with work := [.endPlan .cancelled] } := if_pos h

theorem waitTick_of_not_cancel (h : s.syn.cancel = false) (t0 : U64) (n : Nat) :
    waitTick t0 (some n) rest s = if s.nextClk.toNat ≥ t0.toNat + n then (now s).2.setWork rest
      else ((now s).2.log (.sleep (min s.cfg.tickMs (t0.toNat + n - s.nextClk.toNat)))).setWork
        (.waitTick t0 (some n) :: rest) := by
  rw [waitTick, if_neg (h ▸ nofun)]
  rfl

theorem waitTick_none (h : s.syn.cancel = false) (t0 : U64) :
    waitTick t0 none rest s = ((now s).2.log (.sleep s.cfg.tickMs)).setWork (.waitTick t0 none :: rest) := by
  rw [waitTick, if_neg (h ▸ nofun)]
  rfl

theorem workAct_runMode {w : List WAct} (h : modeWork s = .ok w) : workAct .runMode rest s = .ok { s with work := w } := by
  rw [workAct, h]
  rfl

end

/-- Settles O41. -/
theorem waitLaws : Obligations.WaitLaws := by
  refine ⟨fun s c k i first rest => ⟨fun hm => ?_, fun hc => ?_, fun hc => ?_, fun hk => ?_, fun hk => ?_, rfl, _, rfl, rfl, rfl⟩,
    fun s k d rest hd => ⟨fun hdisc => ?_, fun hdisc => ⟨?_, _, rfl, rfl⟩⟩, fun s rest => ⟨fun hc => ?_, fun hc => ?_⟩,
    fun s t0 n rest => ⟨fun hc d => ?_, fun hc ht => ?_, fun hc ht => ?_, fun hc => ?_, fun d => ⟨_, rfl, rfl, rfl⟩⟩⟩
  · exact workAct_runMode s rest (by rw [modeWork, hm])
  · exact congrArg Except.ok (if_pos hc)
  · exact congrArg Except.ok (if_neg hc)
  · exact congrArg Except.ok (if_pos hk)
  · exact congrArg Except.ok (if_neg (Nat.not_lt.2 hk))
  · rw [workAct, pulsedWait, hd, hdisc]; rfl
  · rw [workAct, pulsedWait, hd, hdisc]; rfl
  · exact congrArg Except.ok (if_pos hc)
  · exact congrArg Except.ok (if_neg (hc ▸ nofun))
  · exact congrArg Except.ok (waitTick_of_cancel s rest hc t0 d)
  · refine ⟨_, congrArg Except.ok ((waitTick_of_not_cancel s rest hc t0 n).trans (if_pos ht)), rfl, rfl⟩
  · refine ⟨_, congrArg Except.ok ((waitTick_of_not_cancel s rest hc t0 n).trans (if_neg (Nat.not_le.2 ht))), rfl, rfl⟩
  · exact ⟨_, congrArg Except.ok (waitTick_none s rest hc t0), rfl, rfl⟩

/-! ## `RunExt` -/

theorem sampleTrg_of_answer {s : State} {on : Bool} {cnt : U32} {as : List (Bool × U32)} (h : s.ports.trgAns = (on, cnt) :: as) :
    sampleTrg s = ((on, cnt), s.setPorts { s.ports with trgAns := as, trace := .trg on cnt :: s.ports.trace }) := by
  simp only [sampleTrg, State.log, Ports.log, PortEvent.consume, drawAns, popAns, h]

section

variable (s : State) (on : Bool) (cnt : U32) (rest : List WAct)

theorem extPoll_of_rise (hprev : s.syn.extPrevOnoff = false) (hon : on = true) :
    extPoll on cnt rest s = s.setWork ((if s.syn.plan.blankFirst then [.showBlank, .extBlank true] else showCurrent s)
      ++ .extActive true :: .extPrev on cnt :: rest) := if_pos ⟨hprev, hon⟩

theorem extPoll_of_fall (hprev : s.syn.extPrevOnoff = true) (hon : on = false) :
    extPoll on cnt rest s = s.setWork (stopDark s ++ .extActive false :: .extBlank false :: .extPrev on cnt :: rest) := by
  rw [extPoll, if_neg (by rw [hprev]; nofun), if_pos ⟨hprev, hon⟩]

theorem extPoll_of_count (hprev : s.syn.extPrevOnoff = true) (hon : on = true) (hactive : s.syn.extActive = true)
    (hcnt : s.syn.extPrevCnt.toNat < cnt.toNat) {t : State}
    (ht : t = if s.syn.extBlank then s.setSyn { s.syn with extBlank := false } else s.advanceIndex) :
    extPoll on cnt rest s = t.setWork (showCurrent t ++ .extPrev on cnt :: rest) := by
  rw [extPoll, if_neg (by rw [hprev]; nofun), if_neg (by rw [hon]; nofun), if_pos ⟨hon, hactive, hcnt⟩, ht]

theorem extPoll_of_still (h : s.syn.extPrevOnoff = false ∧ on = false ∨ s.syn.extPrevOnoff = true ∧ on = true
    ∧ (s.syn.extActive = false ∨ cnt.toNat ≤ s.syn.extPrevCnt.toNat)) :
    extPoll on cnt rest s = s.setWork (.extPrev on cnt :: rest) := by
  have hrise : ¬ (s.syn.extPrevOnoff = false ∧ on = true) := by grind
  have hfall : ¬ (s.syn.extPrevOnoff = true ∧ on = false) := by grind
  have hcount : ¬ (on = true ∧ s.syn.extActive = true ∧ cnt.toNat > s.syn.extPrevCnt.toNat) := by grind
  rw [extPoll, if_neg hrise, if_neg hfall, if_neg hcount]

end

/-- Settles O42. -/
theorem extPollLaw : Obligations.ExtPollLaw := by
  refine ⟨fun s rest hm => ?_, fun s on cnt as rest htrg => ⟨?_, ?_⟩, fun s rest => ⟨_, rfl, rfl, rfl⟩,
    fun s p ps rest hp => ?_, fun s on b cnt rest => ⟨rfl, rfl, rfl, rfl⟩, fun s on cnt rest =>
    ⟨fun hprev hon hfirst => ?_, fun hprev hon hfirst => ?_, fun hprev hon => ?_, fun hprev hon hactive hcnt => ?_,
      extPoll_of_still s on cnt rest⟩⟩
  · exact workAct_runMode s rest (by rw [modeWork, hm]; rfl)
  · rw [workAct, sampleTrg_of_answer htrg]; rfl
  · rw [workAct, sampleTrg_of_answer htrg]; rfl
  · rw [workAct, showBlank, hp, ← showActs_eq_showList]; rfl
  · rw [extPoll_of_rise s on cnt rest hprev hon, if_neg (hfirst ▸ nofun)]; rfl
  · rw [extPoll_of_rise s on cnt rest hprev hon, if_pos hfirst]; rfl
  · rw [extPoll_of_fall s on cnt rest hprev hon, List.append_assoc]; rfl
  · by_cases hblank : s.syn.extBlank = true
    · refine ⟨_, _, (extPoll_of_count s on cnt rest hprev hon hactive hcnt (if_pos hblank).symm), fun _ => ⟨rfl, rfl⟩,
        fun hb => absurd hblank (hb ▸ nofun)⟩
    · refine ⟨s.advanceIndex.syn.cycle, s.advanceIndex.syn.index,
        (extPoll_of_count s on cnt rest hprev hon hactive hcnt (if_neg hblank).symm).trans ?_, fun hb => absurd hb hblank,
        fun _ => ⟨rfl, rfl⟩⟩
      rw [← Bool.eq_false_of_not_eq_true hblank]
      rfl

/-! ## `RunCyclic` -/

section

variable {s : State} {last : Nat} {el : U64} {rest : List WAct}

/-- The count of a finite repeat is reached (R195). -/
theorem cyclicSample_of_reached {n : U32} (hperiod : 0 < period s) (hcycles : s.syn.cycles = .finite n)
    (hn : n.toNat ≤ 1000 * el.toNat / period s) :
    cyclicSample last el rest s
      = .ok (((s.setSyn { s.syn with cycle := n }).push (.cyclic el n)).setWork [.endPlan .done]) := by
  have hreached : cyclesReached s.syn.cycles (1000 * el.toNat / period s) = some n := by
    rw [hcycles]; exact if_pos hn
  rw [cyclicSample, if_neg (Nat.ne_of_gt hperiod)]
  dsimp only
  rw [hreached]

/-- The count is not reached, or there is none (R196). -/
theorem cyclicSample_of_not_reached {ex : Nat} (hperiod : 0 < period s) (hex : ex = 1000 * el.toNat / period s)
    (h : s.syn.cycles = .inf ∨ ∃ n : U32, s.syn.cycles = .finite n ∧ ex < n.toNat) :
    cyclicSample last el rest s = .ok ((if ex = last then s
      else (s.setSyn { s.syn with cycle := BitVec.ofNat 32 ex }).push (.cyclic el (BitVec.ofNat 32 ex))).setWork
        (.waitStart (some s.cfg.pollMs) :: .checkCancel :: .cyclicPoll ex :: rest)) := by
  have hreached : cyclesReached s.syn.cycles ex = none := by
    obtain hinf | ⟨n, hn, hlt⟩ := h
    · rw [hinf]; rfl
    · rw [hn]; exact if_neg (Nat.not_le.2 hlt)
  rw [cyclicSample, if_neg (Nat.ne_of_gt hperiod), ← hex]
  dsimp only
  rw [hreached]

end

/-- Settles O43. -/
theorem cyclicSampleLaw : Obligations.CyclicSampleLaw := by
  refine ⟨fun s rest => ⟨fun hm => ?_, fun hup => ?_, fun hup => ?_, fun acts hacts => ?_⟩,
    fun s last rest => ⟨(now s).2, rfl, rfl, rfl⟩,
    fun s last ex el rest hperiod hex => ⟨fun n hcycles hn => ?_, fun h => ?_⟩⟩
  · exact workAct_runMode s rest (by rw [modeWork, hm]; rfl)
  · rw [workAct, if_pos hup]; rfl
  · rw [workAct, if_neg (hup ▸ nofun), uploadSeq_eq_seqList]; rfl
  · rw [workAct, hacts]; rfl
  · exact ⟨_, cyclicSample_of_reached hperiod hcycles (hex ▸ hn), rfl, push_syn _ _, push_sts_congr _ rfl rfl⟩
  · refine ⟨_, cyclicSample_of_not_reached hperiod hex h, rfl, fun hl => ?_, fun hl => ?_⟩
    · rw [if_pos hl]; exact ⟨rfl, rfl⟩
    · rw [if_neg hl]; exact ⟨push_syn _ _, push_sts_congr _ rfl rfl⟩

end Sys2Proof.WorkerLaws
end

section
/-! How a plan is set up, shown and ended (R182, R184, R185, R203, R204, R223, R224), and what the failures of its commands
and messages leave. -/

namespace Sys2Proof.PlanEnds

open Sys2Proof.Machine Sys2Proof.Procedure Sys2Proof.WorkerLaws Sys2Proof.Turns

/-! ## Transactions by their answer -/

section

variable {s : State}

theorem usbOut_of_answer {a : OutAns} {outs : List OutAns} (f : Frame) (h : s.ports.usbOutAns = a :: outs) :
    usbOut f s = (a, s.setPorts { s.ports with usbOutAns := outs, trace := .usbOut f a :: s.ports.trace }) := by
  simp only [usbOut, State.log, Ports.log, PortEvent.consume, drawAns, popAns, h]

theorem usbIn_of_answer {a : InAns} {ins : List InAns} (cls : Cls) (h : s.ports.usbInAns = a :: ins) :
    usbIn cls s = (fitReply a, s.setPorts { s.ports with
      usbInAns := ins, trace := .usbIn (replyTimeout s.cfg cls) (fitReply a) :: s.ports.trace }) := by
  simp only [usbIn, State.log, Ports.log, PortEvent.consume, drawAns, popAns, h]

/-- How a reply or a message failed: a timeout or an I/O error. -/
def FailedReply (a : InAns) (timedOut : Bool) : Prop := a = .timeout ∧ timedOut = true ∨ a = .ioError ∧ timedOut = false

theorem exists_failedReply {a : InAns} (h : a = .timeout ∨ a = .ioError) : ∃ b, FailedReply a b := by
  obtain h | h := h
  · exact ⟨true, .inl ⟨h, rfl⟩⟩
  · exact ⟨false, .inr ⟨h, rfl⟩⟩

/-- The end of a command of the WORKER whose reply failed (R109). -/
theorem workInp_of_failed {a : InAns} {b : Bool} {ins : List InAns} (ctx : Ctx) (cls : Cls) (rest : List WAct)
    (ha : FailedReply a b) (h : s.ports.usbInAns = a :: ins) :
    workInp ctx cls rest s = resumeCmd ctx rest (onFailure ctx b (s.setPorts { s.ports with
      usbInAns := ins, trace := .usbIn (replyTimeout s.cfg cls) a :: s.ports.trace }).dropReply) := by
  rw [workInp, recvReply, usbIn_of_answer cls h]
  obtain ⟨rfl, rfl⟩ | ⟨rfl, rfl⟩ := ha <;> rfl

/-- The end of a command of the WORKER one of whose frames failed (R109). -/
theorem workOut_of_failed {i : Nat} {f : Frame} {outs : List OutAns} (ctx : Ctx) (cls : Cls) (rest : List WAct)
    (hf : s.frm.frameBuf[i]? = some f) (h : s.ports.usbOutAns = .ioError :: outs) :
    workOut ctx cls i rest s = resumeCmd ctx rest (onFailure ctx false (s.setPorts { s.ports with
      usbOutAns := outs, trace := .usbOut f .ioError :: s.ports.trace }).dropReply) := by
  rw [workOut, hf]
  dsimp only
  rw [usbOut_of_answer f h]

/-- A message that failed (R183). -/
theorem workAct_ill_of_failed {a : IllAns} {b : Bool} {as : List IllAns} (ctx : Ctx) (m : IllMsg) (rest : List WAct)
    (ha : a = .timeout ∧ b = true ∨ a = .ioError ∧ b = false) (hill : s.cfg.illPresent = true)
    (h : s.ports.illAns = a :: as) :
    workAct (.act ctx (.ill m)) rest s = .ok (resume rest (onFailure ctx b (s.setPorts { s.ports with
      illAns := as, trace := .ill m (m.line s.cfg.illKw) s.cfg.illTimeoutMs a :: s.ports.trace }))) := by
  rw [workAct, PAct.run, illMsg, illSend_of_answer m hill h]
  · obtain ⟨rfl, rfl⟩ | ⟨rfl, rfl⟩ := ha <;> rfl
  all_goals exact nofun

/-- A command that fails in a plan's step leaves the end of the plan, after the settle wait of a Stop (R167, R218). -/
theorem resumeCmd_of_fault {ctx : Ctx} {left : List WAct}
    (h : ctx = .fault ∧ left = [] ∨ ∃ d, ctx = .stop d ∧ left = [.act .fault (.settle d)]) (rest : List WAct) (b : Bool)
    (t : State) : resumeCmd ctx rest (onFailure ctx b t) = t.setWork (left ++ [.endPlan .fault]) := by
  obtain ⟨rfl, rfl⟩ | ⟨d, rfl, rfl⟩ := h <;> rfl

/-- A failure in the cleanup pushes its warning, and the cleanup goes on (R113, R224). -/
theorem resume_of_warn (rest : List WAct) (b : Bool) {w : Byte} (hw : w = if b then 0x11 else 0x12) (s t : State)
    (hsts : t.sts = s.sts) (hcfg : t.cfg = s.cfg) :
    resume rest (onFailure .warn b t) = (t.setSts (s.push (.warning w)).sts).setWork rest := by
  have hpush : t.push (.warning w) = t.setSts (s.push (.warning w)).sts :=
    (push_spec t _).1.trans (congrArg t.setSts (push_sts_congr _ hsts hcfg))
  rw [← hpush]
  cases b <;> subst hw <;> rfl

end

/-- The return to idle writes the synchronizer's registers, one event and no more (R203). -/
theorem returnIdle_eq (s : State) (e : PlanEnd) :
    s.returnIdle e = { s with
      syn := { s.syn with lastFault := e.byte, phase := .idle, extActive := false, extBlank := false, planActive := false }
      sts := (s.push e.event).sts, work := [] } := by
  have hpush : (s.setSyn { s.syn with lastFault := e.byte }).push e.event
      = (s.setSyn { s.syn with lastFault := e.byte }).setSts (s.push e.event).sts :=
    (push_spec _ _).1.trans (congrArg _ (push_sts_congr _ rfl rfl))
  rw [State.returnIdle, hpush]
  rfl

/-- Settles O44. -/
theorem planEnding : Obligations.PlanEnding := by
  refine ⟨fun s rest => ⟨fun hm => ?_, fun hk hm => ?_, fun k hm hsel => ?_⟩, fun s k p acts rest hp hacts => ?_,
    fun s ctx cls i f rest outs ins a left hctx => ⟨fun hf hans => ?_, fun ha hans => ?_⟩,
    fun s m rest as a hill ha hans => ?_, fun s cls i f rest outs ins a w => ⟨fun hf hans => ?_, fun ha hans => ?_⟩,
    fun s m rest as a w => ⟨fun hill ha hans => ?_, fun hill => ?_⟩, fun s e rest => rfl, fun s e rest => ?_⟩
  · exact if_pos hm
  · exact if_neg (not_or.2 ⟨hk ▸ nofun, not_not.2 hm⟩)
  · exact workAct_runMode s rest (by rw [modeWork, hm]; dsimp only; rw [hsel])
  · rw [workAct, showStep, hp, hacts]
    dsimp only
    rw [showActs_eq_showList]; rfl
  · rw [workAct, workOut_of_failed ctx cls rest hf hans, resumeCmd_of_fault hctx]; rfl
  · obtain ⟨b, hb⟩ := exists_failedReply ha
    rw [workAct, workInp_of_failed ctx cls rest hb hans, resumeCmd_of_fault hctx]
    exact ⟨_, rfl, rfl, rfl, rfl, rfl, rfl, rfl, rfl, rfl⟩
  · obtain ha | ha := ha
    · exact workAct_ill_of_failed .fault m rest (.inl ⟨ha, rfl⟩) hill hans
    · exact workAct_ill_of_failed .fault m rest (.inr ⟨ha, rfl⟩) hill hans
  · rw [workAct, workOut_of_failed .warn cls rest hf hans]
    exact congrArg Except.ok (resume_of_warn rest false rfl s _ rfl rfl)
  · obtain ⟨ha, hw⟩ | ⟨ha, hw⟩ := ha
    · rw [workAct, workInp_of_failed .warn cls rest (.inl ⟨ha, rfl⟩) hans]
      exact congrArg Except.ok (resume_of_warn rest true hw s _ rfl rfl)
    · rw [workAct, workInp_of_failed .warn cls rest (.inr ⟨ha, rfl⟩) hans]
      exact congrArg Except.ok (resume_of_warn rest false hw s _ rfl rfl)
  · obtain ⟨ha, hw⟩ | ⟨ha, hw⟩ := ha
    · rw [workAct_ill_of_failed .warn m rest (.inl ⟨ha, rfl⟩) hill hans]
      exact congrArg Except.ok (resume_of_warn rest true hw s _ rfl rfl)
    · rw [workAct_ill_of_failed .warn m rest (.inr ⟨ha, rfl⟩) hill hans]
      exact congrArg Except.ok (resume_of_warn rest false hw s _ rfl rfl)
  · refine ⟨((s.log (.ill m (m.line s.cfg.illKw) s.cfg.illTimeoutMs .timeout)).setSts (s.push (.warning 0x11)).sts).setWork rest,
      congrArg Except.ok (?_ : resume rest (illMsg .warn m s) = _), rfl, rfl, rfl, rfl, rfl, rfl⟩
    rw [illMsg, illSend_of_absent m hill]
    exact resume_of_warn rest true rfl s _ rfl rfl
  · exact ⟨e.byte, e.event, congrArg Except.ok (returnIdle_eq s e), fun he => he ▸ ⟨rfl, rfl⟩, fun he => he ▸ ⟨rfl, rfl⟩,
      fun he => he ▸ ⟨rfl, rfl⟩⟩

end Sys2Proof.PlanEnds
end

section
/-! One step of the WORKER (R64): the transactions its actions make and what each action writes. -/

namespace Sys2Proof.WorkerSteps

open Sys2Proof.Machine Sys2Proof.Procedure Sys2Proof.WorkerLaws Sys2Proof.PlanEnds Sys2Proof.Turns

/-! ## The transactions of a worker step -/

/-- What a worker step makes: at most one transaction, the two readings of a settle wait, or the tick of a wait. -/
def OneStep (evs : List PortEvent) : Prop :=
  evs.length ≤ 1 ∨ (∃ t0 d u, evs = [.clk t0, .settled d u] ∧ (clockAdd t0 d).toNat ≤ u.toNat)
    ∨ ∃ t0 ms, evs = [.clk t0, .sleep ms]

/-- The ports after a worker step. -/
def MadeOne (p q : Ports) : Prop := ∃ evs, q.trace = evs.reverse ++ p.trace ∧ OneStep evs

theorem MadeOne.refl (p : Ports) : MadeOne p p := ⟨[], rfl, .inl (Nat.zero_le 1)⟩

theorem MadeOne.log (p : Ports) (e : PortEvent) : MadeOne p (p.log e) := ⟨[e], rfl, .inl (Nat.le_refl 1)⟩

section

variable {s t : State}

theorem madeOne_now (s : State) : MadeOne s.ports (now s).2.ports := .log _ _

theorem madeOne_settle (d : Nat) (s : State) : MadeOne s.ports (settleFor d s).ports :=
  ⟨[.clk s.nextClk, .settled d (clockMax (clockAdd s.nextClk d) (now s).2.nextClk)], rfl,
    .inr (.inl ⟨_, _, _, rfl, clockMax_le_left _ _⟩)⟩

theorem madeOne_recvReply (cls : Cls) (s : State) : MadeOne s.ports (recvReply cls s).2.ports := by
  have h : MadeOne s.ports (usbIn cls s).2.ports := .log _ _
  rw [recvReply]
  generalize usbIn cls s = x at h ⊢
  obtain ⟨b | - | -, t⟩ := x <;> exact h

theorem cmdEnd_ports (ctx : Ctx) (x : CmdOut × State) : (cmdEnd ctx x).st.ports = x.2.ports := by
  obtain ⟨- | - | -, t⟩ := x
  · rfl
  · exact PortHistory.onFailure_ports ctx true t
  · exact PortHistory.onFailure_ports ctx false t

theorem madeOne_illMsg (ctx : Ctx) (m : IllMsg) (s : State) : MadeOne s.ports (illMsg ctx m s).st.ports := by
  have h : MadeOne s.ports (illSend m s).2.ports := .log _ _
  rw [illMsg]
  generalize illSend m s = x at h ⊢
  obtain ⟨line | - | -, t⟩ := x
  · exact h
  · exact (PortHistory.onFailure_ports ctx true t).symm ▸ h
  · exact (PortHistory.onFailure_ports ctx false t).symm ▸ h

theorem madeOne_workOut (ctx : Ctx) (cls : Cls) (k : Nat) (rest : List WAct) (s : State) :
    MadeOne s.ports (workOut ctx cls k rest s).ports := by
  rw [workOut]
  split
  · exact .refl _
  · rename_i f _
    have h : MadeOne s.ports (usbOut f s).2.ports := .log _ _
    generalize usbOut f s = x at h ⊢
    obtain ⟨- | -, t⟩ := x
    · exact h
    · dsimp only
      rw [resumeCmd_ports, PortHistory.onFailure_ports]
      exact h

theorem madeOne_workInp (ctx : Ctx) (cls : Cls) (rest : List WAct) (s : State) :
    MadeOne s.ports (workInp ctx cls rest s).ports := by
  rw [workInp, resumeCmd_ports, cmdEnd_ports]
  exact madeOne_recvReply cls s

theorem madeOne_waitTick (t0 : U64) (d : Option Nat) (rest : List WAct) (s : State) :
    MadeOne s.ports (waitTick t0 d rest s).ports := by
  have hslept : ∀ ms, MadeOne s.ports ((now s).2.log (.sleep ms)).ports := fun ms =>
    ⟨[.clk s.nextClk, .sleep ms], rfl, .inr (.inr ⟨_, _, rfl⟩)⟩
  rcases hc : s.syn.cancel with - | -
  · cases d with
    | none => rw [waitTick_none s rest hc]; exact hslept _
    | some n =>
      rw [waitTick_of_not_cancel s rest hc]
      split
      · exact madeOne_now s
      · exact hslept _
  · rw [waitTick_of_cancel s rest hc]; exact .refl _

theorem cyclicSample_ports {last : Nat} {el : U64} {rest : List WAct} (h : cyclicSample last el rest s = .ok t) :
    t.ports = s.ports := by
  rw [cyclicSample] at h
  split at h
  · cases h
  · dsimp only at h
    split at h <;> cases h
    · exact push_ports _ _
    · split
      · rfl
      · exact push_ports _ _

/-- An action that stands before a port makes one transaction, or the two of a wait. -/
theorem workAct_madeOne {a : WAct} {rest : List WAct} (h : workAct a rest s = .ok t) : MadeOne s.ports t.ports := by
  by_cases hp : a.isPort = false
  · rw [(workAct_quiet a rest s t hp h).1]; exact .refl _
  cases a with
  | act ctx x =>
    cases x with
    | ill m => cases h; rw [resume_ports]; exact madeOne_illMsg ctx m s
    | settle d => cases h; exact madeOne_settle d s
    | _ => exact absurd rfl hp
  | out ctx cls k => cases h; exact madeOne_workOut ctx cls k rest s
  | inp ctx cls => cases h; exact madeOne_workInp ctx cls rest s
  | nowPlan | nowStep plan | waitStart d | waitRest d => cases h; exact madeOne_now s
  | waitTick t0 d => cases h; exact madeOne_waitTick t0 d rest s
  | cyclicPoll last =>
    have hports := cyclicSample_ports (s := (now s).2) h
    rw [hports]; exact madeOne_now s
  | extFirst | extNext => cases h; exact .log _ _
  | _ => exact absurd rfl hp

/-- The register accesses between two transactions make none. -/
theorem workerStep_madeOne (h : workerStep s = .ok t) : MadeOne s.ports t.ports := by
  rw [workerStep] at h
  split at h
  · cases h; exact .refl _
  · split at h
    · split at h
      · rename_i u hu
        rw [(runRegs_ports _ _ _ h).1]; exact workAct_madeOne hu
      · cases h
    · rw [(runRegs_ports _ _ _ h).1]; exact .refl _

/-! ## A turn of the WORKER -/

theorem step_of_worker_turn {ts : List Turn} (hturn : s.ports.turns = .worker :: ts) :
    step s = workerTurn (s.setPorts { s.ports with turns := ts }) := by
  rw [step, BlockReset.takeTurn_of_turns_eq_cons hturn, doTurn]

theorem workerTurn_of_ok (hactive : s.syn.planActive = true) (h : workerStep s = .ok t) : workerTurn s = .next t := by
  rw [workerTurn, if_pos hactive, h]

theorem workerStep_of_port {a : WAct} {rest : List WAct} {u : State} (hw : s.work = a :: rest) (hp : a.isPort = true)
    (hu : workAct a rest s = .ok u) : workerStep s = runRegs regBurst u := by
  rw [workerStep, hw]
  dsimp only
  rw [if_pos hp, hu]

theorem workerStep_of_quiet {a : WAct} {rest : List WAct} (hw : s.work = a :: rest) (hp : a.isPort = false) :
    workerStep s = runRegs regBurst s := by
  rw [workerStep, hw]
  exact if_neg (hp ▸ nofun)

theorem runRegs_of_port {a : WAct} {rest : List WAct} (n : Nat) (hw : s.work = a :: rest) (hp : a.isPort = true) :
    runRegs n s = .ok s := by
  cases n with
  | zero => rfl
  | succ n =>
    rw [runRegs, hw]
    exact if_pos hp

theorem runRegs_of_quiet {a : WAct} {rest : List WAct} {u : State} (n : Nat) (hw : s.work = a :: rest)
    (hp : a.isPort = false) (hu : workAct a rest s = .ok u) : runRegs (n + 1) s = runRegs n u := by
  rw [runRegs, hw]
  dsimp only
  rw [if_neg (hp ▸ nofun), hu]

end

/-! ## What the actions write -/

theorem light_eq (x : ChanBits) (ch : Chan) :
    x.light ch = ⟨x.a || decide (ch = .a), x.b || decide (ch = .b), x.c || decide (ch = .c), x.d || decide (ch = .d)⟩ := by
  cases ch <;> simp [ChanBits.light]

/-- After a Stop `SM` is Stopped unless it is Idle (R167). -/
theorem stopped_eq (s : State) (rest : List WAct) :
    resume rest (PAct.stopped.run .fault s) = { s with
      ses := { s.ses with sm := if s.ses.sm = .idle then .idle else .stopped }, work := rest } := by
  rw [PAct.run]
  split
  · rename_i h
    rw [← h]; rfl
  · rfl

/-- Settles O45. -/
theorem workerStepIsOneTransaction : Obligations.WorkerStepIsOneTransaction := by
  refine ⟨fun s t h => workerStep_madeOne h, fun s t u ts a rest hturn hactive hw => ⟨fun hp hu h => ?_, fun hp h => ?_⟩,
    fun s u n a rest hw => ⟨runRegs_of_port n hw, runRegs_of_quiet n hw⟩, fun s ctx k rest => ⟨rfl, rfl, rfl⟩,
    fun s ctx cls i f b rest outs ins => ⟨fun hf hans => ?_, fun hb hans => ?_⟩,
    fun s ctx m ch p line as rest => ⟨fun hill hans => ?_, rfl, ?_, rfl⟩,
    fun s ctx m b bs total e rest => ⟨?_, rfl, rfl, rfl, rfl, rfl, rfl, ?_⟩,
    fun s ctx e rest he => ⟨fun hv => ?_, fun hv h0 => ?_, fun hv h0 => ?_⟩,
    fun s ctx d rest => ⟨_, _, rfl, rfl, clockMax_le_left _ _, rfl⟩⟩
  · rw [step_of_worker_turn hturn]
    exact workerTurn_of_ok hactive ((workerStep_of_port (s := s.setPorts { s.ports with turns := ts }) hw hp hu).trans h)
  · rw [step_of_worker_turn hturn]
    exact workerTurn_of_ok hactive ((workerStep_of_quiet (s := s.setPorts { s.ports with turns := ts }) hw hp).trans h)
  · rw [workAct, workOut, hf]
    dsimp only
    rw [usbOut_of_answer f hans]; rfl
  · have hfit : fitReply (.reply b) = .reply b := congrArg InAns.reply (fitTo_self 64 b hb)
    rw [workAct, workInp, recvReply, usbIn_of_answer cls hans, hfit]
    cases ctx <;> rfl
  · rw [workAct, PAct.run, illMsg, illSend_of_answer m hill hans]
    · rfl
    all_goals exact nofun
  · rw [← light_eq]; rfl
  · exact congrArg Except.ok (stopped_eq s rest)
  · exact congrArg (fun t => Except.ok (t.setWork rest)) (push_spec s e).1
  · refine (congrArg (fun r => Except.ok (resume rest r)) (Framer.checkReply_of_noReply hv)).trans ?_
    exact congrArg (fun t => Except.ok (t.setWork rest)) (push_spec s _).1
  · exact congrArg (fun r => Except.ok (resume rest r)) (Framer.checkReply_of_errByte_eq_zero hv (he.symm.trans h0))
  · subst he
    exact congrArg (fun r => Except.ok (resume rest r)) (Framer.checkReply_of_errByte_ne_zero hv h0)

end Sys2Proof.WorkerSteps
end
